-- ==== Sys2Proof/Word.lean ====
section
/-! DEFINITION. The widths the manual names (R8): nibble, byte, word, 20-bit address, 36-bit accumulator. Only type names: every helper that does
arithmetic or takes bits apart stands in Decode.lean or under Machine/. -/

namespace Sys2Proof

/-- A 4-bit address extension field or MAC offset (R8, R55). -/
abbrev Nib := BitVec 4

/-- "There are 8 bits in a byte" (R8). -/
abbrev Byte := BitVec 8

/-- "16 bits in a word" (R8). -/
abbrev Word := BitVec 16

/-- A 20-bit effective address, or a register with its extension field (R70, R141). -/
abbrev Addr := BitVec 20

/-- A 32-bit long word or 32-bit signed fraction (R54, R77). -/
abbrev Long := BitVec 32

/-- Accumulator M: 36 bits (R51). -/
abbrev Acc36 := BitVec 36

end Sys2Proof
end

