-- ==== Sys2Proof/Syntax.lean ====
section
/-! DEFINITION. The instruction set as syntax: one constructor of `Instr` for each of the 261 mnemonics of spec/opcode_table.json, and for each set of addressing
modes (R118, R140) a type with exactly those modes, so that a term names an encoding the table has. Operand fields keep the manual's letters (R13, R105). -/

namespace Sys2Proof

/-- The index register, with its extension field, that an indexed mode names: XK:IX, YK:IY or ZK:IZ (R141). -/
inductive Idx where
  | x | y | z
  deriving DecidableEq, Repr

/-- Memory operand with modes IND8, IND16, EXT (R147, R148, R152). -/
inductive MemB where
  | ind8 (r : Idx) (ff : Byte)
  | ind16 (r : Idx) (gggg : Word)
  | ext (hhll : Word)
  deriving DecidableEq, Repr

/-- Memory operand with modes IND16, EXT (R148, R152). -/
inductive MemW where
  | ind16 (r : Idx) (gggg : Word)
  | ext (hhll : Word)
  deriving DecidableEq, Repr

/-- Memory operand with modes IND8, IND16, EXT and accumulator offset E,X E,Y E,Z (R147 to R152). -/
inductive MemE where
  | ind8 (r : Idx) (ff : Byte)
  | ind16 (r : Idx) (gggg : Word)
  | ext (hhll : Word)
  | eoff (r : Idx)
  deriving DecidableEq, Repr

/-- Byte operand of the A and B instructions: IMM8 or memory (R118, R145). -/
inductive Src8 where
  | imm8 (ii : Byte)
  | mem (m : MemE)
  deriving DecidableEq, Repr

/-- Word operand of the D instructions: IMM16 or memory (R118, R146). -/
inductive SrcD where
  | imm16 (jjkk : Word)
  | mem (m : MemE)
  deriving DecidableEq, Repr

/-- Word operand of ADDD: as the D instructions, and the sign-extended IMM8 (R108, R238). -/
inductive SrcDI where
  | imm8 (ii : Byte)
  | imm16 (jjkk : Word)
  | mem (m : MemE)
  deriving DecidableEq, Repr

/-- Word operand of the E instructions: IMM16 or memory (R118). -/
inductive SrcE where
  | imm16 (jjkk : Word)
  | mem (m : MemW)
  deriving DecidableEq, Repr

/-- Word operand of ADDE: as the E instructions, and the sign-extended IMM8 (R108, R239). -/
inductive SrcEI where
  | imm8 (ii : Byte)
  | imm16 (jjkk : Word)
  | mem (m : MemW)
  deriving DecidableEq, Repr

/-- Word operand of the compares and loads of IX, IY, IZ and SP: IMM16 or memory (R118). -/
inductive SrcX where
  | imm16 (jjkk : Word)
  | mem (m : MemB)
  deriving DecidableEq, Repr

/-- Immediate of AIX, AIY, AIZ, AIS: 8 or 16 bits, both signed (R145, R146). -/
inductive Imm where
  | imm8 (ii : Byte)
  | imm16 (jjkk : Word)
  deriving DecidableEq, Repr

/-- Target of JMP and JSR (R109): `z` is the 4-bit zero extension, `b` bits 19:16 and the word bits 15:0 of the address or of the 20-bit offset. -/
inductive JumpTarget where
  | ext20 (z b : Nib) (hhll : Word)
  | ind20 (r : Idx) (z b : Nib) (gggg : Word)
  deriving DecidableEq, Repr

/-- Operands of MOVB and MOVW (R206): the IXP operand is XK:IX, post-modified by the signed `ff`; the others are extended addresses. -/
inductive Move where
  | ixpToExt (ff : Byte) (hhll : Word)
  | extToIxp (ff : Byte) (hhll : Word)
  | extToExt (src dst : Word)
  deriving DecidableEq, Repr

/-- Memory byte and branch offset of BRCLR and BRSET (R445): 8-bit offset with IND8, 16-bit offset with IND16 and EXT. -/
inductive BitBranch where
  | ind8 (r : Idx) (ff rr : Byte)
  | ind16 (r : Idx) (gggg rrrr : Word)
  | ext (hhll rrrr : Word)
  deriving DecidableEq, Repr

/-- The 261 instructions: first those with operand fields, then the inherent ones, each group family by family. (Lean limits the position of a constructor
that carries data, so the inherent ones stand last.) -/
inductive Instr where
  -- data movement (41_data_movement.md)
  | ldaa (o : Src8)
  | ldab (o : Src8)
  | ldd (o : SrcD)
  | lde (o : SrcE)
  | lded (hhll : Word)
  | movb (o : Move)
  | movw (o : Move)
  | staa (m : MemE)
  | stab (m : MemE)
  | std (m : MemE)
  | ste (m : MemW)
  | sted (hhll : Word)
  -- arithmetic (42_arithmetic.md)
  | adca (o : Src8)
  | adcb (o : Src8)
  | adcd (o : SrcD)
  | adce (o : SrcE)
  | adda (o : Src8)
  | addb (o : Src8)
  | addd (o : SrcDI)
  | adde (o : SrcEI)
  | sbca (o : Src8)
  | sbcb (o : Src8)
  | sbcd (o : SrcD)
  | sbce (o : SrcE)
  | suba (o : Src8)
  | subb (o : Src8)
  | subd (o : SrcD)
  | sube (o : SrcE)
  | cmpa (o : Src8)
  | cmpb (o : Src8)
  | cpd (o : SrcD)
  | cpe (o : SrcE)
  | tst (m : MemB)
  | tstw (m : MemW)
  | dec (m : MemB)
  | decw (m : MemW)
  | inc (m : MemB)
  | incw (m : MemW)
  -- clear, complement, logic, bits, shifts (43_logic_bit_shift.md)
  | clr (m : MemB)
  | clrw (m : MemW)
  | com (m : MemB)
  | comw (m : MemW)
  | neg (m : MemB)
  | negw (m : MemW)
  | anda (o : Src8)
  | andb (o : Src8)
  | andd (o : SrcD)
  | ande (o : SrcE)
  | eora (o : Src8)
  | eorb (o : Src8)
  | eord (o : SrcD)
  | eore (o : SrcE)
  | oraa (o : Src8)
  | orab (o : Src8)
  | ord (o : SrcD)
  | ore (o : SrcE)
  | bita (o : Src8)
  | bitb (o : Src8)
  | bclr (mm : Byte) (m : MemB)
  | bclrw (mmmm : Word) (m : MemW)
  | bset (mm : Byte) (m : MemB)
  | bsetw (mmmm : Word) (m : MemW)
  | lsr (m : MemB)
  | lsrw (m : MemW)
  | asl (m : MemB)
  | aslw (m : MemW)
  | asr (m : MemB)
  | asrw (m : MemW)
  | rol (m : MemB)
  | rolw (m : MemW)
  | ror (m : MemB)
  | rorw (m : MemW)
  -- program control (44_program_control.md)
  | bra (rr : Byte)
  | brn (rr : Byte)
  | bcc (rr : Byte)
  | bcs (rr : Byte)
  | beq (rr : Byte)
  | bmi (rr : Byte)
  | bne (rr : Byte)
  | bpl (rr : Byte)
  | bvc (rr : Byte)
  | bvs (rr : Byte)
  | bhi (rr : Byte)
  | bls (rr : Byte)
  | bge (rr : Byte)
  | bgt (rr : Byte)
  | ble (rr : Byte)
  | blt (rr : Byte)
  | lbra (rrrr : Word)
  | lbrn (rrrr : Word)
  | lbcc (rrrr : Word)
  | lbcs (rrrr : Word)
  | lbeq (rrrr : Word)
  | lbev (rrrr : Word)
  | lbmi (rrrr : Word)
  | lbmv (rrrr : Word)
  | lbne (rrrr : Word)
  | lbpl (rrrr : Word)
  | lbvc (rrrr : Word)
  | lbvs (rrrr : Word)
  | lbhi (rrrr : Word)
  | lbls (rrrr : Word)
  | lbge (rrrr : Word)
  | lbgt (rrrr : Word)
  | lble (rrrr : Word)
  | lblt (rrrr : Word)
  | brclr (mm : Byte) (o : BitBranch)
  | brset (mm : Byte) (o : BitBranch)
  | jmp (t : JumpTarget)
  | bsr (rr : Byte)
  | jsr (t : JumpTarget)
  | lbsr (rrrr : Word)
  -- indexing and extension (45_index_extension.md)
  | aix (o : Imm)
  | aiy (o : Imm)
  | aiz (o : Imm)
  | cpx (o : SrcX)
  | cpy (o : SrcX)
  | cpz (o : SrcX)
  | ldx (o : SrcX)
  | ldy (o : SrcX)
  | ldz (o : SrcX)
  | stx (m : MemB)
  | sty (m : MemB)
  | stz (m : MemB)
  -- stacking and CCR (46_stack_ccr.md)
  | ais (o : Imm)
  | cps (o : SrcX)
  | lds (o : SrcX)
  | sts (m : MemB)
  | pshm (ii : Byte)
  | pulm (ii : Byte)
  | andp (jjkk : Word)
  | orp (jjkk : Word)
  -- DSP (47_dsp.md)
  | mac (xo yo : Nib)
  | rmac (xo yo : Nib)
  -- INHERENT INSTRUCTIONS (no operand field): data movement (41_data_movement.md)
  | tab
  | tba
  | tde
  | ted
  | xgab
  | xgde
  -- arithmetic (42_arithmetic.md)
  | aba
  | ade
  | sba
  | sde
  | daa
  | sxt
  | cba
  | tsta
  | tstb
  | tstd
  | tste
  | ediv
  | edivs
  | emul
  | emuls
  | fdiv
  | fmuls
  | idiv
  | mul
  | deca
  | decb
  | inca
  | incb
  -- clear, complement, logic, bits, shifts (43_logic_bit_shift.md)
  | clra
  | clrb
  | clrd
  | clre
  | coma
  | comb
  | comd
  | come
  | nega
  | negb
  | negd
  | nege
  | lsra
  | lsrb
  | lsrd
  | lsre
  | asla
  | aslb
  | asld
  | asle
  | asra
  | asrb
  | asrd
  | asre
  | rola
  | rolb
  | rold
  | role
  | rora
  | rorb
  | rord
  | rore
  -- program control (44_program_control.md)
  | rts
  | rti
  | swi
  -- indexing and extension (45_index_extension.md)
  | abx
  | aby
  | abz
  | adx
  | ady
  | adz
  | aex
  | aey
  | aez
  | tsx
  | tsy
  | tsz
  | txs
  | txy
  | txz
  | tys
  | tyx
  | tyz
  | tzs
  | tzx
  | tzy
  | xgdx
  | xgdy
  | xgdz
  | xgex
  | xgey
  | xgez
  | tbek
  | tbsk
  | tbxk
  | tbyk
  | tbzk
  | tekb
  | tskb
  | txkb
  | tykb
  | tzkb
  -- stacking and CCR (46_stack_ccr.md)
  | psha
  | pshb
  | pula
  | pulb
  | tap
  | tdp
  | tpa
  | tpd
  -- DSP (47_dsp.md)
  | ace
  | aced
  | aslm
  | asrm
  | clrm
  | ldhi
  | pshmac
  | pulmac
  | tdmsk
  | tedm
  | tem
  | tmer
  | tmet
  | tmxed
  -- stop, wait, null (48_stop_wait_null.md)
  | lpstop
  | wai
  | bgnd
  | nop
  deriving DecidableEq, Repr

end Sys2Proof
end

