-- ==== Sys2Proof/WellFormed.lean ====
section
/-! DEFINITION. The operand values the spec reserves (R115): the `z` nibble of JMP and JSR must be 0 and bit 7 of a PSHM or PULM mask must be 0. Every
other combination the syntax admits is an instruction with a meaning; the reserved ones are refused by name when executed (D10, D20). -/

namespace Sys2Proof

/-- R115 (b): the 4-bit zero extension of a 20-bit operand is zero. -/
def JumpTarget.wellFormed : JumpTarget → Bool
  | .ext20 z _ _ => z == 0#4
  | .ind20 _ z _ _ => z == 0#4

/-- R115 (a): bit 7 of a register mask is reserved. -/
def maskWellFormed (ii : Byte) : Bool := !ii.getLsbD 7

/-- The instruction has no reserved operand value (R115). -/
def Instr.wellFormed (i : Instr) : Bool :=
  match i with
  | .jmp t => t.wellFormed
  | .jsr t => t.wellFormed
  | .pshm ii => maskWellFormed ii
  | .pulm ii => maskWellFormed ii
  | _ => true

end Sys2Proof
end

