-- ==== Sys2Proof/Decode.lean ====
section
/-! DEFINITION. Decoding and encoding (30_encoding.md). The opcode map is written page by page as rules R110 to R113 draw it: a row (high nibble of the
opcode byte) is a list of sixteen cells (low nibble), `none` an unassigned cell (R114). Decoding looks at word 0 only to choose the instruction; words 1 and 2
are operand fields (R100). The encoder stands after the decoder and is written from the operand layouts of rule R106. -/

namespace Sys2Proof

/-! ## Words and bytes -/

/-- The byte at the lower address of a word: bits 15:8 (R76, R100). -/
def hiByte (w : Word) : Byte := w.extractLsb' 8 8

/-- The byte at the higher address of a word: bits 7:0 (R76, R107). -/
def loByte (w : Word) : Byte := w.extractLsb' 0 8

/-- The word whose byte at the lower address is `h` (R76). -/
def wordOf (h l : Byte) : Word := h ++ l

/-- Bits 7:4 of a byte: `z` of a 20-bit operand (R109), `xo` of MAC (R108). -/
def hiNib (b : Byte) : Nib := b.extractLsb' 4 4

/-- Bits 3:0 of a byte: address bits 19:16 of a 20-bit operand (R109), `yo` of MAC (R108). -/
def loNib (b : Byte) : Nib := b.extractLsb' 0 4

/-- Why no instruction is read from a list of bytes. -/
inductive DecodeError where
  /-- The first word matches no row of the opcode table (R114). -/
  | unassignedOpcode (w0 : Word)
  /-- The list ends inside the instruction, or holds less than one word. -/
  | truncated
  deriving DecidableEq, Repr

/-! ## Instruction lengths (R101, R106) -/

/-- Length in bytes of an instruction with this operand (R106). -/
def MemB.length : MemB → Nat
  | .ind8 _ _ => 2
  | .ind16 _ _ => 4
  | .ext _ => 4

/-- Length in bytes of an instruction with this operand alone (R106). -/
def MemW.length : MemW → Nat
  | .ind16 _ _ => 4
  | .ext _ => 4

/-- Length in bytes of an instruction with this operand (R106). -/
def MemE.length : MemE → Nat
  | .ind8 _ _ => 2
  | .ind16 _ _ => 4
  | .ext _ => 4
  | .eoff _ => 2

/-- Length in bytes of an instruction with this operand (R106). -/
def Src8.length : Src8 → Nat
  | .imm8 _ => 2
  | .mem m => m.length

/-- Length in bytes of an instruction with this operand (R106). -/
def SrcD.length : SrcD → Nat
  | .imm16 _ => 4
  | .mem m => m.length

/-- Length in bytes of an instruction with this operand (R106). -/
def SrcDI.length : SrcDI → Nat
  | .imm8 _ => 2
  | .imm16 _ => 4
  | .mem m => m.length

/-- Length in bytes of an instruction with this operand (R106). -/
def SrcE.length : SrcE → Nat
  | .imm16 _ => 4
  | .mem m => m.length

/-- Length in bytes of an instruction with this operand (R106). -/
def SrcEI.length : SrcEI → Nat
  | .imm8 _ => 2
  | .imm16 _ => 4
  | .mem m => m.length

/-- Length in bytes of an instruction with this operand (R106). -/
def SrcX.length : SrcX → Nat
  | .imm16 _ => 4
  | .mem m => m.length

/-- Length in bytes of an instruction with this operand (R106). -/
def Imm.length : Imm → Nat
  | .imm8 _ => 2
  | .imm16 _ => 4

/-- Length in bytes of a move (R106). -/
def Move.length : Move → Nat
  | .ixpToExt _ _ => 4
  | .extToIxp _ _ => 4
  | .extToExt _ _ => 6

/-- Length in bytes of a bit-condition branch (R445). -/
def BitBranch.length : BitBranch → Nat
  | .ind8 _ _ _ => 4
  | .ind16 _ _ _ => 6
  | .ext _ _ => 6

/-- The length of an instruction in bytes, `length_bytes` of the opcode table (R101). Every instruction not listed is one word. -/
def Instr.length : Instr → Nat
  | .ldaa o => o.length
  | .ldab o => o.length
  | .ldd o => o.length
  | .lde o => o.length
  | .lded _ => 4
  | .movb o => o.length
  | .movw o => o.length
  | .staa m => m.length
  | .stab m => m.length
  | .std m => m.length
  | .ste m => m.length
  | .sted _ => 4
  | .adca o => o.length
  | .adcb o => o.length
  | .adcd o => o.length
  | .adce o => o.length
  | .adda o => o.length
  | .addb o => o.length
  | .addd o => o.length
  | .adde o => o.length
  | .sbca o => o.length
  | .sbcb o => o.length
  | .sbcd o => o.length
  | .sbce o => o.length
  | .suba o => o.length
  | .subb o => o.length
  | .subd o => o.length
  | .sube o => o.length
  | .cmpa o => o.length
  | .cmpb o => o.length
  | .cpd o => o.length
  | .cpe o => o.length
  | .tst m => m.length
  | .tstw m => m.length
  | .dec m => m.length
  | .decw m => m.length
  | .inc m => m.length
  | .incw m => m.length
  | .clr m => m.length
  | .clrw m => m.length
  | .com m => m.length
  | .comw m => m.length
  | .neg m => m.length
  | .negw m => m.length
  | .anda o => o.length
  | .andb o => o.length
  | .andd o => o.length
  | .ande o => o.length
  | .eora o => o.length
  | .eorb o => o.length
  | .eord o => o.length
  | .eore o => o.length
  | .oraa o => o.length
  | .orab o => o.length
  | .ord o => o.length
  | .ore o => o.length
  | .bita o => o.length
  | .bitb o => o.length
  | .bclr _ _ => 4
  | .bclrw _ _ => 6
  | .bset _ _ => 4
  | .bsetw _ _ => 6
  | .lsr m => m.length
  | .lsrw m => m.length
  | .asl m => m.length
  | .aslw m => m.length
  | .asr m => m.length
  | .asrw m => m.length
  | .rol m => m.length
  | .rolw m => m.length
  | .ror m => m.length
  | .rorw m => m.length
  | .lbra _ => 4
  | .lbrn _ => 4
  | .lbcc _ => 4
  | .lbcs _ => 4
  | .lbeq _ => 4
  | .lbev _ => 4
  | .lbmi _ => 4
  | .lbmv _ => 4
  | .lbne _ => 4
  | .lbpl _ => 4
  | .lbvc _ => 4
  | .lbvs _ => 4
  | .lbhi _ => 4
  | .lbls _ => 4
  | .lbge _ => 4
  | .lbgt _ => 4
  | .lble _ => 4
  | .lblt _ => 4
  | .brclr _ o => o.length
  | .brset _ o => o.length
  | .jmp _ => 4
  | .jsr _ => 4
  | .lbsr _ => 4
  | .aix o => o.length
  | .aiy o => o.length
  | .aiz o => o.length
  | .cpx o => o.length
  | .cpy o => o.length
  | .cpz o => o.length
  | .ldx o => o.length
  | .ldy o => o.length
  | .ldz o => o.length
  | .stx m => m.length
  | .sty m => m.length
  | .stz m => m.length
  | .ais o => o.length
  | .cps o => o.length
  | .lds o => o.length
  | .sts m => m.length
  | .andp _ => 4
  | .orp _ => 4
  | _ => 2

/-! ## The opcode map -/

/-- Cells that hold an instruction each. -/
def cells (l : List Instr) : List (Option Instr) := l.map some

/-- The index register that rows 0, 1, 2 (or 4, 5, 6; 8, 9, A; C, D, E) of a page name (R104). -/
def rowIdx (hi : Nat) : Idx :=
  match hi % 4 with
  | 0 => .x
  | 1 => .y
  | _ => .z

/-- Columns 0 to 9 of rows 4 to 7: the accumulator A operations (R110 to R112). -/
def rowA (o : Src8) : List (Option Instr) :=
  cells [.suba o, .adda o, .sbca o, .adca o, .eora o, .ldaa o, .anda o, .oraa o, .cmpa o, .bita o]

/-- Columns 0 to 9 of rows C to F: the accumulator B operations (R110 to R112). -/
def rowB (o : Src8) : List (Option Instr) :=
  cells [.subb o, .addb o, .sbcb o, .adcb o, .eorb o, .ldab o, .andb o, .orab o, .cmpb o, .bitb o]

/-- Columns 0 to 8 of the accumulator D operations (R110, R112, R113). -/
def rowD (o : SrcD) (oi : SrcDI) : List (Option Instr) :=
  cells [.subd o, .addd oi, .sbcd o, .adcd o, .eord o, .ldd o, .andd o, .ord o, .cpd o]

/-- Columns 0 to 8 of the accumulator E operations (R113). -/
def rowE (o : SrcE) (oi : SrcEI) : List (Option Instr) :=
  cells [.sube o, .adde oi, .sbce o, .adce o, .eore o, .lde o, .ande o, .ore o, .cpe o]

/-- Columns C to F of the compare rows: CPX, CPY, CPZ, CPS. -/
def rowCp (o : SrcX) : List (Option Instr) := cells [.cpx o, .cpy o, .cpz o, .cps o]

/-- Columns C to F of the load rows: LDX, LDY, LDZ, LDS. -/
def rowLd (o : SrcX) : List (Option Instr) := cells [.ldx o, .ldy o, .ldz o, .lds o]

/-- Columns C to F of the store rows: STX, STY, STZ, STS. -/
def rowSt (m : MemB) : List (Option Instr) := cells [.stx m, .sty m, .stz m, .sts m]

/-- Rows 0 to 3: memory byte operations round the four cells 8 to B. -/
def rowMem8 (m : MemB) (mid : List (Option Instr)) : List (Option Instr) :=
  cells [.com m, .dec m, .neg m, .inc m, .asl m, .clr m, .tst m] ++ [none] ++ mid ++ cells [.rol m, .asr m, .ror m, .lsr m]

/-- Rows 0 to 3 of page $27: memory word operations; BCLRW and BSETW have a third word, the mask. -/
def rowMem16 (m : MemW) (mmmm : Word) : List (Option Instr) :=
  cells [.comw m, .decw m, .negw m, .incw m, .aslw m, .clrw m, .tstw m] ++ [none] ++ cells [.bclrw mmmm m, .bsetw mmmm m] ++ [none, none]
    ++ cells [.rolw m, .asrw m, .rorw m, .lsrw m]

/-- `n` unassigned cells. -/
def blanks (n : Nat) : List (Option Instr) := List.replicate n none

/-- Page 0, no prebyte (R110): row `hi`; `b` is bits 7:0 of word 0. -/
def page0Row (hi : Nat) (b : Byte) (w1 w2 : Word) : List (Option Instr) :=
  let r := rowIdx hi
  let jt : JumpTarget := .ind20 r (hiNib b) (loNib b) w1
  let je : JumpTarget := .ext20 (hiNib b) (loNib b) w1
  let bb : BitBranch := .ind8 r (hiByte w1) (loByte w1)
  match hi with
  | 0 | 1 | 2 =>
    rowMem8 (.ind8 r b) (cells [.bclr b (.ind16 r w1), .bset b (.ind16 r w1), .brclr b (.ind16 r w1 w2), .brset b (.ind16 r w1 w2)])
  | 3 =>
    cells [.movb (.ixpToExt b w1), .movw (.ixpToExt b w1), .movb (.extToIxp b w1), .movw (.extToIxp b w1), .pshm b, .pulm b, .bsr b] ++ [none]
      ++ cells [.bclr b (.ext w1), .bset b (.ext w1), .brclr b (.ext w1 w2), .brset b (.ext w1 w2), .aix (.imm8 b), .aiy (.imm8 b), .aiz (.imm8 b), .ais (.imm8 b)]
  | 4 | 5 | 6 => rowA (.mem (.ind8 r b)) ++ cells [.staa (.ind8 r b), .jmp jt] ++ rowCp (.mem (.ind8 r b))
  | 7 => rowA (.imm8 b) ++ cells [.jmp je, .mac (hiNib b) (loNib b), .adde (.imm8 b)] ++ blanks 3
  | 8 | 9 | 10 =>
    rowD (.mem (.ind8 r b)) (.mem (.ind8 r b)) ++ cells [.jsr jt, .std (.ind8 r b), .brset b bb] ++ rowSt (.ind8 r b)
  | 11 =>
    cells [.bra b, .brn b, .bhi b, .bls b, .bcc b, .bcs b, .bne b, .beq b, .bvc b, .bvs b, .bpl b, .bmi b, .bge b, .blt b, .bgt b, .ble b]
  | 12 | 13 | 14 => rowB (.mem (.ind8 r b)) ++ cells [.stab (.ind8 r b), .brclr b bb] ++ rowLd (.mem (.ind8 r b))
  | _ => rowB (.imm8 b) ++ cells [.jsr je, .rmac (hiNib b) (loNib b), .addd (.imm8 b)] ++ blanks 3

/-- Page $17 (R111): row `hi` of the opcode in bits 7:0 of word 0. -/
def page17Row (hi : Nat) (w1 : Word) : List (Option Instr) :=
  let r := rowIdx hi
  match hi with
  | 0 | 1 | 2 =>
    rowMem8 (.ind16 r w1) (cells [.bclr (hiByte w1) (.ind8 r (loByte w1)), .bset (hiByte w1) (.ind8 r (loByte w1))] ++ blanks 2)
  | 3 => rowMem8 (.ext w1) (blanks 4)
  | 4 | 5 | 6 => rowA (.mem (.ind16 r w1)) ++ cells [.staa (.ind16 r w1)] ++ blanks 1 ++ rowCp (.mem (.ind16 r w1))
  | 7 => rowA (.mem (.ext w1)) ++ cells [.staa (.ext w1)] ++ blanks 1 ++ rowCp (.mem (.ext w1))
  | 8 | 9 | 10 => blanks 12 ++ rowSt (.ind16 r w1)
  | 11 => blanks 12 ++ rowSt (.ext w1)
  | 12 | 13 | 14 => rowB (.mem (.ind16 r w1)) ++ cells [.stab (.ind16 r w1)] ++ blanks 1 ++ rowLd (.mem (.ind16 r w1))
  | _ => rowB (.mem (.ext w1)) ++ cells [.stab (.ext w1)] ++ blanks 1 ++ rowLd (.mem (.ext w1))

/-- Page $27 (R112): row `hi` of the opcode in bits 7:0 of word 0. -/
def page27Row (hi : Nat) (w1 w2 : Word) : List (Option Instr) :=
  let r := rowIdx hi
  match hi with
  | 0 | 1 | 2 => rowMem16 (.ind16 r w1) w2
  | 3 => rowMem16 (.ext w1) w2
  | 4 => rowA (.mem (.eoff r)) ++ cells [.staa (.eoff r)] ++ blanks 1 ++ cells [.nop, .tyx, .tzx, .tsx]
  | 5 => rowA (.mem (.eoff r)) ++ cells [.staa (.eoff r)] ++ blanks 1 ++ cells [.txy] ++ blanks 1 ++ cells [.tzy, .tsy]
  | 6 => rowA (.mem (.eoff r)) ++ cells [.staa (.eoff r)] ++ blanks 1 ++ cells [.txz, .tyz] ++ blanks 1 ++ cells [.tsz]
  | 7 =>
    cells [.come, .lded w1, .nege, .sted w1, .asle, .clre, .tste, .rti, .ade, .sde, .xgde, .tde, .role, .asre, .rore, .lsre]
  | 8 | 9 | 10 => rowD (.mem (.eoff r)) (.mem (.eoff r)) ++ blanks 1 ++ cells [.std (.eoff r)] ++ blanks 5
  | 11 =>
    cells [.ldhi, .tedm, .tem, .tmxed, .tmer, .tmet, .aslm, .clrm, .pshmac, .pulmac, .asrm, .tekb] ++ blanks 4
  | 12 | 13 | 14 => rowB (.mem (.eoff r)) ++ cells [.stab (.eoff r)] ++ blanks 5
  | _ =>
    cells [.comd, .lpstop, .negd, .wai, .asld, .clrd, .tstd, .rts, .sxt, .lbsr w1, .tbek, .ted, .rold, .asrd, .rord, .lsrd]

/-- Page $37 (R113): row `hi` of the opcode in bits 7:0 of word 0. -/
def page37Row (hi : Nat) (w1 w2 : Word) : List (Option Instr) :=
  let r := rowIdx hi
  match hi with
  | 0 =>
    cells [.coma, .deca, .nega, .inca, .asla, .clra, .tsta, .tba, .psha, .pula, .sba, .aba, .rola, .asra, .rora, .lsra]
  | 1 =>
    cells [.comb, .decb, .negb, .incb, .aslb, .clrb, .tstb, .tab, .pshb, .pulb, .xgab, .cba, .rolb, .asrb, .rorb, .lsrb]
  | 2 =>
    cells [.swi, .daa, .ace, .aced, .mul, .emul, .emuls, .fmuls, .ediv, .edivs, .idiv, .fdiv, .tpd, .tdp] ++ blanks 1 ++ cells [.tdmsk]
  | 3 =>
    rowE (.imm16 w1) (.imm16 w1) ++ blanks 1
      ++ cells [.andp w1, .orp w1, .aix (.imm16 w1), .aiy (.imm16 w1), .aiz (.imm16 w1), .ais (.imm16 w1)]
  | 4 => rowE (.mem (.ind16 r w1)) (.mem (.ind16 r w1)) ++ blanks 1 ++ cells [.ste (.ind16 r w1)] ++ blanks 1 ++ cells [.xgex, .aex, .txs, .abx]
  | 5 => rowE (.mem (.ind16 r w1)) (.mem (.ind16 r w1)) ++ blanks 1 ++ cells [.ste (.ind16 r w1)] ++ blanks 1 ++ cells [.xgey, .aey, .tys, .aby]
  | 6 => rowE (.mem (.ind16 r w1)) (.mem (.ind16 r w1)) ++ blanks 1 ++ cells [.ste (.ind16 r w1)] ++ blanks 1 ++ cells [.xgez, .aez, .tzs, .abz]
  | 7 => rowE (.mem (.ext w1)) (.mem (.ext w1)) ++ blanks 1 ++ cells [.ste (.ext w1)] ++ blanks 1 ++ rowCp (.imm16 w1)
  | 8 =>
    cells [.lbra w1, .lbrn w1, .lbhi w1, .lbls w1, .lbcc w1, .lbcs w1, .lbne w1, .lbeq w1, .lbvc w1, .lbvs w1, .lbpl w1, .lbmi w1, .lbge w1, .lblt w1,
      .lbgt w1, .lble w1]
  | 9 => cells [.lbmv w1, .lbev w1] ++ blanks 10 ++ cells [.tbxk, .tbyk, .tbzk, .tbsk]
  | 10 => blanks 6 ++ cells [.bgnd] ++ blanks 5 ++ cells [.txkb, .tykb, .tzkb, .tskb]
  | 11 => rowD (.imm16 w1) (.imm16 w1) ++ blanks 3 ++ rowLd (.imm16 w1)
  | 12 => rowD (.mem (.ind16 r w1)) (.mem (.ind16 r w1)) ++ blanks 1 ++ cells [.std (.ind16 r w1)] ++ blanks 1 ++ cells [.xgdx, .adx] ++ blanks 2
  | 13 => rowD (.mem (.ind16 r w1)) (.mem (.ind16 r w1)) ++ blanks 1 ++ cells [.std (.ind16 r w1)] ++ blanks 1 ++ cells [.xgdy, .ady] ++ blanks 2
  | 14 => rowD (.mem (.ind16 r w1)) (.mem (.ind16 r w1)) ++ blanks 1 ++ cells [.std (.ind16 r w1)] ++ blanks 1 ++ cells [.xgdz, .adz] ++ blanks 2
  | _ => rowD (.mem (.ext w1)) (.mem (.ext w1)) ++ blanks 1 ++ cells [.std (.ext w1)] ++ blanks 1 ++ cells [.tpa, .tap, .movb (.extToExt w1 w2), .movw (.extToExt w1 w2)]

/-! ## Decoding -/

/-- The instruction whose opcode byte (or prebyte and opcode) is word 0, with its operand fields taken from all three words; `none` for an unassigned
opcode (R100, R102, R114). -/
def decodeOp (w0 w1 w2 : Word) : Option Instr :=
  let op := hiByte w0
  let b := loByte w0
  let row (page : Nat → List (Option Instr)) (o : Byte) : Option Instr := ((page (hiNib o).toNat)[(loNib o).toNat]?).join
  if op = 0x17#8 then row (fun hi => page17Row hi w1) b
  else if op = 0x27#8 then row (fun hi => page27Row hi w1 w2) b
  else if op = 0x37#8 then row (fun hi => page37Row hi w1 w2) b
  else row (fun hi => page0Row hi b w1 w2) op

/-- The instruction at the front of a list of words and its length in words; words past the end of the list are not needed when the instruction does not
have them (R100, R101). -/
def decodeWords : List Word → Except DecodeError (Instr × List Word)
  | [] => .error .truncated
  | w0 :: rest =>
    match decodeOp w0 0 0 with
    | none => .error (.unassignedOpcode w0)
    | some i =>
      match i.length, rest with
      | 2, _ => .ok (i, rest)
      | 4, w1 :: rest' =>
        match decodeOp w0 w1 0 with
        | some j => .ok (j, rest')
        | none => .error (.unassignedOpcode w0)
      | 6, w1 :: w2 :: rest' =>
        match decodeOp w0 w1 w2 with
        | some j => .ok (j, rest')
        | none => .error (.unassignedOpcode w0)
      | _, _ => .error .truncated

/-- Bytes in memory order as words, the byte at the lower address first (R76, R86); an odd last byte is no word. -/
def wordsOfBytes : List Byte → List Word
  | h :: l :: rest => wordOf h l :: wordsOfBytes rest
  | _ => []

/-- Words as bytes in memory order (R76). -/
def bytesOfWords : List Word → List Byte
  | [] => []
  | w :: rest => hiByte w :: loByte w :: bytesOfWords rest

/-- Total decoding of any list of bytes: an instruction and the words after it, or the name of what is wrong. -/
def decodeBytes (bs : List Byte) : Except DecodeError (Instr × List Word) := decodeWords (wordsOfBytes bs)

/-- The first three words of an instruction whose bits are `w`, numbered as the opcode table numbers them: bit 0 is bit 0 of the first word, bits 31:16
are the second word, bits 47:32 the third; bits at or above `nbits` are 0. -/
def tableWords (nbits w : Nat) : List Word :=
  let v := w % 2 ^ nbits
  [BitVec.ofNat 16 v, BitVec.ofNat 16 (v / 2 ^ 16), BitVec.ofNat 16 (v / 2 ^ 32)]

/-- What the decoder reads from those words, laid out in memory order. -/
def decodeTableWord (nbits w : Nat) : Option Instr :=
  match decodeBytes (bytesOfWords (tableWords nbits w)) with
  | .ok (i, _) => some i
  | .error _ => none

/-! ## Encoding (R106) -/

/-- The opcode byte of the Y and Z variants is the X variant's plus $10 and $20 (R104 (a)). -/
def opIdx (op : Byte) : Idx → Byte
  | .x => op
  | .y => op + 0x10
  | .z => op + 0x20

/-- INH: prebyte and opcode. -/
def encInh (pp op : Byte) : List Word := [wordOf pp op]

/-- IND8 on page 0, IND16 and EXT on page $17 (memory bytes; STX to STS). -/
def encMemB (op : Byte) : MemB → List Word
  | .ind8 r ff => [wordOf (opIdx op r) ff]
  | .ind16 r g => [wordOf 0x17 (opIdx op r), g]
  | .ext a => [wordOf 0x17 (op + 0x30), a]

/-- IND16 and EXT on page `pp`. -/
def encMemW (pp op : Byte) : MemW → List Word
  | .ind16 r g => [wordOf pp (opIdx op r), g]
  | .ext a => [wordOf pp (op + 0x30), a]

/-- IND8 on page 0 and E-offset on page $27 with opcode `op`; IND16 and EXT on page `pp` with opcode `op16`. -/
def encMemE (op pp op16 : Byte) : MemE → List Word
  | .ind8 r ff => [wordOf (opIdx op r) ff]
  | .ind16 r g => [wordOf pp (opIdx op16 r), g]
  | .ext a => [wordOf pp (op16 + 0x30), a]
  | .eoff r => [wordOf 0x27 (opIdx op r)]

/-- Accumulator A and B operations: memory modes on pages 0, $17 and $27; IMM8 on page 0 in the fourth row. -/
def encSrc8 (op : Byte) : Src8 → List Word
  | .imm8 ii => [wordOf (op + 0x30) ii]
  | .mem m => encMemE op 0x17 op m

/-- Accumulator D operations: IMM16, IND16 and EXT on page $37. -/
def encSrcD (op : Byte) : SrcD → List Word
  | .imm16 w => [wordOf 0x37 (op + 0x30), w]
  | .mem m => encMemE op 0x37 (op + 0x40) m

/-- ADDD: as the D operations, and IMM8 with opcode `op8`. -/
def encSrcDI (op op8 : Byte) : SrcDI → List Word
  | .imm8 ii => [wordOf op8 ii]
  | .imm16 w => encSrcD op (.imm16 w)
  | .mem m => encSrcD op (.mem m)

/-- Accumulator E operations on page $37: IMM16 one row above the IND16 rows. -/
def encSrcE (op : Byte) : SrcE → List Word
  | .imm16 w => [wordOf 0x37 (op - 0x10), w]
  | .mem m => encMemW 0x37 op m

/-- ADDE: as the E operations, and IMM8 with opcode `op8`. -/
def encSrcEI (op op8 : Byte) : SrcEI → List Word
  | .imm8 ii => [wordOf op8 ii]
  | .imm16 w => encSrcE op (.imm16 w)
  | .mem m => encSrcE op (.mem m)

/-- Compares and loads of IX, IY, IZ, SP: IMM16 on page $37 with opcode `op16`. -/
def encSrcX (op op16 : Byte) : SrcX → List Word
  | .imm16 w => [wordOf 0x37 op16, w]
  | .mem m => encMemB op m

/-- AIX, AIY, AIZ, AIS. -/
def encImm (op op16 : Byte) : Imm → List Word
  | .imm8 ii => [wordOf op ii]
  | .imm16 w => [wordOf 0x37 op16, w]

/-- BCLR and BSET: `mm gggg` and `mm hhll` on page 0; IND8 on page $17 as `mm ff`. -/
def encBits8 (op : Byte) (mm : Byte) : MemB → List Word
  | .ind8 r ff => [wordOf 0x17 (opIdx op r), wordOf mm ff]
  | .ind16 r g => [wordOf (opIdx op r) mm, g]
  | .ext a => [wordOf (op + 0x30) mm, a]

/-- BRCLR and BRSET. -/
def encBitBranch (op8 op16 : Byte) (mm : Byte) : BitBranch → List Word
  | .ind8 r ff rr => [wordOf (opIdx op8 r) mm, wordOf ff rr]
  | .ind16 r g rrrr => [wordOf (opIdx op16 r) mm, g, rrrr]
  | .ext a rrrr => [wordOf (op16 + 0x30) mm, a, rrrr]

/-- JMP and JSR: `z` and `b` in bits 7:0 of word 0 (R109). -/
def encJump (op opExt : Byte) : JumpTarget → List Word
  | .ext20 z b a => [wordOf opExt (z ++ b), a]
  | .ind20 r z b g => [wordOf (opIdx op r) (z ++ b), g]

/-- MOVB and MOVW. -/
def encMove (op1 op2 op3 : Byte) : Move → List Word
  | .ixpToExt ff a => [wordOf op1 ff, a]
  | .extToIxp ff a => [wordOf op2 ff, a]
  | .extToExt s d => [wordOf 0x37 op3, s, d]

/-- The words of an instruction. -/
def encode : Instr → List Word
  | .ldaa o => encSrc8 0x45 o
  | .ldab o => encSrc8 0xC5 o
  | .ldd o => encSrcD 0x85 o
  | .lde o => encSrcE 0x45 o
  | .lded hhll => [wordOf 0x27 0x71, hhll]
  | .movb o => encMove 0x30 0x32 0xFE o
  | .movw o => encMove 0x31 0x33 0xFF o
  | .staa m => encMemE 0x4A 0x17 0x4A m
  | .stab m => encMemE 0xCA 0x17 0xCA m
  | .std m => encMemE 0x8A 0x37 0xCA m
  | .ste m => encMemW 0x37 0x4A m
  | .sted hhll => [wordOf 0x27 0x73, hhll]
  | .tab => encInh 0x37 0x17
  | .tba => encInh 0x37 0x07
  | .tde => encInh 0x27 0x7B
  | .ted => encInh 0x27 0xFB
  | .xgab => encInh 0x37 0x1A
  | .xgde => encInh 0x27 0x7A
  | .aba => encInh 0x37 0x0B
  | .adca o => encSrc8 0x43 o
  | .adcb o => encSrc8 0xC3 o
  | .adcd o => encSrcD 0x83 o
  | .adce o => encSrcE 0x43 o
  | .adda o => encSrc8 0x41 o
  | .addb o => encSrc8 0xC1 o
  | .addd o => encSrcDI 0x81 0xFC o
  | .adde o => encSrcEI 0x41 0x7C o
  | .ade => encInh 0x27 0x78
  | .sba => encInh 0x37 0x0A
  | .sbca o => encSrc8 0x42 o
  | .sbcb o => encSrc8 0xC2 o
  | .sbcd o => encSrcD 0x82 o
  | .sbce o => encSrcE 0x42 o
  | .sde => encInh 0x27 0x79
  | .suba o => encSrc8 0x40 o
  | .subb o => encSrc8 0xC0 o
  | .subd o => encSrcD 0x80 o
  | .sube o => encSrcE 0x40 o
  | .daa => encInh 0x37 0x21
  | .sxt => encInh 0x27 0xF8
  | .cba => encInh 0x37 0x1B
  | .cmpa o => encSrc8 0x48 o
  | .cmpb o => encSrc8 0xC8 o
  | .cpd o => encSrcD 0x88 o
  | .cpe o => encSrcE 0x48 o
  | .tst m => encMemB 0x06 m
  | .tsta => encInh 0x37 0x06
  | .tstb => encInh 0x37 0x16
  | .tstd => encInh 0x27 0xF6
  | .tste => encInh 0x27 0x76
  | .tstw m => encMemW 0x27 0x06 m
  | .ediv => encInh 0x37 0x28
  | .edivs => encInh 0x37 0x29
  | .emul => encInh 0x37 0x25
  | .emuls => encInh 0x37 0x26
  | .fdiv => encInh 0x37 0x2B
  | .fmuls => encInh 0x37 0x27
  | .idiv => encInh 0x37 0x2A
  | .mul => encInh 0x37 0x24
  | .dec m => encMemB 0x01 m
  | .deca => encInh 0x37 0x01
  | .decb => encInh 0x37 0x11
  | .decw m => encMemW 0x27 0x01 m
  | .inc m => encMemB 0x03 m
  | .inca => encInh 0x37 0x03
  | .incb => encInh 0x37 0x13
  | .incw m => encMemW 0x27 0x03 m
  | .clr m => encMemB 0x05 m
  | .clra => encInh 0x37 0x05
  | .clrb => encInh 0x37 0x15
  | .clrd => encInh 0x27 0xF5
  | .clre => encInh 0x27 0x75
  | .clrw m => encMemW 0x27 0x05 m
  | .com m => encMemB 0x00 m
  | .coma => encInh 0x37 0x00
  | .comb => encInh 0x37 0x10
  | .comd => encInh 0x27 0xF0
  | .come => encInh 0x27 0x70
  | .comw m => encMemW 0x27 0x00 m
  | .neg m => encMemB 0x02 m
  | .nega => encInh 0x37 0x02
  | .negb => encInh 0x37 0x12
  | .negd => encInh 0x27 0xF2
  | .nege => encInh 0x27 0x72
  | .negw m => encMemW 0x27 0x02 m
  | .anda o => encSrc8 0x46 o
  | .andb o => encSrc8 0xC6 o
  | .andd o => encSrcD 0x86 o
  | .ande o => encSrcE 0x46 o
  | .eora o => encSrc8 0x44 o
  | .eorb o => encSrc8 0xC4 o
  | .eord o => encSrcD 0x84 o
  | .eore o => encSrcE 0x44 o
  | .oraa o => encSrc8 0x47 o
  | .orab o => encSrc8 0xC7 o
  | .ord o => encSrcD 0x87 o
  | .ore o => encSrcE 0x47 o
  | .bita o => encSrc8 0x49 o
  | .bitb o => encSrc8 0xC9 o
  | .bclr mm m => encBits8 0x08 mm m
  | .bclrw mmmm m => encMemW 0x27 0x08 m ++ [mmmm]
  | .bset mm m => encBits8 0x09 mm m
  | .bsetw mmmm m => encMemW 0x27 0x09 m ++ [mmmm]
  | .lsr m => encMemB 0x0F m
  | .lsra => encInh 0x37 0x0F
  | .lsrb => encInh 0x37 0x1F
  | .lsrd => encInh 0x27 0xFF
  | .lsre => encInh 0x27 0x7F
  | .lsrw m => encMemW 0x27 0x0F m
  | .asl m => encMemB 0x04 m
  | .asla => encInh 0x37 0x04
  | .aslb => encInh 0x37 0x14
  | .asld => encInh 0x27 0xF4
  | .asle => encInh 0x27 0x74
  | .aslw m => encMemW 0x27 0x04 m
  | .asr m => encMemB 0x0D m
  | .asra => encInh 0x37 0x0D
  | .asrb => encInh 0x37 0x1D
  | .asrd => encInh 0x27 0xFD
  | .asre => encInh 0x27 0x7D
  | .asrw m => encMemW 0x27 0x0D m
  | .rol m => encMemB 0x0C m
  | .rola => encInh 0x37 0x0C
  | .rolb => encInh 0x37 0x1C
  | .rold => encInh 0x27 0xFC
  | .role => encInh 0x27 0x7C
  | .rolw m => encMemW 0x27 0x0C m
  | .ror m => encMemB 0x0E m
  | .rora => encInh 0x37 0x0E
  | .rorb => encInh 0x37 0x1E
  | .rord => encInh 0x27 0xFE
  | .rore => encInh 0x27 0x7E
  | .rorw m => encMemW 0x27 0x0E m
  | .bra rr => [wordOf 0xB0 rr]
  | .brn rr => [wordOf 0xB1 rr]
  | .bcc rr => [wordOf 0xB4 rr]
  | .bcs rr => [wordOf 0xB5 rr]
  | .beq rr => [wordOf 0xB7 rr]
  | .bmi rr => [wordOf 0xBB rr]
  | .bne rr => [wordOf 0xB6 rr]
  | .bpl rr => [wordOf 0xBA rr]
  | .bvc rr => [wordOf 0xB8 rr]
  | .bvs rr => [wordOf 0xB9 rr]
  | .bhi rr => [wordOf 0xB2 rr]
  | .bls rr => [wordOf 0xB3 rr]
  | .bge rr => [wordOf 0xBC rr]
  | .bgt rr => [wordOf 0xBE rr]
  | .ble rr => [wordOf 0xBF rr]
  | .blt rr => [wordOf 0xBD rr]
  | .lbra rrrr => [wordOf 0x37 0x80, rrrr]
  | .lbrn rrrr => [wordOf 0x37 0x81, rrrr]
  | .lbcc rrrr => [wordOf 0x37 0x84, rrrr]
  | .lbcs rrrr => [wordOf 0x37 0x85, rrrr]
  | .lbeq rrrr => [wordOf 0x37 0x87, rrrr]
  | .lbev rrrr => [wordOf 0x37 0x91, rrrr]
  | .lbmi rrrr => [wordOf 0x37 0x8B, rrrr]
  | .lbmv rrrr => [wordOf 0x37 0x90, rrrr]
  | .lbne rrrr => [wordOf 0x37 0x86, rrrr]
  | .lbpl rrrr => [wordOf 0x37 0x8A, rrrr]
  | .lbvc rrrr => [wordOf 0x37 0x88, rrrr]
  | .lbvs rrrr => [wordOf 0x37 0x89, rrrr]
  | .lbhi rrrr => [wordOf 0x37 0x82, rrrr]
  | .lbls rrrr => [wordOf 0x37 0x83, rrrr]
  | .lbge rrrr => [wordOf 0x37 0x8C, rrrr]
  | .lbgt rrrr => [wordOf 0x37 0x8E, rrrr]
  | .lble rrrr => [wordOf 0x37 0x8F, rrrr]
  | .lblt rrrr => [wordOf 0x37 0x8D, rrrr]
  | .brclr mm o => encBitBranch 0xCB 0x0A mm o
  | .brset mm o => encBitBranch 0x8B 0x0B mm o
  | .jmp t => encJump 0x4B 0x7A t
  | .bsr rr => [wordOf 0x36 rr]
  | .jsr t => encJump 0x89 0xFA t
  | .lbsr rrrr => [wordOf 0x27 0xF9, rrrr]
  | .rts => encInh 0x27 0xF7
  | .rti => encInh 0x27 0x77
  | .swi => encInh 0x37 0x20
  | .abx => encInh 0x37 0x4F
  | .aby => encInh 0x37 0x5F
  | .abz => encInh 0x37 0x6F
  | .adx => encInh 0x37 0xCD
  | .ady => encInh 0x37 0xDD
  | .adz => encInh 0x37 0xED
  | .aex => encInh 0x37 0x4D
  | .aey => encInh 0x37 0x5D
  | .aez => encInh 0x37 0x6D
  | .aix o => encImm 0x3C 0x3C o
  | .aiy o => encImm 0x3D 0x3D o
  | .aiz o => encImm 0x3E 0x3E o
  | .cpx o => encSrcX 0x4C 0x7C o
  | .cpy o => encSrcX 0x4D 0x7D o
  | .cpz o => encSrcX 0x4E 0x7E o
  | .ldx o => encSrcX 0xCC 0xBC o
  | .ldy o => encSrcX 0xCD 0xBD o
  | .ldz o => encSrcX 0xCE 0xBE o
  | .stx m => encMemB 0x8C m
  | .sty m => encMemB 0x8D m
  | .stz m => encMemB 0x8E m
  | .tsx => encInh 0x27 0x4F
  | .tsy => encInh 0x27 0x5F
  | .tsz => encInh 0x27 0x6F
  | .txs => encInh 0x37 0x4E
  | .txy => encInh 0x27 0x5C
  | .txz => encInh 0x27 0x6C
  | .tys => encInh 0x37 0x5E
  | .tyx => encInh 0x27 0x4D
  | .tyz => encInh 0x27 0x6D
  | .tzs => encInh 0x37 0x6E
  | .tzx => encInh 0x27 0x4E
  | .tzy => encInh 0x27 0x5E
  | .xgdx => encInh 0x37 0xCC
  | .xgdy => encInh 0x37 0xDC
  | .xgdz => encInh 0x37 0xEC
  | .xgex => encInh 0x37 0x4C
  | .xgey => encInh 0x37 0x5C
  | .xgez => encInh 0x37 0x6C
  | .tbek => encInh 0x27 0xFA
  | .tbsk => encInh 0x37 0x9F
  | .tbxk => encInh 0x37 0x9C
  | .tbyk => encInh 0x37 0x9D
  | .tbzk => encInh 0x37 0x9E
  | .tekb => encInh 0x27 0xBB
  | .tskb => encInh 0x37 0xAF
  | .txkb => encInh 0x37 0xAC
  | .tykb => encInh 0x37 0xAD
  | .tzkb => encInh 0x37 0xAE
  | .ais o => encImm 0x3F 0x3F o
  | .cps o => encSrcX 0x4F 0x7F o
  | .lds o => encSrcX 0xCF 0xBF o
  | .sts m => encMemB 0x8F m
  | .psha => encInh 0x37 0x08
  | .pshb => encInh 0x37 0x18
  | .pshm ii => [wordOf 0x34 ii]
  | .pula => encInh 0x37 0x09
  | .pulb => encInh 0x37 0x19
  | .pulm ii => [wordOf 0x35 ii]
  | .andp jjkk => [wordOf 0x37 0x3A, jjkk]
  | .orp jjkk => [wordOf 0x37 0x3B, jjkk]
  | .tap => encInh 0x37 0xFD
  | .tdp => encInh 0x37 0x2D
  | .tpa => encInh 0x37 0xFC
  | .tpd => encInh 0x37 0x2C
  | .ace => encInh 0x37 0x22
  | .aced => encInh 0x37 0x23
  | .aslm => encInh 0x27 0xB6
  | .asrm => encInh 0x27 0xBA
  | .clrm => encInh 0x27 0xB7
  | .ldhi => encInh 0x27 0xB0
  | .mac xo yo => [wordOf 0x7B (xo ++ yo)]
  | .pshmac => encInh 0x27 0xB8
  | .pulmac => encInh 0x27 0xB9
  | .rmac xo yo => [wordOf 0xFB (xo ++ yo)]
  | .tdmsk => encInh 0x37 0x2F
  | .tedm => encInh 0x27 0xB1
  | .tem => encInh 0x27 0xB2
  | .tmer => encInh 0x27 0xB4
  | .tmet => encInh 0x27 0xB5
  | .tmxed => encInh 0x27 0xB3
  | .lpstop => encInh 0x27 0xF1
  | .wai => encInh 0x27 0xF3
  | .bgnd => encInh 0x37 0xA6
  | .nop => encInh 0x27 0x4C

/-- The bytes of an instruction in memory order. -/
def encodeBytes (i : Instr) : List Byte := bytesOfWords (encode i)

end Sys2Proof
end

