-- ==== Sys2Proof/Config.lean ====
section
/-! DEFINITION. What the spec leaves open and no state can hold: the free values and the address formulas of MAC_QUALIFY other than the spec's default, opaque, so
that nothing can be proved of one. The parameters of rule R9 themselves stand in State (Machine/Parts.lean, `Platform`). -/

namespace Sys2Proof

/-- The free values (92: "a draw"): the n-th draw of the machine, of which a use takes the low bits it needs. State counts the draws, so two draws of
one run are unrelated. NO BODY: no proof can know a value. Log entry 4. -/
opaque Config.freeBits (n : Nat) : BitVec 36

/-- The formulas a platform may name for MAC_QUALIFY (R9, R560 (e)) other than the spec's default: the n-th one, from the index register, the 4-bit offset and the
8-bit mask to the index register. NO BODY: no proof can know one. Log entry 14. -/
opaque Config.macQualify (n : Nat) (r : Word) (off : Nib) (msk : Byte) : Word

end Sys2Proof
end

