-- ==== Sys2Proof/Machine/Parts.lean ====
section
/-! DEFINITION. The parts State is made of: the condition code register, the run states, the memory map and the platform parameters, with their values at reset
(10_state.md; 92_eei_decisions.md section 2). -/

namespace Sys2Proof.Machine

/-- CCR[15:4] (R28): the flags S, MV, H, EV, N, Z, V, C, the interrupt priority field IP and the saturation mode bit SM. CCR[3:0] is PK, which is not
stored: it is bits 19:16 of a value derived from `pc` (R31). -/
structure CCR where
  s : Bool
  mv : Bool
  h : Bool
  ev : Bool
  n : Bool
  z : Bool
  v : Bool
  c : Bool
  ip : BitVec 3
  sm : Bool
  deriving DecidableEq, Repr

/-- The run states (R58, R589). -/
inductive Run where
  /-- Executing instructions. -/
  | running
  /-- After WAI (R591). -/
  | waiting
  /-- After LPSTOP with S = 0 (R590). -/
  | stopped
  /-- Background debug mode (R592, R631): left only by reset. -/
  | background
  /-- After a bus error inside exception processing (R624): left only by reset. -/
  | halted
  deriving DecidableEq, Repr

/-- The two address spaces that hold bytes (R71). CPU space holds none: its cycles are events. -/
inductive Space where
  | prog
  | data
  deriving DecidableEq, Repr

/-- What stands at an address (R96). -/
inductive Kind where
  /-- Reads return the last value written; writes store. -/
  | ram
  /-- Reads return a fixed value; a write is an event and changes nothing. -/
  | rom
  /-- Every access is an event, answered from `replies`. -/
  | device
  /-- Nothing answers: every access ends in a bus error (R97). -/
  | unmapped
  /-- Nothing answers, and the platform ends the cycle all the same: a read gives an arbitrary value, a write has no effect (R96). -/
  | openBus
  deriving DecidableEq, Repr

/-- One region of the memory map (R96): `size` bytes from `base` in one space. -/
structure Region where
  space : Space
  base : Nat
  size : Nat
  kind : Kind
  deriving DecidableEq, Repr

/-- A place in a list of words: bits from `lo` up of the word with number `word`. -/
structure Slot where
  word : Nat
  lo : Nat
  deriving DecidableEq, Repr

/-- RESET_LAYOUT (R9, R650): where in the four RESET words each register stands. -/
structure ResetLayout where
  zk : Slot
  sk : Slot
  pk : Slot
  pc : Slot
  sp : Slot
  iz : Slot
  deriving DecidableEq, Repr

/-- The spec's default of RESET_LAYOUT: `0000 ZK SK PK`, PC, SP, IZ (PRESUMED, log entry 3). -/
def ResetLayout.default : ResetLayout := { zk := ⟨0, 8⟩, sk := ⟨0, 4⟩, pk := ⟨0, 0⟩, pc := ⟨1, 0⟩, sp := ⟨2, 0⟩, iz := ⟨3, 0⟩ }

/-- MAC_FRAME (R9, R568): how many words PSHMAC pushes, numbered in the order they are pushed, and where in them each register stands; AM stands in three pieces,
AM[15:0], AM[31:16] and AM[35:32]. -/
structure MacFrame where
  words : Nat
  hr : Slot
  ir : Slot
  amLow : Slot
  amMid : Slot
  amHigh : Slot
  sl : Slot
  xmsk : Slot
  ymsk : Slot
  deriving DecidableEq, Repr

/-- The spec's default of MAC_FRAME: HR, IR, AM[15:0], AM[31:16], `SL 00000000000 AM[35:32]`, `XMSK YMSK` (PRESUMED, log entry 14). -/
def MacFrame.default : MacFrame :=
  { words := 6, hr := ⟨0, 0⟩, ir := ⟨1, 0⟩, amLow := ⟨2, 0⟩, amMid := ⟨3, 0⟩, amHigh := ⟨4, 0⟩, sl := ⟨4, 15⟩, xmsk := ⟨5, 8⟩, ymsk := ⟨5, 0⟩ }

/-- MAC_QUALIFY (R9, R560 (e)): a function, and State holds none, so its name. -/
inductive MacQualify where
  /-- The formula of R560 (e) (PRESUMED, log entry 14). -/
  | standard
  /-- The n-th of the formulas nothing is known of (`Config.macQualify`). -/
  | other (n : Nat)
  deriving DecidableEq, Repr

/-- The parameters the platform fixes (R9). No instruction changes one. -/
structure Platform where
  /-- SPLIT_SPACES (R72): program and data space are separate memories. -/
  splitSpaces : Bool
  /-- MemMap (R96): the first region that holds an address gives its kind; an address in none is RAM. -/
  regions : List Region
  /-- BDM_ENABLED (R592). -/
  bdmEnabled : Bool
  /-- BSR_BASE is 6 when set, else 4 (R439). -/
  bsrBaseSix : Bool
  /-- VEC_BKPT (R601). -/
  vecBkpt : Byte
  /-- VEC_BERR (R601). -/
  vecBerr : Byte
  /-- VEC_ILLEGAL (R601). -/
  vecIllegal : Byte
  /-- VEC_DIV0 (R601). -/
  vecDiv0 : Byte
  /-- VEC_UNINIT (R618). -/
  vecUninit : Byte
  /-- VEC_AUTO_BASE (R617). -/
  vecAutoBase : Byte
  /-- VEC_SPURIOUS (R618). -/
  vecSpurious : Byte
  /-- LEVEL7_NONMASKABLE (R612). -/
  level7NonMaskable : Bool
  /-- RMAC_INTERRUPTIBLE (R570). -/
  rmacInterruptible : Bool
  /-- RESET_LAYOUT (R650). -/
  resetLayout : ResetLayout
  /-- MAC_FRAME (R568). -/
  macFrame : MacFrame
  /-- MAC_QUALIFY (R560 (e)). -/
  macQualify : MacQualify
  deriving DecidableEq, Repr

/-- The defaults of the parameters (92, section 2). Vector numbers are PRESUMED (log entry 9). -/
def Platform.default : Platform :=
  { splitSpaces := false
    regions := []
    bdmEnabled := false
    bsrBaseSix := false
    vecBkpt := 4
    vecBerr := 5
    vecIllegal := 7
    vecDiv0 := 8
    vecUninit := 0x0F
    vecAutoBase := 0x10
    vecSpurious := 0x18
    level7NonMaskable := false
    rmacInterruptible := false
    resetLayout := .default
    macFrame := .default
    macQualify := .standard }

/-- CCR[15:4] after reset: IP = 7 (R60); S set and SM clear are the family's (PRESUMED, log entry 2); the flags are a DESIGN CHOICE (log entry 1). -/
def CCR.reset : CCR :=
  { s := true, mv := false, h := false, ev := false, n := false, z := false, v := false, c := false, ip := 7, sm := false }

end Sys2Proof.Machine
end

