-- ==== Sys2Proof/Machine/State.lean ====
section
/-! DEFINITION. The state of the machine as plain data (10_state.md): every register of Figure 3-1, the sign latch, the hidden state of rules R57 and R58, memory,
the platform parameters of rule R9, and the queues through which the outside world speaks to the core (R607). -/

namespace Sys2Proof.Machine

/-- What answers an interrupt acknowledge (R607 (c), R616 to R618). -/
inductive IackResult where
  /-- A module gives its vector number. -/
  | vector (n : Byte)
  /-- AVEC: the number is generated internally (R617). -/
  | autovector
  /-- No module answers (R618). -/
  | spurious
  /-- A module whose vector register was never written answers (R618). -/
  | uninitialized
  deriving DecidableEq, Repr

/-- A byte that another agent, a bus master, a device or the debug host, stores at an instruction boundary (R18, R99). -/
structure HostWrite where
  space : Space
  addr : Addr
  value : Byte
  deriving DecidableEq, Repr

/-- What the outside presents at one step (R607): the reset and breakpoint inputs, the highest requested interrupt level (0 for none), the answer
its acknowledge would get, and the bytes other agents have stored since the last boundary (R99), in order. -/
structure HostInput where
  reset : Bool
  bkpt : Bool
  irq : BitVec 3
  iack : IackResult
  writes : List HostWrite
  deriving DecidableEq, Repr

/-- How a device ends one access (R96, R607 (d)). A byte read takes the low byte of the data; a write ignores the data. -/
inductive DevReply where
  | data (v : Word)
  | busError
  deriving DecidableEq, Repr

/-- What the core has shown the outside world, in order. -/
inductive HostEvent where
  /-- LPSTOP's CPU-space broadcast of IP (R590). -/
  | lpstopBroadcast (ip : BitVec 3)
  /-- The interrupt acknowledge cycle of a level (R616). -/
  | interruptAcknowledge (level : BitVec 3)
  /-- A read cycle of a device, byte or word (R96). -/
  | deviceRead (space : Space) (a : Addr) (wide : Bool)
  /-- A write cycle of a device (R96). -/
  | deviceWrite (a : Addr) (wide : Bool) (v : Word)
  /-- A write cycle to ROM: its effect is the platform's (R96). -/
  | romWrite (a : Addr) (wide : Bool) (v : Word)
  deriving DecidableEq, Repr

/-- Memory: (address, byte) pairs. Data-space address `a` has key `a`; program-space address `a` has the same key, or `2^20 + a` when the spaces are
split (R72). Its canonical form is `Memory.wf` (Machine/Ops.lean). -/
abbrev Memory := List Host.Cell

/-- The whole state. -/
structure State where
  /-- Accumulator A (R21). -/
  a : Byte
  /-- Accumulator B (R21). -/
  b : Byte
  /-- Accumulator E (R22). -/
  e : Word
  /-- Index register X (R23). -/
  ix : Word
  /-- Index register Y (R23). -/
  iy : Word
  /-- Index register Z (R23). -/
  iz : Word
  /-- Stack pointer (R24). -/
  sp : Word
  /-- Extended addressing extension field (R26). -/
  ek : Nib
  /-- Extension field of IX (R26). -/
  xk : Nib
  /-- Extension field of IY (R26). -/
  yk : Nib
  /-- Extension field of IZ (R26). -/
  zk : Nib
  /-- Extension field of SP (R27). -/
  sk : Nib
  /-- PK : PC as the model keeps it (R30): the address of the next instruction; during an instruction, its own address A0. -/
  pc : Addr
  /-- CCR[15:4] (R28). -/
  ccr : CCR
  /-- MAC multiplier register H (R50). -/
  hr : Word
  /-- MAC multiplicand register I (R50). -/
  ir : Word
  /-- Accumulator M (R51). -/
  am : Acc36
  /-- Modulo addressing mask of IX (R52). -/
  xmsk : Byte
  /-- Modulo addressing mask of IY (R52). -/
  ymsk : Byte
  /-- Multiply and accumulate sign latch (R53). -/
  sl : Bool
  /-- Interrupt-inhibit latch (R57). -/
  inhibit : Bool
  /-- Run state (R58). -/
  run : Run
  /-- Memory (R70). -/
  mem : Memory
  /-- Platform parameters (R9). -/
  plat : Platform
  /-- Inputs still to come, one for each step; none left means quiet (R607). -/
  inputs : List HostInput
  /-- Replies of devices still to come, one for each device cycle (R96). -/
  replies : List DevReply
  /-- Events shown to the outside so far, oldest first. -/
  events : List HostEvent
  /-- MODEL'S OWN: the boundary the executing instruction began at held interrupts off, so that RMAC is not split either (R662). -/
  heldOff : Bool
  /-- MODEL'S OWN: how many free values have been drawn (Config.freeBits). -/
  draws : Nat
  deriving DecidableEq, Repr

/-- Why the machine stops with no behaviour. -/
inductive Fault where
  /-- Raised by `step` when `pc` is odd. The spec keeps bit 0 of PC zero (R25, R33), so this is no state of the machine; no instruction, exception or reset
  produces one. Safe. -/
  | oddProgramCounter
  deriving DecidableEq, Repr

/-- Why the model gives an instruction no meaning. -/
inductive Refusal where
  /-- Raised by `exec` for an instruction with no meaning yet. Safe. -/
  | notModelled (mnemonic : String)
  /-- Raised by PSHM and PULM when mask bit 7, "(reserved)", is set (R115, D10). Safe. -/
  | reservedMaskBit
  /-- Raised by JMP and JSR when the zero-extension nibble is not zero (R115, D20). Safe. -/
  | reservedZeroNibble
  /-- Raised by `step` when another agent has stored into the twelve bytes from the address of the instruction about to run, in the space instructions are
  fetched from (R94, D5). Safe. -/
  | hostWriteIntoPrefetch
  /-- Raised by a store into the twelve bytes from the executing instruction's own address, when the spaces are not split: "the model refuses
  (stuck), it does not pick either outcome" (R94, D5). Safe. -/
  | storeIntoPrefetch
  deriving DecidableEq, Repr

/-- The machine right after the reset sequence of rule R650 has run over a memory that lists nothing: the four RESET words read as 0. Registers the spec
leaves unspecified hold the values of log entries 1 and 2. -/
def State.reset : State :=
  { a := 0, b := 0, e := 0, ix := 0, iy := 0, iz := 0, sp := 0
    ek := 0, xk := 0, yk := 0, zk := 0, sk := 0
    pc := 0
    ccr := CCR.reset
    hr := 0, ir := 0, am := 0, xmsk := 0, ymsk := 0, sl := false
    inhibit := false
    run := .running
    mem := []
    plat := Platform.default
    inputs := []
    replies := []
    events := []
    heldOff := false
    draws := 0 }

end Sys2Proof.Machine
end

