-- ==== Sys2Proof/Machine/Flags.lean ====
section
/-! DEFINITION. Every flag computation of the spec, as a function from the old CCR to the result and the new CCR. A field a function does not name is left as
it was (R16). The flag effects are the spec's text; where the spec marks them as general knowledge they are its assumption D29. -/

namespace Sys2Proof.Machine

/-- `NZ8`, `NZ16` (R16): N and Z from a result. -/
def flagsNZ {w : Nat} (c : CCR) (r : BitVec w) : CCR := { c with n := r.msb, z := r == 0#w }

/-- `NZV8`, `NZV16` (R200 (c)) and `LogicFlags` (R300 (c)): N and Z from the value, V cleared. -/
def flagsNZV {w : Nat} (c : CCR) (r : BitVec w) : CCR := { c with n := r.msb, z := r == 0#w, v := false }

/-- `TestFlags` (R283): N and Z from the value, V and C cleared. -/
def flagsTest {w : Nat} (c : CCR) (r : BitVec w) : CCR := { c with n := r.msb, z := r == 0#w, v := false, c := false }

/-- `ClrFlags` (R299). -/
def flagsClr (c : CCR) : CCR := { c with n := false, z := true, v := false, c := false }

/-- `ComFlags` (R299): N and Z from the result, V cleared, C set. -/
def flagsCom {w : Nat} (c : CCR) (r : BitVec w) : CCR := { c with n := r.msb, z := r == 0#w, v := false, c := true }

/-- N, Z, V and C of an addition with carry in (R46): the exact sum decides C, the signs of operands and result decide V. -/
def addFlags {w : Nat} (c : CCR) (a b : BitVec w) (cin : Bool) : BitVec w × CCR :=
  let t := a.toNat + b.toNat + cin.toNat
  let r := BitVec.ofNat w t
  (r, { c with n := r.msb, z := r == 0#w, v := a.msb == b.msb && r.msb != a.msb, c := decide (2 ^ w ≤ t) })

/-- `AddFlags16` (R46): H is not affected. -/
def addFlags16 (c : CCR) (a b : Word) (cin : Bool) : Word × CCR := addFlags c a b cin

/-- `AddFlags8` (R45): as the 16-bit addition, and H is the carry from bit 3. -/
def addFlags8 (c : CCR) (a b : Byte) (cin : Bool) : Byte × CCR :=
  let p := addFlags c a b cin
  (p.1, { p.2 with h := decide (16 ≤ a.toNat % 16 + b.toNat % 16 + cin.toNat) })

/-- `SubFlags8`, `SubFlags16` (R47, R48): `a - b - bin`; C is the borrow. -/
def subFlags {w : Nat} (c : CCR) (a b : BitVec w) (bin : Bool) : BitVec w × CCR :=
  let t : Int := (a.toNat : Int) - b.toNat - bin.toNat
  let r := BitVec.ofInt w t
  (r, { c with n := r.msb, z := r == 0#w, v := a.msb != b.msb && r.msb != a.msb, c := decide (t < 0) })

/-- `NegFlags` (R299): `0 - v`. V when the result is the most negative value, C when it is not zero. -/
def negFlags {w : Nat} (c : CCR) (v : BitVec w) : BitVec w × CCR :=
  let r := -v
  (r, { c with n := r.msb, z := r == 0#w, v := r == BitVec.intMin w, c := r != 0#w })

/-- `IncFlags8`, `IncFlags16` (R284): C is not affected. -/
def incFlags {w : Nat} (c : CCR) (v : BitVec w) : BitVec w × CCR :=
  let r := v + 1#w
  (r, { c with n := r.msb, z := r == 0#w, v := v == BitVec.intMax w })

/-- `DecFlags8`, `DecFlags16` (R284): C is not affected. -/
def decFlags {w : Nat} (c : CCR) (v : BitVec w) : BitVec w × CCR :=
  let r := v - 1#w
  (r, { c with n := r.msb, z := r == 0#w, v := v == BitVec.intMin w })

/-- `ComFlags` with its result (R307 to R312). -/
def comFlags {w : Nat} (c : CCR) (v : BitVec w) : BitVec w × CCR := (~~~v, flagsCom c (~~~v))

/-- `ShiftFlags` (R296): C is the bit shifted out, V is the new N xor the new C. -/
def shiftFlags {w : Nat} (c : CCR) (r : BitVec w) (out : Bool) : CCR :=
  { c with n := r.msb, z := r == 0#w, v := r.msb ^^ out, c := out }

/-- `Lsr` (R296). -/
def lsrFlags {w : Nat} (c : CCR) (v : BitVec w) : BitVec w × CCR :=
  let r := v >>> 1
  (r, shiftFlags c r (v.getLsbD 0))

/-- `Asl` (R296). -/
def aslFlags {w : Nat} (c : CCR) (v : BitVec w) : BitVec w × CCR :=
  let r := v <<< 1
  (r, shiftFlags c r v.msb)

/-- `Asr` (R296): the sign bit is kept and copied down. -/
def asrFlags {w : Nat} (c : CCR) (v : BitVec w) : BitVec w × CCR :=
  let r := v.sshiftRight 1
  (r, shiftFlags c r (v.getLsbD 0))

/-- `Rol` (R296): the old C enters bit 0. -/
def rolFlags {w : Nat} (c : CCR) (v : BitVec w) : BitVec w × CCR :=
  let r := (v <<< 1) ||| (BitVec.ofBool c.c).setWidth w
  (r, shiftFlags c r v.msb)

/-- `Ror` (R296): the old C enters the most significant bit. -/
def rorFlags {w : Nat} (c : CCR) (v : BitVec w) : BitVec w × CCR :=
  let r := (v >>> 1) ||| ((BitVec.ofBool c.c).setWidth w <<< (w - 1))
  (r, shiftFlags c r (v.getLsbD 0))

/-! ## Branch conditions (R401) -/

/-- C or Z is 0. -/
def condHi (c : CCR) : Bool := !(c.c || c.z)
/-- C or Z is 1. -/
def condLs (c : CCR) : Bool := c.c || c.z
/-- N xor V is 0. -/
def condGe (c : CCR) : Bool := !(c.n ^^ c.v)
/-- N xor V is 1. -/
def condLt (c : CCR) : Bool := c.n ^^ c.v
/-- Z or (N xor V) is 0. -/
def condGt (c : CCR) : Bool := !(c.z || (c.n ^^ c.v))
/-- Z or (N xor V) is 1. -/
def condLe (c : CCR) : Bool := c.z || (c.n ^^ c.v)

/-! ## Multiplication and division (42_arithmetic.md, section 6) -/

/-- EMUL and EMULS (R266, R267): N, Z and C (bit 15) of the 32-bit product; V is not affected. -/
def flagsEmul (c : CCR) (p : Long) : CCR := { c with n := p.msb, z := p == 0#32, c := p.getLsbD 15 }

/-- The signed fractional product (R269, R560 (d)): twice the signed product, modulo 2^32. -/
def fracMul (h i : Word) : Long := BitVec.ofInt 32 (2 * (h.toInt * i.toInt))

/-- Both factors are -1: the one product that does not fit (R269, R567). -/
def bothMinusOne (h i : Word) : Bool := h == 0x8000#16 && i == 0x8000#16

/-! ## Decimal adjust (R251) -/

/-- Table 5-10: the correction factor and corrected C for (C, A[7:4], H, A[3:0]), row by row; `none` for a combination the table does not list. -/
def daaRow (c : Bool) (hi : Nat) (h : Bool) (lo : Nat) : Option (Byte × Bool) :=
  match c, h with
  | false, false =>
    if lo ≤ 9 then (if hi ≤ 9 then some (0x00, false) else some (0x60, true))
    else (if hi ≤ 8 then some (0x06, false) else some (0x66, true))
  | false, true =>
    if lo ≤ 3 then (if hi ≤ 9 then some (0x06, false) else some (0x66, true)) else none
  | true, false =>
    if hi ≤ 2 then (if lo ≤ 9 then some (0x60, true) else some (0x66, true)) else none
  | true, true =>
    if hi ≤ 3 ∧ lo ≤ 3 then some (0x66, true) else none

/-! ## MAC unit (R560) -/

/-- `EVtest` (R560 (b)): the 36-bit pattern is not the sign extension of its low 32 bits. -/
def evTest (r : Acc36) : Bool :=
  let top : BitVec 5 := r.extractLsb' 31 5
  top != 0#5 && top != 0x1F#5

/-- `ovf36` (R560 (a)): the exact sum lies outside 36 bits. -/
def ovf36 (t : Int) : Bool := decide (t < -(2 ^ 35)) || decide (2 ^ 35 ≤ t)

/-- `SatValue` (R560 (f)). -/
def satValue (mv sl : Bool) (r : Acc36) : Word :=
  if (if mv then sl else r.msb) then 0x8000 else 0x7FFF

/-- `Temp` of TMER before it is cut to 36 bits (R574): round to nearest, ties to even on the 16 bits kept. -/
def roundAM (am : Acc36) : Int :=
  let low := (am.extractLsb' 0 16 : Word).toNat
  let up := decide (0x8000 < low) || (decide (low = 0x8000) && am.getLsbD 16)
  am.toInt - low + (if up then 0x10000 else 0)

end Sys2Proof.Machine
end

