-- ==== Sys2Proof/Machine/Ops.lean ====
section
/-! DEFINITION. The named operations over memory, registers, the bus, the stack and the program counter, and taking and returning from an exception. Every
meaning is written over these. -/

namespace Sys2Proof.Machine

/-- What a step, and every meaning, answers. -/
abbrev Out := Host.Outcome State Fault Refusal

/-! ## Memory as data -/

/-- The byte at a key; a key not listed reads as 0 (DESIGN CHOICE, log entry 6). -/
def Memory.get : Memory → Nat → Byte
  | [], _ => 0#8
  | (k, v) :: t, a => if k = a then v else Memory.get t a

/-- Take a key out of the list. -/
def Memory.erase : Memory → Nat → Memory
  | [], _ => []
  | (k, v) :: t, a => if k = a then Memory.erase t a else (k, v) :: Memory.erase t a

/-- Put a cell in before the first larger key. -/
def Memory.insert : Memory → Nat → Byte → Memory
  | [], a, v => [(a, v)]
  | (k, w) :: t, a, v => if a < k then (a, v) :: (k, w) :: t else (k, w) :: Memory.insert t a v

/-- Store a byte; storing what an unlisted key reads as removes the entry, so that equal memories are equal lists. -/
def Memory.set (m : Memory) (a : Nat) (v : Byte) : Memory :=
  if v = 0#8 then m.erase a else (m.erase a).insert a v

/-- The list rises strictly from `lo`, holds no 0 and no key outside the two spaces. -/
def Memory.wfFrom : Nat → Memory → Bool
  | _, [] => true
  | lo, (k, v) :: t => decide (lo ≤ k) && decide (k < 2 ^ 21) && v != 0#8 && Memory.wfFrom (k + 1) t

/-- The canonical form of memory. -/
def Memory.wf (m : Memory) : Bool := Memory.wfFrom 0 m

/-! ## Registers -/

/-- D is A : B (R21). -/
def State.d (s : State) : Word := s.a ++ s.b

/-- Write D: both halves (R21). -/
def State.withD (s : State) (v : Word) : State := { s with a := v.extractLsb' 8 8, b := v.extractLsb' 0 8 }

/-- E : D (R22). -/
def State.ed (s : State) : Long := s.e ++ s.d

/-- Write E : D (R22). -/
def State.withED (s : State) (v : Long) : State := { s.withD (v.extractLsb' 0 16) with e := v.extractLsb' 16 16 }

/-- XK : IX (R23). -/
def State.x20 (s : State) : Addr := s.xk ++ s.ix
/-- YK : IY (R23). -/
def State.y20 (s : State) : Addr := s.yk ++ s.iy
/-- ZK : IZ (R23). -/
def State.z20 (s : State) : Addr := s.zk ++ s.iz
/-- SK : SP (R24). -/
def State.sp20 (s : State) : Addr := s.sk ++ s.sp

/-- Write XK : IX (R15). -/
def State.withX20 (s : State) (v : Addr) : State := { s with xk := v.extractLsb' 16 4, ix := v.extractLsb' 0 16 }
/-- Write YK : IY (R15). -/
def State.withY20 (s : State) (v : Addr) : State := { s with yk := v.extractLsb' 16 4, iy := v.extractLsb' 0 16 }
/-- Write ZK : IZ (R15). -/
def State.withZ20 (s : State) (v : Addr) : State := { s with zk := v.extractLsb' 16 4, iz := v.extractLsb' 0 16 }
/-- Write SK : SP (R15). -/
def State.withSP20 (s : State) (v : Addr) : State := { s with sk := v.extractLsb' 16 4, sp := v.extractLsb' 0 16 }

/-- RK : IR of the index register a mode names (R141). -/
def State.idx20 (s : State) : Idx → Addr
  | .x => s.x20
  | .y => s.y20
  | .z => s.z20

/-- K = EK : XK : YK : ZK (R26). -/
def State.k (s : State) : Word := s.ek ++ (s.xk ++ (s.yk ++ s.zk))

/-- Write K: all four fields (R26, R540). -/
def State.withK (s : State) (v : Word) : State :=
  { s with ek := v.extractLsb' 12 4, xk := v.extractLsb' 8 4, yk := v.extractLsb' 4 4, zk := v.extractLsb' 0 4 }

/-- Write the CCR's stored bits. -/
def State.withCCR (s : State) (c : CCR) : State := { s with ccr := c }

/-- CCR[15:8] (R28). -/
def CCR.hi (c : CCR) : Byte :=
  BitVec.ofBool c.s ++ (BitVec.ofBool c.mv ++ (BitVec.ofBool c.h ++ (BitVec.ofBool c.ev ++ (BitVec.ofBool c.n ++ (BitVec.ofBool c.z ++
    (BitVec.ofBool c.v ++ BitVec.ofBool c.c))))))

/-- The 16-bit CCR with the given PK field (R28). -/
def CCR.word (c : CCR) (pk : Nib) : Word := c.hi ++ (c.ip ++ (BitVec.ofBool c.sm ++ pk))

/-- Load CCR[15:8] (R543). -/
def CCR.withHi (c : CCR) (v : Byte) : CCR :=
  { c with
    s := v.getLsbD 7, mv := v.getLsbD 6, h := v.getLsbD 5, ev := v.getLsbD 4
    n := v.getLsbD 3, z := v.getLsbD 2, v := v.getLsbD 1, c := v.getLsbD 0 }

/-- CCR[15:4] of a word (R28, R49); bits 3:0 are dropped. -/
def CCR.ofWord (v : Word) : CCR :=
  { s := v.getLsbD 15, mv := v.getLsbD 14, h := v.getLsbD 13, ev := v.getLsbD 12
    n := v.getLsbD 11, z := v.getLsbD 10, v := v.getLsbD 9, c := v.getLsbD 8
    ip := v.extractLsb' 5 3, sm := v.getLsbD 4 }

/-! ## Program counter (R30 to R33) -/

/-- A value written to `pc` has bit 0 forced to zero (R33). -/
def evenAddr (t : Addr) : Addr := t &&& 0xFFFFE#20

/-- PCX: what PK : PC hold while the instruction at `pc` executes (R31). -/
def State.pcx (s : State) : Addr := s.pc + 6#20

/-- The PK field an instruction reads (R31). -/
def State.pkSeen (s : State) : Nib := s.pcx.extractLsb' 16 4

/-- The CCR an instruction reads as a 16-bit value (R31, R529). -/
def State.ccrSeen (s : State) : Word := s.ccr.word s.pkSeen

/-- Go on with the instruction `n` bytes further (R30). -/
def State.advance (s : State) (n : Nat) : State := { s with pc := s.pc + BitVec.ofNat 20 n }

/-- `pc <- t` (R33). -/
def State.jump (s : State) (t : Addr) : State := { s with pc := evenAddr t }

/-! ## Free values and events -/

/-- The k-th free value from here, cut to `w` bits. -/
def State.draw (s : State) (k w : Nat) : BitVec w := (Config.freeBits (s.draws + k)).setWidth w

/-- A free flag: the k-th free value from here, one bit. -/
def State.drawBit (s : State) (k : Nat) : Bool := (Config.freeBits (s.draws + k)).getLsbD 0

/-- `n` free values have been used. -/
def State.drew (s : State) (n : Nat) : State := { s with draws := s.draws + n }

/-- Show an event to the outside. -/
def State.emit (s : State) (e : HostEvent) : State := { s with events := s.events ++ [e] }

/-! ## Memory map and bytes -/

/-- The key of an address in a space (R72). -/
def State.key (s : State) (sp : Space) (a : Addr) : Nat :=
  match sp with
  | .data => a.toNat
  | .prog => if s.plat.splitSpaces then 2 ^ 20 + a.toNat else a.toNat

/-- The space a region must name: when the spaces are not split both are the data space's regions (R72). -/
def State.mapSpace (s : State) (sp : Space) : Space := if s.plat.splitSpaces then sp else .data

/-- The region holds the address. -/
def Region.holds (r : Region) (sp : Space) (n : Nat) : Bool := r.space == sp && decide (r.base ≤ n) && decide (n < r.base + r.size)

/-- What the first region that holds the address says, RAM if none does (R96). -/
def kindIn (rs : List Region) (sp : Space) (n : Nat) : Kind :=
  match rs with
  | [] => .ram
  | r :: t => if r.holds sp n then r.kind else kindIn t sp n

/-- The kind of an address (R96). -/
def State.kindAt (s : State) (sp : Space) (a : Addr) : Kind := kindIn s.plat.regions (s.mapSpace sp) a.toNat

/-- The byte memory holds. -/
def State.byteAt (s : State) (sp : Space) (a : Addr) : Byte := Memory.get s.mem (s.key sp a)

/-- The word memory holds: the byte at the lower address is the more significant (R76). -/
def State.wordAt (s : State) (sp : Space) (a : Addr) : Word := s.byteAt sp a ++ s.byteAt sp (a + 1#20)

/-- Put a byte into data space. -/
def State.putByte (s : State) (a : Addr) (v : Byte) : State := { s with mem := Memory.set s.mem (s.key .data a) v }

/-- Put a word into data space, high byte at the lower address (R83). -/
def State.putWord (s : State) (a : Addr) (v : Word) : State := (s.putByte a (v.extractLsb' 8 8)).putByte (a + 1#20) (v.extractLsb' 0 8)

/-- The address lies in the twelve bytes from the executing instruction's own, and a data-space store there would change what has been fetched (R94). -/
def State.inPrefetch (s : State) (a : Addr) : Bool := !s.plat.splitSpaces && decide ((a - s.pc).toNat < 12)

/-! ## Bus cycles -/

/-- What a bus cycle, or a sequence of them, answers: a value and the state after, a bus error with the state it leaves (R620), or a refusal. -/
inductive Bus (α : Type) where
  | ok (v : α) (s : State)
  | berr (s : State)
  | refused (r : Refusal)

/-- The next step of a sequence; a bus error or a refusal ends it. -/
def Bus.bind {α β : Type} (x : Bus α) (f : α → State → Bus β) : Bus β :=
  match x with
  | .ok v s => f v s
  | .berr s => .berr s
  | .refused r => .refused r

/-- A read cycle of a device: an event, answered by the next reply, by a free value when none is given (R96). -/
def deviceRead (s : State) (sp : Space) (a : Addr) (wide : Bool) : Bus Word :=
  let s := s.emit (.deviceRead sp a wide)
  match s.replies with
  | [] => .ok (s.draw 0 16) (s.drew 1)
  | .data v :: rest => .ok v { s with replies := rest }
  | .busError :: rest => .berr { s with replies := rest }

/-- A write cycle of a device: an event; the next reply may be a bus error (R96). -/
def deviceWrite (s : State) (a : Addr) (wide : Bool) (v : Word) : Bus Unit :=
  let s := s.emit (.deviceWrite a wide v)
  match s.replies with
  | [] => .ok () s
  | .data _ :: rest => .ok () { s with replies := rest }
  | .busError :: rest => .berr { s with replies := rest }

/-- `MemRead8` (R80). -/
def read8 (s : State) (sp : Space) (a : Addr) : Bus Byte :=
  match s.kindAt sp a with
  | .ram => .ok (s.byteAt sp a) s
  | .rom => .ok (s.byteAt sp a) s
  | .device => (deviceRead s sp a false).bind fun v s => .ok (v.extractLsb' 0 8) s
  | .unmapped => .berr s
  | .openBus => .ok (s.draw 0 8) (s.drew 1)

/-- One word cycle, at an even address whose two bytes are of one kind (R81). -/
def readAligned (s : State) (sp : Space) (a : Addr) : Bus Word :=
  match s.kindAt sp a with
  | .ram => .ok (s.wordAt sp a) s
  | .rom => .ok (s.wordAt sp a) s
  | .device => deviceRead s sp a true
  | .unmapped => .berr s
  | .openBus => .ok (s.draw 0 16) (s.drew 1)

/-- The word at `a` moves as two bytes: it is misaligned (R81), or its two bytes are of different kinds, so that no one cycle can be the access of both
(DESIGN CHOICE, log entry 7). -/
def State.bytewise (s : State) (sp : Space) (a : Addr) : Bool := a.getLsbD 0 || s.kindAt sp a != s.kindAt sp (a + 1#20)

/-- `MemRead16` (R81): one cycle at an even address, two byte cycles, high byte first, at an odd one (D18). -/
def read16 (s : State) (sp : Space) (a : Addr) : Bus Word :=
  if s.bytewise sp a then
    (read8 s sp a).bind fun h s => (read8 s sp (a + 1#20)).bind fun l s => .ok (h ++ l) s
  else readAligned s sp a

/-- `MemWrite8` (R83). `own` says that the store belongs to the executing instruction, whose prefetch window it must not enter (R94). -/
def write8 (own : Bool) (s : State) (a : Addr) (v : Byte) : Bus Unit :=
  if own && s.inPrefetch a then .refused .storeIntoPrefetch
  else
    match s.kindAt .data a with
    | .ram => .ok () (s.putByte a v)
    | .rom => .ok () (s.emit (.romWrite a false (v.setWidth 16)))
    | .device => deviceWrite s a false (v.setWidth 16)
    | .unmapped => .berr s
    | .openBus => .ok () s

/-- One word cycle, at an even address whose two bytes are of one kind (R83). -/
def writeAligned (own : Bool) (s : State) (a : Addr) (v : Word) : Bus Unit :=
  if own && (s.inPrefetch a || s.inPrefetch (a + 1#20)) then .refused .storeIntoPrefetch
  else
    match s.kindAt .data a with
    | .ram => .ok () (s.putWord a v)
    | .rom => .ok () (s.emit (.romWrite a true v))
    | .device => deviceWrite s a true v
    | .unmapped => .berr s
    | .openBus => .ok () s

/-- `MemWrite16` (R83). -/
def write16 (own : Bool) (s : State) (a : Addr) (v : Word) : Bus Unit :=
  if s.bytewise .data a then
    (write8 own s a (v.extractLsb' 8 8)).bind fun _ s => write8 own s (a + 1#20) (v.extractLsb' 0 8)
  else writeAligned own s a v

/-! ## Stack (R160 to R163) -/

/-- `Push16` (R160). -/
def push16 (own : Bool) (s : State) (v : Word) : Bus Unit :=
  (write16 own s s.sp20 v).bind fun _ s => .ok () (s.withSP20 (s.sp20 - 2#20))

/-- `Pull16` (R161). -/
def pull16 (s : State) : Bus Word :=
  let s := s.withSP20 (s.sp20 + 2#20)
  read16 s .data s.sp20

/-- `Push8` (R162). -/
def push8 (s : State) (v : Byte) : Bus Unit :=
  let s := s.withSP20 (s.sp20 + 1#20)
  (write8 true s s.sp20 v).bind fun _ s => .ok () (s.withSP20 (s.sp20 - 2#20))

/-- `Pull8` (R163). -/
def pull8 (s : State) : Bus Byte :=
  let s := s.withSP20 (s.sp20 + 2#20)
  (read8 s .data s.sp20).bind fun v s => .ok v (s.withSP20 (s.sp20 - 1#20))

/-- The two-word frame of a call or an exception (R446, R605): the low word of `ret`, then the CCR with `ret`'s bank as PK. -/
def pushFrame (own : Bool) (s : State) (ret : Addr) : Bus Unit :=
  (push16 own s (ret.extractLsb' 0 16)).bind fun _ s => push16 own s (s.ccr.word (ret.extractLsb' 16 4))

/-- Pull the frame: the CCR word and the PC word (R442, R443). -/
def pullFrame (s : State) : Bus (Word × Word) :=
  (pull16 s).bind fun c s => (pull16 s).bind fun p s => .ok (c, p) s

/-! ## Exceptions (60_exceptions.md) -/

/-- The address of vector `n` (R602). -/
def vectorAddr (n : Byte) : Addr := n.setWidth 20 <<< 1

/-- An interrupt raises IP to its level after the frame is stacked and runs its acknowledge cycle; no other exception does (R615, R616). -/
def acknowledge (s : State) (level : Option (BitVec 3)) : State :=
  match level with
  | none => s
  | some l => { s.emit (.interruptAcknowledge l) with ccr := { s.ccr with ip := l } }

/-- The common entry sequence (R610): stack the frame of `resume + 6`, raise IP for an interrupt, load `pc` in bank 0 from the vector, and run with the inhibit
latch clear. -/
def exceptionSequence (own : Bool) (s : State) (n : Byte) (resume : Addr) (level : Option (BitVec 3)) : Bus Unit :=
  (pushFrame own s (resume + 6#20)).bind fun _ s =>
    let s := acknowledge s level
    (read16 s .data (vectorAddr n)).bind fun v s =>
      .ok () { s with pc := evenAddr (v.setWidth 20), run := .running, inhibit := false }

/-- A bus error inside an exception entry or the reset sequence halts the machine (R624); the inhibit latch is set in the running state alone (R612). -/
def State.halt (s : State) : State := { s with run := .halted, inhibit := false }

/-- Taking an exception. -/
def enterException (own : Bool) (s : State) (n : Byte) (resume : Addr) (level : Option (BitVec 3)) : Out :=
  match exceptionSequence own s n resume level with
  | .ok _ s => .next s
  | .berr s => .next s.halt
  | .refused r => .refused r

/-- Bus error (R620): the frame of the faulting instruction itself. -/
def busError (s : State) : Out := enterException true s s.plat.vecBerr s.pc none

/-- Illegal instruction (R622): resume after the opcode word. -/
def illegalInstruction (s : State) : Out := enterException true s s.plat.vecIllegal (s.pc + 2#20) none

/-- Division by zero (R623): resume after the one-word divide. -/
def divideByZero (s : State) : Out := enterException true s s.plat.vecDiv0 (s.pc + 2#20) none

/-- Software interrupt (R444, R621): vector 6. -/
def softwareInterrupt (s : State) : Out := enterException true s 6#8 (s.pc + 2#20) none

/-- Breakpoint at a boundary (R631). -/
def breakpoint (s : State) : Out := enterException false s s.plat.vecBkpt s.pc none

/-- The vector number of an interrupt of level `l` (R616 to R618). -/
def vectorOf (p : Platform) (l : BitVec 3) : IackResult → Byte
  | .vector n => n
  | .autovector => p.vecAutoBase + l.setWidth 8
  | .spurious => p.vecSpurious
  | .uninitialized => p.vecUninit

/-- Taking an interrupt at a boundary (R612, R616). -/
def takeInterrupt (s : State) (l : BitVec 3) (r : IackResult) : Out := enterException false s (vectorOf s.plat l r) s.pc (some l)

/-- The mask test of R612: strictly above IP, or level 7 where the platform makes it non-maskable. Level 0 is no request. -/
def recognised (s : State) (l : BitVec 3) : Bool := decide (s.ccr.ip.toNat < l.toNat) || (l == 7#3 && s.plat.level7NonMaskable)

/-- Return from an exception (R443): CCR[15:4] from the frame, `pc` six below the stacked PK : PC. -/
def returnFromException (s : State) : Bus Unit :=
  (pullFrame s).bind fun f s => .ok () ((s.withCCR (CCR.ofWord f.1)).jump ((f.1.extractLsb' 0 4 ++ f.2 : Addr) - 6#20))

/-- The end of a meaning: the sequence succeeded, or its bus error is taken as an exception of this instruction (R620). -/
def commit (x : Bus Unit) : Out :=
  match x with
  | .ok _ s => .next s
  | .berr s => busError s
  | .refused r => .refused r

/-! ## Reset (70_reset_and_hazards.md) -/

/-- The field of `w` bits in its place in the words. -/
def Slot.read (p : Slot) (w : Nat) (ws : List Word) : BitVec w := ((ws.getD p.word 0) >>> p.lo).setWidth w

/-- Every register the reset sequence leaves unspecified takes a free value (R652). -/
def scramble (s : State) : State :=
  { s with
    a := s.draw 0 8, b := s.draw 1 8, e := s.draw 2 16, ix := s.draw 3 16, iy := s.draw 4 16
    ek := s.draw 5 4, xk := s.draw 6 4, yk := s.draw 7 4
    ccr :=
      { s := s.drawBit 8, mv := s.drawBit 9, h := s.drawBit 10, ev := s.drawBit 11, n := s.drawBit 12, z := s.drawBit 13
        v := s.drawBit 14, c := s.drawBit 15, ip := 7, sm := s.drawBit 16 }
    hr := s.draw 17 16, ir := s.draw 18 16, am := s.draw 19 36, xmsk := s.draw 20 8, ymsk := s.draw 21 8, sl := s.drawBit 22
    draws := s.draws + 23 }

/-- The reset sequence (R650): four words of program space, read as RESET_LAYOUT says, IP = 7, nothing stacked, memory as it was. -/
def resetSequence (s : State) : Bus Unit :=
  (read16 s .prog 0).bind fun w0 s => (read16 s .prog 2).bind fun w1 s => (read16 s .prog 4).bind fun w2 s => (read16 s .prog 6).bind fun w3 s =>
    let l := s.plat.resetLayout
    let ws := [w0, w1, w2, w3]
    .ok ()
      { scramble s with
        zk := l.zk.read 4 ws
        sk := l.sk.read 4 ws
        pc := evenAddr (l.pk.read 4 ws ++ l.pc.read 16 ws)
        sp := l.sp.read 16 ws
        iz := l.iz.read 16 ws
        inhibit := false
        run := .running }

/-- Reset as an event (R625, R651). A bus error on a RESET word halts the machine (R624). -/
def takeReset (s : State) : Out :=
  match resetSequence s with
  | .ok _ s => .next s
  | .berr s => .next s.halt
  | .refused r => .refused r

end Sys2Proof.Machine
end

