-- ==== Sys2Proof/Machine/Operands.lean ====
section
/-! DEFINITION. Effective addresses, operand reads, and the shapes that families of instructions share: accumulator with operand, load, store, read-modify-write
of memory, branch. Effective addresses are 20-bit sums modulo 2^20; no mode but IXP changes a register (R141, R156). -/

namespace Sys2Proof.Machine

/-! ## Effective addresses -/

/-- IND8: unsigned 8-bit offset (R147). -/
def eaInd8 (s : State) (r : Idx) (ff : Byte) : Addr := s.idx20 r + ff.setWidth 20

/-- IND16: signed 16-bit offset (R148). -/
def eaInd16 (s : State) (r : Idx) (g : Word) : Addr := s.idx20 r + g.signExtend 20

/-- EXT: EK : hhll (R152). -/
def eaExt (s : State) (hhll : Word) : Addr := s.ek ++ hhll

/-- E-offset: signed accumulator E (R150). -/
def eaE (s : State) (r : Idx) : Addr := s.idx20 r + s.e.signExtend 20

/-- Effective address of a memory operand (R156). -/
def eaB (s : State) : MemB → Addr
  | .ind8 r ff => eaInd8 s r ff
  | .ind16 r g => eaInd16 s r g
  | .ext a => eaExt s a

/-- Effective address of a memory operand (R156). -/
def eaW (s : State) : MemW → Addr
  | .ind16 r g => eaInd16 s r g
  | .ext a => eaExt s a

/-- Effective address of a memory operand (R156). -/
def eaM (s : State) : MemE → Addr
  | .ind8 r ff => eaInd8 s r ff
  | .ind16 r g => eaInd16 s r g
  | .ext a => eaExt s a
  | .eoff r => eaE s r

/-- Effective address of the byte a bit-condition branch tests (R445). -/
def eaBit (s : State) : BitBranch → Addr
  | .ind8 r ff _ => eaInd8 s r ff
  | .ind16 r g _ => eaInd16 s r g
  | .ext a _ => eaExt s a

/-- The signed offset of a bit-condition branch (R436). -/
def bitOffset : BitBranch → Addr
  | .ind8 _ _ rr => rr.signExtend 20
  | .ind16 _ _ rrrr => rrrr.signExtend 20
  | .ext _ rrrr => rrrr.signExtend 20

/-- The 20-bit target of JMP and JSR (R149, R153). -/
def eaJump (s : State) : JumpTarget → Addr
  | .ext20 _ b a => b ++ a
  | .ind20 r _ b g => s.idx20 r + (b ++ g)

/-- An 8- or 16-bit signed immediate as 20 bits (R145 (b), R470). -/
def imm20 : Imm → Addr
  | .imm8 ii => ii.signExtend 20
  | .imm16 w => w.signExtend 20

/-! ## Operand reads (`operand8`, `operand16`, R200) -/

/-- Byte operand (R142, R144). -/
def operand8 (s : State) : Src8 → Bus Byte
  | .imm8 ii => .ok ii s
  | .mem m => read8 s .data (eaM s m)

/-- Word operand of the D instructions. -/
def operandD (s : State) : SrcD → Bus Word
  | .imm16 w => .ok w s
  | .mem m => read16 s .data (eaM s m)

/-- Word operand of ADDD; IMM8 is sign-extended (R238). -/
def operandDI (s : State) : SrcDI → Bus Word
  | .imm8 ii => .ok (ii.signExtend 16) s
  | .imm16 w => .ok w s
  | .mem m => read16 s .data (eaM s m)

/-- Word operand of the E instructions. -/
def operandE (s : State) : SrcE → Bus Word
  | .imm16 w => .ok w s
  | .mem m => read16 s .data (eaW s m)

/-- Word operand of ADDE; IMM8 is sign-extended (R239). -/
def operandEI (s : State) : SrcEI → Bus Word
  | .imm8 ii => .ok (ii.signExtend 16) s
  | .imm16 w => .ok w s
  | .mem m => read16 s .data (eaW s m)

/-- Word operand of the index register and stack pointer instructions. -/
def operandX (s : State) : SrcX → Bus Word
  | .imm16 w => .ok w s
  | .mem m => read16 s .data (eaB s m)

/-! ## Shapes -/

/-- Read an operand, let `f` write registers and flags from it, go on `len` bytes further. -/
def useOperand {α : Type} (x : Bus α) (len : Nat) (f : State → α → State) : Out :=
  commit (x.bind fun v s => .ok () ((f s v).advance len))

/-- An inherent instruction: registers and flags change, one word long. -/
def inherent (s : State) (f : State → State) : Out := .next ((f s).advance 2)

/-- Write A and the flags. -/
def putA (s : State) (p : Byte × CCR) : State := { s with a := p.1, ccr := p.2 }
/-- Write B and the flags. -/
def putB (s : State) (p : Byte × CCR) : State := { s with b := p.1, ccr := p.2 }
/-- Write D and the flags. -/
def putD (s : State) (p : Word × CCR) : State := (s.withD p.1).withCCR p.2
/-- Write E and the flags. -/
def putE (s : State) (p : Word × CCR) : State := { s with e := p.1, ccr := p.2 }

/-- A logic result with its flags: C and H are not affected (R300 (c)). -/
def logicFlags {w : Nat} (c : CCR) (r : BitVec w) : BitVec w × CCR := (r, flagsNZV c r)

/-- Store a byte at `ea`; the flags are those of the value stored (R208). -/
def storeByte (s : State) (ea : Addr) (v : Byte) (len : Nat) : Out :=
  commit ((write8 true s ea v).bind fun _ s => .ok () ((s.withCCR (flagsNZV s.ccr v)).advance len))

/-- Store a word at `ea`; the flags are those of the value stored (R210). -/
def storeWord (s : State) (ea : Addr) (v : Word) (len : Nat) : Out :=
  commit ((write16 true s ea v).bind fun _ s => .ok () ((s.withCCR (flagsNZV s.ccr v)).advance len))

/-- Clear a byte at `ea`: one write, no read (R301, D32). -/
def clearByte (s : State) (ea : Addr) (len : Nat) : Out :=
  commit ((write8 true s ea 0).bind fun _ s => .ok () ((s.withCCR (flagsClr s.ccr)).advance len))

/-- Clear a word at `ea`: one write, no read (R306, D32). -/
def clearWord (s : State) (ea : Addr) (len : Nat) : Out :=
  commit ((write16 true s ea 0).bind fun _ s => .ok () ((s.withCCR (flagsClr s.ccr)).advance len))

/-- Read-modify-write of the byte at `ea`, the flags after the write (R300 (a)). -/
def modifyByte (s : State) (ea : Addr) (len : Nat) (f : CCR → Byte → Byte × CCR) : Out :=
  commit ((read8 s .data ea).bind fun v s => (write8 true s ea (f s.ccr v).1).bind fun _ s => .ok () ((s.withCCR (f s.ccr v).2).advance len))

/-- Read-modify-write of the word at `ea`, the flags after the write (R300 (a)). -/
def modifyWord (s : State) (ea : Addr) (len : Nat) (f : CCR → Word → Word × CCR) : Out :=
  commit ((read16 s .data ea).bind fun v s => (write16 true s ea (f s.ccr v).1).bind fun _ s => .ok () ((s.withCCR (f s.ccr v).2).advance len))

/-- INC and DEC of a byte: the flag function stands before the write in the pseudocode (R272, R276), so the flags are written first. -/
def countByte (s : State) (ea : Addr) (len : Nat) (f : CCR → Byte → Byte × CCR) : Out :=
  commit ((read8 s .data ea).bind fun v s => (write8 true (s.withCCR (f s.ccr v).2) ea (f s.ccr v).1).bind fun _ s => .ok () (s.advance len))

/-- INC and DEC of a word: the flags are written first (R275, R279). -/
def countWord (s : State) (ea : Addr) (len : Nat) (f : CCR → Word → Word × CCR) : Out :=
  commit ((read16 s .data ea).bind fun v s => (write16 true (s.withCCR (f s.ccr v).2) ea (f s.ccr v).1).bind fun _ s => .ok () (s.advance len))

/-- A relative branch of length `len` (R400). -/
def branch (s : State) (cond : Bool) (off : Addr) (len : Nat) : Out :=
  .next (if cond then s.jump (s.pcx + off) else s.advance len)

/-- A bit-condition branch (R436, R437): `cond` looks at the byte. -/
def bitBranch (s : State) (o : BitBranch) (cond : Byte → Bool) : Out :=
  commit ((read8 s .data (eaBit s o)).bind fun v s => .ok () (if cond v then s.jump (s.pcx + bitOffset o) else s.advance o.length))

/-- A subroutine call: stack the frame of `ret`, go to `target` (R446). -/
def call (s : State) (ret target : Addr) : Out := commit ((pushFrame true s ret).bind fun _ s => .ok () (s.jump target))

/-- MOVB: read, write, then post-modify XK : IX in the IXP forms; the flags are those of the byte moved (R206). -/
def moveByte (s : State) (src dst : Addr) (post : State → State) (len : Nat) : Out :=
  commit ((read8 s .data src).bind fun v s => (write8 true s dst v).bind fun _ s =>
    .ok () (((post s).withCCR (flagsNZV s.ccr v)).advance len))

/-- MOVW: as MOVB with words (R207). -/
def moveWord (s : State) (src dst : Addr) (post : State → State) (len : Nat) : Out :=
  commit ((read16 s .data src).bind fun v s => (write16 true s dst v).bind fun _ s =>
    .ok () (((post s).withCCR (flagsNZV s.ccr v)).advance len))

/-- Source and destination address of a move (R206). -/
def moveAddrs (s : State) : Move → Addr × Addr
  | .ixpToExt _ a => (s.x20, eaExt s a)
  | .extToIxp _ a => (eaExt s a, s.x20)
  | .extToExt a b => (eaExt s a, eaExt s b)

/-- The post-modification of XK : IX (R151): the one mode in which `ff` is signed. -/
def movePost (s : State) (o : Move) : State :=
  match o with
  | .ixpToExt ff _ => s.withX20 (s.x20 + ff.signExtend 20)
  | .extToIxp ff _ => s.withX20 (s.x20 + ff.signExtend 20)
  | .extToExt _ _ => s

end Sys2Proof.Machine
end

