-- ==== Sys2Proof/Machine/Arith.lean ====
section
/-! DEFINITION. Addition, subtraction, decimal adjust, compare, test, multiply, divide, increment, decrement (42_arithmetic.md): one meaning for each instruction of the family, over the shared operations. -/

namespace Sys2Proof.Machine

/-- ABA, rule R231: (A) + (B) to A; H, N, Z, V, C. -/
def execAba (s : State) : Out :=
  inherent s fun s => putA s (addFlags8 s.ccr s.a s.b false)

/-- ADCA, rule R232: (A) + operand + C to A; H, N, Z, V, C. -/
def execAdca (o : Src8) (s : State) : Out :=
  useOperand (operand8 s o) o.length fun s m => putA s (addFlags8 s.ccr s.a m s.ccr.c)

/-- ADCB, rule R233: (B) + operand + C to B; H, N, Z, V, C. -/
def execAdcb (o : Src8) (s : State) : Out :=
  useOperand (operand8 s o) o.length fun s m => putB s (addFlags8 s.ccr s.b m s.ccr.c)

/-- ADCD, rule R234: (D) + operand + C to D; N, Z, V, C. -/
def execAdcd (o : SrcD) (s : State) : Out :=
  useOperand (operandD s o) o.length fun s m => putD s (addFlags16 s.ccr s.d m s.ccr.c)

/-- ADCE, rule R235: (E) + operand + C to E; N, Z, V, C. -/
def execAdce (o : SrcE) (s : State) : Out :=
  useOperand (operandE s o) o.length fun s m => putE s (addFlags16 s.ccr s.e m s.ccr.c)

/-- ADDA, rule R236: (A) + operand to A; H, N, Z, V, C. -/
def execAdda (o : Src8) (s : State) : Out :=
  useOperand (operand8 s o) o.length fun s m => putA s (addFlags8 s.ccr s.a m false)

/-- ADDB, rule R237: (B) + operand to B; H, N, Z, V, C. -/
def execAddb (o : Src8) (s : State) : Out :=
  useOperand (operand8 s o) o.length fun s m => putB s (addFlags8 s.ccr s.b m false)

/-- ADDD, rule R238: (D) + operand to D; N, Z, V, C. -/
def execAddd (o : SrcDI) (s : State) : Out :=
  useOperand (operandDI s o) o.length fun s m => putD s (addFlags16 s.ccr s.d m false)

/-- ADDE, rule R239: (E) + operand to E; N, Z, V, C. -/
def execAdde (o : SrcEI) (s : State) : Out :=
  useOperand (operandEI s o) o.length fun s m => putE s (addFlags16 s.ccr s.e m false)

/-- ADE, rule R240: (E) + (D) to E. -/
def execAde (s : State) : Out :=
  inherent s fun s => putE s (addFlags16 s.ccr s.e s.d false)

/-- SBA, rule R241: (A) - (B) to A. -/
def execSba (s : State) : Out :=
  inherent s fun s => putA s (subFlags s.ccr s.a s.b false)

/-- SBCA, rule R242: (A) - operand - C to A; N, Z, V, C. -/
def execSbca (o : Src8) (s : State) : Out :=
  useOperand (operand8 s o) o.length fun s m => putA s (subFlags s.ccr s.a m s.ccr.c)

/-- SBCB, rule R243: (B) - operand - C to B; N, Z, V, C. -/
def execSbcb (o : Src8) (s : State) : Out :=
  useOperand (operand8 s o) o.length fun s m => putB s (subFlags s.ccr s.b m s.ccr.c)

/-- SBCD, rule R244: (D) - operand - C to D; N, Z, V, C. -/
def execSbcd (o : SrcD) (s : State) : Out :=
  useOperand (operandD s o) o.length fun s m => putD s (subFlags s.ccr s.d m s.ccr.c)

/-- SBCE, rule R245: (E) - operand - C to E; N, Z, V, C. -/
def execSbce (o : SrcE) (s : State) : Out :=
  useOperand (operandE s o) o.length fun s m => putE s (subFlags s.ccr s.e m s.ccr.c)

/-- SDE, rule R246: (E) - (D) to E. -/
def execSde (s : State) : Out :=
  inherent s fun s => putE s (subFlags s.ccr s.e s.d false)

/-- SUBA, rule R247: (A) - operand to A; N, Z, V, C. -/
def execSuba (o : Src8) (s : State) : Out :=
  useOperand (operand8 s o) o.length fun s m => putA s (subFlags s.ccr s.a m false)

/-- SUBB, rule R248: (B) - operand to B; N, Z, V, C. -/
def execSubb (o : Src8) (s : State) : Out :=
  useOperand (operand8 s o) o.length fun s m => putB s (subFlags s.ccr s.b m false)

/-- SUBD, rule R249: (D) - operand to D; N, Z, V, C. -/
def execSubd (o : SrcD) (s : State) : Out :=
  useOperand (operandD s o) o.length fun s m => putD s (subFlags s.ccr s.d m false)

/-- SUBE, rule R250: (E) - operand to E; N, Z, V, C. -/
def execSube (o : SrcE) (s : State) : Out :=
  useOperand (operandE s o) o.length fun s m => putE s (subFlags s.ccr s.e m false)

/-- DAA, rule R251: Table 5-10; V is a free value, and on a combination the table does not list A, N, Z, V, C are free values (D31). -/
def execDaa (s : State) : Out :=
  inherent s fun s =>
    match daaRow s.ccr.c (hiNib s.a).toNat s.ccr.h (loNib s.a).toNat with
    | some p => { s with a := s.a + p.1, ccr := { flagsNZ s.ccr (s.a + p.1) with v := s.drawBit 0, c := p.2 } }.drew 1
    | none =>
      { s with
        a := s.draw 0 8
        ccr := { s.ccr with n := s.drawBit 1, z := s.drawBit 2, v := s.drawBit 3, c := s.drawBit 4 } }.drew 5

/-- SXT, rule R252: the sign of B fills A; N, Z of D. -/
def execSxt (s : State) : Out :=
  inherent s fun s => { s with a := if s.b.msb then 0xFF else 0, ccr := flagsNZ s.ccr (s.b.signExtend 16) }

/-- CBA, rule R253: (A) - (B), flags only. -/
def execCba (s : State) : Out :=
  inherent s fun s => s.withCCR (subFlags s.ccr s.a s.b false).2

/-- CMPA, rule R254: (A) - operand, flags only. -/
def execCmpa (o : Src8) (s : State) : Out :=
  useOperand (operand8 s o) o.length fun s m => s.withCCR (subFlags s.ccr s.a m false).2

/-- CMPB, rule R255: (B) - operand, flags only. -/
def execCmpb (o : Src8) (s : State) : Out :=
  useOperand (operand8 s o) o.length fun s m => s.withCCR (subFlags s.ccr s.b m false).2

/-- CPD, rule R256: (D) - operand, flags only. -/
def execCpd (o : SrcD) (s : State) : Out :=
  useOperand (operandD s o) o.length fun s m => s.withCCR (subFlags s.ccr s.d m false).2

/-- CPE, rule R257: (E) - operand, flags only. -/
def execCpe (o : SrcE) (s : State) : Out :=
  useOperand (operandE s o) o.length fun s m => s.withCCR (subFlags s.ccr s.e m false).2

/-- TST, rule R258: (M) - 0, flags only. -/
def execTst (m : MemB) (s : State) : Out :=
  useOperand (read8 s .data (eaB s m)) m.length fun s v => s.withCCR (flagsTest s.ccr v)

/-- TSTA, rule R259: (A) - 0, flags only. -/
def execTsta (s : State) : Out :=
  inherent s fun s => s.withCCR (flagsTest s.ccr s.a)

/-- TSTB, rule R260: (B) - 0, flags only. -/
def execTstb (s : State) : Out :=
  inherent s fun s => s.withCCR (flagsTest s.ccr s.b)

/-- TSTD, rule R261: (D) - 0, flags only. -/
def execTstd (s : State) : Out :=
  inherent s fun s => s.withCCR (flagsTest s.ccr s.d)

/-- TSTE, rule R262: (E) - 0, flags only. -/
def execTste (s : State) : Out :=
  inherent s fun s => s.withCCR (flagsTest s.ccr s.e)

/-- TSTW, rule R263: (M : M + 1) - 0, flags only. -/
def execTstw (m : MemW) (s : State) : Out :=
  useOperand (read16 s .data (eaW s m)) m.length fun s v => s.withCCR (flagsTest s.ccr v)

/-- EDIV, rule R264: E : D by IX, unsigned; on overflow V is set and IX, D, N, Z, C are free values; IX = 0 is a division by zero. -/
def execEdiv (s : State) : Out :=
  if s.ix = 0#16 then divideByZero s
  else
    let n := s.ed.toNat
    let q := n / s.ix.toNat
    let r := n % s.ix.toNat
    if 0xFFFF < q then
      inherent s fun s =>
        ({ s.withD (s.draw 1 16) with
          ix := s.draw 0 16
          ccr := { s.ccr with n := s.drawBit 2, z := s.drawBit 3, v := true, c := s.drawBit 4 } }).drew 5
    else
      inherent s fun s =>
        { s.withD (BitVec.ofNat 16 r) with
          ix := BitVec.ofNat 16 q
          ccr := { flagsNZ s.ccr (BitVec.ofNat 16 q) with v := false, c := decide (s.ix.toNat ≤ 2 * r) } }

/-- EDIVS, rule R265: E : D by IX, signed, truncating toward zero (D13); overflow and IX = 0 as EDIV. -/
def execEdivs (s : State) : Out :=
  if s.ix = 0#16 then divideByZero s
  else
    let n := s.ed.toInt
    let d := s.ix.toInt
    let q := n.tdiv d
    let r := n.tmod d
    if 32767 < q ∨ q < -32768 then
      inherent s fun s =>
        ({ s.withD (s.draw 1 16) with
          ix := s.draw 0 16
          ccr := { s.ccr with n := s.drawBit 2, z := s.drawBit 3, v := true, c := s.drawBit 4 } }).drew 5
    else
      inherent s fun s =>
        { s.withD (BitVec.ofInt 16 r) with
          ix := BitVec.ofInt 16 q
          ccr := { flagsNZ s.ccr (BitVec.ofInt 16 q) with v := false, c := decide (d.natAbs ≤ 2 * r.natAbs) } }

/-- EMUL, rule R266: (E) * (D) unsigned to E : D; N, Z, C (bit 15). -/
def execEmul (s : State) : Out :=
  let p : Long := BitVec.ofNat 32 (s.e.toNat * s.d.toNat)
  inherent s fun s => (s.withED p).withCCR (flagsEmul s.ccr p)

/-- EMULS, rule R267: (E) * (D) signed to E : D; N, Z, C (bit 15). -/
def execEmuls (s : State) : Out :=
  let p : Long := BitVec.ofInt 32 (s.e.toInt * s.d.toInt)
  inherent s fun s => (s.withED p).withCCR (flagsEmul s.ccr p)

/-- FDIV, rule R268: D * 2^16 by IX, unsigned; IX = 0 or IX <= D gives $FFFF with V set and a free D; N not affected. -/
def execFdiv (s : State) : Out :=
  if s.ix = 0#16 then
    inherent s fun s => ({ s.withD (s.draw 0 16) with ix := 0xFFFF, ccr := { s.ccr with z := false, v := true, c := true } }).drew 1
  else if s.ix.toNat ≤ s.d.toNat then
    inherent s fun s => ({ s.withD (s.draw 0 16) with ix := 0xFFFF, ccr := { s.ccr with z := false, v := true, c := false } }).drew 1
  else
    let n := s.d.toNat * 65536
    let q : Word := BitVec.ofNat 16 (n / s.ix.toNat)
    inherent s fun s =>
      { s.withD (BitVec.ofNat 16 (n % s.ix.toNat)) with ix := q, ccr := { s.ccr with z := q == 0#16, v := false, c := false } }

/-- FMULS, rule R269: signed fractional product to E : D; N, Z, C (bit 15), V for -1 times -1. -/
def execFmuls (s : State) : Out :=
  let p : Long := fracMul s.e s.d
  let v := bothMinusOne s.e s.d
  inherent s fun s => (s.withED p).withCCR { flagsEmul s.ccr p with v := v }

/-- IDIV, rule R270: D by IX, unsigned; IX = 0 gives $FFFF with C set and a free D; N not affected. -/
def execIdiv (s : State) : Out :=
  if s.ix = 0#16 then
    inherent s fun s => ({ s.withD (s.draw 0 16) with ix := 0xFFFF, ccr := { s.ccr with z := false, v := false, c := true } }).drew 1
  else
    let q : Word := BitVec.ofNat 16 (s.d.toNat / s.ix.toNat)
    inherent s fun s =>
      { s.withD (BitVec.ofNat 16 (s.d.toNat % s.ix.toNat)) with ix := q, ccr := { s.ccr with z := q == 0#16, v := false, c := false } }

/-- MUL, rule R271: (A) * (B) unsigned to D; C (bit 7) only. -/
def execMul (s : State) : Out :=
  let p : Word := BitVec.ofNat 16 (s.a.toNat * s.b.toNat)
  inherent s fun s => (s.withD p).withCCR { s.ccr with c := p.getLsbD 7 }

/-- DEC, rule R272: byte in memory; N, Z, V, not C. -/
def execDec (m : MemB) (s : State) : Out :=
  countByte s (eaB s m) m.length decFlags

/-- DECA, rule R273: (A) - 1; N, Z, V, not C. -/
def execDeca (s : State) : Out :=
  inherent s fun s => putA s (decFlags s.ccr s.a)

/-- DECB, rule R274: (B) - 1; N, Z, V, not C. -/
def execDecb (s : State) : Out :=
  inherent s fun s => putB s (decFlags s.ccr s.b)

/-- DECW, rule R275: word in memory; N, Z, V, not C. -/
def execDecw (m : MemW) (s : State) : Out :=
  countWord s (eaW s m) m.length decFlags

/-- INC, rule R276: byte in memory; N, Z, V, not C. -/
def execInc (m : MemB) (s : State) : Out :=
  countByte s (eaB s m) m.length incFlags

/-- INCA, rule R277: (A) + 1; N, Z, V, not C. -/
def execInca (s : State) : Out :=
  inherent s fun s => putA s (incFlags s.ccr s.a)

/-- INCB, rule R278: (B) + 1; N, Z, V, not C. -/
def execIncb (s : State) : Out :=
  inherent s fun s => putB s (incFlags s.ccr s.b)

/-- INCW, rule R279: word in memory; N, Z, V, not C. -/
def execIncw (m : MemW) (s : State) : Out :=
  countWord s (eaW s m) m.length incFlags

end Sys2Proof.Machine
end

