-- ==== Sys2Proof/Machine/Control.lean ====
section
/-! DEFINITION. Branches, jumps, calls, returns and the software interrupt (44_program_control.md): one meaning for each instruction of the family, over the shared operations. -/

namespace Sys2Proof.Machine

/-- BRA, rule R402: short branch: always. -/
def execBra (rr : Byte) (s : State) : Out :=
  branch s true (rr.signExtend 20) 2

/-- BRN, rule R403: short branch: never. -/
def execBrn (rr : Byte) (s : State) : Out :=
  branch s false (rr.signExtend 20) 2

/-- BCC, rule R404: short branch: C = 0. -/
def execBcc (rr : Byte) (s : State) : Out :=
  branch s (!s.ccr.c) (rr.signExtend 20) 2

/-- BCS, rule R405: short branch: C = 1. -/
def execBcs (rr : Byte) (s : State) : Out :=
  branch s s.ccr.c (rr.signExtend 20) 2

/-- BEQ, rule R406: short branch: Z = 1. -/
def execBeq (rr : Byte) (s : State) : Out :=
  branch s s.ccr.z (rr.signExtend 20) 2

/-- BMI, rule R407: short branch: N = 1. -/
def execBmi (rr : Byte) (s : State) : Out :=
  branch s s.ccr.n (rr.signExtend 20) 2

/-- BNE, rule R408: short branch: Z = 0. -/
def execBne (rr : Byte) (s : State) : Out :=
  branch s (!s.ccr.z) (rr.signExtend 20) 2

/-- BPL, rule R409: short branch: N = 0. -/
def execBpl (rr : Byte) (s : State) : Out :=
  branch s (!s.ccr.n) (rr.signExtend 20) 2

/-- BVC, rule R410: short branch: V = 0. -/
def execBvc (rr : Byte) (s : State) : Out :=
  branch s (!s.ccr.v) (rr.signExtend 20) 2

/-- BVS, rule R411: short branch: V = 1. -/
def execBvs (rr : Byte) (s : State) : Out :=
  branch s s.ccr.v (rr.signExtend 20) 2

/-- BHI, rule R412: short branch: C or Z is 0. -/
def execBhi (rr : Byte) (s : State) : Out :=
  branch s (condHi s.ccr) (rr.signExtend 20) 2

/-- BLS, rule R413: short branch: C or Z is 1. -/
def execBls (rr : Byte) (s : State) : Out :=
  branch s (condLs s.ccr) (rr.signExtend 20) 2

/-- BGE, rule R414: short branch: N xor V is 0. -/
def execBge (rr : Byte) (s : State) : Out :=
  branch s (condGe s.ccr) (rr.signExtend 20) 2

/-- BGT, rule R415: short branch: Z or (N xor V) is 0. -/
def execBgt (rr : Byte) (s : State) : Out :=
  branch s (condGt s.ccr) (rr.signExtend 20) 2

/-- BLE, rule R416: short branch: Z or (N xor V) is 1. -/
def execBle (rr : Byte) (s : State) : Out :=
  branch s (condLe s.ccr) (rr.signExtend 20) 2

/-- BLT, rule R417: short branch: N xor V is 1. -/
def execBlt (rr : Byte) (s : State) : Out :=
  branch s (condLt s.ccr) (rr.signExtend 20) 2

/-- LBRA, rule R418: long branch: always. -/
def execLbra (rrrr : Word) (s : State) : Out :=
  branch s true (rrrr.signExtend 20) 4

/-- LBRN, rule R419: long branch: never. -/
def execLbrn (rrrr : Word) (s : State) : Out :=
  branch s false (rrrr.signExtend 20) 4

/-- LBCC, rule R420: long branch: C = 0. -/
def execLbcc (rrrr : Word) (s : State) : Out :=
  branch s (!s.ccr.c) (rrrr.signExtend 20) 4

/-- LBCS, rule R421: long branch: C = 1. -/
def execLbcs (rrrr : Word) (s : State) : Out :=
  branch s s.ccr.c (rrrr.signExtend 20) 4

/-- LBEQ, rule R422: long branch: Z = 1. -/
def execLbeq (rrrr : Word) (s : State) : Out :=
  branch s s.ccr.z (rrrr.signExtend 20) 4

/-- LBEV, rule R423: long branch: EV = 1. -/
def execLbev (rrrr : Word) (s : State) : Out :=
  branch s s.ccr.ev (rrrr.signExtend 20) 4

/-- LBMI, rule R424: long branch: N = 1. -/
def execLbmi (rrrr : Word) (s : State) : Out :=
  branch s s.ccr.n (rrrr.signExtend 20) 4

/-- LBMV, rule R425: long branch: MV = 1. -/
def execLbmv (rrrr : Word) (s : State) : Out :=
  branch s s.ccr.mv (rrrr.signExtend 20) 4

/-- LBNE, rule R426: long branch: Z = 0. -/
def execLbne (rrrr : Word) (s : State) : Out :=
  branch s (!s.ccr.z) (rrrr.signExtend 20) 4

/-- LBPL, rule R427: long branch: N = 0. -/
def execLbpl (rrrr : Word) (s : State) : Out :=
  branch s (!s.ccr.n) (rrrr.signExtend 20) 4

/-- LBVC, rule R428: long branch: V = 0. -/
def execLbvc (rrrr : Word) (s : State) : Out :=
  branch s (!s.ccr.v) (rrrr.signExtend 20) 4

/-- LBVS, rule R429: long branch: V = 1. -/
def execLbvs (rrrr : Word) (s : State) : Out :=
  branch s s.ccr.v (rrrr.signExtend 20) 4

/-- LBHI, rule R430: long branch: C or Z is 0. -/
def execLbhi (rrrr : Word) (s : State) : Out :=
  branch s (condHi s.ccr) (rrrr.signExtend 20) 4

/-- LBLS, rule R431: long branch: C or Z is 1. -/
def execLbls (rrrr : Word) (s : State) : Out :=
  branch s (condLs s.ccr) (rrrr.signExtend 20) 4

/-- LBGE, rule R432: long branch: N xor V is 0. -/
def execLbge (rrrr : Word) (s : State) : Out :=
  branch s (condGe s.ccr) (rrrr.signExtend 20) 4

/-- LBGT, rule R433: long branch: Z or (N xor V) is 0. -/
def execLbgt (rrrr : Word) (s : State) : Out :=
  branch s (condGt s.ccr) (rrrr.signExtend 20) 4

/-- LBLE, rule R434: long branch: Z or (N xor V) is 1. -/
def execLble (rrrr : Word) (s : State) : Out :=
  branch s (condLe s.ccr) (rrrr.signExtend 20) 4

/-- LBLT, rule R435: long branch: N xor V is 1. -/
def execLblt (rrrr : Word) (s : State) : Out :=
  branch s (condLt s.ccr) (rrrr.signExtend 20) 4

/-- BRCLR, rule R436: branch if every selected bit is 0. -/
def execBrclr (mm : Byte) (o : BitBranch) (s : State) : Out :=
  bitBranch s o fun v => v &&& mm == 0#8

/-- BRSET, rule R437: branch if every selected bit is 1 (C6). -/
def execBrset (mm : Byte) (o : BitBranch) (s : State) : Out :=
  bitBranch s o fun v => ~~~v &&& mm == 0#8

/-- JMP, rule R438: 20-bit address to PK : PC; a nonzero zero-extension nibble is refused (D20). -/
def execJmp (t : JumpTarget) (s : State) : Out :=
  if t.wellFormed then .next (s.jump (eaJump s t)) else .refused .reservedZeroNibble

/-- BSR, rule R439: stacks A0 + 4; the offset base is BSR_BASE (D6). -/
def execBsr (rr : Byte) (s : State) : Out :=
  call s (s.pc + 4#20) (s.pc + (if s.plat.bsrBaseSix then 6#20 else 4#20) + rr.signExtend 20)

/-- JSR, rule R440: stacks A0 + 6; the target is computed before the pushes. -/
def execJsr (t : JumpTarget) (s : State) : Out :=
  if t.wellFormed then call s s.pcx (eaJump s t) else .refused .reservedZeroNibble

/-- LBSR, rule R441: stacks A0 + 6. -/
def execLbsr (rrrr : Word) (s : State) : Out :=
  call s s.pcx (s.pcx + rrrr.signExtend 20)

/-- RTS, rule R442: PK and PC from the frame, less 2; CCR[15:4] stay. -/
def execRts (s : State) : Out :=
  commit ((pullFrame s).bind fun f s => .ok () (s.jump ((f.1.extractLsb' 0 4 ++ f.2 : Addr) - 2#20)))

/-- RTI, rule R443: CCR, PK and PC from the frame, less 6. -/
def execRti (s : State) : Out :=
  commit (returnFromException s)

/-- SWI, rule R444: synchronous exception through vector 6. -/
def execSwi (s : State) : Out :=
  softwareInterrupt s

end Sys2Proof.Machine
end

