-- ==== Sys2Proof/Machine/DataMove.lean ====
section
/-! DEFINITION. Loads, stores, moves, transfers and exchanges (41_data_movement.md): one meaning for each instruction of the family, over the shared operations. -/

namespace Sys2Proof.Machine

/-- LDAA, rule R201: (M) to A; N, Z from the value, V cleared. -/
def execLdaa (o : Src8) (s : State) : Out :=
  useOperand (operand8 s o) o.length fun s v => putA s (v, flagsNZV s.ccr v)

/-- LDAB, rule R202: (M) to B; N, Z from the value, V cleared. -/
def execLdab (o : Src8) (s : State) : Out :=
  useOperand (operand8 s o) o.length fun s v => putB s (v, flagsNZV s.ccr v)

/-- LDD, rule R203: (M : M + 1) to D. -/
def execLdd (o : SrcD) (s : State) : Out :=
  useOperand (operandD s o) o.length fun s v => putD s (v, flagsNZV s.ccr v)

/-- LDE, rule R204: (M : M + 1) to E. -/
def execLde (o : SrcE) (s : State) : Out :=
  useOperand (operandE s o) o.length fun s v => putE s (v, flagsNZV s.ccr v)

/-- LDED, rule R205: the word at EA to E first, the word at EA + 2 to D; no flag. -/
def execLded (hhll : Word) (s : State) : Out :=
  commit ((read16 s .data (eaExt s hhll)).bind fun v s => (read16 { s with e := v } .data (eaExt s hhll + 2#20)).bind fun w s =>
    .ok () ((s.withD w).advance 4))

/-- MOVB, rule R206: byte move; the IXP operand is post-modified. -/
def execMovb (o : Move) (s : State) : Out :=
  moveByte s (moveAddrs s o).1 (moveAddrs s o).2 (fun t => movePost t o) o.length

/-- MOVW, rule R207: word move; the IXP operand is post-modified. -/
def execMovw (o : Move) (s : State) : Out :=
  moveWord s (moveAddrs s o).1 (moveAddrs s o).2 (fun t => movePost t o) o.length

/-- STAA, rule R208: (A) to M. -/
def execStaa (m : MemE) (s : State) : Out :=
  storeByte s (eaM s m) s.a m.length

/-- STAB, rule R209: (B) to M. -/
def execStab (m : MemE) (s : State) : Out :=
  storeByte s (eaM s m) s.b m.length

/-- STD, rule R210: (D) to M : M + 1. -/
def execStd (m : MemE) (s : State) : Out :=
  storeWord s (eaM s m) s.d m.length

/-- STE, rule R211: (E) to M : M + 1. -/
def execSte (m : MemW) (s : State) : Out :=
  storeWord s (eaW s m) s.e m.length

/-- STED, rule R212: E at EA, then D at EA + 2; no flag. -/
def execSted (hhll : Word) (s : State) : Out :=
  commit ((write16 true s (eaExt s hhll) s.e).bind fun _ s => (write16 true s (eaExt s hhll + 2#20) s.d).bind fun _ s => .ok () (s.advance 4))

/-- TAB, rule R213: (A) to B. -/
def execTab (s : State) : Out :=
  inherent s fun s => putB s (s.a, flagsNZV s.ccr s.a)

/-- TBA, rule R214: (B) to A. -/
def execTba (s : State) : Out :=
  inherent s fun s => putA s (s.b, flagsNZV s.ccr s.b)

/-- TDE, rule R215: (D) to E. -/
def execTde (s : State) : Out :=
  inherent s fun s => putE s (s.d, flagsNZV s.ccr s.d)

/-- TED, rule R216: (E) to D. -/
def execTed (s : State) : Out :=
  inherent s fun s => putD s (s.e, flagsNZV s.ccr s.e)

/-- XGAB, rule R217: exchange A and B; no flag. -/
def execXgab (s : State) : Out :=
  inherent s fun s => { s with a := s.b, b := s.a }

/-- XGDE, rule R218: exchange D and E; no flag. -/
def execXgde (s : State) : Out :=
  inherent s fun s => { s.withD s.e with e := s.d }

end Sys2Proof.Machine
end

