-- ==== Sys2Proof/Machine/Dsp.lean ====
section
/-! DEFINITION. The multiply and accumulate unit (47_dsp.md): one meaning for each instruction of the family, over the shared operations. -/

namespace Sys2Proof.Machine

/-- The default of MAC_QUALIFY, rule R560 (e): the address bits whose mask bit is 1 take the incremented value, the others keep theirs. The spec marks the
formula as of low confidence (PRESUMED, log entry 14). -/
def standardQualify (r : Word) (off : Nib) (msk : Byte) : Word :=
  let m : Word := msk.setWidth 16
  let o : Word := off.signExtend 16
  (r &&& ~~~m) ||| ((r + o) &&& m)

/-- MAC_QUALIFY (R9, R560 (e)): the formula the platform names. -/
def qualify (p : Platform) (r : Word) (off : Nib) (msk : Byte) : Word :=
  match p.macQualify with
  | .standard => standardQualify r off msk
  | .other n => Config.macQualify n r off msk

/-- A field in its place in word `k`, zeros around it; nothing when it stands in another word. -/
def Slot.place {w : Nat} (p : Slot) (k : Nat) (v : BitVec w) : Word := if p.word = k then v.setWidth 16 <<< p.lo else 0

/-- The field that word `k` holds, or the old value when it stands in another word. -/
def Slot.take {w : Nat} (p : Slot) (k : Nat) (v : Word) (old : BitVec w) : BitVec w := if p.word = k then (v >>> p.lo).setWidth w else old

/-- Word `k` of the PSHMAC frame, where no two fields overlap (MAC_FRAME, rule R568). -/
def macFrameWord (s : State) (k : Nat) : Word :=
  let f := s.plat.macFrame
  f.hr.place k s.hr ||| f.ir.place k s.ir ||| f.amLow.place k (s.am.extractLsb' 0 16 : Word) ||| f.amMid.place k (s.am.extractLsb' 16 16 : Word) |||
    f.amHigh.place k (s.am.extractLsb' 32 4 : Nib) ||| f.sl.place k (BitVec.ofBool s.sl) ||| f.xmsk.place k s.xmsk ||| f.ymsk.place k s.ymsk

/-- The words of the PSHMAC frame, first pushed first. -/
def macFrame (s : State) : List Word := (List.range s.plat.macFrame.words).map (macFrameWord s)

/-- What word `k` of the frame loads (R569). -/
def loadFrameWord (k : Nat) (s : State) (v : Word) : State :=
  let f := s.plat.macFrame
  { s with
    hr := f.hr.take k v s.hr
    ir := f.ir.take k v s.ir
    am := f.amHigh.take k v (s.am.extractLsb' 32 4 : Nib) ++
      (f.amMid.take k v (s.am.extractLsb' 16 16 : Word) ++ f.amLow.take k v (s.am.extractLsb' 0 16 : Word))
    sl := (f.sl.take k v (BitVec.ofBool s.sl)).getLsbD 0
    xmsk := f.xmsk.take k v s.xmsk
    ymsk := f.ymsk.take k v s.ymsk }

/-- `AmAdd` with its flags (R560 (a), (c), (f)): the exact sum cut to 36 bits; EV by the 32-bit test; on an overflow out of 36 bits MV is set, and SL takes
the sign of the exact sum if MV was clear. MV is not cleared here. -/
def macAdd (s : State) (x : Int) : State :=
  let t := s.am.toInt + x
  let r : Acc36 := BitVec.ofInt 36 t
  { s with
    am := r
    sl := if ovf36 t && !s.ccr.mv then decide (t < 0) else s.sl
    ccr := { s.ccr with mv := s.ccr.mv || ovf36 t, ev := evTest r } }

/-- AM replaced by a value that fits 32 bits; EV and MV cleared (R565, R572, R573). -/
def loadAM (s : State) (v : Acc36) : State := { s with am := v, ccr := { s.ccr with ev := false, mv := false } }

/-- The word at XK : IX to HR (R566). -/
def loadHR (s : State) : Bus Unit := (read16 s .data s.x20).bind fun v s => .ok () { s with hr := v }

/-- The word at YK : IY to IR (R566). -/
def loadIR (s : State) : Bus Unit := (read16 s .data s.y20).bind fun v s => .ok () { s with ir := v }

/-- IX and IY by modulo addressing; XK and YK never change (R560 (e)). -/
def macQualifyBoth (s : State) (xo yo : Nib) : State :=
  { s with ix := qualify s.plat s.ix xo s.xmsk, iy := qualify s.plat s.iy yo s.ymsk }

/-- One RMAC pass up to the decrement of E (R570). `v` says that an earlier pass multiplied -1 by -1. -/
def rmacPass (s : State) (v : Bool) (xo yo : Nib) : Bus Unit :=
  let p := fracMul s.hr s.ir
  let v' := v || bothMinusOne s.hr s.ir
  let t := macAdd s p.toInt
  let t := macQualifyBoth (t.withCCR { t.ccr with v := v' }) xo yo
  (loadHR t).bind fun _ t => (loadIR t).bind fun _ t => .ok () { t with e := t.e - 1#16 }

/-- With RMAC_INTERRUPTIBLE, and where this RMAC does not follow ANDP, ORP, TAP or TDP (R662), the next step would take an interrupt: RMAC then stops between
passes with its own address as the resume address (R570). -/
def rmacYields (s : State) : Bool :=
  match s.inputs with
  | [] => false
  | h :: _ => s.plat.rmacInterruptible && !s.heldOff && !h.reset && !h.bkpt && recognised s h.irq

/-- Repeat until E is negative (R570). At most 65536 decrements lie before a negative value, so the fuel never runs out. -/
def rmacLoop (fuel : Nat) (s : State) (v : Bool) (xo yo : Nib) : Bus Unit :=
  match fuel with
  | 0 => .ok () (s.advance 2)
  | k + 1 =>
    let v' := v || bothMinusOne s.hr s.ir
    (rmacPass s v xo yo).bind fun _ s =>
      if s.e.msb then .ok () (s.advance 2)
      else if rmacYields s then .ok () s
      else rmacLoop k s v' xo yo

/-- Push words in order (R568). -/
def pushAll (s : State) : List Word → Bus Unit
  | [] => .ok () s
  | w :: ws => (push16 true s w).bind fun _ s => pushAll s ws

/-- What the words of the frame load, last pushed first (R569). -/
def pulmacWrites (f : MacFrame) : List (State → Word → State) := (List.range f.words).reverse.map loadFrameWord

/-- Pull a word into each register; each is loaded before the next is pulled. -/
def pullEach (s : State) : List (State → Word → State) → Bus Unit
  | [] => .ok () s
  | f :: fs => (pull16 s).bind fun v s => pullEach (f s v) fs

/-- ACE, rule R561: sign-extended E into AM[35:16]; EV, MV sticky. -/
def execAce (s : State) : Out :=
  inherent s fun s => macAdd s (s.e.toInt * 65536)

/-- ACED, rule R562: E : D into AM; EV, MV set or cleared (C14). -/
def execAced (s : State) : Out :=
  let t := s.am.toInt + s.ed.toInt
  inherent s fun s => (macAdd s s.ed.toInt).withCCR { (macAdd s s.ed.toInt).ccr with mv := ovf36 t }

/-- ASLM, rule R563: AM doubled; C the old AM35, N the new; EV, MV sticky. -/
def execAslm (s : State) : Out :=
  let c := s.am.msb
  inherent s fun s =>
    let t := macAdd s s.am.toInt
    t.withCCR { t.ccr with c := c, n := t.am.msb }

/-- ASRM, rule R564: AM halved keeping its sign; C the old AM0, N, EV; MV not affected. -/
def execAsrm (s : State) : Out :=
  inherent s fun s =>
    let r := s.am.sshiftRight 1
    { s with am := r, ccr := { s.ccr with c := s.am.getLsbD 0, n := r.msb, ev := evTest r } }

/-- CLRM, rule R565: 0 to AM; EV and MV cleared. -/
def execClrm (s : State) : Out :=
  inherent s fun s => loadAM s 0

/-- LDHI, rule R566: the word at XK : IX to HR, then the word at YK : IY to IR. -/
def execLdhi (s : State) : Out :=
  commit ((loadHR s).bind fun _ s => (loadIR s).bind fun _ s => .ok () (s.advance 2))

/-- MAC, rule R567: the seven steps of the table in order. -/
def execMac (xo yo : Nib) (s : State) : Out :=
  let p := fracMul s.hr s.ir
  let v := bothMinusOne s.hr s.ir
  let t := macAdd (s.withED p) p.toInt
  let t := macQualifyBoth (t.withCCR { t.ccr with v := v }) xo yo
  let t := { t with iz := s.hr }
  commit ((loadHR t).bind fun _ t => (loadIR t).bind fun _ t => .ok () (t.advance 2))

/-- PSHMAC, rule R568: push the words of MAC_FRAME. -/
def execPshmac (s : State) : Out :=
  commit ((pushAll s (macFrame s)).bind fun _ s => .ok () (s.advance 2))

/-- PULMAC, rule R569: pull the words of MAC_FRAME, last pushed first. -/
def execPulmac (s : State) : Out :=
  commit ((pullEach s (pulmacWrites s.plat.macFrame)).bind fun _ s => .ok () (s.advance 2))

/-- RMAC, rule R570: multiply-accumulate passes until E goes negative, at least one. -/
def execRmac (xo yo : Nib) (s : State) : Out :=
  commit (rmacLoop 65536 s false xo yo)

/-- TDMSK, rule R571: D[15:8] to XMSK, D[7:0] to YMSK. -/
def execTdmsk (s : State) : Out :=
  inherent s fun s => { s with xmsk := s.a, ymsk := s.b }

/-- TEDM, rule R572: E : D, sign-extended, to AM; EV and MV cleared. -/
def execTedm (s : State) : Out :=
  inherent s fun s => loadAM s (s.ed.signExtend 36)

/-- TEM, rule R573: E to AM[31:16], sign-extended, low word cleared; EV and MV cleared. -/
def execTem (s : State) : Out :=
  inherent s fun s => loadAM s ((s.e ++ (0 : Word) : Long).signExtend 36)

/-- TMER, rule R574: AM rounded, saturated when SM and EV or MV, to E; EV and MV of the rounding. -/
def execTmer (s : State) : Out :=
  let t := roundAM s.am
  let temp : Acc36 := BitVec.ofInt 36 t
  let ev := evTest temp
  let mv := s.ccr.mv || decide (2 ^ 35 ≤ t)
  let v : Word := if s.ccr.sm && (ev || mv) then satValue mv s.sl temp else temp.extractLsb' 16 16
  inherent s fun s => { s with e := v, ccr := { flagsNZ s.ccr v with ev := ev, mv := mv } }

/-- TMET, rule R575: AM truncated, saturated when SM and EV or MV, to E. -/
def execTmet (s : State) : Out :=
  let v : Word := if s.ccr.sm && (s.ccr.ev || s.ccr.mv) then satValue s.ccr.mv s.sl s.am else s.am.extractLsb' 16 16
  inherent s fun s => { s with e := v, ccr := flagsNZ s.ccr v }

/-- TMXED, rule R576: AM, sign-extended, to IX : E : D; no flag. -/
def execTmxed (s : State) : Out :=
  inherent s fun s =>
    { s.withD (s.am.extractLsb' 0 16) with ix := (s.am.extractLsb' 32 4 : Nib).signExtend 16, e := s.am.extractLsb' 16 16 }

end Sys2Proof.Machine
end

