-- ==== Sys2Proof/Machine/Index.lean ====
section
/-! DEFINITION. Index registers and address extension fields (45_index_extension.md): one meaning for each instruction of the family, over the shared operations. -/

namespace Sys2Proof.Machine

/-- ABX, rule R461: XK : IX + zero-extended B; no flag. -/
def execAbx (s : State) : Out :=
  inherent s fun s => s.withX20 (s.x20 + s.b.setWidth 20)

/-- ABY, rule R462: YK : IY + zero-extended B; no flag. -/
def execAby (s : State) : Out :=
  inherent s fun s => s.withY20 (s.y20 + s.b.setWidth 20)

/-- ABZ, rule R463: ZK : IZ + zero-extended B; no flag. -/
def execAbz (s : State) : Out :=
  inherent s fun s => s.withZ20 (s.z20 + s.b.setWidth 20)

/-- ADX, rule R464: XK : IX + sign-extended D; no flag. -/
def execAdx (s : State) : Out :=
  inherent s fun s => s.withX20 (s.x20 + s.d.signExtend 20)

/-- ADY, rule R465: YK : IY + sign-extended D; no flag. -/
def execAdy (s : State) : Out :=
  inherent s fun s => s.withY20 (s.y20 + s.d.signExtend 20)

/-- ADZ, rule R466: ZK : IZ + sign-extended D; no flag. -/
def execAdz (s : State) : Out :=
  inherent s fun s => s.withZ20 (s.z20 + s.d.signExtend 20)

/-- AEX, rule R467: XK : IX + sign-extended E; no flag. -/
def execAex (s : State) : Out :=
  inherent s fun s => s.withX20 (s.x20 + s.e.signExtend 20)

/-- AEY, rule R468: YK : IY + sign-extended E; no flag. -/
def execAey (s : State) : Out :=
  inherent s fun s => s.withY20 (s.y20 + s.e.signExtend 20)

/-- AEZ, rule R469: ZK : IZ + sign-extended E; no flag. -/
def execAez (s : State) : Out :=
  inherent s fun s => s.withZ20 (s.z20 + s.e.signExtend 20)

/-- AIX, rule R470: XK : IX + sign-extended immediate; Z of the 16-bit register. -/
def execAix (o : Imm) (s : State) : Out :=
  let t := s.withX20 (s.x20 + imm20 o)
  .next ((t.withCCR { t.ccr with z := t.ix == 0#16 }).advance o.length)

/-- AIY, rule R471: YK : IY + sign-extended immediate; Z of the 16-bit register. -/
def execAiy (o : Imm) (s : State) : Out :=
  let t := s.withY20 (s.y20 + imm20 o)
  .next ((t.withCCR { t.ccr with z := t.iy == 0#16 }).advance o.length)

/-- AIZ, rule R472: ZK : IZ + sign-extended immediate; Z of the 16-bit register. -/
def execAiz (o : Imm) (s : State) : Out :=
  let t := s.withZ20 (s.z20 + imm20 o)
  .next ((t.withCCR { t.ccr with z := t.iz == 0#16 }).advance o.length)

/-- CPX, rule R473: (IX) - operand, flags only; XK takes no part. -/
def execCpx (o : SrcX) (s : State) : Out :=
  useOperand (operandX s o) o.length fun s m => s.withCCR (subFlags s.ccr s.ix m false).2

/-- CPY, rule R474: (IY) - operand, flags only; YK takes no part. -/
def execCpy (o : SrcX) (s : State) : Out :=
  useOperand (operandX s o) o.length fun s m => s.withCCR (subFlags s.ccr s.iy m false).2

/-- CPZ, rule R475: (IZ) - operand, flags only; ZK takes no part. -/
def execCpz (o : SrcX) (s : State) : Out :=
  useOperand (operandX s o) o.length fun s m => s.withCCR (subFlags s.ccr s.iz m false).2

/-- LDX, rule R476: operand to IX; XK stays. -/
def execLdx (o : SrcX) (s : State) : Out :=
  useOperand (operandX s o) o.length fun s v => { s with ix := v, ccr := flagsNZV s.ccr v }

/-- LDY, rule R477: operand to IY; YK stays. -/
def execLdy (o : SrcX) (s : State) : Out :=
  useOperand (operandX s o) o.length fun s v => { s with iy := v, ccr := flagsNZV s.ccr v }

/-- LDZ, rule R478: operand to IZ; ZK stays. -/
def execLdz (o : SrcX) (s : State) : Out :=
  useOperand (operandX s o) o.length fun s v => { s with iz := v, ccr := flagsNZV s.ccr v }

/-- STX, rule R479: (IX) to M : M + 1. -/
def execStx (m : MemB) (s : State) : Out :=
  storeWord s (eaB s m) s.ix m.length

/-- STY, rule R480: (IY) to M : M + 1. -/
def execSty (m : MemB) (s : State) : Out :=
  storeWord s (eaB s m) s.iy m.length

/-- STZ, rule R481: (IZ) to M : M + 1. -/
def execStz (m : MemB) (s : State) : Out :=
  storeWord s (eaB s m) s.iz m.length

/-- TSX, rule R482: (SK : SP) + 2 to XK : IX. -/
def execTsx (s : State) : Out :=
  inherent s fun s => s.withX20 (s.sp20 + 2#20)

/-- TSY, rule R483: (SK : SP) + 2 to YK : IY. -/
def execTsy (s : State) : Out :=
  inherent s fun s => s.withY20 (s.sp20 + 2#20)

/-- TSZ, rule R484: (SK : SP) + 2 to ZK : IZ. -/
def execTsz (s : State) : Out :=
  inherent s fun s => s.withZ20 (s.sp20 + 2#20)

/-- TXS, rule R485: (XK : IX) - 2 to SK : SP. -/
def execTxs (s : State) : Out :=
  inherent s fun s => s.withSP20 (s.x20 - 2#20)

/-- TXY, rule R486: (XK : IX) to YK : IY. -/
def execTxy (s : State) : Out :=
  inherent s fun s => s.withY20 s.x20

/-- TXZ, rule R487: (XK : IX) to ZK : IZ. -/
def execTxz (s : State) : Out :=
  inherent s fun s => s.withZ20 s.x20

/-- TYS, rule R488: (YK : IY) - 2 to SK : SP. -/
def execTys (s : State) : Out :=
  inherent s fun s => s.withSP20 (s.y20 - 2#20)

/-- TYX, rule R489: (YK : IY) to XK : IX. -/
def execTyx (s : State) : Out :=
  inherent s fun s => s.withX20 s.y20

/-- TYZ, rule R490: (YK : IY) to ZK : IZ. -/
def execTyz (s : State) : Out :=
  inherent s fun s => s.withZ20 s.y20

/-- TZS, rule R491: (ZK : IZ) - 2 to SK : SP. -/
def execTzs (s : State) : Out :=
  inherent s fun s => s.withSP20 (s.z20 - 2#20)

/-- TZX, rule R492: (ZK : IZ) to XK : IX. -/
def execTzx (s : State) : Out :=
  inherent s fun s => s.withX20 s.z20

/-- TZY, rule R493: (ZK : IZ) to YK : IY. -/
def execTzy (s : State) : Out :=
  inherent s fun s => s.withY20 s.z20

/-- XGDX, rule R494: exchange D and IX; XK stays. -/
def execXgdx (s : State) : Out :=
  inherent s fun s => { s.withD s.ix with ix := s.d }

/-- XGDY, rule R495: exchange D and IY; YK stays. -/
def execXgdy (s : State) : Out :=
  inherent s fun s => { s.withD s.iy with iy := s.d }

/-- XGDZ, rule R496: exchange D and IZ; ZK stays. -/
def execXgdz (s : State) : Out :=
  inherent s fun s => { s.withD s.iz with iz := s.d }

/-- XGEX, rule R497: exchange E and IX; XK stays. -/
def execXgex (s : State) : Out :=
  inherent s fun s => { s with e := s.ix, ix := s.e }

/-- XGEY, rule R498: exchange E and IY; YK stays. -/
def execXgey (s : State) : Out :=
  inherent s fun s => { s with e := s.iy, iy := s.e }

/-- XGEZ, rule R499: exchange E and IZ; ZK stays. -/
def execXgez (s : State) : Out :=
  inherent s fun s => { s with e := s.iz, iz := s.e }

/-- TBEK, rule R500: B[3:0] to EK. -/
def execTbek (s : State) : Out :=
  inherent s fun s => { s with ek := loNib s.b }

/-- TBSK, rule R501: B[3:0] to SK. -/
def execTbsk (s : State) : Out :=
  inherent s fun s => { s with sk := loNib s.b }

/-- TBXK, rule R502: B[3:0] to XK. -/
def execTbxk (s : State) : Out :=
  inherent s fun s => { s with xk := loNib s.b }

/-- TBYK, rule R503: B[3:0] to YK. -/
def execTbyk (s : State) : Out :=
  inherent s fun s => { s with yk := loNib s.b }

/-- TBZK, rule R504: B[3:0] to ZK. -/
def execTbzk (s : State) : Out :=
  inherent s fun s => { s with zk := loNib s.b }

/-- TEKB, rule R505: EK, zero-extended, to B. -/
def execTekb (s : State) : Out :=
  inherent s fun s => { s with b := s.ek.setWidth 8 }

/-- TSKB, rule R506: SK, zero-extended, to B. -/
def execTskb (s : State) : Out :=
  inherent s fun s => { s with b := s.sk.setWidth 8 }

/-- TXKB, rule R507: XK, zero-extended, to B. -/
def execTxkb (s : State) : Out :=
  inherent s fun s => { s with b := s.xk.setWidth 8 }

/-- TYKB, rule R508: YK, zero-extended, to B. -/
def execTykb (s : State) : Out :=
  inherent s fun s => { s with b := s.yk.setWidth 8 }

/-- TZKB, rule R509: ZK, zero-extended, to B. -/
def execTzkb (s : State) : Out :=
  inherent s fun s => { s with b := s.zk.setWidth 8 }

end Sys2Proof.Machine
end

