-- ==== Sys2Proof/Machine/Logic.lean ====
section
/-! DEFINITION. Clear, complement, negate, Boolean logic, bit manipulation, shift and rotate (43_logic_bit_shift.md): one meaning for each instruction of the family, over the shared operations. -/

namespace Sys2Proof.Machine

/-- CLR, rule R301: 0 to M, no read. -/
def execClr (m : MemB) (s : State) : Out :=
  clearByte s (eaB s m) m.length

/-- CLRA, rule R302: 0 to A. -/
def execClra (s : State) : Out :=
  inherent s fun s => putA s (0, flagsClr s.ccr)

/-- CLRB, rule R303: 0 to B. -/
def execClrb (s : State) : Out :=
  inherent s fun s => putB s (0, flagsClr s.ccr)

/-- CLRD, rule R304: 0 to D. -/
def execClrd (s : State) : Out :=
  inherent s fun s => putD s (0, flagsClr s.ccr)

/-- CLRE, rule R305: 0 to E. -/
def execClre (s : State) : Out :=
  inherent s fun s => putE s (0, flagsClr s.ccr)

/-- CLRW, rule R306: 0 to M : M + 1, no read. -/
def execClrw (m : MemW) (s : State) : Out :=
  clearWord s (eaW s m) m.length

/-- COM, rule R307: one's complement, byte in memory. -/
def execCom (m : MemB) (s : State) : Out :=
  modifyByte s (eaB s m) m.length comFlags

/-- COMA, rule R308: one's complement of A. -/
def execComa (s : State) : Out :=
  inherent s fun s => putA s (comFlags s.ccr s.a)

/-- COMB, rule R309: one's complement of B. -/
def execComb (s : State) : Out :=
  inherent s fun s => putB s (comFlags s.ccr s.b)

/-- COMD, rule R310: one's complement of D. -/
def execComd (s : State) : Out :=
  inherent s fun s => putD s (comFlags s.ccr s.d)

/-- COME, rule R311: one's complement of E. -/
def execCome (s : State) : Out :=
  inherent s fun s => putE s (comFlags s.ccr s.e)

/-- COMW, rule R312: one's complement, word in memory. -/
def execComw (m : MemW) (s : State) : Out :=
  modifyWord s (eaW s m) m.length comFlags

/-- NEG, rule R313: two's complement, byte in memory. -/
def execNeg (m : MemB) (s : State) : Out :=
  modifyByte s (eaB s m) m.length negFlags

/-- NEGA, rule R314: two's complement of A. -/
def execNega (s : State) : Out :=
  inherent s fun s => putA s (negFlags s.ccr s.a)

/-- NEGB, rule R315: two's complement of B. -/
def execNegb (s : State) : Out :=
  inherent s fun s => putB s (negFlags s.ccr s.b)

/-- NEGD, rule R316: two's complement of D. -/
def execNegd (s : State) : Out :=
  inherent s fun s => putD s (negFlags s.ccr s.d)

/-- NEGE, rule R317: two's complement of E. -/
def execNege (s : State) : Out :=
  inherent s fun s => putE s (negFlags s.ccr s.e)

/-- NEGW, rule R318: two's complement, word in memory. -/
def execNegw (m : MemW) (s : State) : Out :=
  modifyWord s (eaW s m) m.length negFlags

/-- ANDA, rule R319: (A) and operand to A; N, Z, V cleared. -/
def execAnda (o : Src8) (s : State) : Out :=
  useOperand (operand8 s o) o.length fun s m => putA s (logicFlags s.ccr (s.a &&& m))

/-- ANDB, rule R320: (B) and operand to B; N, Z, V cleared. -/
def execAndb (o : Src8) (s : State) : Out :=
  useOperand (operand8 s o) o.length fun s m => putB s (logicFlags s.ccr (s.b &&& m))

/-- ANDD, rule R321: (D) and operand to D; N, Z, V cleared. -/
def execAndd (o : SrcD) (s : State) : Out :=
  useOperand (operandD s o) o.length fun s m => putD s (logicFlags s.ccr (s.d &&& m))

/-- ANDE, rule R322: (E) and operand to E; N, Z, V cleared. -/
def execAnde (o : SrcE) (s : State) : Out :=
  useOperand (operandE s o) o.length fun s m => putE s (logicFlags s.ccr (s.e &&& m))

/-- EORA, rule R323: (A) xor operand to A; N, Z, V cleared. -/
def execEora (o : Src8) (s : State) : Out :=
  useOperand (operand8 s o) o.length fun s m => putA s (logicFlags s.ccr (s.a ^^^ m))

/-- EORB, rule R324: (B) xor operand to B; N, Z, V cleared. -/
def execEorb (o : Src8) (s : State) : Out :=
  useOperand (operand8 s o) o.length fun s m => putB s (logicFlags s.ccr (s.b ^^^ m))

/-- EORD, rule R325: (D) xor operand to D; N, Z, V cleared. -/
def execEord (o : SrcD) (s : State) : Out :=
  useOperand (operandD s o) o.length fun s m => putD s (logicFlags s.ccr (s.d ^^^ m))

/-- EORE, rule R326: (E) xor operand to E; N, Z, V cleared. -/
def execEore (o : SrcE) (s : State) : Out :=
  useOperand (operandE s o) o.length fun s m => putE s (logicFlags s.ccr (s.e ^^^ m))

/-- ORAA, rule R327: (A) or operand to A; N, Z, V cleared. -/
def execOraa (o : Src8) (s : State) : Out :=
  useOperand (operand8 s o) o.length fun s m => putA s (logicFlags s.ccr (s.a ||| m))

/-- ORAB, rule R328: (B) or operand to B; N, Z, V cleared. -/
def execOrab (o : Src8) (s : State) : Out :=
  useOperand (operand8 s o) o.length fun s m => putB s (logicFlags s.ccr (s.b ||| m))

/-- ORD, rule R329: (D) or operand to D; N, Z, V cleared. -/
def execOrd (o : SrcD) (s : State) : Out :=
  useOperand (operandD s o) o.length fun s m => putD s (logicFlags s.ccr (s.d ||| m))

/-- ORE, rule R330: (E) or operand to E; N, Z, V cleared. -/
def execOre (o : SrcE) (s : State) : Out :=
  useOperand (operandE s o) o.length fun s m => putE s (logicFlags s.ccr (s.e ||| m))

/-- BITA, rule R331: (A) and operand, flags only. -/
def execBita (o : Src8) (s : State) : Out :=
  useOperand (operand8 s o) o.length fun s m => s.withCCR (flagsNZV s.ccr (s.a &&& m))

/-- BITB, rule R332: (B) and operand, flags only. -/
def execBitb (o : Src8) (s : State) : Out :=
  useOperand (operand8 s o) o.length fun s m => s.withCCR (flagsNZV s.ccr (s.b &&& m))

/-- BCLR, rule R333: clear the bits the mask selects (C7). -/
def execBclr (mm : Byte) (m : MemB) (s : State) : Out :=
  modifyByte s (eaB s m) 4 fun c v => logicFlags c (v &&& ~~~mm)

/-- BCLRW, rule R334: clear the bits the mask selects (C7). -/
def execBclrw (mmmm : Word) (m : MemW) (s : State) : Out :=
  modifyWord s (eaW s m) 6 fun c v => logicFlags c (v &&& ~~~mmmm)

/-- BSET, rule R335: set the bits the mask selects. -/
def execBset (mm : Byte) (m : MemB) (s : State) : Out :=
  modifyByte s (eaB s m) 4 fun c v => logicFlags c (v ||| mm)

/-- BSETW, rule R336: set the bits the mask selects. -/
def execBsetw (mmmm : Word) (m : MemW) (s : State) : Out :=
  modifyWord s (eaW s m) 6 fun c v => logicFlags c (v ||| mmmm)

/-- LSR, rule R337: logic shift right, byte in memory. -/
def execLsr (m : MemB) (s : State) : Out :=
  modifyByte s (eaB s m) m.length lsrFlags

/-- LSRA, rule R338: logic shift right, A. -/
def execLsra (s : State) : Out :=
  inherent s fun s => putA s (lsrFlags s.ccr s.a)

/-- LSRB, rule R339: logic shift right, B. -/
def execLsrb (s : State) : Out :=
  inherent s fun s => putB s (lsrFlags s.ccr s.b)

/-- LSRD, rule R340: logic shift right, D. -/
def execLsrd (s : State) : Out :=
  inherent s fun s => putD s (lsrFlags s.ccr s.d)

/-- LSRE, rule R341: logic shift right, E. -/
def execLsre (s : State) : Out :=
  inherent s fun s => putE s (lsrFlags s.ccr s.e)

/-- LSRW, rule R342: logic shift right, word in memory. -/
def execLsrw (m : MemW) (s : State) : Out :=
  modifyWord s (eaW s m) m.length lsrFlags

/-- ASL, rule R343: arithmetic shift left, byte in memory. -/
def execAsl (m : MemB) (s : State) : Out :=
  modifyByte s (eaB s m) m.length aslFlags

/-- ASLA, rule R344: arithmetic shift left, A. -/
def execAsla (s : State) : Out :=
  inherent s fun s => putA s (aslFlags s.ccr s.a)

/-- ASLB, rule R345: arithmetic shift left, B. -/
def execAslb (s : State) : Out :=
  inherent s fun s => putB s (aslFlags s.ccr s.b)

/-- ASLD, rule R346: arithmetic shift left, D. -/
def execAsld (s : State) : Out :=
  inherent s fun s => putD s (aslFlags s.ccr s.d)

/-- ASLE, rule R347: arithmetic shift left, E. -/
def execAsle (s : State) : Out :=
  inherent s fun s => putE s (aslFlags s.ccr s.e)

/-- ASLW, rule R348: arithmetic shift left, word in memory. -/
def execAslw (m : MemW) (s : State) : Out :=
  modifyWord s (eaW s m) m.length aslFlags

/-- ASR, rule R349: arithmetic shift right, byte in memory. -/
def execAsr (m : MemB) (s : State) : Out :=
  modifyByte s (eaB s m) m.length asrFlags

/-- ASRA, rule R350: arithmetic shift right, A. -/
def execAsra (s : State) : Out :=
  inherent s fun s => putA s (asrFlags s.ccr s.a)

/-- ASRB, rule R351: arithmetic shift right, B. -/
def execAsrb (s : State) : Out :=
  inherent s fun s => putB s (asrFlags s.ccr s.b)

/-- ASRD, rule R352: arithmetic shift right, D. -/
def execAsrd (s : State) : Out :=
  inherent s fun s => putD s (asrFlags s.ccr s.d)

/-- ASRE, rule R353: arithmetic shift right, E. -/
def execAsre (s : State) : Out :=
  inherent s fun s => putE s (asrFlags s.ccr s.e)

/-- ASRW, rule R354: arithmetic shift right, word in memory. -/
def execAsrw (m : MemW) (s : State) : Out :=
  modifyWord s (eaW s m) m.length asrFlags

/-- ROL, rule R355: rotate left through C, byte in memory. -/
def execRol (m : MemB) (s : State) : Out :=
  modifyByte s (eaB s m) m.length rolFlags

/-- ROLA, rule R356: rotate left through C, A. -/
def execRola (s : State) : Out :=
  inherent s fun s => putA s (rolFlags s.ccr s.a)

/-- ROLB, rule R357: rotate left through C, B. -/
def execRolb (s : State) : Out :=
  inherent s fun s => putB s (rolFlags s.ccr s.b)

/-- ROLD, rule R358: rotate left through C, D. -/
def execRold (s : State) : Out :=
  inherent s fun s => putD s (rolFlags s.ccr s.d)

/-- ROLE, rule R359: rotate left through C, E. -/
def execRole (s : State) : Out :=
  inherent s fun s => putE s (rolFlags s.ccr s.e)

/-- ROLW, rule R360: rotate left through C, word in memory. -/
def execRolw (m : MemW) (s : State) : Out :=
  modifyWord s (eaW s m) m.length rolFlags

/-- ROR, rule R361: rotate right through C, byte in memory. -/
def execRor (m : MemB) (s : State) : Out :=
  modifyByte s (eaB s m) m.length rorFlags

/-- RORA, rule R362: rotate right through C, A. -/
def execRora (s : State) : Out :=
  inherent s fun s => putA s (rorFlags s.ccr s.a)

/-- RORB, rule R363: rotate right through C, B. -/
def execRorb (s : State) : Out :=
  inherent s fun s => putB s (rorFlags s.ccr s.b)

/-- RORD, rule R364: rotate right through C, D. -/
def execRord (s : State) : Out :=
  inherent s fun s => putD s (rorFlags s.ccr s.d)

/-- RORE, rule R365: rotate right through C, E. -/
def execRore (s : State) : Out :=
  inherent s fun s => putE s (rorFlags s.ccr s.e)

/-- RORW, rule R366: rotate right through C, word in memory. -/
def execRorw (m : MemW) (s : State) : Out :=
  modifyWord s (eaW s m) m.length rorFlags

end Sys2Proof.Machine
end

