-- ==== Sys2Proof/Machine/Stack.lean ====
section
/-! DEFINITION. Stack pointer, stack operations and condition codes (46_stack_ccr.md): one meaning for each instruction of the family, over the shared operations. -/

namespace Sys2Proof.Machine

/-- The registers of PSHM mask bits 0 to 6 as words: D, E, IX, IY, IZ, K, CCR (R537). -/
def pshmWords (s : State) : List Word := [s.d, s.e, s.ix, s.iy, s.iz, s.k, s.ccrSeen]

/-- Push the words whose mask bit is set, from bit 0 up. -/
def pushSelected (s : State) (mask : Byte) : List Word → Bus Unit
  | [] => .ok () s
  | w :: ws =>
    if mask.getLsbD 0 then (push16 true s w).bind fun _ s => pushSelected s (mask >>> 1) ws
    else pushSelected s (mask >>> 1) ws

/-- What PULM mask bits 0 to 6 load: CCR[15:4], K, IZ, IY, IX, E, D (R540). -/
def pulmWrites : List (State → Word → State) :=
  [fun s v => s.withCCR (CCR.ofWord v), State.withK, fun s v => { s with iz := v }, fun s v => { s with iy := v },
   fun s v => { s with ix := v }, fun s v => { s with e := v }, State.withD]

/-- Pull a word into each register whose mask bit is set, from bit 0 up; each is loaded before the next is pulled. -/
def pullSelected (s : State) (mask : Byte) : List (State → Word → State) → Bus Unit
  | [] => .ok () s
  | f :: fs =>
    if mask.getLsbD 0 then (pull16 s).bind fun v s => pullSelected (f s v) (mask >>> 1) fs
    else pullSelected s (mask >>> 1) fs

/-- AIS, rule R531: SK : SP + sign-extended immediate; no flag. -/
def execAis (o : Imm) (s : State) : Out :=
  .next ((s.withSP20 (s.sp20 + imm20 o)).advance o.length)

/-- CPS, rule R532: (SP) - operand, flags only. -/
def execCps (o : SrcX) (s : State) : Out :=
  useOperand (operandX s o) o.length fun s m => s.withCCR (subFlags s.ccr s.sp m false).2

/-- LDS, rule R533: operand to SP; SK stays. -/
def execLds (o : SrcX) (s : State) : Out :=
  useOperand (operandX s o) o.length fun s v => { s with sp := v, ccr := flagsNZV s.ccr v }

/-- STS, rule R534: (SP) to M : M + 1. -/
def execSts (m : MemB) (s : State) : Out :=
  storeWord s (eaB s m) s.sp m.length

/-- PSHA, rule R535: push A. -/
def execPsha (s : State) : Out :=
  commit ((push8 s s.a).bind fun _ s => .ok () (s.advance 2))

/-- PSHB, rule R536: push B. -/
def execPshb (s : State) : Out :=
  commit ((push8 s s.b).bind fun _ s => .ok () (s.advance 2))

/-- PSHM, rule R537: push the registers of mask bits 0 to 6, D first and CCR last; bit 7 is refused (D10). -/
def execPshm (ii : Byte) (s : State) : Out :=
  if maskWellFormed ii then commit ((pushSelected s ii (pshmWords s)).bind fun _ s => .ok () (s.advance 2)) else .refused .reservedMaskBit

/-- PULA, rule R538: pull A. -/
def execPula (s : State) : Out :=
  commit ((pull8 s).bind fun v s => .ok () ({ s with a := v }.advance 2))

/-- PULB, rule R539: pull B. -/
def execPulb (s : State) : Out :=
  commit ((pull8 s).bind fun v s => .ok () ({ s with b := v }.advance 2))

/-- PULM, rule R540: pull the registers of mask bits 0 to 6, CCR[15:4] first and D last; bit 7 is refused (D10). -/
def execPulm (ii : Byte) (s : State) : Out :=
  if maskWellFormed ii then commit ((pullSelected s ii pulmWrites).bind fun _ s => .ok () (s.advance 2)) else .refused .reservedMaskBit

/-- ANDP, rule R541: CCR[15:4] and immediate; holds off interrupts (R547). -/
def execAndp (jjkk : Word) (s : State) : Out :=
  .next ({ s with ccr := CCR.ofWord (s.ccr.word 0 &&& jjkk), inhibit := true }.advance 4)

/-- ORP, rule R542: CCR[15:4] or immediate; holds off interrupts (R547). -/
def execOrp (jjkk : Word) (s : State) : Out :=
  .next ({ s with ccr := CCR.ofWord (s.ccr.word 0 ||| jjkk), inhibit := true }.advance 4)

/-- TAP, rule R543: A to CCR[15:8]; holds off interrupts (R547). -/
def execTap (s : State) : Out :=
  inherent s fun s => { s with ccr := s.ccr.withHi s.a, inhibit := true }

/-- TDP, rule R544: D[15:4] to CCR[15:4]; holds off interrupts (R547). -/
def execTdp (s : State) : Out :=
  inherent s fun s => { s with ccr := CCR.ofWord s.d, inhibit := true }

/-- TPA, rule R545: CCR[15:8] to A. -/
def execTpa (s : State) : Out :=
  inherent s fun s => { s with a := s.ccr.hi }

/-- TPD, rule R546: the 16-bit CCR, with the PK the instruction sees, to D. -/
def execTpd (s : State) : Out :=
  inherent s fun s => s.withD s.ccrSeen

end Sys2Proof.Machine
end

