-- ==== Sys2Proof/Machine/StopWait.lean ====
section
/-! DEFINITION. Stop, wait, background mode and null operations (48_stop_wait_null.md): one meaning for each instruction of the family, over the shared operations. -/

namespace Sys2Proof.Machine

/-- LPSTOP, rule R590: S = 1: nothing; S = 0: broadcast IP and stop (C1). -/
def execLpstop (s : State) : Out :=
  inherent s fun s => if s.ccr.s then s else { s.emit (.lpstopBroadcast s.ccr.ip) with run := .stopped }

/-- WAI, rule R591: wait for an interrupt. -/
def execWai (s : State) : Out :=
  inherent s fun s => { s with run := .waiting }

/-- BGND, rule R592: background mode where enabled, else an illegal instruction. -/
def execBgnd (s : State) : Out :=
  if s.plat.bdmEnabled then inherent s fun s => { s with run := .background } else illegalInstruction s

/-- NOP, rule R593: nothing. -/
def execNop (s : State) : Out :=
  inherent s id

end Sys2Proof.Machine
end

