-- ==== Sys2Proof/Machine/Fetch.lean ====
section
/-! DEFINITION. What happens at an instruction boundary before an instruction runs: the inputs of the outside world (R606, R607, R612), then the fetch (R100). -/

namespace Sys2Proof.Machine

/-- No event: what a step sees when no input is left (R607). -/
def quiet : HostInput := { reset := false, bkpt := false, irq := 0, iack := .spurious, writes := [] }

/-- The input of this step (R607). -/
def State.input (s : State) : HostInput :=
  match s.inputs with
  | [] => quiet
  | h :: _ => h

/-- A store of another agent: it changes RAM alone (R99); what it does to a device is the device's. -/
def State.hostWrite (s : State) (w : HostWrite) : State :=
  if s.kindAt w.space w.addr = .ram then { s with mem := Memory.set s.mem (s.key w.space w.addr) w.value } else s

/-- The stores of other agents, in order (R99). -/
def State.hostWrites (s : State) (l : List HostWrite) : State :=
  match l with
  | [] => s
  | w :: ws => State.hostWrites (s.hostWrite w) ws

/-- The state with this step's input used up: the stores of other agents are in memory. -/
def State.nextInput (s : State) : State := { s.hostWrites s.input.writes with inputs := s.inputs.tail }

/-- Another agent has stored into the twelve bytes from `pc`, in the space instructions are fetched from (R94, D5). -/
def State.fetchDisturbed (s : State) : Bool :=
  s.input.writes.any fun w =>
    decide (s.kindAt w.space w.addr = .ram) && (!s.plat.splitSpaces || w.space == .prog) && decide ((w.addr - s.pc).toNat < 12)

/-- What the boundary decides: the step is already over, or an instruction runs from this state. -/
inductive Boundary where
  | over (o : Out)
  | go (s : State)

/-- A recognised request is taken, else the state stays (R589, R612). -/
def wake (s : State) (h : HostInput) : Out :=
  if recognised s h.irq then takeInterrupt s h.irq h.iack else .next s

/-- The order of rule R606, after the stores of other agents (R99): reset in any run state; then, while running, breakpoint, and the pending interrupt unless the
inhibit latch, which every boundary of the running state clears (R547, R612), holds it off. In `waiting` and `stopped` only reset and a recognised interrupt are seen; `background` and `halted` are left by reset alone. -/
def boundary (s : State) : Boundary :=
  let h := s.input
  let s := s.nextInput
  if h.reset then .over (takeReset s)
  else
    match s.run with
    | .halted => .over (.next s)
    | .background => .over (.next s)
    | .waiting => .over (wake s h)
    | .stopped => .over (wake s h)
    | .running =>
      let held := s.inhibit
      let s := { s with inhibit := false }
      if h.bkpt then .over (if s.plat.bdmEnabled then .next { s with run := .background } else breakpoint s)
      else if !held && recognised s h.irq then .over (takeInterrupt s h.irq h.iack)
      else .go { s with heldOff := held }

/-- Fetch and decode the instruction at `pc`: word 0 from program space, then as many more words as the instruction has, in rising address order; no operand
word is fetched for an unassigned opcode (R90, R100, R622). -/
def fetch (s : State) : Bus (Option Instr) :=
  (read16 s .prog s.pc).bind fun w0 s =>
    match decodeOp w0 0 0 with
    | none => .ok none s
    | some i =>
      if i.length = 2 then .ok (some i) s
      else
        (read16 s .prog (s.pc + 2#20)).bind fun w1 s =>
          if i.length = 4 then .ok (decodeOp w0 w1 0) s
          else (read16 s .prog (s.pc + 4#20)).bind fun w2 s => .ok (decodeOp w0 w1 w2) s

/-- Load a byte into program space from outside the machine; this is no store of the core. -/
def State.loadByte (s : State) (a : Addr) (v : Byte) : State := { s with mem := Memory.set s.mem (s.key .prog a) v }

/-- Load words into program space from outside the machine, each with its high byte at the lower address (R76). -/
def State.loadWords (s : State) (a : Addr) : List Word → State
  | [] => s
  | w :: ws => State.loadWords ((s.loadByte a (hiByte w)).loadByte (a + 1#20) (loByte w)) (a + 2#20) ws

/-- Where a program loaded for the next fetch stands: at `pc`, or at $00200 when `pc` lies in the 512 bytes of the exception vectors (R95, log entry 5). -/
def State.loadAddr (s : State) : Addr := if s.pc.toNat < 0x200 then 0x200 else evenAddr s.pc

end Sys2Proof.Machine
end

