-- ==== Sys2Proof/Machine/Step.lean ====
section
/-! DEFINITION. One step: the boundary, the fetch, one instruction (R30). -/

namespace Sys2Proof.Machine

/-- One step of the machine. An unassigned opcode takes the illegal instruction exception (R114, R622); a bus error on the fetch is one of the instruction being
fetched (R620). A store of another agent into what is about to be fetched is refused (R94). -/
def step (s : State) : Host.Outcome State Fault Refusal :=
  match boundary s with
  | .over o => o
  | .go t =>
    if t.pc.getLsbD 0 then .fault .oddProgramCounter
    else if s.fetchDisturbed then .refused .hostWriteIntoPrefetch
    else
      match fetch t with
      | .ok (some i) s => exec i s
      | .ok none s => illegalInstruction s
      | .berr s => busError s
      | .refused r => .refused r

/-- The state whose next step fetches and runs the instruction with bits `w` (log entry 5): the program is loaded from outside the machine, the pc stands at it,
and the next step sees a quiet input in the running state. -/
def State.withFetchWord (s : State) (nbits w : Nat) : State :=
  let a := s.loadAddr
  let inputs := match s.inputs with
    | [] => []
    | l => quiet :: l
  { s.loadWords a (tableWords nbits w) with pc := a, run := .running, inputs := inputs }

end Sys2Proof.Machine
end

