-- ==== Sys2Proof/Safety.lean ====
section
/-! DEFINITION. The terms claims are stated in: which accesses plain memory answers, where the machine is quiet, and the invariant of the machine. -/

namespace Sys2Proof.Machine

/-- The kind answers a read from memory, with no event and no bus error. -/
def Kind.readable : Kind → Bool
  | .ram => true
  | .rom => true
  | .device => false
  | .unmapped => false
  | .openBus => false

/-- The byte at `a` can be read from memory. -/
def State.canRead8 (s : State) (sp : Space) (a : Addr) : Bool := (s.kindAt sp a).readable

/-- The word at `a`, at an even or an odd address, can be read from memory. -/
def State.canRead16 (s : State) (sp : Space) (a : Addr) : Bool := s.canRead8 sp a && s.canRead8 sp (a + 1#20)

/-- The executing instruction can store the byte at `a`: RAM outside its prefetch window (R94, R96). -/
def State.canWrite8 (s : State) (a : Addr) : Bool := s.kindAt .data a == .ram && !s.inPrefetch a

/-- The executing instruction can store the word at `a`, at an even or an odd address. -/
def State.canWrite16 (s : State) (a : Addr) : Bool := s.canWrite8 a && s.canWrite8 (a + 1#20)

/-- The byte at `a` is RAM, wherever it stands: what an exception taken at a boundary needs to stack there. -/
def State.isRam16 (s : State) (a : Addr) : Bool := s.kindAt .data a == .ram && s.kindAt .data (a + 1#20) == .ram

/-- Nothing answers a read of the byte at `a`: it ends in a bus error (R97, R620). -/
def State.lostRead (s : State) (sp : Space) (a : Addr) : Bool := s.kindAt sp a == .unmapped

/-- Nothing answers the executing instruction's store of the byte at `a`. -/
def State.lostWrite8 (s : State) (a : Addr) : Bool := s.kindAt .data a == .unmapped && !s.inPrefetch a

/-- Nothing answers the executing instruction's store of the word at `a`, at its first byte already. -/
def State.lostWrite16 (s : State) (a : Addr) : Bool := s.lostWrite8 a && !s.inPrefetch (a + 1#20)

/-- A bus error can end an access to the byte at `a` of data space: nothing answers there, or a device whose replies still to come hold a bus error (R96, R97). -/
def State.mayFail (s : State) (a : Addr) : Prop := s.kindAt .data a = .unmapped ∨ s.kindAt .data a = .device ∧ DevReply.busError ∈ s.replies

/-- The invariant of the machine: memory in canonical form, an even program counter (R33), and the inhibit latch set in the running state alone (R612). -/
def State.Inv (s : State) : Prop := Memory.wf s.mem = true ∧ s.pc.getLsbD 0 = false ∧ (s.inhibit = true → s.run = .running)

/-- The next step runs the instruction at `pc`: running, no event at the boundary, the pc even, and no store of another agent into the words about to be
fetched (R94). -/
def State.atInstruction (s : State) : Bool :=
  s.run == .running && !s.input.reset && !s.input.bkpt && (s.inhibit || !recognised s s.input.irq) && !s.pc.getLsbD 0 && !s.fetchDisturbed

/-- The state an instruction starts in: the step's input used up, the stores of other agents in memory, and the inhibit latch clear, its
old value noted (R547, R662). -/
def State.begun (s : State) : State := { s.nextInput with inhibit := false, heldOff := s.inhibit }

/-- A MAC frame that holds every register whole (R568): each field stands inside a word of the frame and no two fields share a bit; `2^19` words fill the
address space. -/
def MacFrame.fits (f : MacFrame) : Bool :=
  let l : List (Slot × Nat) :=
    [(f.hr, 16), (f.ir, 16), (f.amLow, 16), (f.amMid, 16), (f.amHigh, 4), (f.sl, 1), (f.xmsk, 8), (f.ymsk, 8)]
  decide (f.words < 2 ^ 19) && l.all (fun p => decide (p.1.word < f.words) && decide (p.1.lo + p.2 ≤ 16)) &&
    decide (l.Pairwise fun p q => p.1.word ≠ q.1.word ∨ p.1.lo + p.2 ≤ q.1.lo ∨ q.1.lo + q.2 ≤ p.1.lo)

/-! ## Operands as values -/

/-- The byte operand is an immediate, or memory answers its read. -/
def ready8 (s : State) : Src8 → Bool
  | .imm8 _ => true
  | .mem m => s.canRead8 .data (eaM s m)

/-- The byte operand (R142, R144). -/
def value8 (s : State) : Src8 → Byte
  | .imm8 ii => ii
  | .mem m => s.byteAt .data (eaM s m)

/-- The word operand of a D instruction is an immediate, or memory answers its read. -/
def readyD (s : State) : SrcD → Bool
  | .imm16 _ => true
  | .mem m => s.canRead16 .data (eaM s m)

/-- The word operand of a D instruction (R142, R144). -/
def valueD (s : State) : SrcD → Word
  | .imm16 w => w
  | .mem m => s.wordAt .data (eaM s m)

/-- The word operand of ADDD is an immediate, or memory answers its read. -/
def readyDI (s : State) : SrcDI → Bool
  | .imm8 _ => true
  | .imm16 _ => true
  | .mem m => s.canRead16 .data (eaM s m)

/-- The word operand of ADDD; the 8-bit immediate is signed (R145 (b)). -/
def valueDI (s : State) : SrcDI → Word
  | .imm8 ii => BitVec.ofInt 16 ii.toInt
  | .imm16 w => w
  | .mem m => s.wordAt .data (eaM s m)

/-- The word operand of an E instruction is an immediate, or memory answers its read. -/
def readyE (s : State) : SrcE → Bool
  | .imm16 _ => true
  | .mem m => s.canRead16 .data (eaW s m)

/-- The word operand of an E instruction (R142, R144). -/
def valueE (s : State) : SrcE → Word
  | .imm16 w => w
  | .mem m => s.wordAt .data (eaW s m)

/-- The word operand of ADDE is an immediate, or memory answers its read. -/
def readyEI (s : State) : SrcEI → Bool
  | .imm8 _ => true
  | .imm16 _ => true
  | .mem m => s.canRead16 .data (eaW s m)

/-- The word operand of ADDE; the 8-bit immediate is signed (R145 (b)). -/
def valueEI (s : State) : SrcEI → Word
  | .imm8 ii => BitVec.ofInt 16 ii.toInt
  | .imm16 w => w
  | .mem m => s.wordAt .data (eaW s m)

/-- The word operand of an index or stack pointer instruction is an immediate, or memory answers its read. -/
def readyX (s : State) : SrcX → Bool
  | .imm16 _ => true
  | .mem m => s.canRead16 .data (eaB s m)

/-- The word operand of an index or stack pointer instruction (R142, R144). -/
def valueX (s : State) : SrcX → Word
  | .imm16 w => w
  | .mem m => s.wordAt .data (eaB s m)

/-! ## Flags as facts about integers -/

/-- The integer is a signed number of `w` bits. -/
def signedFits (w : Nat) (t : Int) : Bool := decide (-(2 ^ (w - 1)) ≤ t) && decide (t < 2 ^ (w - 1))

/-- N and Z say that the value is negative and zero (R39, R40). -/
def withNZ {w : Nat} (c : CCR) (v : BitVec w) : CCR := { c with n := decide (v.toInt < 0), z := decide (v.toNat = 0) }

/-- N and Z of a value, V clear (R200 (c), R300 (c)). -/
def withNZV {w : Nat} (c : CCR) (v : BitVec w) : CCR := { withNZ c v with v := false }

/-- N and Z of the result of arithmetic, V when the exact signed result does not fit, C as given (R39 to R42). -/
def withArith {w : Nat} (c : CCR) (r : BitVec w) (exact : Int) (carry : Bool) : CCR :=
  { withNZ c r with v := !signedFits w exact, c := carry }

/-- `x + y + ci` with its flags: C is the carry out of the top bit (R46). -/
def added {w : Nat} (c : CCR) (x y : BitVec w) (ci : Bool) : BitVec w × CCR :=
  let r := BitVec.ofNat w (x.toNat + y.toNat + ci.toNat)
  (r, withArith c r (x.toInt + y.toInt + ci.toNat) (decide (2 ^ w ≤ x.toNat + y.toNat + ci.toNat)))

/-- The 8-bit addition: as `added`, and H is the carry out of bit 3 (R45). -/
def added8 (c : CCR) (x y : Byte) (ci : Bool) : Byte × CCR :=
  ((added c x y ci).1, { (added c x y ci).2 with h := decide (16 ≤ x.toNat % 16 + y.toNat % 16 + ci.toNat) })

/-- `x - y - bi` with its flags: C is the borrow (R47, R48). -/
def subtracted {w : Nat} (c : CCR) (x y : BitVec w) (bi : Bool) : BitVec w × CCR :=
  let r := BitVec.ofInt w (x.toInt - y.toInt - bi.toNat)
  (r, withArith c r (x.toInt - y.toInt - bi.toNat) (decide (x.toNat < y.toNat + bi.toNat)))

/-- A shift or rotate result with its flags: C is the bit shifted out, V is N xor C (R296). -/
def shifted {w : Nat} (c : CCR) (r : BitVec w) (out : Bool) : BitVec w × CCR :=
  (r, { withNZ c r with v := decide (r.toInt < 0) != out, c := out })

/-- LSR of a value (R296). -/
def shiftedLsr {w : Nat} (c : CCR) (v : BitVec w) : BitVec w × CCR := shifted c (BitVec.ofNat w (v.toNat / 2)) (decide (v.toNat % 2 = 1))

/-- ASL of a value (R296). -/
def shiftedAsl {w : Nat} (c : CCR) (v : BitVec w) : BitVec w × CCR := shifted c (BitVec.ofNat w (2 * v.toNat)) (decide (v.toInt < 0))

/-- ASR of a value: half of it, rounded down (R296). -/
def shiftedAsr {w : Nat} (c : CCR) (v : BitVec w) : BitVec w × CCR := shifted c (BitVec.ofInt w (v.toInt / 2)) (decide (v.toNat % 2 = 1))

/-- ROL of a value: the old C enters below (R296). -/
def shiftedRol {w : Nat} (c : CCR) (v : BitVec w) : BitVec w × CCR :=
  shifted c (BitVec.ofNat w (2 * v.toNat + c.c.toNat)) (decide (v.toInt < 0))

/-- ROR of a value: the old C enters on top (R296). -/
def shiftedRor {w : Nat} (c : CCR) (v : BitVec w) : BitVec w × CCR :=
  shifted c (BitVec.ofNat w (v.toNat / 2 + c.c.toNat * 2 ^ (w - 1))) (decide (v.toNat % 2 = 1))

/-! ## Program counter -/

/-- The address `n` bytes further. -/
def State.pcPlus (s : State) (n : Nat) : Addr := BitVec.ofNat 20 (s.pc.toNat + n)

/-- The address rounded down to an even one (R33). -/
def roundedDown (a : Addr) : Addr := BitVec.ofNat 20 (a.toNat / 2 * 2)

/-- The target of a relative branch: the offset from six bytes past the instruction, the sum rounded down to an even address (R400). -/
def State.relative (s : State) (off : Int) : Addr := BitVec.ofInt 20 ((s.pc.toNat + 6 + off) / 2 * 2)

/-! ## What an instruction has stored -/

/-- The bytes listed are in data memory, and every other byte of memory is as before. -/
def wroteBytes (s t : State) (l : List (Addr × Byte)) : Prop :=
  (∀ p ∈ l, t.byteAt .data p.1 = p.2) ∧ ∀ k, (∀ p ∈ l, k ≠ p.1.toNat) → Memory.get t.mem k = Memory.get s.mem k

/-- The words listed are in data memory, at even or odd addresses, and every other byte of memory is as before. -/
def wroteWords (s t : State) (l : List (Addr × Word)) : Prop :=
  (∀ p ∈ l, t.wordAt .data p.1 = p.2) ∧ ∀ k, (∀ p ∈ l, k ≠ p.1.toNat ∧ k ≠ (p.1 + 1#20).toNat) → Memory.get t.mem k = Memory.get s.mem k

/-- The instruction stores the byte `v` at `ea`, leaves the condition codes `c`, goes on `n` bytes further and changes nothing else. -/
def storesByte (i : Instr) (s : State) (ea : Addr) (v : Byte) (c : CCR) (n : Nat) : Prop :=
  ∃ t, exec i s = .next t ∧ t = { s with mem := t.mem, ccr := c, pc := s.pcPlus n } ∧ wroteBytes s t [(ea, v)]

/-- The instruction stores the word `v` at `ea`, leaves the condition codes `c`, goes on `n` bytes further and changes nothing else. -/
def storesWord (i : Instr) (s : State) (ea : Addr) (v : Word) (c : CCR) (n : Nat) : Prop :=
  ∃ t, exec i s = .next t ∧ t = { s with mem := t.mem, ccr := c, pc := s.pcPlus n } ∧ wroteWords s t [(ea, v)]

/-- The bytes the operands of an instruction name for storing; pushes are not among them. -/
def storeBytes (i : Instr) (s : State) : List Addr :=
  let word (a : Addr) : List Addr := [a, a + 1#20]
  match i with
  | .staa m => [eaM s m]
  | .stab m => [eaM s m]
  | .std m => word (eaM s m)
  | .ste m => word (eaW s m)
  | .stx m => word (eaB s m)
  | .sty m => word (eaB s m)
  | .stz m => word (eaB s m)
  | .sts m => word (eaB s m)
  | .sted hhll => word (eaExt s hhll) ++ word (eaExt s hhll + 2#20)
  | .movb o => [(moveAddrs s o).2]
  | .movw o => word (moveAddrs s o).2
  | .clr m => [eaB s m]
  | .com m => [eaB s m]
  | .neg m => [eaB s m]
  | .inc m => [eaB s m]
  | .dec m => [eaB s m]
  | .bclr _ m => [eaB s m]
  | .bset _ m => [eaB s m]
  | .lsr m => [eaB s m]
  | .asl m => [eaB s m]
  | .asr m => [eaB s m]
  | .rol m => [eaB s m]
  | .ror m => [eaB s m]
  | .clrw m => word (eaW s m)
  | .comw m => word (eaW s m)
  | .negw m => word (eaW s m)
  | .incw m => word (eaW s m)
  | .decw m => word (eaW s m)
  | .bclrw _ m => word (eaW s m)
  | .bsetw _ m => word (eaW s m)
  | .lsrw m => word (eaW s m)
  | .aslw m => word (eaW s m)
  | .asrw m => word (eaW s m)
  | .rolw m => word (eaW s m)
  | .rorw m => word (eaW s m)
  | _ => []

/-! ## Stack and exceptions -/

/-- The address of the word pushed after `k` others (R160). -/
def State.pushAddr (s : State) (k : Nat) : Addr := s.sp20 - BitVec.ofNat 20 (2 * k)

/-- The address of the word pulled after `k` others (R161). -/
def State.pullAddr (s : State) (k : Nat) : Addr := s.sp20 + BitVec.ofNat 20 (2 * k + 2)

/-- The words listed have been pushed, the first first, and nothing but memory and SK : SP has changed (R160). -/
def pushedWords (s t : State) (l : List Word) : Prop :=
  t = { s.withSP20 (s.pushAddr l.length) with mem := t.mem } ∧ wroteWords s t (l.zipIdx.map fun p => (s.pushAddr p.2, p.1))

/-- The words PSHM pushes, in order: D, E, IX, IY, IZ, K and the CCR with the PK the instruction sees, those whose mask bit is set (R537). -/
def State.selectedWords (s : State) (ii : Byte) : List Word :=
  ([(0, s.d), (1, s.e), (2, s.ix), (3, s.iy), (4, s.iz), (5, s.k), (6, s.ccr.word ((s.pcPlus 6).extractLsb' 16 4))].filter
    fun p : Nat × Word => ii.getLsbD p.1).map fun p => p.2

/-- How many mask bits below `j` are set. -/
def selectedBelow (ii : Byte) (j : Nat) : Nat := ((List.range j).filter fun i => ii.getLsbD i).length

/-- The state after PULM has pulled the registers of the mask bits below `j`, each from the next word up the stack (R540). -/
def State.pulledBelow (s : State) (ii : Byte) (j : Nat) : State :=
  let word (i : Nat) : Word := s.wordAt .data (s.pullAddr (selectedBelow ii i))
  let pick {α : Type} (i : Nat) (new old : α) : α := if i < j ∧ ii.getLsbD i = true then new else old
  { s.withSP20 (s.sp20 + BitVec.ofNat 20 (2 * selectedBelow ii j)) with
    ccr := pick 0 (CCR.ofWord (word 0)) s.ccr
    ek := pick 1 ((word 1).extractLsb' 12 4) s.ek
    xk := pick 1 ((word 1).extractLsb' 8 4) s.xk
    yk := pick 1 ((word 1).extractLsb' 4 4) s.yk
    zk := pick 1 ((word 1).extractLsb' 0 4) s.zk
    iz := pick 2 (word 2) s.iz
    iy := pick 3 (word 3) s.iy
    ix := pick 4 (word 4) s.ix
    e := pick 5 (word 5) s.e
    a := pick 6 ((word 6).extractLsb' 8 8) s.a
    b := pick 6 ((word 6).extractLsb' 0 8) s.b }

/-- The two words a call or an exception pushes for the stacked address `ret` (R446, R605). -/
def State.frameOf (s : State) (ret : Addr) : List (Addr × Word) :=
  [(s.sp20, ret.extractLsb' 0 16), (s.sp20 - 2#20, s.ccr.word (ret.extractLsb' 16 4))]

/-- The executing instruction can push that frame. -/
def State.canPushFrame (s : State) : Bool := s.canWrite16 s.sp20 && s.canWrite16 (s.sp20 - 2#20)

/-- An exception at a boundary can push that frame. -/
def State.canStackFrame (s : State) : Bool := s.isRam16 s.sp20 && s.isRam16 (s.sp20 - 2#20)

/-- Exception processing has gone from `s` to `t` through vector `n` (R604, R605, R610): the frame of `resume + 6` stacked, IP at `ip`, `pc` in bank 0 from
the vector word, running with the inhibit latch clear, the events `ev` shown, and nothing else changed. -/
def Entered (s t : State) (n : Byte) (resume : Addr) (ip : BitVec 3) (ev : List HostEvent) : Prop :=
  wroteWords s t (s.frameOf (resume + 6#20)) ∧
    t =
      { s with
        mem := t.mem
        sk := (s.sp20 - 4#20).extractLsb' 16 4
        sp := (s.sp20 - 4#20).extractLsb' 0 16
        ccr := { s.ccr with ip := ip }
        pc := roundedDown ((t.wordAt .data (BitVec.ofNat 20 (2 * n.toNat))).setWidth 20)
        run := .running
        inhibit := false
        events := s.events ++ ev }

end Sys2Proof.Machine
end

