-- ==== Sys2Proof/Certificates/Slice0/Obligations.lean ====
section
/-! DEFINITION. The statements about this machine that the provers are asked to prove. Each instruction of the opcode table is the subject of at least one statement
whose conclusion is the next state it gives; a next state written `{ s with … }` leaves every register, flag and byte of memory not named in it as it was, and
`wroteBytes` and `wroteWords` say which bytes of memory changed. -/

open Sys2Proof Sys2Proof.Machine

/-! ## Encoding -/

/-- Decoding undoes encoding, for every instruction, every value of every operand field and whatever follows in memory (R100, R101, R105 to R109). -/
def Obligations.DecodingUndoesEncoding : Prop :=
  ∀ (i : Instr) (rest : List Word), decodeBytes (encodeBytes i ++ bytesOfWords rest) = .ok (i, rest)

/-- Encoding undoes decoding: no two byte sequences are the same instruction, and no bit of an encoding is ignored (R106, R114). -/
def Obligations.EncodingUndoesDecoding : Prop :=
  ∀ (ws : List Word) (i : Instr) (rest : List Word), decodeWords ws = .ok (i, rest) → ws = encode i ++ rest

/-- Words written out from the opcode tables decode to the instructions they stand for, and an unassigned word to none (R110 to R114). Most of these words,
and that FF00 is unassigned, rest on rows the spec marks as general knowledge (R117, its choices D30 and D11; log entry 16). -/
def Obligations.WordsOfTheSpecDecode : Prop :=
  decodeWords [0x75A3#16] = .ok (.ldaa (.imm8 0xA3), []) ∧
    decodeWords [0x1765#16, 0x8001#16] = .ok (.ldaa (.mem (.ind16 .z 0x8001)), []) ∧
    decodeWords [0x2755#16] = .ok (.ldaa (.mem (.eoff .y)), []) ∧
    decodeWords [0x37B1#16, 0x1234#16] = .ok (.addd (.imm16 0x1234), []) ∧
    decodeWords [0xFC80#16] = .ok (.addd (.imm8 0x80), []) ∧
    decodeWords [0x30FF#16, 0x4000#16] = .ok (.movb (.ixpToExt 0xFF 0x4000), []) ∧
    decodeWords [0x37FF#16, 0x1000#16, 0x1002#16] = .ok (.movw (.extToExt 0x1000 0x1002), []) ∧
    decodeWords [0x0A81#16, 0x0010#16, 0xFFF6#16] = .ok (.brclr 0x81 (.ind16 .x 0x0010 0xFFF6), []) ∧
    decodeWords [0x2738#16, 0x2000#16, 0xF00F#16] = .ok (.bclrw 0xF00F (.ext 0x2000), []) ∧
    decodeWords [0x7A03#16, 0x4568#16] = .ok (.jmp (.ext20 0 3 0x4568), []) ∧
    decodeWords [0x3791#16, 0x0100#16] = .ok (.lbev 0x0100, []) ∧
    decodeWords [0x373A#16, 0xFF1F#16] = .ok (.andp 0xFF1F, []) ∧
    decodeWords [0x3720#16] = .ok (.swi, []) ∧
    decodeWords [0x7B2E#16] = .ok (.mac 2 0xE, []) ∧
    decodeWords [0x27F1#16] = .ok (.lpstop, []) ∧
    decodeWords [0xFF00#16] = .error (.unassignedOpcode 0xFF00)

/-! ## Memory, addresses and packed registers -/

/-- A read of memory after a write: the byte written at its own key, what was there before at every other, for any list of cells (R96: RAM). The canonical form
of memory is kept by every write, and two memories in it that read the same everywhere are the same list (the form is the model's own, log entry 6). -/
def Obligations.MemoryReadsWritesAndCanonicalForm : Prop :=
  (∀ (m : Memory) (a b : Nat) (v : Byte), Memory.get (Memory.set m a v) b = if b = a then v else Memory.get m b) ∧
    (∀ (m : Memory) (a : Nat) (v : Byte), a < 2 ^ 21 → Memory.wf m = true → Memory.wf (Memory.set m a v) = true) ∧
    ∀ m m' : Memory, Memory.wf m = true → Memory.wf m' = true → (∀ a, Memory.get m a = Memory.get m' a) → m = m'

/-- A word stored in RAM at any address, even or odd, puts its high byte at that address and its low byte at the next, modulo 2^20, changes nothing else, and is
read back; no alignment stops it (R76, R81, R83, R85). The byte order is the source's; that the address of the second byte wraps modulo 2^20 (R75) and that no alignment
stops an access, are the spec's choices D2, D18 and D26, log entry 20. -/
def Obligations.WordAccessAtEveryAddress : Prop :=
  ∀ (s : State) (a : Addr) (v : Word), s.canWrite16 a = true →
    ∃ t, write16 true s a v = .ok () t ∧
      t = { s with mem := t.mem } ∧
      (t.byteAt .data a).toNat * 256 + (t.byteAt .data (a + 1#20)).toNat = v.toNat ∧
      wroteBytes s t [(a, t.byteAt .data a), (a + 1#20, t.byteAt .data (a + 1#20))] ∧
      read16 t .data a = .ok v t

/-- Effective addresses, as sums modulo 2^20: IND8 adds an unsigned byte, IND16 and E-offset a signed word, to the index register with its field; EXT puts EK above
the 16-bit address; the extended form of JMP and JSR holds all twenty bits (R147, R148, R150, R152, R153). That every sum is taken modulo 2^20 is the spec's choice D2
(R75, R141), log entry 20. -/
def Obligations.EffectiveAddresses : Prop :=
  ∀ (s : State) (r : Idx) (ff : Byte) (g : Word) (z b : Nib),
    (eaInd8 s r ff).toNat = ((s.idx20 r).toNat + ff.toNat) % 2 ^ 20 ∧
      ((eaInd16 s r g).toNat : Int) = ((s.idx20 r).toNat + g.toInt) % 2 ^ 20 ∧
      ((eaE s r).toNat : Int) = ((s.idx20 r).toNat + s.e.toInt) % 2 ^ 20 ∧
      (eaExt s g).toNat = s.ek.toNat * 65536 + g.toNat ∧
      (eaJump s (.ext20 z b g)).toNat = b.toNat * 65536 + g.toNat ∧
      (s.idx20 .x).toNat = s.xk.toNat * 65536 + s.ix.toNat ∧
      (s.idx20 .y).toNat = s.yk.toNat * 65536 + s.iy.toNat ∧
      (s.idx20 .z).toNat = s.zk.toNat * 65536 + s.iz.toNat

/-- The layout of the CCR, bit by bit, every bit of it a field that comes back (R28), and of D: A times 256 plus B, a write to D writes both, a write to A or B changes that half
(R21). -/
def Obligations.PackedRegisterLayouts : Prop :=
  (∀ (c : CCR) (pk : Nib), (c.word pk).toNat =
      c.s.toNat * 32768 + c.mv.toNat * 16384 + c.h.toNat * 8192 + c.ev.toNat * 4096 + c.n.toNat * 2048 + c.z.toNat * 1024 + c.v.toNat * 512 +
        c.c.toNat * 256 + c.ip.toNat * 32 + c.sm.toNat * 16 + pk.toNat) ∧
    (∀ (c : CCR) (pk : Nib), CCR.ofWord (c.word pk) = c) ∧
    (∀ w : Word, (CCR.ofWord w).word (w.extractLsb' 0 4) = w) ∧
    ∀ s : State, s.d.toNat = s.a.toNat * 256 + s.b.toNat ∧
      (∀ v : Word, s.withD v = { s with a := BitVec.ofNat 8 (v.toNat / 256), b := BitVec.ofNat 8 (v.toNat % 256) } ∧ (s.withD v).d = v) ∧
      ∀ x : Byte, ({ s with a := x } : State).d.toNat = x.toNat * 256 + s.d.toNat % 256 ∧
        ({ s with b := x } : State).d.toNat = s.d.toNat / 256 * 256 + x.toNat

/-! ## Every step -/

/-- The invariant (memory in canonical form, bit 0 of the program counter zero, the inhibit latch set in the running state alone) holds after every step from a state in which
it holds: instruction, exception, reset or idle step alike (R25, R33, R547, R612; the canonical form is the model's own, log entry 6). -/
def Obligations.InvariantKeptByEveryStep : Prop := ∀ s t : State, s.Inv → step s = .next t → t.Inv

/-- The state after reset has the invariant. -/
def Obligations.ResetHasInvariant : Prop := State.reset.Inv

/-- Every step leaves the platform as it is and changes memory only at addresses the memory map declares RAM: what the step itself stores is in data space, so with split spaces
program space never changes by it; what other agents have stored since the last boundary (R99) is at the addresses they name (R9, R72, R83, R96, R607). That a step
uses up one input, takes replies from the front, appends to the events and never takes a free value back is the model's form, log entries 4, 7 and 8. -/
def Obligations.StepChangesOnlyWhatItMay : Prop :=
  ∀ s t : State, step s = .next t →
    t.plat = s.plat ∧ t.inputs = s.inputs.tail ∧ (∃ es, t.events = s.events ++ es) ∧ (∃ rs, s.replies = rs ++ t.replies) ∧ s.draws ≤ t.draws ∧
    (∀ k, Memory.get t.mem k ≠ Memory.get s.nextInput.mem k → ∃ a : Addr, k = a.toNat ∧ s.kindAt .data a = .ram) ∧
    ∀ k, Memory.get s.nextInput.mem k ≠ Memory.get s.mem k → ∃ w ∈ s.input.writes, k = s.key w.space w.addr ∧ s.kindAt w.space w.addr = .ram

/-- No instruction changes the twelve bytes from its own address when the spaces are not split: it refuses such a store instead (R94). -/
def Obligations.PrefetchWindowNeverChanges : Prop :=
  ∀ (i : Instr) (s t : State), exec i s = .next t →
    ∀ a : Addr, s.plat.splitSpaces = false → (a - s.pc).toNat < 12 → t.byteAt .data a = s.byteAt .data a

/-- Only ANDP, ORP, TDP, PULM with mask bit 0, and RTI change IP or SM, and only these and TAP change S (R35, R43, R44: interrupt entry and reset, which also write
IP, are no instructions; that the traps and bus errors an instruction takes leave IP is the spec's choice D8, R615, log entry 17). -/
def Obligations.ModeFieldWriters : Prop :=
  ∀ (i : Instr) (s t : State), exec i s = .next t →
    (t.ccr.ip ≠ s.ccr.ip ∨ t.ccr.sm ≠ s.ccr.sm →
      (∃ w, i = .andp w) ∨ (∃ w, i = .orp w) ∨ i = .tdp ∨ (∃ ii, i = .pulm ii ∧ ii.getLsbD 0 = true) ∨ i = .rti) ∧
    (t.ccr.s ≠ s.ccr.s →
      (∃ w, i = .andp w) ∨ (∃ w, i = .orp w) ∨ i = .tap ∨ i = .tdp ∨ (∃ ii, i = .pulm ii ∧ ii.getLsbD 0 = true) ∨ i = .rti)

/-- The interrupt hold-off (R547, R662). ANDP, ORP, TAP and TDP set the latch and no other instruction does; at a boundary with the latch set no interrupt is
recognised, whatever its level: the step is the step with no request, and the instruction fetched there runs with the latch clear, whole: of RMAC, which alone could be split, statement
RepeatingMultiplyAccumulate says that it is not then. Reset is not held off. That PULM and RTI set no latch is the spec's choice D22, log entry 17; that the state notes the held boundary
is the model's form, log entry 27. -/
def Obligations.InterruptHoldOff : Prop :=
  (∀ (i : Instr) (s t : State), exec i s = .next t → s.inhibit = false →
      (t.inhibit = true ↔ (∃ w, i = .andp w) ∨ (∃ w, i = .orp w) ∨ i = .tap ∨ i = .tdp)) ∧
    ∀ (s : State) (h : HostInput) (l : List HostInput), s.inputs = h :: l → s.run = .running → s.inhibit = true →
      (h.reset = true → step s = takeReset s.nextInput) ∧
      (h.reset = false → h.bkpt = false → step s = step { s with inputs := { h with irq := 0 } :: l }) ∧
      ∀ i : Instr, h.reset = false → h.bkpt = false → s.pc.getLsbD 0 = false → s.fetchDisturbed = false → i.wellFormed = true →
        (∀ k, k < i.length → s.canRead8 .prog (s.pcPlus k) = true) →
        decodeBytes ((List.range i.length).map fun k => s.nextInput.byteAt .prog (s.pcPlus k)) = .ok (i, []) →
        step s = exec i { s.nextInput with inhibit := false, heldOff := true }

/-- The run state after an instruction: an instruction leaves the machine running, but for LPSTOP with S = 0, WAI, BGND where background mode is enabled, and a bus error inside an
exception entry, which halts it: then a byte of the stack word about to be pushed, or of the vector of SWI or of one of the exceptions an instruction takes, is unmapped or a device
that may answer with a bus error (R58, R589 to R592, R624). The halt, the run states and background mode are the spec's choices D17, D23 and D24, log entries 11, 18, 19. -/
def Obligations.RunStateWriters : Prop :=
  ∀ (i : Instr) (s t : State), s.run = .running → exec i s = .next t →
    t.run = .running ∨ (i = .lpstop ∧ s.ccr.s = false ∧ t.run = .stopped) ∨ (i = .wai ∧ t.run = .waiting) ∨
      (i = .bgnd ∧ s.plat.bdmEnabled = true ∧ t.run = .background) ∨
      (t.run = .halted ∧ ∃ a : Addr, s.mayFail a ∧
        (a ∈ [t.sp20, t.sp20 + 1#20] ∨
          ∃ n ∈ [6#8, s.plat.vecBerr, s.plat.vecIllegal, s.plat.vecDiv0], a ∈ [BitVec.ofNat 20 (2 * n.toNat), BitVec.ofNat 20 (2 * n.toNat) + 1#20]))

/-- No instruction faults, and an instruction is refused for three reasons only: a reserved mask bit of PSHM or PULM, a nonzero zero-extension nibble of JMP or JSR, or a store into
its own prefetch window, by its operand or by a push near SK : SP; and these do stop it, by name. A step is refused for one reason more, a store of another agent into the window, and
faults only where bit 0 of the program counter is set (R33, R94, R115). All four are the spec's own choices D5, D10 and D20, log entries 10 and 12; that the window is looked at before the kind of the address is log entry 10. -/
def Obligations.OnlyDeclaredRefusals : Prop :=
  (∀ (i : Instr) (s : State), (∀ f, exec i s ≠ .fault f) ∧
      ∀ r, exec i s = .refused r →
        (r = .reservedMaskBit ∧ ∃ ii : Byte, (i = .pshm ii ∨ i = .pulm ii) ∧ ii.getLsbD 7 = true) ∨
        (r = .reservedZeroNibble ∧ ∃ j : JumpTarget, (i = .jmp j ∨ i = .jsr j) ∧ j.wellFormed = false) ∨
        (r = .storeIntoPrefetch ∧ s.plat.splitSpaces = false ∧ ∃ a : Addr, (a - s.pc).toNat < 12 ∧
          (a ∈ storeBytes i s ∨
            ∃ k : Int, -(2 * max 7 s.plat.macFrame.words : Nat) ≤ k ∧ k ≤ (2 * max 7 s.plat.macFrame.words : Nat) + 1 ∧ a = BitVec.ofInt 20 (s.sp20.toNat + k)))) ∧
    ∀ s : State,
      (∀ (b z : Nib) (g : Word) (r : Idx), z ≠ 0#4 →
        exec (.jmp (.ext20 z b g)) s = .refused .reservedZeroNibble ∧ exec (.jmp (.ind20 r z b g)) s = .refused .reservedZeroNibble ∧
          exec (.jsr (.ext20 z b g)) s = .refused .reservedZeroNibble ∧ exec (.jsr (.ind20 r z b g)) s = .refused .reservedZeroNibble) ∧
      (∀ ii : Byte, 128 ≤ ii.toNat → exec (.pshm ii) s = .refused .reservedMaskBit ∧ exec (.pulm ii) s = .refused .reservedMaskBit) ∧
      (∀ m : MemE, s.plat.splitSpaces = false → (eaM s m - s.pc).toNat < 12 →
        exec (.staa m) s = .refused .storeIntoPrefetch ∧ exec (.stab m) s = .refused .storeIntoPrefetch ∧ exec (.std m) s = .refused .storeIntoPrefetch) ∧
      (∀ w ∈ s.input.writes, s.kindAt w.space w.addr = .ram → s.plat.splitSpaces = false ∨ w.space = .prog → (w.addr - s.pc).toNat < 12 →
        s.run = .running → s.pc.getLsbD 0 = false → s.input.reset = false → s.input.bkpt = false → s.inhibit = true ∨ s.input.irq = 0#3 →
        step s = .refused .hostWriteIntoPrefetch) ∧
      (∀ f, step s = .fault f → s.pc.getLsbD 0 = true) ∧
      ∀ r, step s = .refused r →
        r = .reservedMaskBit ∨ r = .reservedZeroNibble ∨ r = .storeIntoPrefetch ∨ (r = .hostWriteIntoPrefetch ∧ s.fetchDisturbed = true)

/-- When the bytes at the program counter, read from program space, are those of a well-formed instruction and nothing happens at the boundary, the step runs exactly
that instruction, from the state with this step's input used up, the stores of other agents in memory, the hold-off latch clear and its old value
noted (R30, R90, R99, R100; the note is the model's form, log entry 27). -/
def Obligations.StepRunsDecodedInstruction : Prop :=
  ∀ (s : State) (i : Instr), s.atInstruction = true → i.wellFormed = true → (∀ k, k < i.length → s.canRead8 .prog (s.pcPlus k) = true) →
    decodeBytes ((List.range i.length).map fun k => s.begun.byteAt .prog (s.pcPlus k)) = .ok (i, []) →
    step s = exec i s.begun

/-- A word at the program counter that matches no opcode takes the illegal instruction exception: two bytes further is the resume address, and no operand word is
fetched (R114, R622; the exception is the spec's choice D11, log entry 16, the vector number a parameter, log entry 9). -/
def Obligations.UnassignedOpcodeTraps : Prop :=
  ∀ (s : State), s.atInstruction = true → s.canRead16 .prog s.pc = true → decodeOp (s.begun.wordAt .prog s.pc) 0 0 = none →
    s.canPushFrame = true → s.canRead16 .data (BitVec.ofNat 20 (2 * s.plat.vecIllegal.toNat)) = true →
    ∃ t, step s = .next t ∧ Entered s.begun t s.plat.vecIllegal (s.pcPlus 2) s.ccr.ip []

/-! ## The boundary, exceptions and reset -/

/-- What a boundary looks at, in order: reset in every run state; nothing else when halted or in background mode; in the waiting and stopped states a recognised
interrupt, else the state stays; when running the breakpoint, then the recognised interrupt unless the latch holds it off. A level is recognised above IP, and
level 7 always where the platform makes it non-maskable; a breakpoint finds the latch clear (R589, R606, R607, R612, R631). The order is the spec's choice D33, the halted and
background states and the breakpoint its choices D17 and D24, log entries 11 and 18, the recognition test with a non-maskable level 7 its choice D19, log entry 17. -/
def Obligations.BoundaryOrder : Prop :=
  ∀ s : State,
    let h := s.input
    let heard : Prop := s.ccr.ip.toNat < h.irq.toNat ∨ (h.irq = 7#3 ∧ s.plat.level7NonMaskable = true)
    (h.reset = true → step s = takeReset s.nextInput) ∧
    (h.reset = false → s.run = .halted ∨ s.run = .background → step s = .next s.nextInput) ∧
    (h.reset = false → s.run = .waiting ∨ s.run = .stopped → heard → step s = takeInterrupt s.nextInput h.irq h.iack) ∧
    (h.reset = false → s.run = .waiting ∨ s.run = .stopped → ¬heard → step s = .next s.nextInput) ∧
    (h.reset = false → s.run = .running → h.bkpt = true → s.plat.bdmEnabled = true →
      step s = .next { s.nextInput with run := .background, inhibit := false }) ∧
    (h.reset = false → s.run = .running → h.bkpt = true → s.plat.bdmEnabled = false →
      step s = breakpoint { s.nextInput with inhibit := false }) ∧
    (h.reset = false → s.run = .running → h.bkpt = false → s.inhibit = false → heard → step s = takeInterrupt s.nextInput h.irq h.iack)

/-- Taking an interrupt or a breakpoint at a boundary: the frame of the next instruction's address plus 6, IP raised to the level for an interrupt and left alone by a
breakpoint, the acknowledge cycle shown, and the vector the acknowledge names: its own number, the autovector, the spurious or the uninitialized one (R604,
R605, R610, R615 to R618, R631). That the breakpoint takes an exception is the spec's choice D24, log entry 18; the answers an acknowledge can get, the cycle shown for it, and that
both events come from outside at a boundary are its choice D15, log entry 8; which exceptions change IP, and the vector numbers, which are parameters, are its choice D8, log entries
17 and 9. -/
def Obligations.InterruptAndBreakpointEntry : Prop :=
  ∀ (s : State) (l : BitVec 3), s.canStackFrame = true →
    (∀ n : Byte, s.canRead16 .data (BitVec.ofNat 20 (2 * n.toNat)) = true →
      ∃ t, takeInterrupt s l (.vector n) = .next t ∧ Entered s t n s.pc l [.interruptAcknowledge l]) ∧
    (∀ n : Byte, n.toNat = (s.plat.vecAutoBase.toNat + l.toNat) % 256 → s.canRead16 .data (BitVec.ofNat 20 (2 * n.toNat)) = true →
      ∃ t, takeInterrupt s l .autovector = .next t ∧ Entered s t n s.pc l [.interruptAcknowledge l]) ∧
    (s.canRead16 .data (BitVec.ofNat 20 (2 * s.plat.vecSpurious.toNat)) = true →
      ∃ t, takeInterrupt s l .spurious = .next t ∧ Entered s t s.plat.vecSpurious s.pc l [.interruptAcknowledge l]) ∧
    (s.canRead16 .data (BitVec.ofNat 20 (2 * s.plat.vecUninit.toNat)) = true →
      ∃ t, takeInterrupt s l .uninitialized = .next t ∧ Entered s t s.plat.vecUninit s.pc l [.interruptAcknowledge l]) ∧
    (s.canRead16 .data (BitVec.ofNat 20 (2 * s.plat.vecBkpt.toNat)) = true →
      ∃ t, breakpoint s = .next t ∧ Entered s t s.plat.vecBkpt s.pc s.ccr.ip [])

/-- SWI stacks the frame of its own address plus 8, clears PK and loads PC from the word at $0000C; IP does not change (R444, R447, R605). -/
def Obligations.SoftwareInterruptEntry : Prop :=
  ∀ s : State, s.canPushFrame = true → s.canRead16 .data 0x0000C#20 = true →
    ∃ t, exec .swi s = .next t ∧ wroteWords s t (s.frameOf (s.pcPlus 8)) ∧
      t =
        { s with
          mem := t.mem
          sk := (s.sp20 - 4#20).extractLsb' 16 4
          sp := (s.sp20 - 4#20).extractLsb' 0 16
          pc := roundedDown ((t.wordAt .data 0x0000C#20).setWidth 20)
          run := .running
          inhibit := false }

/-- EDIV and EDIVS with IX = 0, and BGND where background mode is not enabled, take their exception with nothing else done; the resume address is the next
instruction's (R264, R265, R592, R622, R623; the vector numbers are parameters, log entry 9). -/
def Obligations.SynchronousTraps : Prop :=
  ∀ s : State, s.canPushFrame = true →
    (s.ix = 0#16 → s.canRead16 .data (BitVec.ofNat 20 (2 * s.plat.vecDiv0.toNat)) = true →
      (∃ t, exec .ediv s = .next t ∧ Entered s t s.plat.vecDiv0 (s.pcPlus 2) s.ccr.ip []) ∧
        ∃ t, exec .edivs s = .next t ∧ Entered s t s.plat.vecDiv0 (s.pcPlus 2) s.ccr.ip []) ∧
    (s.plat.bdmEnabled = false → s.canRead16 .data (BitVec.ofNat 20 (2 * s.plat.vecIllegal.toNat)) = true →
      ∃ t, exec .bgnd s = .next t ∧ Entered s t s.plat.vecIllegal (s.pcPlus 2) s.ccr.ip [])

/-- A bus error on an instruction's read, write or fetch takes the bus error exception with the instruction's own address as the resume address. What the instruction did before the
faulting access stays and nothing after it happens: nothing for a load, a store, a fetch or a move, IX and the flags included; the first word of LDED in E, of STED and of a call in
memory, of LDHI in HR; the words PSHM and PSHMAC have pushed and the registers PULM has loaded, with SK : SP where it stood; for MAC and the first pass of RMAC all but HR and IR, and
E not counted down; the flags of INC. A bus error inside the entry, or on a RESET word, halts the machine, which reset alone leaves (R620, R624: the spec's choice D17, log entry 11;
the vector number is a parameter, D8, log entry 9). What the clauses say besides rests on other choices of the spec: for MAC and RMAC the sticky MV, EV, V, SL, MAC_QUALIFY and that -1
times -1 adds -1 on D14, log entry 14; the flags of INC, and their order before its store, on D29, log entry 15, and on the pseudocode as log entry 11 reads it; for the first byte of
STD, that of an odd word's two cycles the high byte's is first on D18, log entry 20, and that an even word of two kinds moves as two bytes is the model's, log entry 7. -/
def Obligations.BusErrorAndDoubleFault : Prop :=
  ∀ s : State,
    -- the entry, and a bus error at each of its three accesses
    (s.canPushFrame = true → s.canRead16 .data (BitVec.ofNat 20 (2 * s.plat.vecBerr.toNat)) = true →
      ∃ t, busError s = .next t ∧ Entered s t s.plat.vecBerr s.pc s.ccr.ip []) ∧
    (s.lostWrite16 s.sp20 = true → busError s = .next { s with run := .halted, inhibit := false } ∧ exec .swi s = .next { s with run := .halted, inhibit := false }) ∧
    (s.canWrite16 s.sp20 = true → s.lostWrite16 (s.sp20 - 2#20) = true →
      ∃ t, busError s = .next { t with run := .halted, inhibit := false } ∧ pushedWords s t [(s.pcPlus 6).extractLsb' 0 16]) ∧
    (s.canPushFrame = true → s.lostRead .data (BitVec.ofNat 20 (2 * s.plat.vecBerr.toNat)) = true →
      ∃ t, busError s = .next { t with run := .halted, inhibit := false } ∧
        pushedWords s t [(s.pcPlus 6).extractLsb' 0 16, s.ccr.word ((s.pcPlus 6).extractLsb' 16 4)]) ∧
    (s.input.reset = true → s.lostRead .prog 0#20 = true → step s = .next { s.nextInput with run := .halted, inhibit := false }) ∧
    (s.run = .halted → s.input.reset = false → step s = .next s.nextInput) ∧
    -- the fetch
    (s.atInstruction = true → s.lostRead .prog s.pc = true → step s = busError s.begun) ∧
    (∀ i, s.atInstruction = true → s.canRead16 .prog s.pc = true → decodeOp (s.begun.wordAt .prog s.pc) 0 0 = some i → i.length ≠ 2 →
      s.lostRead .prog (s.pc + 2#20) = true → step s = busError s.begun) ∧
    -- one access
    (∀ m : MemE, s.lostRead .data (eaM s m) = true → exec (.ldaa (.mem m)) s = busError s ∧ exec (.ldd (.mem m)) s = busError s ∧ exec (.adca (.mem m)) s = busError s) ∧
    (∀ m : MemE, s.lostWrite8 (eaM s m) = true → exec (.staa m) s = busError s) ∧
    (∀ m : MemE, s.lostWrite16 (eaM s m) = true → exec (.std m) s = busError s) ∧
    -- several accesses
    (∀ m : MemE, s.canWrite8 (eaM s m) = true → s.lostWrite8 (eaM s m + 1#20) = true →
      ∃ t, exec (.std m) s = busError t ∧ t = { s with mem := t.mem } ∧ wroteBytes s t [(eaM s m, s.a)]) ∧
    (∀ h : Word, s.canRead16 .data (eaExt s h) = true → s.lostRead .data (eaExt s h + 2#20) = true →
      exec (.lded h) s = busError { s with e := s.wordAt .data (eaExt s h) }) ∧
    (∀ h : Word, s.canWrite16 (eaExt s h) = true → s.lostWrite16 (eaExt s h + 2#20) = true →
      ∃ t, exec (.sted h) s = busError t ∧ t = { s with mem := t.mem } ∧ wroteWords s t [(eaExt s h, s.e)]) ∧
    (∀ o : Move, s.lostRead .data (moveAddrs s o).1 = true → exec (.movb o) s = busError s ∧ exec (.movw o) s = busError s) ∧
    (∀ o : Move, s.canRead8 .data (moveAddrs s o).1 = true → s.lostWrite8 (moveAddrs s o).2 = true → exec (.movb o) s = busError s) ∧
    (∀ o : Move, s.canRead16 .data (moveAddrs s o).1 = true → s.lostWrite16 (moveAddrs s o).2 = true → exec (.movw o) s = busError s) ∧
    (∀ (m : MemB) (v : Word) (rest : List DevReply), s.kindAt .data (eaB s m) = .device → s.inPrefetch (eaB s m) = false →
      s.replies = .data v :: .busError :: rest →
      let x : Byte := BitVec.ofNat 8 (v.toNat % 256)
      exec (.inc m) s = busError { s with
        ccr := { (added s.ccr x 1#8 false).2 with c := s.ccr.c }
        replies := rest
        events := s.events ++ [.deviceRead .data (eaB s m) false, .deviceWrite (eaB s m) false ((x + 1#8).setWidth 16)] }) ∧
    -- the stack
    (∀ (ii : Byte) (k : Nat), ii.getLsbD 7 = false → k < (s.selectedWords ii).length → (∀ j, j < k → s.canWrite16 (s.pushAddr j) = true) →
      s.lostWrite16 (s.pushAddr k) = true →
      ∃ t, exec (.pshm ii) s = busError t ∧ pushedWords s t ((s.selectedWords ii).take k)) ∧
    (∀ (ii : Byte) (j : Nat), ii.getLsbD 7 = false → j < 7 → ii.getLsbD j = true →
      (∀ i, i < j → ii.getLsbD i = true → s.canRead16 .data (s.pullAddr (selectedBelow ii i)) = true) →
      s.lostRead .data (s.pullAddr (selectedBelow ii j)) = true →
      exec (.pulm ii) s = busError ((s.pulledBelow ii j).withSP20 (s.pullAddr (selectedBelow ii j)))) ∧
    (∀ k : Nat, k < s.plat.macFrame.words → k < 2 ^ 19 → (∀ j, j < k → s.canWrite16 (s.pushAddr j) = true) → s.lostWrite16 (s.pushAddr k) = true →
      ∃ t, exec .pshmac s = busError t ∧ pushedWords s t ((macFrame s).take k)) ∧
    (∀ j : JumpTarget, j.wellFormed = true → s.canWrite16 s.sp20 = true → s.lostWrite16 (s.sp20 - 2#20) = true →
      ∃ t, exec (.jsr j) s = busError t ∧ pushedWords s t [(s.pcPlus 6).extractLsb' 0 16]) ∧
    (s.canRead16 .data (s.sp20 + 2#20) = true → s.lostRead .data (s.sp20 + 4#20) = true →
      exec .rts s = busError (s.withSP20 (s.sp20 + 4#20)) ∧ exec .rti s = busError (s.withSP20 (s.sp20 + 4#20))) ∧
    (s.lostWrite8 (s.sp20 + 1#20) = true → exec .psha s = busError (s.withSP20 (s.sp20 + 1#20))) ∧
    (s.lostRead .data (s.sp20 + 2#20) = true → exec .pula s = busError (s.withSP20 (s.sp20 + 2#20))) ∧
    -- the MAC unit
    (s.canRead16 .data s.x20 = true → s.lostRead .data s.y20 = true → exec .ldhi s = busError { s with hr := s.wordAt .data s.x20 }) ∧
    ∀ xo yo : Nib,
      let p : Long := BitVec.ofInt 32 (2 * (s.hr.toInt * s.ir.toInt))
      let t : Int := s.am.toInt + p.toInt
      let x := qualify s.plat s.ix xo s.xmsk
      let y := qualify s.plat s.iy yo s.ymsk
      let summed : State :=
        { s with
          am := BitVec.ofInt 36 t
          sl := if signedFits 36 t = false ∧ s.ccr.mv = false then decide (t < 0) else s.sl
          ccr :=
            { s.ccr with
              mv := s.ccr.mv || !signedFits 36 t
              ev := !signedFits 32 (BitVec.ofInt 36 t).toInt
              v := decide (s.hr.toInt = -32768 ∧ s.ir.toInt = -32768) }
          ix := x
          iy := y }
      (s.lostRead .data (s.xk ++ x) = true →
        exec (.mac xo yo) s = busError { summed.withED p with iz := s.hr } ∧ exec (.rmac xo yo) s = busError summed) ∧
      (s.canRead16 .data (s.xk ++ x) = true → s.lostRead .data (s.yk ++ y) = true →
        exec (.mac xo yo) s = busError { summed.withED p with iz := s.hr, hr := s.wordAt .data (s.xk ++ x) } ∧
          exec (.rmac xo yo) s = busError { summed with hr := s.wordAt .data (s.xk ++ x) })

/-- Reset, from any run state: ZK, SK, PK : PC, SP and IZ from the four RESET words of program space, where RESET_LAYOUT says, IP 7, the latch clear, running; nothing stacked, memory
as other agents left it, platform and history unchanged. What R652 leaves unspecified is not stated. RESET_LAYOUT is a parameter, its default `0000 ZK SK PK`, PC, SP, IZ and IP = 7
the spec's own choices (R650, D9; log entries 2, 3). -/
def Obligations.ResetSequence : Prop :=
  ∀ s : State, s.input.reset = true → s.canRead16 .prog 0#20 = true → s.canRead16 .prog 2#20 = true → s.canRead16 .prog 4#20 = true →
    s.canRead16 .prog 6#20 = true →
    let w (k : Nat) : Word := s.nextInput.wordAt .prog (BitVec.ofNat 20 (2 * k))
    let field (p : Slot) (width : Nat) : Nat := (if p.word < 4 then (w p.word).toNat else 0) / 2 ^ p.lo % 2 ^ width
    let l := s.plat.resetLayout
    ∃ t, step s = .next t ∧
      t.zk.toNat = field l.zk 4 ∧ t.sk.toNat = field l.sk 4 ∧ t.pc.toNat = (field l.pk 4 * 65536 + field l.pc 16) / 2 * 2 ∧
      t.sp.toNat = field l.sp 16 ∧ t.iz.toNat = field l.iz 16 ∧
      (l = ResetLayout.default →
        t.zk.toNat = (w 0).toNat / 256 % 16 ∧ t.sk.toNat = (w 0).toNat / 16 % 16 ∧ t.pc.toNat = ((w 0).toNat % 16 * 65536 + (w 1).toNat) / 2 * 2 ∧
          t.sp = w 2 ∧ t.iz = w 3) ∧
      t.ccr.ip = 7#3 ∧ t.inhibit = false ∧ t.run = .running ∧
      t.mem = s.nextInput.mem ∧ t.plat = s.plat ∧ t.events = s.events ∧ t.replies = s.replies ∧ t.inputs = s.inputs.tail

/-- RTI ends every exception: with SK : SP and the two words of the frame as the entry left them, it restores SK : SP and CCR[15:4] and goes on at the resume address, whatever the
handler did to the other registers and to the rest of memory (R443, R604, R605, R619). -/
def Obligations.ReturnEndsEveryException : Prop :=
  ∀ (s t u : State) (n : Byte) (resume : Addr) (ip : BitVec 3) (ev : List HostEvent),
    s.canStackFrame = true → resume.getLsbD 0 = false → Entered s t n resume ip ev →
    u.plat = s.plat → u.wordAt .data s.sp20 = t.wordAt .data s.sp20 → u.wordAt .data (s.sp20 - 2#20) = t.wordAt .data (s.sp20 - 2#20) →
    u.sk = t.sk → u.sp = t.sp →
    exec .rti u = .next { u with sk := s.sk, sp := s.sp, ccr := s.ccr, pc := resume }

/-- RTS ends every call: with SK : SP and the two words of the frame as JSR, LBSR or BSR left them, it restores SK : SP, leaves CCR[15:4] as the subroutine left it, and goes on at
the instruction after the call, whatever the subroutine did to the other registers and to the rest of memory (R439 to R442, R446). -/
def Obligations.ReturnEndsEveryCall : Prop :=
  ∀ (s t u : State) (i : Instr),
    (∃ j, i = .jsr j) ∨ (∃ rrrr, i = .lbsr rrrr) ∨ (∃ rr, i = .bsr rr) →
    s.canPushFrame = true → s.pc.getLsbD 0 = false → exec i s = .next t →
    u.plat = s.plat → u.wordAt .data s.sp20 = t.wordAt .data s.sp20 → u.wordAt .data (s.sp20 - 2#20) = t.wordAt .data (s.sp20 - 2#20) →
    u.sk = t.sk → u.sp = t.sp →
    exec .rts u = .next { u with sk := s.sk, sp := s.sp, pc := s.pcPlus i.length }

/-! ## Data movement -/

/-- The loads: the register takes the operand, N and Z say whether it is negative or zero, V is clear, nothing else changes; LDED loads E from EA and
D from EA + 2, modulo 2^20, and changes no flag (R200 to R205, R476 to R478, R533; the flags are the spec's assumption D29). -/
def Obligations.Loads : Prop :=
  ∀ s : State,
    (∀ o, ready8 s o = true → exec (.ldaa o) s = .next { s with a := value8 s o, ccr := withNZV s.ccr (value8 s o), pc := s.pcPlus o.length }) ∧
    (∀ o, ready8 s o = true → exec (.ldab o) s = .next { s with b := value8 s o, ccr := withNZV s.ccr (value8 s o), pc := s.pcPlus o.length }) ∧
    (∀ o, readyD s o = true →
      exec (.ldd o) s = .next { s.withD (valueD s o) with ccr := withNZV s.ccr (valueD s o), pc := s.pcPlus o.length }) ∧
    (∀ o, readyE s o = true → exec (.lde o) s = .next { s with e := valueE s o, ccr := withNZV s.ccr (valueE s o), pc := s.pcPlus o.length }) ∧
    (∀ o, readyX s o = true → exec (.ldx o) s = .next { s with ix := valueX s o, ccr := withNZV s.ccr (valueX s o), pc := s.pcPlus o.length }) ∧
    (∀ o, readyX s o = true → exec (.ldy o) s = .next { s with iy := valueX s o, ccr := withNZV s.ccr (valueX s o), pc := s.pcPlus o.length }) ∧
    (∀ o, readyX s o = true → exec (.ldz o) s = .next { s with iz := valueX s o, ccr := withNZV s.ccr (valueX s o), pc := s.pcPlus o.length }) ∧
    (∀ o, readyX s o = true → exec (.lds o) s = .next { s with sp := valueX s o, ccr := withNZV s.ccr (valueX s o), pc := s.pcPlus o.length }) ∧
    ∀ hhll : Word, s.canRead16 .data (eaExt s hhll) = true → s.canRead16 .data (eaExt s hhll + 2#20) = true →
      exec (.lded hhll) s = .next { s.withD (s.wordAt .data (eaExt s hhll + 2#20)) with e := s.wordAt .data (eaExt s hhll), pc := s.pcPlus 4 }

/-- The stores: the register goes to the effective address, most significant byte first, N and Z are those of the value stored, V is clear; no other byte of memory and
no register changes; STED stores E at EA and D at EA + 2, modulo 2^20, and changes no flag (R208 to R212, R479 to R481, R534; the flags are the spec's assumption D29). -/
def Obligations.Stores : Prop :=
  ∀ s : State,
    (∀ m : MemE,
      (s.canWrite8 (eaM s m) = true →
        storesByte (.staa m) s (eaM s m) s.a (withNZV s.ccr s.a) m.length ∧ storesByte (.stab m) s (eaM s m) s.b (withNZV s.ccr s.b) m.length) ∧
      (s.canWrite16 (eaM s m) = true → storesWord (.std m) s (eaM s m) s.d (withNZV s.ccr s.d) m.length)) ∧
    (∀ m : MemW, s.canWrite16 (eaW s m) = true → storesWord (.ste m) s (eaW s m) s.e (withNZV s.ccr s.e) m.length) ∧
    (∀ m : MemB, s.canWrite16 (eaB s m) = true →
      storesWord (.stx m) s (eaB s m) s.ix (withNZV s.ccr s.ix) m.length ∧ storesWord (.sty m) s (eaB s m) s.iy (withNZV s.ccr s.iy) m.length ∧
        storesWord (.stz m) s (eaB s m) s.iz (withNZV s.ccr s.iz) m.length ∧ storesWord (.sts m) s (eaB s m) s.sp (withNZV s.ccr s.sp) m.length) ∧
    ∀ hhll : Word, s.canWrite16 (eaExt s hhll) = true → s.canWrite16 (eaExt s hhll + 2#20) = true →
      ∃ t, exec (.sted hhll) s = .next t ∧ t = { s with mem := t.mem, pc := s.pcPlus 4 } ∧ wroteWords s t [(eaExt s hhll, s.e), (eaExt s hhll + 2#20, s.d)]

/-- MOVB and MOVW in their three forms: the value read at the source is at the destination, N and Z are those of the value moved, V is clear; an IXP operand is used
at XK : IX and XK : IX then moves by the signed offset (R151, R206, R207; the flags are the spec's assumption D29). -/
def Obligations.Moves : Prop :=
  ∀ (s : State) (ff : Byte) (p q : Word),
    let moved : Addr := BitVec.ofInt 20 (s.x20.toNat + ff.toInt)
    (s.canRead8 .data s.x20 = true → s.canWrite8 (eaExt s p) = true →
      ∃ t, exec (.movb (.ixpToExt ff p)) s = .next t ∧ wroteBytes s t [(eaExt s p, s.byteAt .data s.x20)] ∧
        t = { s.withX20 moved with mem := t.mem, ccr := withNZV s.ccr (s.byteAt .data s.x20), pc := s.pcPlus 4 }) ∧
    (s.canRead8 .data (eaExt s p) = true → s.canWrite8 s.x20 = true →
      ∃ t, exec (.movb (.extToIxp ff p)) s = .next t ∧ wroteBytes s t [(s.x20, s.byteAt .data (eaExt s p))] ∧
        t = { s.withX20 moved with mem := t.mem, ccr := withNZV s.ccr (s.byteAt .data (eaExt s p)), pc := s.pcPlus 4 }) ∧
    (s.canRead8 .data (eaExt s p) = true → s.canWrite8 (eaExt s q) = true →
      storesByte (.movb (.extToExt p q)) s (eaExt s q) (s.byteAt .data (eaExt s p)) (withNZV s.ccr (s.byteAt .data (eaExt s p))) 6) ∧
    (s.canRead16 .data s.x20 = true → s.canWrite16 (eaExt s p) = true →
      ∃ t, exec (.movw (.ixpToExt ff p)) s = .next t ∧ wroteWords s t [(eaExt s p, s.wordAt .data s.x20)] ∧
        t = { s.withX20 moved with mem := t.mem, ccr := withNZV s.ccr (s.wordAt .data s.x20), pc := s.pcPlus 4 }) ∧
    (s.canRead16 .data (eaExt s p) = true → s.canWrite16 s.x20 = true →
      ∃ t, exec (.movw (.extToIxp ff p)) s = .next t ∧ wroteWords s t [(s.x20, s.wordAt .data (eaExt s p))] ∧
        t = { s.withX20 moved with mem := t.mem, ccr := withNZV s.ccr (s.wordAt .data (eaExt s p)), pc := s.pcPlus 4 }) ∧
    (s.canRead16 .data (eaExt s p) = true → s.canWrite16 (eaExt s q) = true →
      storesWord (.movw (.extToExt p q)) s (eaExt s q) (s.wordAt .data (eaExt s p)) (withNZV s.ccr (s.wordAt .data (eaExt s p))) 6)

/-- Transfers between accumulators write N, Z and clear V; exchanges, of accumulators with each other or with a 16-bit index register, change no flag and no extension
field (R213 to R218, R494 to R499; the flags are the spec's assumption D29). -/
def Obligations.TransfersAndExchanges : Prop :=
  ∀ s : State,
    exec .tab s = .next { s with b := s.a, ccr := withNZV s.ccr s.a, pc := s.pcPlus 2 } ∧
    exec .tba s = .next { s with a := s.b, ccr := withNZV s.ccr s.b, pc := s.pcPlus 2 } ∧
    exec .tde s = .next { s with e := s.d, ccr := withNZV s.ccr s.d, pc := s.pcPlus 2 } ∧
    exec .ted s = .next { s.withD s.e with ccr := withNZV s.ccr s.e, pc := s.pcPlus 2 } ∧
    exec .xgab s = .next { s with a := s.b, b := s.a, pc := s.pcPlus 2 } ∧
    exec .xgde s = .next { s.withD s.e with e := s.d, pc := s.pcPlus 2 } ∧
    exec .xgdx s = .next { s.withD s.ix with ix := s.d, pc := s.pcPlus 2 } ∧
    exec .xgdy s = .next { s.withD s.iy with iy := s.d, pc := s.pcPlus 2 } ∧
    exec .xgdz s = .next { s.withD s.iz with iz := s.d, pc := s.pcPlus 2 } ∧
    exec .xgex s = .next { s with e := s.ix, ix := s.e, pc := s.pcPlus 2 } ∧
    exec .xgey s = .next { s with e := s.iy, iy := s.e, pc := s.pcPlus 2 } ∧
    exec .xgez s = .next { s with e := s.iz, iz := s.e, pc := s.pcPlus 2 }

/-! ## Arithmetic -/

/-- Two instructions as their glossary pages print them. ABA and ADCA: A is A + B, or A + M + C, modulo 256; H is the carry from bit 3, N and Z those of the sum, V says that the
signed sum does not fit, C is the carry from A; nothing else changes. Their words are the printed ones (R231; R232 but for its bus error, which is statement
BusErrorAndDoubleFault's). -/
def Obligations.GlossaryPageInstructions : Prop :=
  (encode .aba = [0x370B#16] ∧
    ∀ (ff : Byte) (g : Word),
      encode (.adca (.imm8 ff)) = [0x73#8 ++ ff] ∧ encode (.adca (.mem (.ind8 .x ff))) = [0x43#8 ++ ff] ∧
      encode (.adca (.mem (.ind8 .y ff))) = [0x53#8 ++ ff] ∧ encode (.adca (.mem (.ind8 .z ff))) = [0x63#8 ++ ff] ∧
      encode (.adca (.mem (.ind16 .x g))) = [0x1743#16, g] ∧ encode (.adca (.mem (.ind16 .y g))) = [0x1753#16, g] ∧
      encode (.adca (.mem (.ind16 .z g))) = [0x1763#16, g] ∧ encode (.adca (.mem (.ext g))) = [0x1773#16, g] ∧
      encode (.adca (.mem (.eoff .x))) = [0x2743#16] ∧ encode (.adca (.mem (.eoff .y))) = [0x2753#16] ∧ encode (.adca (.mem (.eoff .z))) = [0x2763#16]) ∧
    ∀ s : State,
      let flags (m : Byte) (ci : Nat) : CCR :=
        { s.ccr with
          h := decide (16 ≤ s.a.toNat % 16 + m.toNat % 16 + ci)
          n := decide (128 ≤ (s.a.toNat + m.toNat + ci) % 256)
          z := decide ((s.a.toNat + m.toNat + ci) % 256 = 0)
          v := decide (s.a.toInt + m.toInt + ci < -128 ∨ 127 < s.a.toInt + m.toInt + ci)
          c := decide (256 ≤ s.a.toNat + m.toNat + ci) }
      exec .aba s = .next { s with a := BitVec.ofNat 8 (s.a.toNat + s.b.toNat), ccr := flags s.b 0, pc := s.pcPlus 2 } ∧
      ∀ o, ready8 s o = true →
        let m := value8 s o
        let ci := s.ccr.c.toNat
        exec (.adca o) s = .next { s with a := BitVec.ofNat 8 (s.a.toNat + m.toNat + ci), ccr := flags m ci, pc := s.pcPlus o.length }

/-- The additions: the sum modulo 2^8 or 2^16, C the carry out, V when the signed sum does not fit, N and Z of the sum; the 8-bit ones also write H, the 16-bit ones leave
it (R45, R46, R231 to R240; flags other than those of ABA and ADCA are the spec's assumption D29). -/
def Obligations.Additions : Prop :=
  ∀ s : State,
    (exec .aba s = .next { s with a := (added8 s.ccr s.a s.b false).1, ccr := (added8 s.ccr s.a s.b false).2, pc := s.pcPlus 2 }) ∧
    (∀ o, ready8 s o = true → exec (.adca o) s =
      .next { s with a := (added8 s.ccr s.a (value8 s o) s.ccr.c).1, ccr := (added8 s.ccr s.a (value8 s o) s.ccr.c).2, pc := s.pcPlus o.length }) ∧
    (∀ o, ready8 s o = true → exec (.adcb o) s =
      .next { s with b := (added8 s.ccr s.b (value8 s o) s.ccr.c).1, ccr := (added8 s.ccr s.b (value8 s o) s.ccr.c).2, pc := s.pcPlus o.length }) ∧
    (∀ o, ready8 s o = true → exec (.adda o) s =
      .next { s with a := (added8 s.ccr s.a (value8 s o) false).1, ccr := (added8 s.ccr s.a (value8 s o) false).2, pc := s.pcPlus o.length }) ∧
    (∀ o, ready8 s o = true → exec (.addb o) s =
      .next { s with b := (added8 s.ccr s.b (value8 s o) false).1, ccr := (added8 s.ccr s.b (value8 s o) false).2, pc := s.pcPlus o.length }) ∧
    (∀ o, readyD s o = true → exec (.adcd o) s =
      .next { s.withD (added s.ccr s.d (valueD s o) s.ccr.c).1 with ccr := (added s.ccr s.d (valueD s o) s.ccr.c).2, pc := s.pcPlus o.length }) ∧
    (∀ o, readyDI s o = true → exec (.addd o) s =
      .next { s.withD (added s.ccr s.d (valueDI s o) false).1 with ccr := (added s.ccr s.d (valueDI s o) false).2, pc := s.pcPlus o.length }) ∧
    (∀ o, readyE s o = true → exec (.adce o) s =
      .next { s with e := (added s.ccr s.e (valueE s o) s.ccr.c).1, ccr := (added s.ccr s.e (valueE s o) s.ccr.c).2, pc := s.pcPlus o.length }) ∧
    (∀ o, readyEI s o = true → exec (.adde o) s =
      .next { s with e := (added s.ccr s.e (valueEI s o) false).1, ccr := (added s.ccr s.e (valueEI s o) false).2, pc := s.pcPlus o.length }) ∧
    exec .ade s = .next { s with e := (added s.ccr s.e s.d false).1, ccr := (added s.ccr s.e s.d false).2, pc := s.pcPlus 2 }

/-- The subtractions: the difference modulo 2^8 or 2^16, C the borrow, V when the signed difference does not fit, N and Z of the difference; H stays (R47, R48, R241 to
R250; the flags are the spec's assumption D29). -/
def Obligations.Subtractions : Prop :=
  ∀ s : State,
    (exec .sba s = .next { s with a := (subtracted s.ccr s.a s.b false).1, ccr := (subtracted s.ccr s.a s.b false).2, pc := s.pcPlus 2 }) ∧
    (∀ o, ready8 s o = true → exec (.sbca o) s =
      .next { s with a := (subtracted s.ccr s.a (value8 s o) s.ccr.c).1, ccr := (subtracted s.ccr s.a (value8 s o) s.ccr.c).2, pc := s.pcPlus o.length }) ∧
    (∀ o, ready8 s o = true → exec (.sbcb o) s =
      .next { s with b := (subtracted s.ccr s.b (value8 s o) s.ccr.c).1, ccr := (subtracted s.ccr s.b (value8 s o) s.ccr.c).2, pc := s.pcPlus o.length }) ∧
    (∀ o, ready8 s o = true → exec (.suba o) s =
      .next { s with a := (subtracted s.ccr s.a (value8 s o) false).1, ccr := (subtracted s.ccr s.a (value8 s o) false).2, pc := s.pcPlus o.length }) ∧
    (∀ o, ready8 s o = true → exec (.subb o) s =
      .next { s with b := (subtracted s.ccr s.b (value8 s o) false).1, ccr := (subtracted s.ccr s.b (value8 s o) false).2, pc := s.pcPlus o.length }) ∧
    (∀ o, readyD s o = true → exec (.sbcd o) s =
      .next { s.withD (subtracted s.ccr s.d (valueD s o) s.ccr.c).1 with ccr := (subtracted s.ccr s.d (valueD s o) s.ccr.c).2, pc := s.pcPlus o.length }) ∧
    (∀ o, readyD s o = true → exec (.subd o) s =
      .next { s.withD (subtracted s.ccr s.d (valueD s o) false).1 with ccr := (subtracted s.ccr s.d (valueD s o) false).2, pc := s.pcPlus o.length }) ∧
    (∀ o, readyE s o = true → exec (.sbce o) s =
      .next { s with e := (subtracted s.ccr s.e (valueE s o) s.ccr.c).1, ccr := (subtracted s.ccr s.e (valueE s o) s.ccr.c).2, pc := s.pcPlus o.length }) ∧
    (∀ o, readyE s o = true → exec (.sube o) s =
      .next { s with e := (subtracted s.ccr s.e (valueE s o) false).1, ccr := (subtracted s.ccr s.e (valueE s o) false).2, pc := s.pcPlus o.length }) ∧
    exec .sde s = .next { s with e := (subtracted s.ccr s.e s.d false).1, ccr := (subtracted s.ccr s.e s.d false).2, pc := s.pcPlus 2 }

/-- Compares and tests write the flags of the subtraction, of the operand or of 0, and nothing else but the program counter (R253 to R263, R282, R283, R473 to R475, R532;
the flags are the spec's assumption D29). -/
def Obligations.ComparesAndTests : Prop :=
  ∀ s : State,
    exec .cba s = .next { s with ccr := (subtracted s.ccr s.a s.b false).2, pc := s.pcPlus 2 } ∧
    (∀ o, ready8 s o = true →
      exec (.cmpa o) s = .next { s with ccr := (subtracted s.ccr s.a (value8 s o) false).2, pc := s.pcPlus o.length } ∧
        exec (.cmpb o) s = .next { s with ccr := (subtracted s.ccr s.b (value8 s o) false).2, pc := s.pcPlus o.length }) ∧
    (∀ o, readyD s o = true → exec (.cpd o) s = .next { s with ccr := (subtracted s.ccr s.d (valueD s o) false).2, pc := s.pcPlus o.length }) ∧
    (∀ o, readyE s o = true → exec (.cpe o) s = .next { s with ccr := (subtracted s.ccr s.e (valueE s o) false).2, pc := s.pcPlus o.length }) ∧
    (∀ o, readyX s o = true →
      exec (.cpx o) s = .next { s with ccr := (subtracted s.ccr s.ix (valueX s o) false).2, pc := s.pcPlus o.length } ∧
        exec (.cpy o) s = .next { s with ccr := (subtracted s.ccr s.iy (valueX s o) false).2, pc := s.pcPlus o.length } ∧
        exec (.cpz o) s = .next { s with ccr := (subtracted s.ccr s.iz (valueX s o) false).2, pc := s.pcPlus o.length } ∧
        exec (.cps o) s = .next { s with ccr := (subtracted s.ccr s.sp (valueX s o) false).2, pc := s.pcPlus o.length }) ∧
    exec .tsta s = .next { s with ccr := (subtracted s.ccr s.a 0#8 false).2, pc := s.pcPlus 2 } ∧
    exec .tstb s = .next { s with ccr := (subtracted s.ccr s.b 0#8 false).2, pc := s.pcPlus 2 } ∧
    exec .tstd s = .next { s with ccr := (subtracted s.ccr s.d 0#16 false).2, pc := s.pcPlus 2 } ∧
    exec .tste s = .next { s with ccr := (subtracted s.ccr s.e 0#16 false).2, pc := s.pcPlus 2 } ∧
    (∀ m : MemB, s.canRead8 .data (eaB s m) = true →
      exec (.tst m) s = .next { s with ccr := (subtracted s.ccr (s.byteAt .data (eaB s m)) 0#8 false).2, pc := s.pcPlus m.length }) ∧
    ∀ m : MemW, s.canRead16 .data (eaW s m) = true →
      exec (.tstw m) s = .next { s with ccr := (subtracted s.ccr (s.wordAt .data (eaW s m)) 0#16 false).2, pc := s.pcPlus m.length }

/-- After CMPA the conditional branches decide as Table 5-20 says: BHI, BLS, BCC, BCS by the unsigned order of A and the operand, BGT, BLE, BGE, BLT by the signed order,
BEQ and BNE by equality (R254, R282, R401, R404 to R417). -/
def Obligations.BranchesAfterCompareDecideTheOrder : Prop :=
  ∀ (s t : State) (o : Src8) (rr : Byte), ready8 s o = true → exec (.cmpa o) s = .next t →
    let m := value8 s o
    let goes (p : Prop) [Decidable p] : Out := .next { t with pc := if p then t.relative rr.toInt else t.pcPlus 2 }
    exec (.bhi rr) t = goes (m.toNat < s.a.toNat) ∧
    exec (.bls rr) t = goes (s.a.toNat ≤ m.toNat) ∧
    exec (.bcc rr) t = goes (m.toNat ≤ s.a.toNat) ∧
    exec (.bcs rr) t = goes (s.a.toNat < m.toNat) ∧
    exec (.bgt rr) t = goes (m.toInt < s.a.toInt) ∧
    exec (.ble rr) t = goes (s.a.toInt ≤ m.toInt) ∧
    exec (.bge rr) t = goes (m.toInt ≤ s.a.toInt) ∧
    exec (.blt rr) t = goes (s.a.toInt < m.toInt) ∧
    exec (.beq rr) t = goes (s.a = m) ∧
    exec (.bne rr) t = goes (s.a ≠ m)

/-- Increments and decrements, of A and B and of bytes and words in memory: the value modulo its width one higher or lower, N and Z of the result, V when the signed result
does not fit, C as it was (R272 to R279, R284; N, Z and V are the spec's assumption D29). -/
def Obligations.IncrementsAndDecrements : Prop :=
  ∀ s : State,
    let up {w : Nat} (v : BitVec w) : CCR := { (added s.ccr v (BitVec.ofNat w 1) false).2 with c := s.ccr.c }
    let down {w : Nat} (v : BitVec w) : CCR := { (subtracted s.ccr v (BitVec.ofNat w 1) false).2 with c := s.ccr.c }
    exec .inca s = .next { s with a := s.a + 1#8, ccr := up s.a, pc := s.pcPlus 2 } ∧
    exec .incb s = .next { s with b := s.b + 1#8, ccr := up s.b, pc := s.pcPlus 2 } ∧
    exec .deca s = .next { s with a := s.a - 1#8, ccr := down s.a, pc := s.pcPlus 2 } ∧
    exec .decb s = .next { s with b := s.b - 1#8, ccr := down s.b, pc := s.pcPlus 2 } ∧
    (∀ m : MemB, s.canWrite8 (eaB s m) = true →
      storesByte (.inc m) s (eaB s m) (s.byteAt .data (eaB s m) + 1#8) (up (s.byteAt .data (eaB s m))) m.length ∧
        storesByte (.dec m) s (eaB s m) (s.byteAt .data (eaB s m) - 1#8) (down (s.byteAt .data (eaB s m))) m.length) ∧
    ∀ m : MemW, s.canWrite16 (eaW s m) = true →
      storesWord (.incw m) s (eaW s m) (s.wordAt .data (eaW s m) + 1#16) (up (s.wordAt .data (eaW s m))) m.length ∧
        storesWord (.decw m) s (eaW s m) (s.wordAt .data (eaW s m) - 1#16) (down (s.wordAt .data (eaW s m))) m.length

/-- DAA: on the combinations of C, A and H that Table 5-10 lists, the correction and the new C of the table, in the spec's closed form, N and Z of the corrected A, V free;
on every other combination A, N, Z, V and C are free and everything else is as it was. SXT: A takes the sign of B, N and Z are those of D (R251, R252). N and Z of DAA and that H
stays, and the flags of SXT, are the spec's assumption D29, log entry 15; the free values are its choice D31, log entries 4 and 22. -/
def Obligations.DecimalAdjustAndSignExtend : Prop :=
  ∀ s : State,
    (let hi := s.a.toNat / 16
     let lo := s.a.toNat % 16
     let carry : Bool := s.ccr.c || decide (9 < hi) || (decide (hi = 9) && decide (9 < lo))
     let fix : Byte := BitVec.ofNat 8 ((if s.ccr.h = true ∨ 9 < lo then 6 else 0) + if carry = true then 96 else 0)
     let listed : Prop := (s.ccr.h = true → lo ≤ 3) ∧ (s.ccr.c = true → hi ≤ if s.ccr.h = true then 3 else 2)
     (listed → ∃ v, exec .daa s =
        .next { s with a := s.a + fix, ccr := { withNZ s.ccr (s.a + fix) with v := v, c := carry }, draws := s.draws + 1, pc := s.pcPlus 2 }) ∧
     (¬listed → ∃ (x : Byte) (n z v c : Bool), exec .daa s =
        .next { s with a := x, ccr := { s.ccr with n := n, z := z, v := v, c := c }, draws := s.draws + 5, pc := s.pcPlus 2 })) ∧
    exec .sxt s = .next { s with a := if s.b.toNat < 128 then 0#8 else 255#8, ccr := withNZ s.ccr (BitVec.ofInt 16 s.b.toInt), pc := s.pcPlus 2 }

/-- The products: MUL unsigned 8 by 8 to D, EMUL unsigned and EMULS signed 16 by 16 to E : D, FMULS the doubled signed product; N, Z and C (bit 15, for MUL bit 7) of the
product, V for -1 times -1 (R266, R267, R269, R271; the flags are the spec's assumption D29). -/
def Obligations.Multiplications : Prop :=
  ∀ s : State,
    exec .mul s =
      .next { s.withD (BitVec.ofNat 16 (s.a.toNat * s.b.toNat)) with
        ccr := { s.ccr with c := decide (s.a.toNat * s.b.toNat / 128 % 2 = 1) }, pc := s.pcPlus 2 } ∧
    (let p : Long := BitVec.ofNat 32 (s.e.toNat * s.d.toNat)
     exec .emul s = .next { s.withED p with ccr := { withNZ s.ccr p with c := decide (p.toNat / 32768 % 2 = 1) }, pc := s.pcPlus 2 } ∧
       p.toNat = s.e.toNat * s.d.toNat) ∧
    (let p : Long := BitVec.ofInt 32 (s.e.toInt * s.d.toInt)
     exec .emuls s = .next { s.withED p with ccr := { withNZ s.ccr p with c := decide (p.toNat / 32768 % 2 = 1) }, pc := s.pcPlus 2 } ∧
       p.toInt = s.e.toInt * s.d.toInt) ∧
    let p : Long := BitVec.ofInt 32 (2 * (s.e.toInt * s.d.toInt))
    exec .fmuls s =
        .next { s.withED p with
          ccr := { withNZ s.ccr p with c := decide (p.toNat / 32768 % 2 = 1), v := decide (s.e.toInt = -32768 ∧ s.d.toInt = -32768) }
          pc := s.pcPlus 2 } ∧
      (¬(s.e.toInt = -32768 ∧ s.d.toInt = -32768) → p.toInt = 2 * (s.e.toInt * s.d.toInt))

/-- The divisions: quotient to IX, remainder to D, with N, Z, V and C as the rules say; an overflowing EDIV or EDIVS sets V and leaves IX, D, N, Z, C free; a zero or too small
divisor of FDIV, and a zero one of IDIV, gives $FFFF and a free D (R264, R265, R268, R270, R281, D12, D13; the flags are the spec's assumption D29, the free
values log entry 4). -/
def Obligations.Divisions : Prop :=
  ∀ s : State,
    (let n := s.ed.toNat
     let d := s.ix.toNat
     0 < d →
       (n / d < 65536 → exec .ediv s =
          .next { s.withD (BitVec.ofNat 16 (n % d)) with
            ix := BitVec.ofNat 16 (n / d)
            ccr := { withNZ s.ccr (BitVec.ofNat 16 (n / d) : Word) with v := false, c := decide (d ≤ 2 * (n % d)) }
            pc := s.pcPlus 2 }) ∧
       (65536 ≤ n / d → ∃ (x y : Word) (fn fz fc : Bool), exec .ediv s =
          .next { s.withD y with ix := x, ccr := { s.ccr with n := fn, z := fz, v := true, c := fc }, draws := s.draws + 5, pc := s.pcPlus 2 })) ∧
    (let n := s.ed.toInt
     let d := s.ix.toInt
     d ≠ 0 →
       (-32768 ≤ n.tdiv d ∧ n.tdiv d ≤ 32767 → exec .edivs s =
          .next { s.withD (BitVec.ofInt 16 (n - n.tdiv d * d)) with
            ix := BitVec.ofInt 16 (n.tdiv d)
            ccr := { withNZ s.ccr (BitVec.ofInt 16 (n.tdiv d) : Word) with v := false, c := decide (|d| ≤ 2 * |n - n.tdiv d * d|) }
            pc := s.pcPlus 2 }) ∧
       (n.tdiv d < -32768 ∨ 32767 < n.tdiv d → ∃ (x y : Word) (fn fz fc : Bool), exec .edivs s =
          .next { s.withD y with ix := x, ccr := { s.ccr with n := fn, z := fz, v := true, c := fc }, draws := s.draws + 5, pc := s.pcPlus 2 })) ∧
    (let n := s.d.toNat * 65536
     let d := s.ix.toNat
     (s.d.toNat < d → exec .fdiv s =
        .next { s.withD (BitVec.ofNat 16 (n % d)) with
          ix := BitVec.ofNat 16 (n / d)
          ccr := { s.ccr with z := decide (n / d = 0), v := false, c := false }
          pc := s.pcPlus 2 }) ∧
     (d ≤ s.d.toNat → ∃ y : Word, exec .fdiv s =
        .next { s.withD y with ix := 0xFFFF#16, ccr := { s.ccr with z := false, v := true, c := decide (d = 0) }, draws := s.draws + 1, pc := s.pcPlus 2 })) ∧
    let n := s.d.toNat
    let d := s.ix.toNat
    (0 < d → exec .idiv s =
      .next { s.withD (BitVec.ofNat 16 (n % d)) with
        ix := BitVec.ofNat 16 (n / d)
        ccr := { s.ccr with z := decide (n / d = 0), v := false, c := false }
        pc := s.pcPlus 2 }) ∧
    (d = 0 → ∃ y : Word, exec .idiv s =
      .next { s.withD y with ix := 0xFFFF#16, ccr := { s.ccr with z := false, v := false, c := true }, draws := s.draws + 1, pc := s.pcPlus 2 })

/-! ## Clear, complement, logic, bits and shifts -/

/-- Clear, one's complement and two's complement of an accumulator (R299, R302 to R305, R308 to R311, R314 to R317; the flags are the spec's assumption D29). -/
def Obligations.AccumulatorClearComplementNegate : Prop :=
  ∀ s : State,
    let cleared : CCR := { s.ccr with n := false, z := true, v := false, c := false }
    let flipped {w : Nat} (v : BitVec w) : CCR := { withNZV s.ccr (BitVec.ofNat w (2 ^ w - 1 - v.toNat)) with c := true }
    exec .clra s = .next { s with a := 0#8, ccr := cleared, pc := s.pcPlus 2 } ∧
    exec .clrb s = .next { s with b := 0#8, ccr := cleared, pc := s.pcPlus 2 } ∧
    exec .clrd s = .next { s with a := 0#8, b := 0#8, ccr := cleared, pc := s.pcPlus 2 } ∧
    exec .clre s = .next { s with e := 0#16, ccr := cleared, pc := s.pcPlus 2 } ∧
    exec .coma s = .next { s with a := BitVec.ofNat 8 (255 - s.a.toNat), ccr := flipped s.a, pc := s.pcPlus 2 } ∧
    exec .comb s = .next { s with b := BitVec.ofNat 8 (255 - s.b.toNat), ccr := flipped s.b, pc := s.pcPlus 2 } ∧
    exec .comd s = .next { s.withD (BitVec.ofNat 16 (65535 - s.d.toNat)) with ccr := flipped s.d, pc := s.pcPlus 2 } ∧
    exec .come s = .next { s with e := BitVec.ofNat 16 (65535 - s.e.toNat), ccr := flipped s.e, pc := s.pcPlus 2 } ∧
    exec .nega s = .next { s with a := (subtracted s.ccr 0#8 s.a false).1, ccr := (subtracted s.ccr 0#8 s.a false).2, pc := s.pcPlus 2 } ∧
    exec .negb s = .next { s with b := (subtracted s.ccr 0#8 s.b false).1, ccr := (subtracted s.ccr 0#8 s.b false).2, pc := s.pcPlus 2 } ∧
    exec .negd s = .next { s.withD (subtracted s.ccr 0#16 s.d false).1 with ccr := (subtracted s.ccr 0#16 s.d false).2, pc := s.pcPlus 2 } ∧
    exec .nege s = .next { s with e := (subtracted s.ccr 0#16 s.e false).1, ccr := (subtracted s.ccr 0#16 s.e false).2, pc := s.pcPlus 2 }

/-- Clear, complement and negate of a byte or word in memory, and the bit instructions: BCLR clears and BSET sets exactly the bits the mask selects; no other byte of memory
and no register changes (R297, R299, R301, R306, R307, R312, R313, R318, R333 to R336; the flags
are the spec's assumption D29, log entry 15; that BCLR and BCLRW clear the bits of the mask is its reading C7 of a misprinted row, log entry 26). -/
def Obligations.MemoryClearComplementNegateAndBits : Prop :=
  ∀ s : State,
    let cleared : CCR := { s.ccr with n := false, z := true, v := false, c := false }
    (∀ m : MemB, s.canWrite8 (eaB s m) = true →
      let v := s.byteAt .data (eaB s m)
      storesByte (.clr m) s (eaB s m) 0#8 cleared m.length ∧
      storesByte (.com m) s (eaB s m) (BitVec.ofNat 8 (255 - v.toNat)) { withNZV s.ccr (BitVec.ofNat 8 (255 - v.toNat)) with c := true } m.length ∧
      storesByte (.neg m) s (eaB s m) (subtracted s.ccr 0#8 v false).1 (subtracted s.ccr 0#8 v false).2 m.length ∧
      ∀ mm r : Byte,
        ((∀ i, r.getLsbD i = (v.getLsbD i && !mm.getLsbD i)) → storesByte (.bclr mm m) s (eaB s m) r (withNZV s.ccr r) 4) ∧
        ((∀ i, r.getLsbD i = (v.getLsbD i || mm.getLsbD i)) → storesByte (.bset mm m) s (eaB s m) r (withNZV s.ccr r) 4)) ∧
    ∀ m : MemW, s.canWrite16 (eaW s m) = true →
      let v := s.wordAt .data (eaW s m)
      storesWord (.clrw m) s (eaW s m) 0#16 cleared m.length ∧
      storesWord (.comw m) s (eaW s m) (BitVec.ofNat 16 (65535 - v.toNat)) { withNZV s.ccr (BitVec.ofNat 16 (65535 - v.toNat)) with c := true } m.length ∧
      storesWord (.negw m) s (eaW s m) (subtracted s.ccr 0#16 v false).1 (subtracted s.ccr 0#16 v false).2 m.length ∧
      ∀ mm r : Word,
        ((∀ i, r.getLsbD i = (v.getLsbD i && !mm.getLsbD i)) → storesWord (.bclrw mm m) s (eaW s m) r (withNZV s.ccr r) 6) ∧
        ((∀ i, r.getLsbD i = (v.getLsbD i || mm.getLsbD i)) → storesWord (.bsetw mm m) s (eaW s m) r (withNZV s.ccr r) 6)

/-- AND, exclusive OR and OR with an operand, and the bit tests BITA and BITB that only set flags: N and Z of the result, V clear, C and H as they were (R300, R319 to R332; the
flags are the spec's assumption D29). -/
def Obligations.BooleanLogic : Prop :=
  ∀ s : State,
    (∀ o, ready8 s o = true →
      let m := value8 s o
      exec (.anda o) s = .next { s with a := s.a &&& m, ccr := withNZV s.ccr (s.a &&& m), pc := s.pcPlus o.length } ∧
      exec (.andb o) s = .next { s with b := s.b &&& m, ccr := withNZV s.ccr (s.b &&& m), pc := s.pcPlus o.length } ∧
      exec (.eora o) s = .next { s with a := s.a ^^^ m, ccr := withNZV s.ccr (s.a ^^^ m), pc := s.pcPlus o.length } ∧
      exec (.eorb o) s = .next { s with b := s.b ^^^ m, ccr := withNZV s.ccr (s.b ^^^ m), pc := s.pcPlus o.length } ∧
      exec (.oraa o) s = .next { s with a := s.a ||| m, ccr := withNZV s.ccr (s.a ||| m), pc := s.pcPlus o.length } ∧
      exec (.orab o) s = .next { s with b := s.b ||| m, ccr := withNZV s.ccr (s.b ||| m), pc := s.pcPlus o.length } ∧
      exec (.bita o) s = .next { s with ccr := withNZV s.ccr (s.a &&& m), pc := s.pcPlus o.length } ∧
      exec (.bitb o) s = .next { s with ccr := withNZV s.ccr (s.b &&& m), pc := s.pcPlus o.length }) ∧
    (∀ o, readyD s o = true →
      let m := valueD s o
      exec (.andd o) s = .next { s.withD (s.d &&& m) with ccr := withNZV s.ccr (s.d &&& m), pc := s.pcPlus o.length } ∧
      exec (.eord o) s = .next { s.withD (s.d ^^^ m) with ccr := withNZV s.ccr (s.d ^^^ m), pc := s.pcPlus o.length } ∧
      exec (.ord o) s = .next { s.withD (s.d ||| m) with ccr := withNZV s.ccr (s.d ||| m), pc := s.pcPlus o.length }) ∧
    ∀ o, readyE s o = true →
      let m := valueE s o
      exec (.ande o) s = .next { s with e := s.e &&& m, ccr := withNZV s.ccr (s.e &&& m), pc := s.pcPlus o.length } ∧
      exec (.eore o) s = .next { s with e := s.e ^^^ m, ccr := withNZV s.ccr (s.e ^^^ m), pc := s.pcPlus o.length } ∧
      exec (.ore o) s = .next { s with e := s.e ||| m, ccr := withNZV s.ccr (s.e ||| m), pc := s.pcPlus o.length }

/-- Shifts and rotates by one place, of A, B, D and E and of a byte or word in memory: LSR halves the unsigned and ASR the signed value, ASL doubles, ROL and ROR rotate
through C; C is the bit shifted out, V is N xor C; no other register and no other byte of memory changes (R296, R337 to R366; ASR, ROL, ROR and the flags are the
spec's choices D28, D29). -/
def Obligations.ShiftsAndRotates : Prop :=
  ∀ s : State,
    let toA (p : Byte × CCR) : Out := .next { s with a := p.1, ccr := p.2, pc := s.pcPlus 2 }
    let toB (p : Byte × CCR) : Out := .next { s with b := p.1, ccr := p.2, pc := s.pcPlus 2 }
    let toD (p : Word × CCR) : Out := .next { s.withD p.1 with ccr := p.2, pc := s.pcPlus 2 }
    let toE (p : Word × CCR) : Out := .next { s with e := p.1, ccr := p.2, pc := s.pcPlus 2 }
    exec .lsra s = toA (shiftedLsr s.ccr s.a) ∧ exec .lsrb s = toB (shiftedLsr s.ccr s.b) ∧
    exec .lsrd s = toD (shiftedLsr s.ccr s.d) ∧ exec .lsre s = toE (shiftedLsr s.ccr s.e) ∧
    exec .asla s = toA (shiftedAsl s.ccr s.a) ∧ exec .aslb s = toB (shiftedAsl s.ccr s.b) ∧
    exec .asld s = toD (shiftedAsl s.ccr s.d) ∧ exec .asle s = toE (shiftedAsl s.ccr s.e) ∧
    exec .asra s = toA (shiftedAsr s.ccr s.a) ∧ exec .asrb s = toB (shiftedAsr s.ccr s.b) ∧
    exec .asrd s = toD (shiftedAsr s.ccr s.d) ∧ exec .asre s = toE (shiftedAsr s.ccr s.e) ∧
    exec .rola s = toA (shiftedRol s.ccr s.a) ∧ exec .rolb s = toB (shiftedRol s.ccr s.b) ∧
    exec .rold s = toD (shiftedRol s.ccr s.d) ∧ exec .role s = toE (shiftedRol s.ccr s.e) ∧
    exec .rora s = toA (shiftedRor s.ccr s.a) ∧ exec .rorb s = toB (shiftedRor s.ccr s.b) ∧
    exec .rord s = toD (shiftedRor s.ccr s.d) ∧ exec .rore s = toE (shiftedRor s.ccr s.e) ∧
    (∀ m : MemB, s.canWrite8 (eaB s m) = true →
      let v := s.byteAt .data (eaB s m)
      let does (i : Instr) (p : Byte × CCR) : Prop := storesByte i s (eaB s m) p.1 p.2 m.length
      does (.lsr m) (shiftedLsr s.ccr v) ∧ does (.asl m) (shiftedAsl s.ccr v) ∧ does (.asr m) (shiftedAsr s.ccr v) ∧
        does (.rol m) (shiftedRol s.ccr v) ∧ does (.ror m) (shiftedRor s.ccr v)) ∧
    ∀ m : MemW, s.canWrite16 (eaW s m) = true →
      let v := s.wordAt .data (eaW s m)
      let does (i : Instr) (p : Word × CCR) : Prop := storesWord i s (eaW s m) p.1 p.2 m.length
      does (.lsrw m) (shiftedLsr s.ccr v) ∧ does (.aslw m) (shiftedAsl s.ccr v) ∧ does (.asrw m) (shiftedAsr s.ccr v) ∧
        does (.rolw m) (shiftedRol s.ccr v) ∧ does (.rorw m) (shiftedRor s.ccr v)

/-! ## Program control -/

/-- The sixteen short and eighteen long branches: where the condition of Tables 5-20 and 5-21 holds, to the instruction's address plus 6 plus the signed offset, the sum
rounded down to an even address; else to the next instruction; nothing but the program counter changes (R400 to R435;
that no flag changes is the spec's assumption D29). -/
def Obligations.RelativeBranches : Prop :=
  ∀ (s : State) (rr : Byte) (rrrr : Word),
    let c := s.ccr
    (∀ p ∈ [(Instr.bra rr, true), (.brn rr, false), (.bcc rr, !c.c), (.bcs rr, c.c), (.beq rr, c.z), (.bmi rr, c.n), (.bne rr, !c.z), (.bpl rr, !c.n),
        (.bvc rr, !c.v), (.bvs rr, c.v), (.bhi rr, !c.c && !c.z), (.bls rr, c.c || c.z), (.bge rr, c.n == c.v), (.blt rr, c.n != c.v),
        (.bgt rr, !c.z && c.n == c.v), (.ble rr, c.z || c.n != c.v)],
      exec p.1 s = .next { s with pc := if p.2 = true then s.relative rr.toInt else s.pcPlus 2 }) ∧
    ∀ p ∈ [(Instr.lbra rrrr, true), (.lbrn rrrr, false), (.lbcc rrrr, !c.c), (.lbcs rrrr, c.c), (.lbeq rrrr, c.z), (.lbmi rrrr, c.n), (.lbne rrrr, !c.z),
        (.lbpl rrrr, !c.n), (.lbvc rrrr, !c.v), (.lbvs rrrr, c.v), (.lbhi rrrr, !c.c && !c.z), (.lbls rrrr, c.c || c.z), (.lbge rrrr, c.n == c.v),
        (.lblt rrrr, c.n != c.v), (.lbgt rrrr, !c.z && c.n == c.v), (.lble rrrr, c.z || c.n != c.v), (.lbev rrrr, c.ev), (.lbmv rrrr, c.mv)],
      exec p.1 s = .next { s with pc := if p.2 = true then s.relative rrrr.toInt else s.pcPlus 4 }

/-- BRCLR branches when every bit the mask selects is 0 in the memory byte, BRSET when every one is 1; the offset is 8 bits wide in the IND8 forms and 16 in the others (R436,
R437, R445). That BRSET branches on ones is the spec's reading C6 of a misprinted row, log entry 26; the operand order is its choice D30, log entry 16, and that no flag changes its
assumption D29, log entry 15. -/
def Obligations.BitConditionBranches : Prop :=
  ∀ (s : State) (mm : Byte) (o : BitBranch), s.canRead8 .data (eaBit s o) = true →
    let v := s.byteAt .data (eaBit s o)
    let off : Int := match o with
      | .ind8 _ _ rr => rr.toInt
      | .ind16 _ _ rrrr => rrrr.toInt
      | .ext _ rrrr => rrrr.toInt
    ((∀ i, mm.getLsbD i = true → v.getLsbD i = false) → exec (.brclr mm o) s = .next { s with pc := s.relative off }) ∧
    ((∃ i, mm.getLsbD i = true ∧ v.getLsbD i = true) → exec (.brclr mm o) s = .next { s with pc := s.pcPlus o.length }) ∧
    ((∀ i, mm.getLsbD i = true → v.getLsbD i = true) → exec (.brset mm o) s = .next { s with pc := s.relative off }) ∧
    ((∃ i, mm.getLsbD i = true ∧ v.getLsbD i = false) → exec (.brset mm o) s = .next { s with pc := s.pcPlus o.length })

/-- JMP goes to its 20-bit address. BSR, JSR and LBSR stack the frame of the return value (the instruction's address plus 4 for BSR, plus 6 for the others), take SK : SP four
lower and go to their target, which is computed before the pushes; no other register and no flag changes (R149, R438 to R441, R446). That no flag changes is the spec's assumption D29, log
entry 15; the offset base of BSR is the parameter BSR_BASE, its choice D6, log entry 24; that bit 0 of a jump's target is dropped is its choice D21, log entry 13; the index register's
field in the 20-bit indexed form, and the sums modulo 2^20, are its choice D2, log entry 20. An ill-formed target is refused, statement OnlyDeclaredRefusals. -/
def Obligations.JumpsAndCalls : Prop :=
  ∀ s : State,
    (∀ (r : Idx) (b : Nib) (g : Word), (eaJump s (.ind20 r 0#4 b g)).toNat = ((s.idx20 r).toNat + b.toNat * 65536 + g.toNat) % 2 ^ 20) ∧
    (∀ j : JumpTarget, j.wellFormed = true → exec (.jmp j) s = .next { s with pc := roundedDown (eaJump s j) }) ∧
    (s.canPushFrame = true →
      let calls (i : Instr) (ret target : Addr) : Prop := ∃ t, exec i s = .next t ∧ wroteWords s t (s.frameOf ret) ∧
        t = { s with mem := t.mem, sk := (s.sp20 - 4#20).extractLsb' 16 4, sp := (s.sp20 - 4#20).extractLsb' 0 16, pc := target }
      (∀ j : JumpTarget, j.wellFormed = true → calls (.jsr j) (s.pcPlus 6) (roundedDown (eaJump s j))) ∧
      (∀ rrrr : Word, calls (.lbsr rrrr) (s.pcPlus 6) (s.relative rrrr.toInt)) ∧
      ∀ rr : Byte, calls (.bsr rr) (s.pcPlus 4)
        (BitVec.ofInt 20 ((s.pc.toNat + (if s.plat.bsrBaseSix = true then 6 else 4) + rr.toInt) / 2 * 2)))

/-- RTS and RTI pull the CCR word and the PC word; RTS takes PK alone from the CCR word and goes to PK : PC less 2, RTI takes all of it and goes to PK : PC less 6 (R442, R443). -/
def Obligations.Returns : Prop :=
  ∀ s : State, s.canRead16 .data (s.sp20 + 2#20) = true → s.canRead16 .data (s.sp20 + 4#20) = true →
    let c := s.wordAt .data (s.sp20 + 2#20)
    let p : Int := (c.toNat % 16 * 65536 + (s.wordAt .data (s.sp20 + 4#20)).toNat : Nat)
    exec .rts s =
        .next { s with
          sk := (s.sp20 + 4#20).extractLsb' 16 4, sp := (s.sp20 + 4#20).extractLsb' 0 16, pc := roundedDown (BitVec.ofInt 20 (p - 2)) } ∧
      exec .rti s =
        .next { s with
          sk := (s.sp20 + 4#20).extractLsb' 16 4, sp := (s.sp20 + 4#20).extractLsb' 0 16, pc := roundedDown (BitVec.ofInt 20 (p - 6))
          ccr := CCR.ofWord c }

/-! ## Index registers, extension fields, stack and CCR -/

/-- Index and stack pointer arithmetic is 20-bit: ABX, ABY, ABZ add B unsigned; ADX to ADZ add D signed, AEX to AEZ E signed, AIX, AIY, AIZ and AIS the signed immediate, which
but for AIS write Z of the 16-bit register; no other flag changes; the words of ABX, ABY and ABZ are the printed ones (R461 to R472, R531). That the sums are taken modulo 2^20 is the
spec's choice D2, log entry 20; that AEX adds E and ABZ names IZ its readings C3 and C5, log entry 26; that flags stay, and Z, its assumption D29, log entry 15. -/
def Obligations.IndexArithmetic : Prop :=
  (encode .abx = [0x374F#16] ∧ encode .aby = [0x375F#16] ∧ encode .abz = [0x376F#16]) ∧
  ∀ s : State,
    let sum (base : Addr) (x : Int) : Addr := BitVec.ofInt 20 (base.toNat + x)
    (exec .abx s = .next { s.withX20 (sum s.x20 s.b.toNat) with pc := s.pcPlus 2 } ∧
      exec .aby s = .next { s.withY20 (sum s.y20 s.b.toNat) with pc := s.pcPlus 2 } ∧
      exec .abz s = .next { s.withZ20 (sum s.z20 s.b.toNat) with pc := s.pcPlus 2 }) ∧
    (exec .adx s = .next { s.withX20 (sum s.x20 s.d.toInt) with pc := s.pcPlus 2 } ∧
      exec .ady s = .next { s.withY20 (sum s.y20 s.d.toInt) with pc := s.pcPlus 2 } ∧
      exec .adz s = .next { s.withZ20 (sum s.z20 s.d.toInt) with pc := s.pcPlus 2 }) ∧
    (exec .aex s = .next { s.withX20 (sum s.x20 s.e.toInt) with pc := s.pcPlus 2 } ∧
      exec .aey s = .next { s.withY20 (sum s.y20 s.e.toInt) with pc := s.pcPlus 2 } ∧
      exec .aez s = .next { s.withZ20 (sum s.z20 s.e.toInt) with pc := s.pcPlus 2 }) ∧
    ∀ o : Imm,
      let imm : Int := match o with
        | .imm8 ii => ii.toInt
        | .imm16 jjkk => jjkk.toInt
      let zOf (v : Addr) : CCR := { s.ccr with z := decide (v.toNat % 65536 = 0) }
      exec (.aix o) s = .next { s.withX20 (sum s.x20 imm) with ccr := zOf (sum s.x20 imm), pc := s.pcPlus o.length } ∧
      exec (.aiy o) s = .next { s.withY20 (sum s.y20 imm) with ccr := zOf (sum s.y20 imm), pc := s.pcPlus o.length } ∧
      exec (.aiz o) s = .next { s.withZ20 (sum s.z20 imm) with ccr := zOf (sum s.z20 imm), pc := s.pcPlus o.length } ∧
      exec (.ais o) s = .next { s.withSP20 (sum s.sp20 imm) with pc := s.pcPlus o.length }

/-- The 20-bit transfers move a register with its field: TSX, TSY, TSZ add 2, TXS, TYS, TZS subtract 2, the others copy; TBEK to TBZK write one field from B[3:0], TEKB to TZKB
read one field into B with zeros above; no flag changes (R482 to R493, R500 to R509; that no flag changes is the spec's assumption D29). -/
def Obligations.IndexTransfersAndFields : Prop :=
  ∀ s : State,
    let low : Nib := BitVec.ofNat 4 (s.b.toNat % 16)
    (exec .tsx s = .next { s.withX20 (BitVec.ofNat 20 (s.sp20.toNat + 2)) with pc := s.pcPlus 2 } ∧
      exec .tsy s = .next { s.withY20 (BitVec.ofNat 20 (s.sp20.toNat + 2)) with pc := s.pcPlus 2 } ∧
      exec .tsz s = .next { s.withZ20 (BitVec.ofNat 20 (s.sp20.toNat + 2)) with pc := s.pcPlus 2 } ∧
      exec .txs s = .next { s.withSP20 (BitVec.ofInt 20 (s.x20.toNat - 2)) with pc := s.pcPlus 2 } ∧
      exec .tys s = .next { s.withSP20 (BitVec.ofInt 20 (s.y20.toNat - 2)) with pc := s.pcPlus 2 } ∧
      exec .tzs s = .next { s.withSP20 (BitVec.ofInt 20 (s.z20.toNat - 2)) with pc := s.pcPlus 2 }) ∧
    (exec .txy s = .next { s with yk := s.xk, iy := s.ix, pc := s.pcPlus 2 } ∧
      exec .txz s = .next { s with zk := s.xk, iz := s.ix, pc := s.pcPlus 2 } ∧
      exec .tyx s = .next { s with xk := s.yk, ix := s.iy, pc := s.pcPlus 2 } ∧
      exec .tyz s = .next { s with zk := s.yk, iz := s.iy, pc := s.pcPlus 2 } ∧
      exec .tzx s = .next { s with xk := s.zk, ix := s.iz, pc := s.pcPlus 2 } ∧
      exec .tzy s = .next { s with yk := s.zk, iy := s.iz, pc := s.pcPlus 2 }) ∧
    (exec .tbek s = .next { s with ek := low, pc := s.pcPlus 2 } ∧
      exec .tbsk s = .next { s with sk := low, pc := s.pcPlus 2 } ∧
      exec .tbxk s = .next { s with xk := low, pc := s.pcPlus 2 } ∧
      exec .tbyk s = .next { s with yk := low, pc := s.pcPlus 2 } ∧
      exec .tbzk s = .next { s with zk := low, pc := s.pcPlus 2 }) ∧
    exec .tekb s = .next { s with b := BitVec.ofNat 8 s.ek.toNat, pc := s.pcPlus 2 } ∧
    exec .tskb s = .next { s with b := BitVec.ofNat 8 s.sk.toNat, pc := s.pcPlus 2 } ∧
    exec .txkb s = .next { s with b := BitVec.ofNat 8 s.xk.toNat, pc := s.pcPlus 2 } ∧
    exec .tykb s = .next { s with b := BitVec.ofNat 8 s.yk.toNat, pc := s.pcPlus 2 } ∧
    exec .tzkb s = .next { s with b := BitVec.ofNat 8 s.zk.toNat, pc := s.pcPlus 2 }

/-- PSHA and PSHB store the byte one above SK : SP and leave SK : SP one lower; PULA and PULB read it two above and leave SK : SP one higher; no flag changes (R162, R163, R535, R536,
R538, R539; that no flag changes is the spec's assumption D29). -/
def Obligations.ByteStackInstructions : Prop :=
  ∀ s : State,
    (s.canWrite8 (s.sp20 + 1#20) = true →
      (∃ t, exec .psha s = .next t ∧ t = { s.withSP20 (s.sp20 - 1#20) with mem := t.mem, pc := s.pcPlus 2 } ∧ wroteBytes s t [(s.sp20 + 1#20, s.a)]) ∧
        ∃ t, exec .pshb s = .next t ∧ t = { s.withSP20 (s.sp20 - 1#20) with mem := t.mem, pc := s.pcPlus 2 } ∧ wroteBytes s t [(s.sp20 + 1#20, s.b)]) ∧
    (s.canRead8 .data (s.sp20 + 2#20) = true →
      exec .pula s = .next { s.withSP20 (s.sp20 + 1#20) with a := s.byteAt .data (s.sp20 + 2#20), pc := s.pcPlus 2 } ∧
        exec .pulb s = .next { s.withSP20 (s.sp20 + 1#20) with b := s.byteAt .data (s.sp20 + 2#20), pc := s.pcPlus 2 })

/-- PSHM with mask bit 7 clear pushes the registers of its set bits, D, E, IX, IY, IZ, K, CCR in that order, the CCR word with the PK the instruction sees; SK : SP ends two lower
for each, and nothing else changes; K is EK, XK, YK, ZK from the top nibble down (R26, R31, R537). The nibble boundaries of K are recovered, log entry 26; the PK read is the spec's
choice D1, log entry 13, that no flag changes its assumption D29, log entry 15. -/
def Obligations.PushMultiple : Prop :=
  ∀ s : State,
    (s.k.toNat = s.ek.toNat * 4096 + s.xk.toNat * 256 + s.yk.toNat * 16 + s.zk.toNat ∧ s.withK s.k = s) ∧
    ∀ ii : Byte, ii.getLsbD 7 = false → (∀ k, k < (s.selectedWords ii).length → s.canWrite16 (s.pushAddr k) = true) →
      ∃ t, exec (.pshm ii) s = .next { t with pc := s.pcPlus 2 } ∧ pushedWords s t (s.selectedWords ii)

/-- PULM with mask bit 7 clear loads the registers of its set bits, CCR[15:4], K, IZ, IY, IX, E, D in that order, each from the next word up the stack; SK : SP ends two higher for
each, and no other register, no byte of memory and not the hold-off latch changes (R540, R547). That it leaves the latch is the spec's choice D22, log entry 17; that it has seven mask
bits its reading C18, and the nibbles of K are recovered, log entry 26. -/
def Obligations.PullMultiple : Prop :=
  ∀ (s : State) (ii : Byte), ii.getLsbD 7 = false →
    (∀ j, j < 7 → ii.getLsbD j = true → s.canRead16 .data (s.pullAddr (selectedBelow ii j)) = true) →
    exec (.pulm ii) s = .next { s.pulledBelow ii 7 with pc := s.pcPlus 2 }

/-- PULM with the mirrored mask undoes PSHM: with SK : SP and the words it pushed as PSHM left them, it restores every register the mask selects and SK : SP, whatever happened to
the registers and the rest of memory between (R537, R540). -/
def Obligations.PullUndoesPush : Prop :=
  ∀ (s t u : State) (ii jj : Byte), ii.getLsbD 7 = false → jj.getLsbD 7 = false → (∀ k, k < 7 → jj.getLsbD k = ii.getLsbD (6 - k)) →
    (∀ k, k < (s.selectedWords ii).length → s.canWrite16 (s.pushAddr k) = true) →
    exec (.pshm ii) s = .next t → u.plat = s.plat →
    (∀ k, k < (s.selectedWords ii).length → u.wordAt .data (s.pushAddr k) = t.wordAt .data (s.pushAddr k)) →
    u.sk = t.sk → u.sp = t.sp →
    ∃ v, exec (.pulm jj) u = .next v ∧ v.sk = s.sk ∧ v.sp = s.sp ∧ v.mem = u.mem ∧
      (ii.getLsbD 0 = true → v.a = s.a ∧ v.b = s.b) ∧ (ii.getLsbD 1 = true → v.e = s.e) ∧ (ii.getLsbD 2 = true → v.ix = s.ix) ∧
      (ii.getLsbD 3 = true → v.iy = s.iy) ∧ (ii.getLsbD 4 = true → v.iz = s.iz) ∧
      (ii.getLsbD 5 = true → v.ek = s.ek ∧ v.xk = s.xk ∧ v.yk = s.yk ∧ v.zk = s.zk) ∧ (ii.getLsbD 6 = true → v.ccr = s.ccr)

/-- The CCR instructions. ANDP and ORP combine CCR[15:4] with the immediate, TDP copies D[15:4] to it, TAP copies A to CCR[15:8]; these four hold interrupts off. TPA reads
CCR[15:8], TPD the whole word with the PK the instruction sees. PK is never written (R49, R541 to R547; the PK that TPD reads is
the spec's choice D1, that TPA and TPD change no flag its assumption D29). -/
def Obligations.ConditionCodeInstructions : Prop :=
  ∀ (s : State) (w : Word),
    (∃ c : CCR, exec (.andp w) s = .next { s with ccr := c, inhibit := true, pc := s.pcPlus 4 } ∧
      ∀ i, 4 ≤ i → (c.word 0).getLsbD i = ((s.ccr.word 0).getLsbD i && w.getLsbD i)) ∧
    (∃ c : CCR, exec (.orp w) s = .next { s with ccr := c, inhibit := true, pc := s.pcPlus 4 } ∧
      ∀ i, 4 ≤ i → (c.word 0).getLsbD i = ((s.ccr.word 0).getLsbD i || w.getLsbD i)) ∧
    (∃ c : CCR, exec .tdp s = .next { s with ccr := c, inhibit := true, pc := s.pcPlus 2 } ∧ ∀ i, 4 ≤ i → (c.word 0).getLsbD i = s.d.getLsbD i) ∧
    (∃ c : CCR, exec .tap s = .next { s with ccr := c, inhibit := true, pc := s.pcPlus 2 } ∧ c.ip = s.ccr.ip ∧ c.sm = s.ccr.sm ∧
      (c.word 0).toNat / 256 = s.a.toNat) ∧
    exec .tpa s = .next { s with a := BitVec.ofNat 8 ((s.ccr.word 0).toNat / 256), pc := s.pcPlus 2 } ∧
    exec .tpd s = .next { s.withD (s.ccr.word ((s.pcPlus 6).extractLsb' 16 4)) with pc := s.pcPlus 2 }

/-! ## The MAC unit -/

/-- ACE adds E and ACED E : D to AM: the exact sum modulo 2^36, EV when the new value does not fit 32 bits, MV set when the sum does not fit 36 bits and otherwise left by ACE
and cleared by ACED, SL the sign of the exact sum when MV goes from clear to set. ASLM doubles AM with C the old sign and N the new one; ASRM halves the signed
value with C the bit lost; CLRM, TEDM and TEM load a value that fits 32 bits and clear EV and MV; TDMSK loads the masks; TMXED copies AM, sign-extended to 48 bits,
to IX : E : D (R560 to R565, R571 to R573, R576; SL, ASLM, ASRM and the flags are the spec's choices D14, log entry 14). -/
def Obligations.AccumulatorMAddsShiftsAndTransfers : Prop :=
  ∀ s : State,
    (let t : Int := s.am.toInt + s.e.toInt * 65536
     exec .ace s =
       .next { s with
         am := BitVec.ofInt 36 t
         sl := if signedFits 36 t = false ∧ s.ccr.mv = false then decide (t < 0) else s.sl
         ccr := { s.ccr with mv := s.ccr.mv || !signedFits 36 t, ev := !signedFits 32 (BitVec.ofInt 36 t).toInt }
         pc := s.pcPlus 2 }) ∧
    (let t : Int := s.am.toInt + s.ed.toInt
     exec .aced s =
       .next { s with
         am := BitVec.ofInt 36 t
         sl := if signedFits 36 t = false ∧ s.ccr.mv = false then decide (t < 0) else s.sl
         ccr := { s.ccr with mv := !signedFits 36 t, ev := !signedFits 32 (BitVec.ofInt 36 t).toInt }
         pc := s.pcPlus 2 }) ∧
    (let t : Int := 2 * s.am.toInt
     exec .aslm s =
       .next { s with
         am := BitVec.ofInt 36 t
         sl := if signedFits 36 t = false ∧ s.ccr.mv = false then decide (t < 0) else s.sl
         ccr :=
           { s.ccr with
             c := decide (s.am.toInt < 0)
             n := decide ((BitVec.ofInt 36 t).toInt < 0)
             mv := s.ccr.mv || !signedFits 36 t
             ev := !signedFits 32 (BitVec.ofInt 36 t).toInt }
         pc := s.pcPlus 2 }) ∧
    (let r : Acc36 := BitVec.ofInt 36 (s.am.toInt / 2)
     exec .asrm s =
       .next { s with
         am := r
         ccr := { s.ccr with c := decide (s.am.toNat % 2 = 1), n := decide (r.toInt < 0), ev := !signedFits 32 r.toInt }
         pc := s.pcPlus 2 }) ∧
    exec .clrm s = .next { s with am := 0#36, ccr := { s.ccr with ev := false, mv := false }, pc := s.pcPlus 2 } ∧
    exec .tedm s = .next { s with am := BitVec.ofInt 36 s.ed.toInt, ccr := { s.ccr with ev := false, mv := false }, pc := s.pcPlus 2 } ∧
    exec .tem s = .next { s with am := BitVec.ofInt 36 (s.e.toInt * 65536), ccr := { s.ccr with ev := false, mv := false }, pc := s.pcPlus 2 } ∧
    exec .tdmsk s = .next { s with xmsk := s.a, ymsk := s.b, pc := s.pcPlus 2 } ∧
    ∃ x e d : Word, exec .tmxed s = .next { s.withD d with ix := x, e := e, pc := s.pcPlus 2 } ∧
      x.toInt * 4294967296 + e.toNat * 65536 + d.toNat = s.am.toInt

/-- TMER gives E the nearest multiple of 2^16 to AM (ties to even) divided by 2^16, TMET the quotient rounded down; with SM set and EV or MV set, the most positive or most
negative word instead, by the sign of the value, by SL where MV is set; N and Z of E; AM stays (R44, R560, R574, R575; rounding and SL are the spec's choices D14, log
entry 14). -/
def Obligations.ReadingAccumulatorM : Prop :=
  ∀ s : State,
    let limit (mv : Bool) (x : Acc36) : Word := if (if mv = true then s.sl = true else x.toInt < 0) then 0x8000#16 else 0x7FFF#16
    (let q := s.am.toInt / 65536
     let r := s.am.toInt % 65536
     let t : Int := 65536 * (if r < 32768 then q else if 32768 < r then q + 1 else q + q % 2)
     let x : Acc36 := BitVec.ofInt 36 t
     let mv : Bool := s.ccr.mv || decide (2 ^ 35 ≤ t)
     let ev : Bool := !signedFits 32 x.toInt
     let e : Word := if s.ccr.sm = true ∧ (ev = true ∨ mv = true) then limit mv x else BitVec.ofInt 16 (x.toInt / 65536)
     exec .tmer s = .next { s with e := e, ccr := { withNZ s.ccr e with ev := ev, mv := mv }, pc := s.pcPlus 2 }) ∧
    let e : Word := if s.ccr.sm = true ∧ (s.ccr.ev = true ∨ s.ccr.mv = true) then limit s.ccr.mv s.am else BitVec.ofInt 16 (s.am.toInt / 65536)
    exec .tmet s = .next { s with e := e, ccr := withNZ s.ccr e, pc := s.pcPlus 2 }

/-- LDHI loads HR and IR from XK : IX and YK : IY. MAC does its steps in the printed order: the doubled product of HR and IR to E : D, added to AM with EV, MV and SL as for ACE,
V for -1 times -1, IX and IY moved by the parameter MAC_QUALIFY, the old HR to IZ, and HR and IR loaded from the new addresses (R560, R566, R567). The operations are the printed
ones; the spec's own choices, all D14, log entry 14, are: MAC_QUALIFY and its low-confidence default, which gives the bits of the mask to the sum with the signed offset and keeps the
others; MAC's EV, its sticky MV, V, and that no other flag changes (general knowledge, R567); SL; and that -1 times -1 adds -1. -/
def Obligations.LoadAndMultiplyAccumulate : Prop :=
  ∀ s : State,
    (s.plat.macQualify = .standard → ∀ (r : Word) (off : Nib) (msk : Byte) (i : Nat), i < 16 →
      (qualify s.plat r off msk).getLsbD i =
        if i < 8 ∧ msk.getLsbD i = true then (BitVec.ofInt 16 (r.toNat + off.toInt)).getLsbD i else r.getLsbD i) ∧
    (s.canRead16 .data s.x20 = true → s.canRead16 .data s.y20 = true →
      exec .ldhi s = .next { s with hr := s.wordAt .data s.x20, ir := s.wordAt .data s.y20, pc := s.pcPlus 2 }) ∧
    ∀ xo yo : Nib,
      let p : Long := BitVec.ofInt 32 (2 * (s.hr.toInt * s.ir.toInt))
      let t : Int := s.am.toInt + p.toInt
      let x := qualify s.plat s.ix xo s.xmsk
      let y := qualify s.plat s.iy yo s.ymsk
      s.canRead16 .data (s.xk ++ x) = true → s.canRead16 .data (s.yk ++ y) = true →
      exec (.mac xo yo) s =
        .next { s.withED p with
          am := BitVec.ofInt 36 t
          sl := if signedFits 36 t = false ∧ s.ccr.mv = false then decide (t < 0) else s.sl
          ccr :=
            { s.ccr with
              mv := s.ccr.mv || !signedFits 36 t
              ev := !signedFits 32 (BitVec.ofInt 36 t).toInt
              v := decide (s.hr.toInt = -32768 ∧ s.ir.toInt = -32768) }
          ix := x
          iy := y
          iz := s.hr
          hr := s.wordAt .data (s.xk ++ x)
          ir := s.wordAt .data (s.yk ++ y)
          pc := s.pcPlus 2 }

/-- RMAC over any operands in memory. One pass: the doubled product of HR and IR into AM with EV, MV and SL as for ACE, V for -1 times -1, IX and IY moved, HR and IR loaded, E counted
down. Where E is then negative RMAC is done; else it goes on as an RMAC from there, its V or-ed with this pass's; with RMAC_INTERRUPTIBLE, where the next step would take an interrupt and
this RMAC does not follow ANDP, ORP, TAP or TDP, it stops there with its own address as the resume address (R570, R560, R662). Run to its end, E is at $FFFF when it began at 0 or above
or at $8000, else one lower, and neither memory nor D nor IZ is written. The order of a pass is the printed one; the spec's own choices, all D14, log entry 14, are: that the body runs at
least once and goes on from E = $8000, EV, the sticky MV, V, SL, that -1 times -1 adds -1, MAC_QUALIFY and RMAC_INTERRUPTIBLE; how it stops between passes is the model's form, log
entry 27. -/
def Obligations.RepeatingMultiplyAccumulate : Prop :=
  ∀ (s : State) (xo yo : Nib), (∀ w : Word, s.canRead16 .data (s.xk ++ w) = true ∧ s.canRead16 .data (s.yk ++ w) = true) →
    let sum : Int := s.am.toInt + (BitVec.ofInt 32 (2 * (s.hr.toInt * s.ir.toInt)) : Long).toInt
    let x := qualify s.plat s.ix xo s.xmsk
    let y := qualify s.plat s.iy yo s.ymsk
    let passed : State :=
      { s with
        am := BitVec.ofInt 36 sum
        sl := if signedFits 36 sum = false ∧ s.ccr.mv = false then decide (sum < 0) else s.sl
        ccr :=
          { s.ccr with
            mv := s.ccr.mv || !signedFits 36 sum
            ev := !signedFits 32 (BitVec.ofInt 36 sum).toInt
            v := decide (s.hr.toInt = -32768 ∧ s.ir.toInt = -32768) }
        ix := x
        iy := y
        hr := s.wordAt .data (s.xk ++ x)
        ir := s.wordAt .data (s.yk ++ y)
        e := s.e - 1#16 }
    let splits : Prop := s.plat.rmacInterruptible = true ∧ s.heldOff = false ∧ ∃ h l, s.inputs = h :: l ∧ h.reset = false ∧ h.bkpt = false ∧
      (s.ccr.ip.toNat < h.irq.toNat ∨ (h.irq = 7#3 ∧ s.plat.level7NonMaskable = true))
    ((s.e - 1#16).toInt < 0 → exec (.rmac xo yo) s = .next { passed with pc := s.pcPlus 2 }) ∧
    (0 ≤ (s.e - 1#16).toInt → splits → exec (.rmac xo yo) s = .next passed) ∧
    (0 ≤ (s.e - 1#16).toInt → ¬splits →
      ∃ t, exec (.rmac xo yo) passed = .next t ∧ exec (.rmac xo yo) s = .next { t with ccr := { t.ccr with v := passed.ccr.v || t.ccr.v } }) ∧
    (¬splits →
      ∃ t, exec (.rmac xo yo) s = .next t ∧
        t.e = (if 0 ≤ s.e.toInt ∨ s.e.toInt = -32768 then 0xFFFF#16 else s.e - 1#16) ∧
        t =
          { s with
            am := t.am, sl := t.sl, ccr := { s.ccr with mv := t.ccr.mv, ev := t.ccr.ev, v := t.ccr.v }
            ix := t.ix, iy := t.iy, hr := t.hr, ir := t.ir, e := t.e, pc := s.pcPlus 2 })

/-- PSHMAC pushes the words of MAC_FRAME and changes no register but SK : SP; in a frame that holds every register whole, each stands in its place, and with its words as PSHMAC left
them PULMAC restores HR, IR, AM, SL, the masks and SK : SP. PULMAC loads each register from its place in the words it pulls, last pushed first, whatever stored them, leaves one that has no
place in the frame, changes nothing else and writes no memory (R568, R569). The number of words and their layout are the parameter MAC_FRAME, by default the six words of the second
clause: the spec's choice D14, log entry 14, as is that no flag changes; the other clauses hold for every frame. -/
def Obligations.MacStateSavedAndRestored : Prop :=
  ∀ s : State,
    let f := s.plat.macFrame
    let n := f.words
    let bits (w : Word) (p : Slot) (width : Nat) : Nat := w.toNat / 2 ^ p.lo % 2 ^ width
    -- what PSHMAC pushes
    (n ≤ 2 ^ 19 → (∀ k, k < n → s.canWrite16 (s.pushAddr k) = true) →
      ∃ t, exec .pshmac s = .next { t with pc := s.pcPlus 2 } ∧ pushedWords s t (macFrame s)) ∧
    (f = MacFrame.default → macFrame s =
      [s.hr, s.ir, BitVec.ofNat 16 s.am.toNat, BitVec.ofNat 16 (s.am.toNat / 65536), BitVec.ofNat 16 (s.sl.toNat * 32768 + s.am.toNat / 4294967296),
        BitVec.ofNat 16 (s.xmsk.toNat * 256 + s.ymsk.toNat)]) ∧
    ((macFrame s).length = n ∧
      (f.fits = true →
        let field (p : Slot) (width : Nat) : Nat := bits ((macFrame s).getD p.word 0) p width
        field f.hr 16 = s.hr.toNat ∧ field f.ir 16 = s.ir.toNat ∧
          field f.amHigh 4 * 4294967296 + field f.amMid 16 * 65536 + field f.amLow 16 = s.am.toNat ∧
          field f.sl 1 = s.sl.toNat ∧ field f.xmsk 8 = s.xmsk.toNat ∧ field f.ymsk 8 = s.ymsk.toNat)) ∧
    -- what PULMAC loads
    ((∀ k, k < n → s.canRead16 .data (s.pullAddr k) = true) →
      let pulled (p : Slot) (width old : Nat) : Nat := if p.word < n then bits (s.wordAt .data (s.pullAddr (n - 1 - p.word))) p width else old
      exec .pulmac s =
        .next { s.withSP20 (s.sp20 + BitVec.ofNat 20 (2 * n)) with
          hr := BitVec.ofNat 16 (pulled f.hr 16 s.hr.toNat)
          ir := BitVec.ofNat 16 (pulled f.ir 16 s.ir.toNat)
          am := BitVec.ofNat 36 (pulled f.amHigh 4 (s.am.toNat / 4294967296) * 4294967296 + pulled f.amMid 16 (s.am.toNat / 65536 % 65536) * 65536 +
            pulled f.amLow 16 (s.am.toNat % 65536))
          sl := decide (pulled f.sl 1 s.sl.toNat = 1)
          xmsk := BitVec.ofNat 8 (pulled f.xmsk 8 s.xmsk.toNat)
          ymsk := BitVec.ofNat 8 (pulled f.ymsk 8 s.ymsk.toNat)
          pc := s.pcPlus 2 }) ∧
    -- the two together
    ∀ t u : State, f.fits = true → (∀ k, k < n → s.canWrite16 (s.pushAddr k) = true) → exec .pshmac s = .next t → u.plat = s.plat →
      (∀ k, k < n → u.wordAt .data (s.pushAddr k) = t.wordAt .data (s.pushAddr k)) → u.sk = t.sk → u.sp = t.sp →
      exec .pulmac u =
        .next { u with
          sk := s.sk, sp := s.sp, hr := s.hr, ir := s.ir, am := s.am, sl := s.sl, xmsk := s.xmsk, ymsk := s.ymsk, pc := u.pcPlus 2 }

/-! ## Stop, wait and devices -/

/-- LPSTOP with S = 1 does nothing; with S = 0 it shows the broadcast of IP and stops. WAI waits. BGND enters background mode where that is enabled. NOP does nothing. Nothing is
stacked (R589 to R593, R35). That S = 0 stops is the spec's reading C1, the run states with nothing stacked its choice D23, log entry 19; background mode as a run state is its choice
D24, log entry 18. -/
def Obligations.StopWaitAndNull : Prop :=
  ∀ s : State,
    (s.ccr.s = true → exec .lpstop s = .next { s with pc := s.pcPlus 2 }) ∧
    (s.ccr.s = false → exec .lpstop s = .next { s with run := .stopped, events := s.events ++ [.lpstopBroadcast s.ccr.ip], pc := s.pcPlus 2 }) ∧
    exec .wai s = .next { s with run := .waiting, pc := s.pcPlus 2 } ∧
    (s.plat.bdmEnabled = true → exec .bgnd s = .next { s with run := .background, pc := s.pcPlus 2 }) ∧
    exec .nop s = .next { s with pc := s.pcPlus 2 }

/-- A device answers accesses from outside: a read shows the cycle and takes the next reply, or a free value when none is given; a write shows the cycle and changes no memory; a reply
that is a bus error ends the access as one. A word at an even address is one cycle, at an odd address two byte cycles, the high byte first. A write to ROM is shown and changes no
memory; where nothing answers but no bus error comes, a read gives a free value and a write has no effect (R81, R83, R96, R607). Said of LDAA, STAA, LDD and STD: on a device with no
reply, a data reply and a bus error, for the two cycles of an odd word every sequence of these; on an even word whose lower address is RAM and whose upper is a device; STAA and STD on
ROM; all four where nothing answers. One reply for each cycle is the model's form, log entry 8; an even word whose bytes are of two kinds moves as two bytes, log entry 7; the two
cycles of an odd word are the spec's choice D18, log entry 20; the free values count on draws, log entry 4. -/
def Obligations.DeviceAndRomAccesses : Prop :=
  ∀ (s : State) (m : MemE),
    let a := eaM s m
    let b := a + 1#20
    let low (v : Word) : Byte := BitVec.ofNat 8 (v.toNat % 256)
    -- bytes of a device
    (s.kindAt .data a = .device →
      (∀ (v : Word) (rest : List DevReply), s.replies = .data v :: rest →
        exec (.ldaa (.mem m)) s =
          .next { s with
            a := low v, ccr := withNZV s.ccr (low v), replies := rest, events := s.events ++ [.deviceRead .data a false], pc := s.pcPlus m.length }) ∧
      (∀ rest, s.replies = .busError :: rest →
        exec (.ldaa (.mem m)) s = busError { s with replies := rest, events := s.events ++ [.deviceRead .data a false] }) ∧
      (s.replies = [] → ∃ v : Byte, exec (.ldaa (.mem m)) s =
        .next { s with a := v, ccr := withNZV s.ccr v, draws := s.draws + 1, events := s.events ++ [.deviceRead .data a false], pc := s.pcPlus m.length }) ∧
      (s.inPrefetch a = false →
        let shown := s.events ++ [.deviceWrite a false (s.a.setWidth 16)]
        (s.replies = [] → exec (.staa m) s = .next { s with ccr := withNZV s.ccr s.a, events := shown, pc := s.pcPlus m.length }) ∧
        (∀ v rest, s.replies = .data v :: rest →
          exec (.staa m) s = .next { s with ccr := withNZV s.ccr s.a, replies := rest, events := shown, pc := s.pcPlus m.length }) ∧
        ∀ rest, s.replies = .busError :: rest → exec (.staa m) s = busError { s with replies := rest, events := shown })) ∧
    -- words of a device
    (s.kindAt .data a = .device → s.kindAt .data b = .device →
      (a.getLsbD 0 = false →
        let read := s.events ++ [.deviceRead .data a true]
        let written := s.events ++ [.deviceWrite a true s.d]
        (∀ v rest, s.replies = .data v :: rest →
          exec (.ldd (.mem m)) s = .next { s.withD v with ccr := withNZV s.ccr v, replies := rest, events := read, pc := s.pcPlus m.length }) ∧
        (∀ rest, s.replies = .busError :: rest → exec (.ldd (.mem m)) s = busError { s with replies := rest, events := read }) ∧
        (s.replies = [] → ∃ v : Word,
          exec (.ldd (.mem m)) s = .next { s.withD v with ccr := withNZV s.ccr v, draws := s.draws + 1, events := read, pc := s.pcPlus m.length }) ∧
        (s.inPrefetch a = false → s.inPrefetch b = false →
          (s.replies = [] → exec (.std m) s = .next { s with ccr := withNZV s.ccr s.d, events := written, pc := s.pcPlus m.length }) ∧
          (∀ v rest, s.replies = .data v :: rest →
            exec (.std m) s = .next { s with ccr := withNZV s.ccr s.d, replies := rest, events := written, pc := s.pcPlus m.length }) ∧
          ∀ rest, s.replies = .busError :: rest → exec (.std m) s = busError { s with replies := rest, events := written })) ∧
      (a.getLsbD 0 = true →
        let read := s.events ++ [.deviceRead .data a false, .deviceRead .data b false]
        let writtenHigh := s.events ++ [.deviceWrite a false (s.a.setWidth 16)]
        let written := s.events ++ [.deviceWrite a false (s.a.setWidth 16), .deviceWrite b false (s.b.setWidth 16)]
        (∀ v w rest, s.replies = .data v :: .data w :: rest →
          let x : Word := low v ++ low w
          exec (.ldd (.mem m)) s = .next { s.withD x with ccr := withNZV s.ccr x, replies := rest, events := read, pc := s.pcPlus m.length }) ∧
        (∀ rest, s.replies = .busError :: rest →
          exec (.ldd (.mem m)) s = busError { s with replies := rest, events := s.events ++ [.deviceRead .data a false] }) ∧
        (∀ v rest, s.replies = .data v :: .busError :: rest → exec (.ldd (.mem m)) s = busError { s with replies := rest, events := read }) ∧
        (s.replies = [] → ∃ v : Word,
          exec (.ldd (.mem m)) s = .next { s.withD v with ccr := withNZV s.ccr v, draws := s.draws + 2, events := read, pc := s.pcPlus m.length }) ∧
        (∀ v, s.replies = [.data v] → ∃ l : Byte,
          let x : Word := low v ++ l
          exec (.ldd (.mem m)) s =
            .next { s.withD x with ccr := withNZV s.ccr x, replies := [], draws := s.draws + 1, events := read, pc := s.pcPlus m.length }) ∧
        (s.inPrefetch a = false → s.inPrefetch b = false →
          (s.replies = [] → exec (.std m) s = .next { s with ccr := withNZV s.ccr s.d, events := written, pc := s.pcPlus m.length }) ∧
          (∀ v, s.replies = [.data v] →
            exec (.std m) s = .next { s with ccr := withNZV s.ccr s.d, replies := [], events := written, pc := s.pcPlus m.length }) ∧
          (∀ v w rest, s.replies = .data v :: .data w :: rest →
            exec (.std m) s = .next { s with ccr := withNZV s.ccr s.d, replies := rest, events := written, pc := s.pcPlus m.length }) ∧
          (∀ rest, s.replies = .busError :: rest → exec (.std m) s = busError { s with replies := rest, events := writtenHigh }) ∧
          ∀ v rest, s.replies = .data v :: .busError :: rest → exec (.std m) s = busError { s with replies := rest, events := written }))) ∧
    -- an even word with RAM below and a device above
    (a.getLsbD 0 = false → s.kindAt .data a = .ram → s.kindAt .data b = .device →
      let read := s.events ++ [.deviceRead .data b false]
      let written := s.events ++ [.deviceWrite b false (s.b.setWidth 16)]
      (∀ v rest, s.replies = .data v :: rest →
        let x : Word := s.byteAt .data a ++ low v
        exec (.ldd (.mem m)) s = .next { s.withD x with ccr := withNZV s.ccr x, replies := rest, events := read, pc := s.pcPlus m.length }) ∧
      (∀ rest, s.replies = .busError :: rest → exec (.ldd (.mem m)) s = busError { s with replies := rest, events := read }) ∧
      (s.replies = [] → ∃ l : Byte,
        let x : Word := s.byteAt .data a ++ l
        exec (.ldd (.mem m)) s = .next { s.withD x with ccr := withNZV s.ccr x, draws := s.draws + 1, events := read, pc := s.pcPlus m.length }) ∧
      (s.inPrefetch a = false → s.inPrefetch b = false →
        (s.replies = [] → ∃ t, exec (.std m) s = .next t ∧ wroteBytes s t [(a, s.a)] ∧
          t = { s with mem := t.mem, ccr := withNZV s.ccr s.d, events := written, pc := s.pcPlus m.length }) ∧
        (∀ v rest, s.replies = .data v :: rest → ∃ t, exec (.std m) s = .next t ∧ wroteBytes s t [(a, s.a)] ∧
          t = { s with mem := t.mem, ccr := withNZV s.ccr s.d, replies := rest, events := written, pc := s.pcPlus m.length }) ∧
        ∀ rest, s.replies = .busError :: rest → ∃ t, exec (.std m) s = busError t ∧ wroteBytes s t [(a, s.a)] ∧
          t = { s with mem := t.mem, replies := rest, events := written })) ∧
    -- ROM
    (s.kindAt .data a = .rom → s.inPrefetch a = false → exec (.staa m) s =
      .next { s with ccr := withNZV s.ccr s.a, events := s.events ++ [.romWrite a false (s.a.setWidth 16)], pc := s.pcPlus m.length }) ∧
    (s.kindAt .data a = .rom → s.kindAt .data b = .rom → s.inPrefetch a = false → s.inPrefetch b = false → exec (.std m) s =
      .next { s with
        ccr := withNZV s.ccr s.d
        events := s.events ++ (if a.getLsbD 0 = true then [.romWrite a false (s.a.setWidth 16), .romWrite b false (s.b.setWidth 16)] else [.romWrite a true s.d])
        pc := s.pcPlus m.length }) ∧
    -- nothing answers and no bus error comes
    (s.kindAt .data a = .openBus →
      (∃ v : Byte, exec (.ldaa (.mem m)) s = .next { s with a := v, ccr := withNZV s.ccr v, draws := s.draws + 1, pc := s.pcPlus m.length }) ∧
      (s.inPrefetch a = false → exec (.staa m) s = .next { s with ccr := withNZV s.ccr s.a, pc := s.pcPlus m.length })) ∧
    (s.kindAt .data a = .openBus → s.kindAt .data b = .openBus →
      (∃ v : Word, exec (.ldd (.mem m)) s =
        .next { s.withD v with
          ccr := withNZV s.ccr v, draws := s.draws + (if a.getLsbD 0 = true then 2 else 1), pc := s.pcPlus m.length }) ∧
      (s.inPrefetch a = false → s.inPrefetch b = false → exec (.std m) s = .next { s with ccr := withNZV s.ccr s.d, pc := s.pcPlus m.length }))
end

