-- ==== Sys2Proof/Laws/State.lean ====
section
/-! SUPPORT. What each update of the state leaves in each field: one lemma for each field and update, true by unfolding, so that no proof opens a record; then the
same for the register views (D, XK : IX, ...), for what memory answers, and for the memory map. -/

namespace Sys2Proof.Machine

variable (s : State)


/-! ## withD -/

@[simp] theorem State.withD_a (v : Word) : (s.withD v).a = v.extractLsb' 8 8 := rfl
@[simp] theorem State.withD_b (v : Word) : (s.withD v).b = v.extractLsb' 0 8 := rfl
@[simp] theorem State.withD_e (v : Word) : (s.withD v).e = s.e := rfl
@[simp] theorem State.withD_ix (v : Word) : (s.withD v).ix = s.ix := rfl
@[simp] theorem State.withD_iy (v : Word) : (s.withD v).iy = s.iy := rfl
@[simp] theorem State.withD_iz (v : Word) : (s.withD v).iz = s.iz := rfl
@[simp] theorem State.withD_sp (v : Word) : (s.withD v).sp = s.sp := rfl
@[simp] theorem State.withD_ek (v : Word) : (s.withD v).ek = s.ek := rfl
@[simp] theorem State.withD_xk (v : Word) : (s.withD v).xk = s.xk := rfl
@[simp] theorem State.withD_yk (v : Word) : (s.withD v).yk = s.yk := rfl
@[simp] theorem State.withD_zk (v : Word) : (s.withD v).zk = s.zk := rfl
@[simp] theorem State.withD_sk (v : Word) : (s.withD v).sk = s.sk := rfl
@[simp] theorem State.withD_pc (v : Word) : (s.withD v).pc = s.pc := rfl
@[simp] theorem State.withD_ccr (v : Word) : (s.withD v).ccr = s.ccr := rfl
@[simp] theorem State.withD_hr (v : Word) : (s.withD v).hr = s.hr := rfl
@[simp] theorem State.withD_ir (v : Word) : (s.withD v).ir = s.ir := rfl
@[simp] theorem State.withD_am (v : Word) : (s.withD v).am = s.am := rfl
@[simp] theorem State.withD_xmsk (v : Word) : (s.withD v).xmsk = s.xmsk := rfl
@[simp] theorem State.withD_ymsk (v : Word) : (s.withD v).ymsk = s.ymsk := rfl
@[simp] theorem State.withD_sl (v : Word) : (s.withD v).sl = s.sl := rfl
@[simp] theorem State.withD_inhibit (v : Word) : (s.withD v).inhibit = s.inhibit := rfl
@[simp] theorem State.withD_heldOff (v : Word) : (s.withD v).heldOff = s.heldOff := rfl
@[simp] theorem State.withD_run (v : Word) : (s.withD v).run = s.run := rfl
@[simp] theorem State.withD_mem (v : Word) : (s.withD v).mem = s.mem := rfl
@[simp] theorem State.withD_plat (v : Word) : (s.withD v).plat = s.plat := rfl
@[simp] theorem State.withD_inputs (v : Word) : (s.withD v).inputs = s.inputs := rfl
@[simp] theorem State.withD_replies (v : Word) : (s.withD v).replies = s.replies := rfl
@[simp] theorem State.withD_events (v : Word) : (s.withD v).events = s.events := rfl
@[simp] theorem State.withD_draws (v : Word) : (s.withD v).draws = s.draws := rfl
@[simp] theorem State.withD_x20 (v : Word) : (s.withD v).x20 = s.x20 := rfl
@[simp] theorem State.withD_y20 (v : Word) : (s.withD v).y20 = s.y20 := rfl
@[simp] theorem State.withD_z20 (v : Word) : (s.withD v).z20 = s.z20 := rfl
@[simp] theorem State.withD_sp20 (v : Word) : (s.withD v).sp20 = s.sp20 := rfl
@[simp] theorem State.withD_k (v : Word) : (s.withD v).k = s.k := rfl
@[simp] theorem State.withD_kindAt (v : Word) (p : Space) (y : Addr) : (s.withD v).kindAt p y = s.kindAt p y := rfl
@[simp] theorem State.withD_key (v : Word) (p : Space) (y : Addr) : (s.withD v).key p y = s.key p y := rfl
@[simp] theorem State.withD_byteAt (v : Word) (p : Space) (y : Addr) : (s.withD v).byteAt p y = s.byteAt p y := rfl
@[simp] theorem State.withD_wordAt (v : Word) (p : Space) (y : Addr) : (s.withD v).wordAt p y = s.wordAt p y := rfl
@[simp] theorem State.withD_inPrefetch (v : Word) (y : Addr) : (s.withD v).inPrefetch y = s.inPrefetch y := rfl

/-! ## withED -/

@[simp] theorem State.withED_a (v : Long) : (s.withED v).a = (v.extractLsb' 0 16).extractLsb' 8 8 := rfl
@[simp] theorem State.withED_b (v : Long) : (s.withED v).b = (v.extractLsb' 0 16).extractLsb' 0 8 := rfl
@[simp] theorem State.withED_e (v : Long) : (s.withED v).e = v.extractLsb' 16 16 := rfl
@[simp] theorem State.withED_ix (v : Long) : (s.withED v).ix = s.ix := rfl
@[simp] theorem State.withED_iy (v : Long) : (s.withED v).iy = s.iy := rfl
@[simp] theorem State.withED_iz (v : Long) : (s.withED v).iz = s.iz := rfl
@[simp] theorem State.withED_sp (v : Long) : (s.withED v).sp = s.sp := rfl
@[simp] theorem State.withED_ek (v : Long) : (s.withED v).ek = s.ek := rfl
@[simp] theorem State.withED_xk (v : Long) : (s.withED v).xk = s.xk := rfl
@[simp] theorem State.withED_yk (v : Long) : (s.withED v).yk = s.yk := rfl
@[simp] theorem State.withED_zk (v : Long) : (s.withED v).zk = s.zk := rfl
@[simp] theorem State.withED_sk (v : Long) : (s.withED v).sk = s.sk := rfl
@[simp] theorem State.withED_pc (v : Long) : (s.withED v).pc = s.pc := rfl
@[simp] theorem State.withED_ccr (v : Long) : (s.withED v).ccr = s.ccr := rfl
@[simp] theorem State.withED_hr (v : Long) : (s.withED v).hr = s.hr := rfl
@[simp] theorem State.withED_ir (v : Long) : (s.withED v).ir = s.ir := rfl
@[simp] theorem State.withED_am (v : Long) : (s.withED v).am = s.am := rfl
@[simp] theorem State.withED_xmsk (v : Long) : (s.withED v).xmsk = s.xmsk := rfl
@[simp] theorem State.withED_ymsk (v : Long) : (s.withED v).ymsk = s.ymsk := rfl
@[simp] theorem State.withED_sl (v : Long) : (s.withED v).sl = s.sl := rfl
@[simp] theorem State.withED_inhibit (v : Long) : (s.withED v).inhibit = s.inhibit := rfl
@[simp] theorem State.withED_heldOff (v : Long) : (s.withED v).heldOff = s.heldOff := rfl
@[simp] theorem State.withED_run (v : Long) : (s.withED v).run = s.run := rfl
@[simp] theorem State.withED_mem (v : Long) : (s.withED v).mem = s.mem := rfl
@[simp] theorem State.withED_plat (v : Long) : (s.withED v).plat = s.plat := rfl
@[simp] theorem State.withED_inputs (v : Long) : (s.withED v).inputs = s.inputs := rfl
@[simp] theorem State.withED_replies (v : Long) : (s.withED v).replies = s.replies := rfl
@[simp] theorem State.withED_events (v : Long) : (s.withED v).events = s.events := rfl
@[simp] theorem State.withED_draws (v : Long) : (s.withED v).draws = s.draws := rfl
@[simp] theorem State.withED_x20 (v : Long) : (s.withED v).x20 = s.x20 := rfl
@[simp] theorem State.withED_y20 (v : Long) : (s.withED v).y20 = s.y20 := rfl
@[simp] theorem State.withED_z20 (v : Long) : (s.withED v).z20 = s.z20 := rfl
@[simp] theorem State.withED_sp20 (v : Long) : (s.withED v).sp20 = s.sp20 := rfl
@[simp] theorem State.withED_k (v : Long) : (s.withED v).k = s.k := rfl
@[simp] theorem State.withED_kindAt (v : Long) (p : Space) (y : Addr) : (s.withED v).kindAt p y = s.kindAt p y := rfl
@[simp] theorem State.withED_key (v : Long) (p : Space) (y : Addr) : (s.withED v).key p y = s.key p y := rfl
@[simp] theorem State.withED_byteAt (v : Long) (p : Space) (y : Addr) : (s.withED v).byteAt p y = s.byteAt p y := rfl
@[simp] theorem State.withED_wordAt (v : Long) (p : Space) (y : Addr) : (s.withED v).wordAt p y = s.wordAt p y := rfl
@[simp] theorem State.withED_inPrefetch (v : Long) (y : Addr) : (s.withED v).inPrefetch y = s.inPrefetch y := rfl

/-! ## withX20 -/

@[simp] theorem State.withX20_a (v : Addr) : (s.withX20 v).a = s.a := rfl
@[simp] theorem State.withX20_b (v : Addr) : (s.withX20 v).b = s.b := rfl
@[simp] theorem State.withX20_e (v : Addr) : (s.withX20 v).e = s.e := rfl
@[simp] theorem State.withX20_ix (v : Addr) : (s.withX20 v).ix = v.extractLsb' 0 16 := rfl
@[simp] theorem State.withX20_iy (v : Addr) : (s.withX20 v).iy = s.iy := rfl
@[simp] theorem State.withX20_iz (v : Addr) : (s.withX20 v).iz = s.iz := rfl
@[simp] theorem State.withX20_sp (v : Addr) : (s.withX20 v).sp = s.sp := rfl
@[simp] theorem State.withX20_ek (v : Addr) : (s.withX20 v).ek = s.ek := rfl
@[simp] theorem State.withX20_xk (v : Addr) : (s.withX20 v).xk = v.extractLsb' 16 4 := rfl
@[simp] theorem State.withX20_yk (v : Addr) : (s.withX20 v).yk = s.yk := rfl
@[simp] theorem State.withX20_zk (v : Addr) : (s.withX20 v).zk = s.zk := rfl
@[simp] theorem State.withX20_sk (v : Addr) : (s.withX20 v).sk = s.sk := rfl
@[simp] theorem State.withX20_pc (v : Addr) : (s.withX20 v).pc = s.pc := rfl
@[simp] theorem State.withX20_ccr (v : Addr) : (s.withX20 v).ccr = s.ccr := rfl
@[simp] theorem State.withX20_hr (v : Addr) : (s.withX20 v).hr = s.hr := rfl
@[simp] theorem State.withX20_ir (v : Addr) : (s.withX20 v).ir = s.ir := rfl
@[simp] theorem State.withX20_am (v : Addr) : (s.withX20 v).am = s.am := rfl
@[simp] theorem State.withX20_xmsk (v : Addr) : (s.withX20 v).xmsk = s.xmsk := rfl
@[simp] theorem State.withX20_ymsk (v : Addr) : (s.withX20 v).ymsk = s.ymsk := rfl
@[simp] theorem State.withX20_sl (v : Addr) : (s.withX20 v).sl = s.sl := rfl
@[simp] theorem State.withX20_inhibit (v : Addr) : (s.withX20 v).inhibit = s.inhibit := rfl
@[simp] theorem State.withX20_heldOff (v : Addr) : (s.withX20 v).heldOff = s.heldOff := rfl
@[simp] theorem State.withX20_run (v : Addr) : (s.withX20 v).run = s.run := rfl
@[simp] theorem State.withX20_mem (v : Addr) : (s.withX20 v).mem = s.mem := rfl
@[simp] theorem State.withX20_plat (v : Addr) : (s.withX20 v).plat = s.plat := rfl
@[simp] theorem State.withX20_inputs (v : Addr) : (s.withX20 v).inputs = s.inputs := rfl
@[simp] theorem State.withX20_replies (v : Addr) : (s.withX20 v).replies = s.replies := rfl
@[simp] theorem State.withX20_events (v : Addr) : (s.withX20 v).events = s.events := rfl
@[simp] theorem State.withX20_draws (v : Addr) : (s.withX20 v).draws = s.draws := rfl
@[simp] theorem State.withX20_d (v : Addr) : (s.withX20 v).d = s.d := rfl
@[simp] theorem State.withX20_ed (v : Addr) : (s.withX20 v).ed = s.ed := rfl
@[simp] theorem State.withX20_y20 (v : Addr) : (s.withX20 v).y20 = s.y20 := rfl
@[simp] theorem State.withX20_z20 (v : Addr) : (s.withX20 v).z20 = s.z20 := rfl
@[simp] theorem State.withX20_sp20 (v : Addr) : (s.withX20 v).sp20 = s.sp20 := rfl
@[simp] theorem State.withX20_kindAt (v : Addr) (p : Space) (y : Addr) : (s.withX20 v).kindAt p y = s.kindAt p y := rfl
@[simp] theorem State.withX20_key (v : Addr) (p : Space) (y : Addr) : (s.withX20 v).key p y = s.key p y := rfl
@[simp] theorem State.withX20_byteAt (v : Addr) (p : Space) (y : Addr) : (s.withX20 v).byteAt p y = s.byteAt p y := rfl
@[simp] theorem State.withX20_wordAt (v : Addr) (p : Space) (y : Addr) : (s.withX20 v).wordAt p y = s.wordAt p y := rfl
@[simp] theorem State.withX20_inPrefetch (v : Addr) (y : Addr) : (s.withX20 v).inPrefetch y = s.inPrefetch y := rfl

/-! ## withY20 -/

@[simp] theorem State.withY20_a (v : Addr) : (s.withY20 v).a = s.a := rfl
@[simp] theorem State.withY20_b (v : Addr) : (s.withY20 v).b = s.b := rfl
@[simp] theorem State.withY20_e (v : Addr) : (s.withY20 v).e = s.e := rfl
@[simp] theorem State.withY20_ix (v : Addr) : (s.withY20 v).ix = s.ix := rfl
@[simp] theorem State.withY20_iy (v : Addr) : (s.withY20 v).iy = v.extractLsb' 0 16 := rfl
@[simp] theorem State.withY20_iz (v : Addr) : (s.withY20 v).iz = s.iz := rfl
@[simp] theorem State.withY20_sp (v : Addr) : (s.withY20 v).sp = s.sp := rfl
@[simp] theorem State.withY20_ek (v : Addr) : (s.withY20 v).ek = s.ek := rfl
@[simp] theorem State.withY20_xk (v : Addr) : (s.withY20 v).xk = s.xk := rfl
@[simp] theorem State.withY20_yk (v : Addr) : (s.withY20 v).yk = v.extractLsb' 16 4 := rfl
@[simp] theorem State.withY20_zk (v : Addr) : (s.withY20 v).zk = s.zk := rfl
@[simp] theorem State.withY20_sk (v : Addr) : (s.withY20 v).sk = s.sk := rfl
@[simp] theorem State.withY20_pc (v : Addr) : (s.withY20 v).pc = s.pc := rfl
@[simp] theorem State.withY20_ccr (v : Addr) : (s.withY20 v).ccr = s.ccr := rfl
@[simp] theorem State.withY20_hr (v : Addr) : (s.withY20 v).hr = s.hr := rfl
@[simp] theorem State.withY20_ir (v : Addr) : (s.withY20 v).ir = s.ir := rfl
@[simp] theorem State.withY20_am (v : Addr) : (s.withY20 v).am = s.am := rfl
@[simp] theorem State.withY20_xmsk (v : Addr) : (s.withY20 v).xmsk = s.xmsk := rfl
@[simp] theorem State.withY20_ymsk (v : Addr) : (s.withY20 v).ymsk = s.ymsk := rfl
@[simp] theorem State.withY20_sl (v : Addr) : (s.withY20 v).sl = s.sl := rfl
@[simp] theorem State.withY20_inhibit (v : Addr) : (s.withY20 v).inhibit = s.inhibit := rfl
@[simp] theorem State.withY20_heldOff (v : Addr) : (s.withY20 v).heldOff = s.heldOff := rfl
@[simp] theorem State.withY20_run (v : Addr) : (s.withY20 v).run = s.run := rfl
@[simp] theorem State.withY20_mem (v : Addr) : (s.withY20 v).mem = s.mem := rfl
@[simp] theorem State.withY20_plat (v : Addr) : (s.withY20 v).plat = s.plat := rfl
@[simp] theorem State.withY20_inputs (v : Addr) : (s.withY20 v).inputs = s.inputs := rfl
@[simp] theorem State.withY20_replies (v : Addr) : (s.withY20 v).replies = s.replies := rfl
@[simp] theorem State.withY20_events (v : Addr) : (s.withY20 v).events = s.events := rfl
@[simp] theorem State.withY20_draws (v : Addr) : (s.withY20 v).draws = s.draws := rfl
@[simp] theorem State.withY20_d (v : Addr) : (s.withY20 v).d = s.d := rfl
@[simp] theorem State.withY20_ed (v : Addr) : (s.withY20 v).ed = s.ed := rfl
@[simp] theorem State.withY20_x20 (v : Addr) : (s.withY20 v).x20 = s.x20 := rfl
@[simp] theorem State.withY20_z20 (v : Addr) : (s.withY20 v).z20 = s.z20 := rfl
@[simp] theorem State.withY20_sp20 (v : Addr) : (s.withY20 v).sp20 = s.sp20 := rfl
@[simp] theorem State.withY20_kindAt (v : Addr) (p : Space) (y : Addr) : (s.withY20 v).kindAt p y = s.kindAt p y := rfl
@[simp] theorem State.withY20_key (v : Addr) (p : Space) (y : Addr) : (s.withY20 v).key p y = s.key p y := rfl
@[simp] theorem State.withY20_byteAt (v : Addr) (p : Space) (y : Addr) : (s.withY20 v).byteAt p y = s.byteAt p y := rfl
@[simp] theorem State.withY20_wordAt (v : Addr) (p : Space) (y : Addr) : (s.withY20 v).wordAt p y = s.wordAt p y := rfl
@[simp] theorem State.withY20_inPrefetch (v : Addr) (y : Addr) : (s.withY20 v).inPrefetch y = s.inPrefetch y := rfl

/-! ## withZ20 -/

@[simp] theorem State.withZ20_a (v : Addr) : (s.withZ20 v).a = s.a := rfl
@[simp] theorem State.withZ20_b (v : Addr) : (s.withZ20 v).b = s.b := rfl
@[simp] theorem State.withZ20_e (v : Addr) : (s.withZ20 v).e = s.e := rfl
@[simp] theorem State.withZ20_ix (v : Addr) : (s.withZ20 v).ix = s.ix := rfl
@[simp] theorem State.withZ20_iy (v : Addr) : (s.withZ20 v).iy = s.iy := rfl
@[simp] theorem State.withZ20_iz (v : Addr) : (s.withZ20 v).iz = v.extractLsb' 0 16 := rfl
@[simp] theorem State.withZ20_sp (v : Addr) : (s.withZ20 v).sp = s.sp := rfl
@[simp] theorem State.withZ20_ek (v : Addr) : (s.withZ20 v).ek = s.ek := rfl
@[simp] theorem State.withZ20_xk (v : Addr) : (s.withZ20 v).xk = s.xk := rfl
@[simp] theorem State.withZ20_yk (v : Addr) : (s.withZ20 v).yk = s.yk := rfl
@[simp] theorem State.withZ20_zk (v : Addr) : (s.withZ20 v).zk = v.extractLsb' 16 4 := rfl
@[simp] theorem State.withZ20_sk (v : Addr) : (s.withZ20 v).sk = s.sk := rfl
@[simp] theorem State.withZ20_pc (v : Addr) : (s.withZ20 v).pc = s.pc := rfl
@[simp] theorem State.withZ20_ccr (v : Addr) : (s.withZ20 v).ccr = s.ccr := rfl
@[simp] theorem State.withZ20_hr (v : Addr) : (s.withZ20 v).hr = s.hr := rfl
@[simp] theorem State.withZ20_ir (v : Addr) : (s.withZ20 v).ir = s.ir := rfl
@[simp] theorem State.withZ20_am (v : Addr) : (s.withZ20 v).am = s.am := rfl
@[simp] theorem State.withZ20_xmsk (v : Addr) : (s.withZ20 v).xmsk = s.xmsk := rfl
@[simp] theorem State.withZ20_ymsk (v : Addr) : (s.withZ20 v).ymsk = s.ymsk := rfl
@[simp] theorem State.withZ20_sl (v : Addr) : (s.withZ20 v).sl = s.sl := rfl
@[simp] theorem State.withZ20_inhibit (v : Addr) : (s.withZ20 v).inhibit = s.inhibit := rfl
@[simp] theorem State.withZ20_heldOff (v : Addr) : (s.withZ20 v).heldOff = s.heldOff := rfl
@[simp] theorem State.withZ20_run (v : Addr) : (s.withZ20 v).run = s.run := rfl
@[simp] theorem State.withZ20_mem (v : Addr) : (s.withZ20 v).mem = s.mem := rfl
@[simp] theorem State.withZ20_plat (v : Addr) : (s.withZ20 v).plat = s.plat := rfl
@[simp] theorem State.withZ20_inputs (v : Addr) : (s.withZ20 v).inputs = s.inputs := rfl
@[simp] theorem State.withZ20_replies (v : Addr) : (s.withZ20 v).replies = s.replies := rfl
@[simp] theorem State.withZ20_events (v : Addr) : (s.withZ20 v).events = s.events := rfl
@[simp] theorem State.withZ20_draws (v : Addr) : (s.withZ20 v).draws = s.draws := rfl
@[simp] theorem State.withZ20_d (v : Addr) : (s.withZ20 v).d = s.d := rfl
@[simp] theorem State.withZ20_ed (v : Addr) : (s.withZ20 v).ed = s.ed := rfl
@[simp] theorem State.withZ20_x20 (v : Addr) : (s.withZ20 v).x20 = s.x20 := rfl
@[simp] theorem State.withZ20_y20 (v : Addr) : (s.withZ20 v).y20 = s.y20 := rfl
@[simp] theorem State.withZ20_sp20 (v : Addr) : (s.withZ20 v).sp20 = s.sp20 := rfl
@[simp] theorem State.withZ20_kindAt (v : Addr) (p : Space) (y : Addr) : (s.withZ20 v).kindAt p y = s.kindAt p y := rfl
@[simp] theorem State.withZ20_key (v : Addr) (p : Space) (y : Addr) : (s.withZ20 v).key p y = s.key p y := rfl
@[simp] theorem State.withZ20_byteAt (v : Addr) (p : Space) (y : Addr) : (s.withZ20 v).byteAt p y = s.byteAt p y := rfl
@[simp] theorem State.withZ20_wordAt (v : Addr) (p : Space) (y : Addr) : (s.withZ20 v).wordAt p y = s.wordAt p y := rfl
@[simp] theorem State.withZ20_inPrefetch (v : Addr) (y : Addr) : (s.withZ20 v).inPrefetch y = s.inPrefetch y := rfl

/-! ## withSP20 -/

@[simp] theorem State.withSP20_a (v : Addr) : (s.withSP20 v).a = s.a := rfl
@[simp] theorem State.withSP20_b (v : Addr) : (s.withSP20 v).b = s.b := rfl
@[simp] theorem State.withSP20_e (v : Addr) : (s.withSP20 v).e = s.e := rfl
@[simp] theorem State.withSP20_ix (v : Addr) : (s.withSP20 v).ix = s.ix := rfl
@[simp] theorem State.withSP20_iy (v : Addr) : (s.withSP20 v).iy = s.iy := rfl
@[simp] theorem State.withSP20_iz (v : Addr) : (s.withSP20 v).iz = s.iz := rfl
@[simp] theorem State.withSP20_sp (v : Addr) : (s.withSP20 v).sp = v.extractLsb' 0 16 := rfl
@[simp] theorem State.withSP20_ek (v : Addr) : (s.withSP20 v).ek = s.ek := rfl
@[simp] theorem State.withSP20_xk (v : Addr) : (s.withSP20 v).xk = s.xk := rfl
@[simp] theorem State.withSP20_yk (v : Addr) : (s.withSP20 v).yk = s.yk := rfl
@[simp] theorem State.withSP20_zk (v : Addr) : (s.withSP20 v).zk = s.zk := rfl
@[simp] theorem State.withSP20_sk (v : Addr) : (s.withSP20 v).sk = v.extractLsb' 16 4 := rfl
@[simp] theorem State.withSP20_pc (v : Addr) : (s.withSP20 v).pc = s.pc := rfl
@[simp] theorem State.withSP20_ccr (v : Addr) : (s.withSP20 v).ccr = s.ccr := rfl
@[simp] theorem State.withSP20_hr (v : Addr) : (s.withSP20 v).hr = s.hr := rfl
@[simp] theorem State.withSP20_ir (v : Addr) : (s.withSP20 v).ir = s.ir := rfl
@[simp] theorem State.withSP20_am (v : Addr) : (s.withSP20 v).am = s.am := rfl
@[simp] theorem State.withSP20_xmsk (v : Addr) : (s.withSP20 v).xmsk = s.xmsk := rfl
@[simp] theorem State.withSP20_ymsk (v : Addr) : (s.withSP20 v).ymsk = s.ymsk := rfl
@[simp] theorem State.withSP20_sl (v : Addr) : (s.withSP20 v).sl = s.sl := rfl
@[simp] theorem State.withSP20_inhibit (v : Addr) : (s.withSP20 v).inhibit = s.inhibit := rfl
@[simp] theorem State.withSP20_heldOff (v : Addr) : (s.withSP20 v).heldOff = s.heldOff := rfl
@[simp] theorem State.withSP20_run (v : Addr) : (s.withSP20 v).run = s.run := rfl
@[simp] theorem State.withSP20_mem (v : Addr) : (s.withSP20 v).mem = s.mem := rfl
@[simp] theorem State.withSP20_plat (v : Addr) : (s.withSP20 v).plat = s.plat := rfl
@[simp] theorem State.withSP20_inputs (v : Addr) : (s.withSP20 v).inputs = s.inputs := rfl
@[simp] theorem State.withSP20_replies (v : Addr) : (s.withSP20 v).replies = s.replies := rfl
@[simp] theorem State.withSP20_events (v : Addr) : (s.withSP20 v).events = s.events := rfl
@[simp] theorem State.withSP20_draws (v : Addr) : (s.withSP20 v).draws = s.draws := rfl
@[simp] theorem State.withSP20_d (v : Addr) : (s.withSP20 v).d = s.d := rfl
@[simp] theorem State.withSP20_ed (v : Addr) : (s.withSP20 v).ed = s.ed := rfl
@[simp] theorem State.withSP20_x20 (v : Addr) : (s.withSP20 v).x20 = s.x20 := rfl
@[simp] theorem State.withSP20_y20 (v : Addr) : (s.withSP20 v).y20 = s.y20 := rfl
@[simp] theorem State.withSP20_z20 (v : Addr) : (s.withSP20 v).z20 = s.z20 := rfl
@[simp] theorem State.withSP20_k (v : Addr) : (s.withSP20 v).k = s.k := rfl
@[simp] theorem State.withSP20_kindAt (v : Addr) (p : Space) (y : Addr) : (s.withSP20 v).kindAt p y = s.kindAt p y := rfl
@[simp] theorem State.withSP20_key (v : Addr) (p : Space) (y : Addr) : (s.withSP20 v).key p y = s.key p y := rfl
@[simp] theorem State.withSP20_byteAt (v : Addr) (p : Space) (y : Addr) : (s.withSP20 v).byteAt p y = s.byteAt p y := rfl
@[simp] theorem State.withSP20_wordAt (v : Addr) (p : Space) (y : Addr) : (s.withSP20 v).wordAt p y = s.wordAt p y := rfl
@[simp] theorem State.withSP20_inPrefetch (v : Addr) (y : Addr) : (s.withSP20 v).inPrefetch y = s.inPrefetch y := rfl

/-! ## withK -/

@[simp] theorem State.withK_a (v : Word) : (s.withK v).a = s.a := rfl
@[simp] theorem State.withK_b (v : Word) : (s.withK v).b = s.b := rfl
@[simp] theorem State.withK_e (v : Word) : (s.withK v).e = s.e := rfl
@[simp] theorem State.withK_ix (v : Word) : (s.withK v).ix = s.ix := rfl
@[simp] theorem State.withK_iy (v : Word) : (s.withK v).iy = s.iy := rfl
@[simp] theorem State.withK_iz (v : Word) : (s.withK v).iz = s.iz := rfl
@[simp] theorem State.withK_sp (v : Word) : (s.withK v).sp = s.sp := rfl
@[simp] theorem State.withK_ek (v : Word) : (s.withK v).ek = v.extractLsb' 12 4 := rfl
@[simp] theorem State.withK_xk (v : Word) : (s.withK v).xk = v.extractLsb' 8 4 := rfl
@[simp] theorem State.withK_yk (v : Word) : (s.withK v).yk = v.extractLsb' 4 4 := rfl
@[simp] theorem State.withK_zk (v : Word) : (s.withK v).zk = v.extractLsb' 0 4 := rfl
@[simp] theorem State.withK_sk (v : Word) : (s.withK v).sk = s.sk := rfl
@[simp] theorem State.withK_pc (v : Word) : (s.withK v).pc = s.pc := rfl
@[simp] theorem State.withK_ccr (v : Word) : (s.withK v).ccr = s.ccr := rfl
@[simp] theorem State.withK_hr (v : Word) : (s.withK v).hr = s.hr := rfl
@[simp] theorem State.withK_ir (v : Word) : (s.withK v).ir = s.ir := rfl
@[simp] theorem State.withK_am (v : Word) : (s.withK v).am = s.am := rfl
@[simp] theorem State.withK_xmsk (v : Word) : (s.withK v).xmsk = s.xmsk := rfl
@[simp] theorem State.withK_ymsk (v : Word) : (s.withK v).ymsk = s.ymsk := rfl
@[simp] theorem State.withK_sl (v : Word) : (s.withK v).sl = s.sl := rfl
@[simp] theorem State.withK_inhibit (v : Word) : (s.withK v).inhibit = s.inhibit := rfl
@[simp] theorem State.withK_heldOff (v : Word) : (s.withK v).heldOff = s.heldOff := rfl
@[simp] theorem State.withK_run (v : Word) : (s.withK v).run = s.run := rfl
@[simp] theorem State.withK_mem (v : Word) : (s.withK v).mem = s.mem := rfl
@[simp] theorem State.withK_plat (v : Word) : (s.withK v).plat = s.plat := rfl
@[simp] theorem State.withK_inputs (v : Word) : (s.withK v).inputs = s.inputs := rfl
@[simp] theorem State.withK_replies (v : Word) : (s.withK v).replies = s.replies := rfl
@[simp] theorem State.withK_events (v : Word) : (s.withK v).events = s.events := rfl
@[simp] theorem State.withK_draws (v : Word) : (s.withK v).draws = s.draws := rfl
@[simp] theorem State.withK_d (v : Word) : (s.withK v).d = s.d := rfl
@[simp] theorem State.withK_ed (v : Word) : (s.withK v).ed = s.ed := rfl
@[simp] theorem State.withK_sp20 (v : Word) : (s.withK v).sp20 = s.sp20 := rfl
@[simp] theorem State.withK_kindAt (v : Word) (p : Space) (y : Addr) : (s.withK v).kindAt p y = s.kindAt p y := rfl
@[simp] theorem State.withK_key (v : Word) (p : Space) (y : Addr) : (s.withK v).key p y = s.key p y := rfl
@[simp] theorem State.withK_byteAt (v : Word) (p : Space) (y : Addr) : (s.withK v).byteAt p y = s.byteAt p y := rfl
@[simp] theorem State.withK_wordAt (v : Word) (p : Space) (y : Addr) : (s.withK v).wordAt p y = s.wordAt p y := rfl
@[simp] theorem State.withK_inPrefetch (v : Word) (y : Addr) : (s.withK v).inPrefetch y = s.inPrefetch y := rfl

/-! ## withCCR -/

@[simp] theorem State.withCCR_a (c : CCR) : (s.withCCR c).a = s.a := rfl
@[simp] theorem State.withCCR_b (c : CCR) : (s.withCCR c).b = s.b := rfl
@[simp] theorem State.withCCR_e (c : CCR) : (s.withCCR c).e = s.e := rfl
@[simp] theorem State.withCCR_ix (c : CCR) : (s.withCCR c).ix = s.ix := rfl
@[simp] theorem State.withCCR_iy (c : CCR) : (s.withCCR c).iy = s.iy := rfl
@[simp] theorem State.withCCR_iz (c : CCR) : (s.withCCR c).iz = s.iz := rfl
@[simp] theorem State.withCCR_sp (c : CCR) : (s.withCCR c).sp = s.sp := rfl
@[simp] theorem State.withCCR_ek (c : CCR) : (s.withCCR c).ek = s.ek := rfl
@[simp] theorem State.withCCR_xk (c : CCR) : (s.withCCR c).xk = s.xk := rfl
@[simp] theorem State.withCCR_yk (c : CCR) : (s.withCCR c).yk = s.yk := rfl
@[simp] theorem State.withCCR_zk (c : CCR) : (s.withCCR c).zk = s.zk := rfl
@[simp] theorem State.withCCR_sk (c : CCR) : (s.withCCR c).sk = s.sk := rfl
@[simp] theorem State.withCCR_pc (c : CCR) : (s.withCCR c).pc = s.pc := rfl
@[simp] theorem State.withCCR_ccr (c : CCR) : (s.withCCR c).ccr = c := rfl
@[simp] theorem State.withCCR_hr (c : CCR) : (s.withCCR c).hr = s.hr := rfl
@[simp] theorem State.withCCR_ir (c : CCR) : (s.withCCR c).ir = s.ir := rfl
@[simp] theorem State.withCCR_am (c : CCR) : (s.withCCR c).am = s.am := rfl
@[simp] theorem State.withCCR_xmsk (c : CCR) : (s.withCCR c).xmsk = s.xmsk := rfl
@[simp] theorem State.withCCR_ymsk (c : CCR) : (s.withCCR c).ymsk = s.ymsk := rfl
@[simp] theorem State.withCCR_sl (c : CCR) : (s.withCCR c).sl = s.sl := rfl
@[simp] theorem State.withCCR_inhibit (c : CCR) : (s.withCCR c).inhibit = s.inhibit := rfl
@[simp] theorem State.withCCR_heldOff (c : CCR) : (s.withCCR c).heldOff = s.heldOff := rfl
@[simp] theorem State.withCCR_run (c : CCR) : (s.withCCR c).run = s.run := rfl
@[simp] theorem State.withCCR_mem (c : CCR) : (s.withCCR c).mem = s.mem := rfl
@[simp] theorem State.withCCR_plat (c : CCR) : (s.withCCR c).plat = s.plat := rfl
@[simp] theorem State.withCCR_inputs (c : CCR) : (s.withCCR c).inputs = s.inputs := rfl
@[simp] theorem State.withCCR_replies (c : CCR) : (s.withCCR c).replies = s.replies := rfl
@[simp] theorem State.withCCR_events (c : CCR) : (s.withCCR c).events = s.events := rfl
@[simp] theorem State.withCCR_draws (c : CCR) : (s.withCCR c).draws = s.draws := rfl
@[simp] theorem State.withCCR_d (c : CCR) : (s.withCCR c).d = s.d := rfl
@[simp] theorem State.withCCR_ed (c : CCR) : (s.withCCR c).ed = s.ed := rfl
@[simp] theorem State.withCCR_x20 (c : CCR) : (s.withCCR c).x20 = s.x20 := rfl
@[simp] theorem State.withCCR_y20 (c : CCR) : (s.withCCR c).y20 = s.y20 := rfl
@[simp] theorem State.withCCR_z20 (c : CCR) : (s.withCCR c).z20 = s.z20 := rfl
@[simp] theorem State.withCCR_sp20 (c : CCR) : (s.withCCR c).sp20 = s.sp20 := rfl
@[simp] theorem State.withCCR_k (c : CCR) : (s.withCCR c).k = s.k := rfl
@[simp] theorem State.withCCR_kindAt (c : CCR) (p : Space) (y : Addr) : (s.withCCR c).kindAt p y = s.kindAt p y := rfl
@[simp] theorem State.withCCR_key (c : CCR) (p : Space) (y : Addr) : (s.withCCR c).key p y = s.key p y := rfl
@[simp] theorem State.withCCR_byteAt (c : CCR) (p : Space) (y : Addr) : (s.withCCR c).byteAt p y = s.byteAt p y := rfl
@[simp] theorem State.withCCR_wordAt (c : CCR) (p : Space) (y : Addr) : (s.withCCR c).wordAt p y = s.wordAt p y := rfl
@[simp] theorem State.withCCR_inPrefetch (c : CCR) (y : Addr) : (s.withCCR c).inPrefetch y = s.inPrefetch y := rfl

/-! ## advance -/

@[simp] theorem State.advance_a (n : Nat) : (s.advance n).a = s.a := rfl
@[simp] theorem State.advance_b (n : Nat) : (s.advance n).b = s.b := rfl
@[simp] theorem State.advance_e (n : Nat) : (s.advance n).e = s.e := rfl
@[simp] theorem State.advance_ix (n : Nat) : (s.advance n).ix = s.ix := rfl
@[simp] theorem State.advance_iy (n : Nat) : (s.advance n).iy = s.iy := rfl
@[simp] theorem State.advance_iz (n : Nat) : (s.advance n).iz = s.iz := rfl
@[simp] theorem State.advance_sp (n : Nat) : (s.advance n).sp = s.sp := rfl
@[simp] theorem State.advance_ek (n : Nat) : (s.advance n).ek = s.ek := rfl
@[simp] theorem State.advance_xk (n : Nat) : (s.advance n).xk = s.xk := rfl
@[simp] theorem State.advance_yk (n : Nat) : (s.advance n).yk = s.yk := rfl
@[simp] theorem State.advance_zk (n : Nat) : (s.advance n).zk = s.zk := rfl
@[simp] theorem State.advance_sk (n : Nat) : (s.advance n).sk = s.sk := rfl
@[simp] theorem State.advance_pc (n : Nat) : (s.advance n).pc = s.pc + BitVec.ofNat 20 n := rfl
@[simp] theorem State.advance_ccr (n : Nat) : (s.advance n).ccr = s.ccr := rfl
@[simp] theorem State.advance_hr (n : Nat) : (s.advance n).hr = s.hr := rfl
@[simp] theorem State.advance_ir (n : Nat) : (s.advance n).ir = s.ir := rfl
@[simp] theorem State.advance_am (n : Nat) : (s.advance n).am = s.am := rfl
@[simp] theorem State.advance_xmsk (n : Nat) : (s.advance n).xmsk = s.xmsk := rfl
@[simp] theorem State.advance_ymsk (n : Nat) : (s.advance n).ymsk = s.ymsk := rfl
@[simp] theorem State.advance_sl (n : Nat) : (s.advance n).sl = s.sl := rfl
@[simp] theorem State.advance_inhibit (n : Nat) : (s.advance n).inhibit = s.inhibit := rfl
@[simp] theorem State.advance_heldOff (n : Nat) : (s.advance n).heldOff = s.heldOff := rfl
@[simp] theorem State.advance_run (n : Nat) : (s.advance n).run = s.run := rfl
@[simp] theorem State.advance_mem (n : Nat) : (s.advance n).mem = s.mem := rfl
@[simp] theorem State.advance_plat (n : Nat) : (s.advance n).plat = s.plat := rfl
@[simp] theorem State.advance_inputs (n : Nat) : (s.advance n).inputs = s.inputs := rfl
@[simp] theorem State.advance_replies (n : Nat) : (s.advance n).replies = s.replies := rfl
@[simp] theorem State.advance_events (n : Nat) : (s.advance n).events = s.events := rfl
@[simp] theorem State.advance_draws (n : Nat) : (s.advance n).draws = s.draws := rfl
@[simp] theorem State.advance_d (n : Nat) : (s.advance n).d = s.d := rfl
@[simp] theorem State.advance_ed (n : Nat) : (s.advance n).ed = s.ed := rfl
@[simp] theorem State.advance_x20 (n : Nat) : (s.advance n).x20 = s.x20 := rfl
@[simp] theorem State.advance_y20 (n : Nat) : (s.advance n).y20 = s.y20 := rfl
@[simp] theorem State.advance_z20 (n : Nat) : (s.advance n).z20 = s.z20 := rfl
@[simp] theorem State.advance_sp20 (n : Nat) : (s.advance n).sp20 = s.sp20 := rfl
@[simp] theorem State.advance_k (n : Nat) : (s.advance n).k = s.k := rfl
@[simp] theorem State.advance_kindAt (n : Nat) (p : Space) (y : Addr) : (s.advance n).kindAt p y = s.kindAt p y := rfl
@[simp] theorem State.advance_key (n : Nat) (p : Space) (y : Addr) : (s.advance n).key p y = s.key p y := rfl
@[simp] theorem State.advance_byteAt (n : Nat) (p : Space) (y : Addr) : (s.advance n).byteAt p y = s.byteAt p y := rfl
@[simp] theorem State.advance_wordAt (n : Nat) (p : Space) (y : Addr) : (s.advance n).wordAt p y = s.wordAt p y := rfl

/-! ## jump -/

@[simp] theorem State.jump_a (t : Addr) : (s.jump t).a = s.a := rfl
@[simp] theorem State.jump_b (t : Addr) : (s.jump t).b = s.b := rfl
@[simp] theorem State.jump_e (t : Addr) : (s.jump t).e = s.e := rfl
@[simp] theorem State.jump_ix (t : Addr) : (s.jump t).ix = s.ix := rfl
@[simp] theorem State.jump_iy (t : Addr) : (s.jump t).iy = s.iy := rfl
@[simp] theorem State.jump_iz (t : Addr) : (s.jump t).iz = s.iz := rfl
@[simp] theorem State.jump_sp (t : Addr) : (s.jump t).sp = s.sp := rfl
@[simp] theorem State.jump_ek (t : Addr) : (s.jump t).ek = s.ek := rfl
@[simp] theorem State.jump_xk (t : Addr) : (s.jump t).xk = s.xk := rfl
@[simp] theorem State.jump_yk (t : Addr) : (s.jump t).yk = s.yk := rfl
@[simp] theorem State.jump_zk (t : Addr) : (s.jump t).zk = s.zk := rfl
@[simp] theorem State.jump_sk (t : Addr) : (s.jump t).sk = s.sk := rfl
@[simp] theorem State.jump_pc (t : Addr) : (s.jump t).pc = evenAddr t := rfl
@[simp] theorem State.jump_ccr (t : Addr) : (s.jump t).ccr = s.ccr := rfl
@[simp] theorem State.jump_hr (t : Addr) : (s.jump t).hr = s.hr := rfl
@[simp] theorem State.jump_ir (t : Addr) : (s.jump t).ir = s.ir := rfl
@[simp] theorem State.jump_am (t : Addr) : (s.jump t).am = s.am := rfl
@[simp] theorem State.jump_xmsk (t : Addr) : (s.jump t).xmsk = s.xmsk := rfl
@[simp] theorem State.jump_ymsk (t : Addr) : (s.jump t).ymsk = s.ymsk := rfl
@[simp] theorem State.jump_sl (t : Addr) : (s.jump t).sl = s.sl := rfl
@[simp] theorem State.jump_inhibit (t : Addr) : (s.jump t).inhibit = s.inhibit := rfl
@[simp] theorem State.jump_heldOff (t : Addr) : (s.jump t).heldOff = s.heldOff := rfl
@[simp] theorem State.jump_run (t : Addr) : (s.jump t).run = s.run := rfl
@[simp] theorem State.jump_mem (t : Addr) : (s.jump t).mem = s.mem := rfl
@[simp] theorem State.jump_plat (t : Addr) : (s.jump t).plat = s.plat := rfl
@[simp] theorem State.jump_inputs (t : Addr) : (s.jump t).inputs = s.inputs := rfl
@[simp] theorem State.jump_replies (t : Addr) : (s.jump t).replies = s.replies := rfl
@[simp] theorem State.jump_events (t : Addr) : (s.jump t).events = s.events := rfl
@[simp] theorem State.jump_draws (t : Addr) : (s.jump t).draws = s.draws := rfl
@[simp] theorem State.jump_d (t : Addr) : (s.jump t).d = s.d := rfl
@[simp] theorem State.jump_ed (t : Addr) : (s.jump t).ed = s.ed := rfl
@[simp] theorem State.jump_x20 (t : Addr) : (s.jump t).x20 = s.x20 := rfl
@[simp] theorem State.jump_y20 (t : Addr) : (s.jump t).y20 = s.y20 := rfl
@[simp] theorem State.jump_z20 (t : Addr) : (s.jump t).z20 = s.z20 := rfl
@[simp] theorem State.jump_sp20 (t : Addr) : (s.jump t).sp20 = s.sp20 := rfl
@[simp] theorem State.jump_k (t : Addr) : (s.jump t).k = s.k := rfl
@[simp] theorem State.jump_kindAt (t : Addr) (p : Space) (y : Addr) : (s.jump t).kindAt p y = s.kindAt p y := rfl
@[simp] theorem State.jump_key (t : Addr) (p : Space) (y : Addr) : (s.jump t).key p y = s.key p y := rfl
@[simp] theorem State.jump_byteAt (t : Addr) (p : Space) (y : Addr) : (s.jump t).byteAt p y = s.byteAt p y := rfl
@[simp] theorem State.jump_wordAt (t : Addr) (p : Space) (y : Addr) : (s.jump t).wordAt p y = s.wordAt p y := rfl

/-! ## drew -/

@[simp] theorem State.drew_a (n : Nat) : (s.drew n).a = s.a := rfl
@[simp] theorem State.drew_b (n : Nat) : (s.drew n).b = s.b := rfl
@[simp] theorem State.drew_e (n : Nat) : (s.drew n).e = s.e := rfl
@[simp] theorem State.drew_ix (n : Nat) : (s.drew n).ix = s.ix := rfl
@[simp] theorem State.drew_iy (n : Nat) : (s.drew n).iy = s.iy := rfl
@[simp] theorem State.drew_iz (n : Nat) : (s.drew n).iz = s.iz := rfl
@[simp] theorem State.drew_sp (n : Nat) : (s.drew n).sp = s.sp := rfl
@[simp] theorem State.drew_ek (n : Nat) : (s.drew n).ek = s.ek := rfl
@[simp] theorem State.drew_xk (n : Nat) : (s.drew n).xk = s.xk := rfl
@[simp] theorem State.drew_yk (n : Nat) : (s.drew n).yk = s.yk := rfl
@[simp] theorem State.drew_zk (n : Nat) : (s.drew n).zk = s.zk := rfl
@[simp] theorem State.drew_sk (n : Nat) : (s.drew n).sk = s.sk := rfl
@[simp] theorem State.drew_pc (n : Nat) : (s.drew n).pc = s.pc := rfl
@[simp] theorem State.drew_ccr (n : Nat) : (s.drew n).ccr = s.ccr := rfl
@[simp] theorem State.drew_hr (n : Nat) : (s.drew n).hr = s.hr := rfl
@[simp] theorem State.drew_ir (n : Nat) : (s.drew n).ir = s.ir := rfl
@[simp] theorem State.drew_am (n : Nat) : (s.drew n).am = s.am := rfl
@[simp] theorem State.drew_xmsk (n : Nat) : (s.drew n).xmsk = s.xmsk := rfl
@[simp] theorem State.drew_ymsk (n : Nat) : (s.drew n).ymsk = s.ymsk := rfl
@[simp] theorem State.drew_sl (n : Nat) : (s.drew n).sl = s.sl := rfl
@[simp] theorem State.drew_inhibit (n : Nat) : (s.drew n).inhibit = s.inhibit := rfl
@[simp] theorem State.drew_heldOff (n : Nat) : (s.drew n).heldOff = s.heldOff := rfl
@[simp] theorem State.drew_run (n : Nat) : (s.drew n).run = s.run := rfl
@[simp] theorem State.drew_mem (n : Nat) : (s.drew n).mem = s.mem := rfl
@[simp] theorem State.drew_plat (n : Nat) : (s.drew n).plat = s.plat := rfl
@[simp] theorem State.drew_inputs (n : Nat) : (s.drew n).inputs = s.inputs := rfl
@[simp] theorem State.drew_replies (n : Nat) : (s.drew n).replies = s.replies := rfl
@[simp] theorem State.drew_events (n : Nat) : (s.drew n).events = s.events := rfl
@[simp] theorem State.drew_draws (n : Nat) : (s.drew n).draws = s.draws + n := rfl
@[simp] theorem State.drew_d (n : Nat) : (s.drew n).d = s.d := rfl
@[simp] theorem State.drew_ed (n : Nat) : (s.drew n).ed = s.ed := rfl
@[simp] theorem State.drew_x20 (n : Nat) : (s.drew n).x20 = s.x20 := rfl
@[simp] theorem State.drew_y20 (n : Nat) : (s.drew n).y20 = s.y20 := rfl
@[simp] theorem State.drew_z20 (n : Nat) : (s.drew n).z20 = s.z20 := rfl
@[simp] theorem State.drew_sp20 (n : Nat) : (s.drew n).sp20 = s.sp20 := rfl
@[simp] theorem State.drew_k (n : Nat) : (s.drew n).k = s.k := rfl
@[simp] theorem State.drew_kindAt (n : Nat) (p : Space) (y : Addr) : (s.drew n).kindAt p y = s.kindAt p y := rfl
@[simp] theorem State.drew_key (n : Nat) (p : Space) (y : Addr) : (s.drew n).key p y = s.key p y := rfl
@[simp] theorem State.drew_byteAt (n : Nat) (p : Space) (y : Addr) : (s.drew n).byteAt p y = s.byteAt p y := rfl
@[simp] theorem State.drew_wordAt (n : Nat) (p : Space) (y : Addr) : (s.drew n).wordAt p y = s.wordAt p y := rfl
@[simp] theorem State.drew_inPrefetch (n : Nat) (y : Addr) : (s.drew n).inPrefetch y = s.inPrefetch y := rfl

/-! ## emit -/

@[simp] theorem State.emit_a (e : HostEvent) : (s.emit e).a = s.a := rfl
@[simp] theorem State.emit_b (e : HostEvent) : (s.emit e).b = s.b := rfl
@[simp] theorem State.emit_e (e : HostEvent) : (s.emit e).e = s.e := rfl
@[simp] theorem State.emit_ix (e : HostEvent) : (s.emit e).ix = s.ix := rfl
@[simp] theorem State.emit_iy (e : HostEvent) : (s.emit e).iy = s.iy := rfl
@[simp] theorem State.emit_iz (e : HostEvent) : (s.emit e).iz = s.iz := rfl
@[simp] theorem State.emit_sp (e : HostEvent) : (s.emit e).sp = s.sp := rfl
@[simp] theorem State.emit_ek (e : HostEvent) : (s.emit e).ek = s.ek := rfl
@[simp] theorem State.emit_xk (e : HostEvent) : (s.emit e).xk = s.xk := rfl
@[simp] theorem State.emit_yk (e : HostEvent) : (s.emit e).yk = s.yk := rfl
@[simp] theorem State.emit_zk (e : HostEvent) : (s.emit e).zk = s.zk := rfl
@[simp] theorem State.emit_sk (e : HostEvent) : (s.emit e).sk = s.sk := rfl
@[simp] theorem State.emit_pc (e : HostEvent) : (s.emit e).pc = s.pc := rfl
@[simp] theorem State.emit_ccr (e : HostEvent) : (s.emit e).ccr = s.ccr := rfl
@[simp] theorem State.emit_hr (e : HostEvent) : (s.emit e).hr = s.hr := rfl
@[simp] theorem State.emit_ir (e : HostEvent) : (s.emit e).ir = s.ir := rfl
@[simp] theorem State.emit_am (e : HostEvent) : (s.emit e).am = s.am := rfl
@[simp] theorem State.emit_xmsk (e : HostEvent) : (s.emit e).xmsk = s.xmsk := rfl
@[simp] theorem State.emit_ymsk (e : HostEvent) : (s.emit e).ymsk = s.ymsk := rfl
@[simp] theorem State.emit_sl (e : HostEvent) : (s.emit e).sl = s.sl := rfl
@[simp] theorem State.emit_inhibit (e : HostEvent) : (s.emit e).inhibit = s.inhibit := rfl
@[simp] theorem State.emit_heldOff (e : HostEvent) : (s.emit e).heldOff = s.heldOff := rfl
@[simp] theorem State.emit_run (e : HostEvent) : (s.emit e).run = s.run := rfl
@[simp] theorem State.emit_mem (e : HostEvent) : (s.emit e).mem = s.mem := rfl
@[simp] theorem State.emit_plat (e : HostEvent) : (s.emit e).plat = s.plat := rfl
@[simp] theorem State.emit_inputs (e : HostEvent) : (s.emit e).inputs = s.inputs := rfl
@[simp] theorem State.emit_replies (e : HostEvent) : (s.emit e).replies = s.replies := rfl
@[simp] theorem State.emit_events (e : HostEvent) : (s.emit e).events = s.events ++ [e] := rfl
@[simp] theorem State.emit_draws (e : HostEvent) : (s.emit e).draws = s.draws := rfl
@[simp] theorem State.emit_d (e : HostEvent) : (s.emit e).d = s.d := rfl
@[simp] theorem State.emit_ed (e : HostEvent) : (s.emit e).ed = s.ed := rfl
@[simp] theorem State.emit_x20 (e : HostEvent) : (s.emit e).x20 = s.x20 := rfl
@[simp] theorem State.emit_y20 (e : HostEvent) : (s.emit e).y20 = s.y20 := rfl
@[simp] theorem State.emit_z20 (e : HostEvent) : (s.emit e).z20 = s.z20 := rfl
@[simp] theorem State.emit_sp20 (e : HostEvent) : (s.emit e).sp20 = s.sp20 := rfl
@[simp] theorem State.emit_k (e : HostEvent) : (s.emit e).k = s.k := rfl
@[simp] theorem State.emit_kindAt (e : HostEvent) (p : Space) (y : Addr) : (s.emit e).kindAt p y = s.kindAt p y := rfl
@[simp] theorem State.emit_key (e : HostEvent) (p : Space) (y : Addr) : (s.emit e).key p y = s.key p y := rfl
@[simp] theorem State.emit_byteAt (e : HostEvent) (p : Space) (y : Addr) : (s.emit e).byteAt p y = s.byteAt p y := rfl
@[simp] theorem State.emit_wordAt (e : HostEvent) (p : Space) (y : Addr) : (s.emit e).wordAt p y = s.wordAt p y := rfl
@[simp] theorem State.emit_inPrefetch (e : HostEvent) (y : Addr) : (s.emit e).inPrefetch y = s.inPrefetch y := rfl

/-! ## putByte -/

@[simp] theorem State.putByte_a (x : Addr) (v : Byte) : (s.putByte x v).a = s.a := rfl
@[simp] theorem State.putByte_b (x : Addr) (v : Byte) : (s.putByte x v).b = s.b := rfl
@[simp] theorem State.putByte_e (x : Addr) (v : Byte) : (s.putByte x v).e = s.e := rfl
@[simp] theorem State.putByte_ix (x : Addr) (v : Byte) : (s.putByte x v).ix = s.ix := rfl
@[simp] theorem State.putByte_iy (x : Addr) (v : Byte) : (s.putByte x v).iy = s.iy := rfl
@[simp] theorem State.putByte_iz (x : Addr) (v : Byte) : (s.putByte x v).iz = s.iz := rfl
@[simp] theorem State.putByte_sp (x : Addr) (v : Byte) : (s.putByte x v).sp = s.sp := rfl
@[simp] theorem State.putByte_ek (x : Addr) (v : Byte) : (s.putByte x v).ek = s.ek := rfl
@[simp] theorem State.putByte_xk (x : Addr) (v : Byte) : (s.putByte x v).xk = s.xk := rfl
@[simp] theorem State.putByte_yk (x : Addr) (v : Byte) : (s.putByte x v).yk = s.yk := rfl
@[simp] theorem State.putByte_zk (x : Addr) (v : Byte) : (s.putByte x v).zk = s.zk := rfl
@[simp] theorem State.putByte_sk (x : Addr) (v : Byte) : (s.putByte x v).sk = s.sk := rfl
@[simp] theorem State.putByte_pc (x : Addr) (v : Byte) : (s.putByte x v).pc = s.pc := rfl
@[simp] theorem State.putByte_ccr (x : Addr) (v : Byte) : (s.putByte x v).ccr = s.ccr := rfl
@[simp] theorem State.putByte_hr (x : Addr) (v : Byte) : (s.putByte x v).hr = s.hr := rfl
@[simp] theorem State.putByte_ir (x : Addr) (v : Byte) : (s.putByte x v).ir = s.ir := rfl
@[simp] theorem State.putByte_am (x : Addr) (v : Byte) : (s.putByte x v).am = s.am := rfl
@[simp] theorem State.putByte_xmsk (x : Addr) (v : Byte) : (s.putByte x v).xmsk = s.xmsk := rfl
@[simp] theorem State.putByte_ymsk (x : Addr) (v : Byte) : (s.putByte x v).ymsk = s.ymsk := rfl
@[simp] theorem State.putByte_sl (x : Addr) (v : Byte) : (s.putByte x v).sl = s.sl := rfl
@[simp] theorem State.putByte_inhibit (x : Addr) (v : Byte) : (s.putByte x v).inhibit = s.inhibit := rfl
@[simp] theorem State.putByte_heldOff (x : Addr) (v : Byte) : (s.putByte x v).heldOff = s.heldOff := rfl
@[simp] theorem State.putByte_run (x : Addr) (v : Byte) : (s.putByte x v).run = s.run := rfl
@[simp] theorem State.putByte_mem (x : Addr) (v : Byte) : (s.putByte x v).mem = Memory.set s.mem x.toNat v := rfl
@[simp] theorem State.putByte_plat (x : Addr) (v : Byte) : (s.putByte x v).plat = s.plat := rfl
@[simp] theorem State.putByte_inputs (x : Addr) (v : Byte) : (s.putByte x v).inputs = s.inputs := rfl
@[simp] theorem State.putByte_replies (x : Addr) (v : Byte) : (s.putByte x v).replies = s.replies := rfl
@[simp] theorem State.putByte_events (x : Addr) (v : Byte) : (s.putByte x v).events = s.events := rfl
@[simp] theorem State.putByte_draws (x : Addr) (v : Byte) : (s.putByte x v).draws = s.draws := rfl
@[simp] theorem State.putByte_d (x : Addr) (v : Byte) : (s.putByte x v).d = s.d := rfl
@[simp] theorem State.putByte_ed (x : Addr) (v : Byte) : (s.putByte x v).ed = s.ed := rfl
@[simp] theorem State.putByte_x20 (x : Addr) (v : Byte) : (s.putByte x v).x20 = s.x20 := rfl
@[simp] theorem State.putByte_y20 (x : Addr) (v : Byte) : (s.putByte x v).y20 = s.y20 := rfl
@[simp] theorem State.putByte_z20 (x : Addr) (v : Byte) : (s.putByte x v).z20 = s.z20 := rfl
@[simp] theorem State.putByte_sp20 (x : Addr) (v : Byte) : (s.putByte x v).sp20 = s.sp20 := rfl
@[simp] theorem State.putByte_k (x : Addr) (v : Byte) : (s.putByte x v).k = s.k := rfl
@[simp] theorem State.putByte_kindAt (x : Addr) (v : Byte) (p : Space) (y : Addr) : (s.putByte x v).kindAt p y = s.kindAt p y := rfl
@[simp] theorem State.putByte_key (x : Addr) (v : Byte) (p : Space) (y : Addr) : (s.putByte x v).key p y = s.key p y := rfl
@[simp] theorem State.putByte_inPrefetch (x : Addr) (v : Byte) (y : Addr) : (s.putByte x v).inPrefetch y = s.inPrefetch y := rfl

/-! ## putWord -/

@[simp] theorem State.putWord_a (x : Addr) (v : Word) : (s.putWord x v).a = s.a := rfl
@[simp] theorem State.putWord_b (x : Addr) (v : Word) : (s.putWord x v).b = s.b := rfl
@[simp] theorem State.putWord_e (x : Addr) (v : Word) : (s.putWord x v).e = s.e := rfl
@[simp] theorem State.putWord_ix (x : Addr) (v : Word) : (s.putWord x v).ix = s.ix := rfl
@[simp] theorem State.putWord_iy (x : Addr) (v : Word) : (s.putWord x v).iy = s.iy := rfl
@[simp] theorem State.putWord_iz (x : Addr) (v : Word) : (s.putWord x v).iz = s.iz := rfl
@[simp] theorem State.putWord_sp (x : Addr) (v : Word) : (s.putWord x v).sp = s.sp := rfl
@[simp] theorem State.putWord_ek (x : Addr) (v : Word) : (s.putWord x v).ek = s.ek := rfl
@[simp] theorem State.putWord_xk (x : Addr) (v : Word) : (s.putWord x v).xk = s.xk := rfl
@[simp] theorem State.putWord_yk (x : Addr) (v : Word) : (s.putWord x v).yk = s.yk := rfl
@[simp] theorem State.putWord_zk (x : Addr) (v : Word) : (s.putWord x v).zk = s.zk := rfl
@[simp] theorem State.putWord_sk (x : Addr) (v : Word) : (s.putWord x v).sk = s.sk := rfl
@[simp] theorem State.putWord_pc (x : Addr) (v : Word) : (s.putWord x v).pc = s.pc := rfl
@[simp] theorem State.putWord_ccr (x : Addr) (v : Word) : (s.putWord x v).ccr = s.ccr := rfl
@[simp] theorem State.putWord_hr (x : Addr) (v : Word) : (s.putWord x v).hr = s.hr := rfl
@[simp] theorem State.putWord_ir (x : Addr) (v : Word) : (s.putWord x v).ir = s.ir := rfl
@[simp] theorem State.putWord_am (x : Addr) (v : Word) : (s.putWord x v).am = s.am := rfl
@[simp] theorem State.putWord_xmsk (x : Addr) (v : Word) : (s.putWord x v).xmsk = s.xmsk := rfl
@[simp] theorem State.putWord_ymsk (x : Addr) (v : Word) : (s.putWord x v).ymsk = s.ymsk := rfl
@[simp] theorem State.putWord_sl (x : Addr) (v : Word) : (s.putWord x v).sl = s.sl := rfl
@[simp] theorem State.putWord_inhibit (x : Addr) (v : Word) : (s.putWord x v).inhibit = s.inhibit := rfl
@[simp] theorem State.putWord_heldOff (x : Addr) (v : Word) : (s.putWord x v).heldOff = s.heldOff := rfl
@[simp] theorem State.putWord_run (x : Addr) (v : Word) : (s.putWord x v).run = s.run := rfl
@[simp] theorem State.putWord_mem (x : Addr) (v : Word) : (s.putWord x v).mem = Memory.set (Memory.set s.mem x.toNat (v.extractLsb' 8 8)) (x + 1#20).toNat (v.extractLsb' 0 8) := rfl
@[simp] theorem State.putWord_plat (x : Addr) (v : Word) : (s.putWord x v).plat = s.plat := rfl
@[simp] theorem State.putWord_inputs (x : Addr) (v : Word) : (s.putWord x v).inputs = s.inputs := rfl
@[simp] theorem State.putWord_replies (x : Addr) (v : Word) : (s.putWord x v).replies = s.replies := rfl
@[simp] theorem State.putWord_events (x : Addr) (v : Word) : (s.putWord x v).events = s.events := rfl
@[simp] theorem State.putWord_draws (x : Addr) (v : Word) : (s.putWord x v).draws = s.draws := rfl
@[simp] theorem State.putWord_d (x : Addr) (v : Word) : (s.putWord x v).d = s.d := rfl
@[simp] theorem State.putWord_ed (x : Addr) (v : Word) : (s.putWord x v).ed = s.ed := rfl
@[simp] theorem State.putWord_x20 (x : Addr) (v : Word) : (s.putWord x v).x20 = s.x20 := rfl
@[simp] theorem State.putWord_y20 (x : Addr) (v : Word) : (s.putWord x v).y20 = s.y20 := rfl
@[simp] theorem State.putWord_z20 (x : Addr) (v : Word) : (s.putWord x v).z20 = s.z20 := rfl
@[simp] theorem State.putWord_sp20 (x : Addr) (v : Word) : (s.putWord x v).sp20 = s.sp20 := rfl
@[simp] theorem State.putWord_k (x : Addr) (v : Word) : (s.putWord x v).k = s.k := rfl
@[simp] theorem State.putWord_kindAt (x : Addr) (v : Word) (p : Space) (y : Addr) : (s.putWord x v).kindAt p y = s.kindAt p y := rfl
@[simp] theorem State.putWord_key (x : Addr) (v : Word) (p : Space) (y : Addr) : (s.putWord x v).key p y = s.key p y := rfl
@[simp] theorem State.putWord_inPrefetch (x : Addr) (v : Word) (y : Addr) : (s.putWord x v).inPrefetch y = s.inPrefetch y := rfl

/-! ## halt -/

@[simp] theorem State.halt_a : s.halt.a = s.a := rfl
@[simp] theorem State.halt_b : s.halt.b = s.b := rfl
@[simp] theorem State.halt_e : s.halt.e = s.e := rfl
@[simp] theorem State.halt_ix : s.halt.ix = s.ix := rfl
@[simp] theorem State.halt_iy : s.halt.iy = s.iy := rfl
@[simp] theorem State.halt_iz : s.halt.iz = s.iz := rfl
@[simp] theorem State.halt_sp : s.halt.sp = s.sp := rfl
@[simp] theorem State.halt_ek : s.halt.ek = s.ek := rfl
@[simp] theorem State.halt_xk : s.halt.xk = s.xk := rfl
@[simp] theorem State.halt_yk : s.halt.yk = s.yk := rfl
@[simp] theorem State.halt_zk : s.halt.zk = s.zk := rfl
@[simp] theorem State.halt_sk : s.halt.sk = s.sk := rfl
@[simp] theorem State.halt_pc : s.halt.pc = s.pc := rfl
@[simp] theorem State.halt_ccr : s.halt.ccr = s.ccr := rfl
@[simp] theorem State.halt_hr : s.halt.hr = s.hr := rfl
@[simp] theorem State.halt_ir : s.halt.ir = s.ir := rfl
@[simp] theorem State.halt_am : s.halt.am = s.am := rfl
@[simp] theorem State.halt_xmsk : s.halt.xmsk = s.xmsk := rfl
@[simp] theorem State.halt_ymsk : s.halt.ymsk = s.ymsk := rfl
@[simp] theorem State.halt_sl : s.halt.sl = s.sl := rfl
@[simp] theorem State.halt_inhibit : s.halt.inhibit = false := rfl
@[simp] theorem State.halt_heldOff : s.halt.heldOff = s.heldOff := rfl
@[simp] theorem State.halt_run : s.halt.run = .halted := rfl
@[simp] theorem State.halt_mem : s.halt.mem = s.mem := rfl
@[simp] theorem State.halt_plat : s.halt.plat = s.plat := rfl
@[simp] theorem State.halt_inputs : s.halt.inputs = s.inputs := rfl
@[simp] theorem State.halt_replies : s.halt.replies = s.replies := rfl
@[simp] theorem State.halt_events : s.halt.events = s.events := rfl
@[simp] theorem State.halt_draws : s.halt.draws = s.draws := rfl

/-! ## hostWrites and nextInput -/

/-- The stores of other agents change memory alone. -/
theorem State.hostWrites_eq (l : List HostWrite) : s.hostWrites l = { s with mem := (s.hostWrites l).mem } := by
  induction l generalizing s with
  | nil => rfl
  | cons w ws ih =>
    have h : s.hostWrite w = { s with mem := (s.hostWrite w).mem } := by
      unfold State.hostWrite
      split <;> rfl
    unfold State.hostWrites
    rw [ih, h]

/-- The step's input is used up; memory alone may have changed otherwise. -/
theorem State.nextInput_eq : s.nextInput = { s with mem := s.nextInput.mem, inputs := s.inputs.tail } := by
  unfold State.nextInput
  rw [State.hostWrites_eq]

@[simp] theorem State.nextInput_a : s.nextInput.a = s.a := by rw [State.nextInput_eq]
@[simp] theorem State.nextInput_b : s.nextInput.b = s.b := by rw [State.nextInput_eq]
@[simp] theorem State.nextInput_e : s.nextInput.e = s.e := by rw [State.nextInput_eq]
@[simp] theorem State.nextInput_ix : s.nextInput.ix = s.ix := by rw [State.nextInput_eq]
@[simp] theorem State.nextInput_iy : s.nextInput.iy = s.iy := by rw [State.nextInput_eq]
@[simp] theorem State.nextInput_iz : s.nextInput.iz = s.iz := by rw [State.nextInput_eq]
@[simp] theorem State.nextInput_sp : s.nextInput.sp = s.sp := by rw [State.nextInput_eq]
@[simp] theorem State.nextInput_ek : s.nextInput.ek = s.ek := by rw [State.nextInput_eq]
@[simp] theorem State.nextInput_xk : s.nextInput.xk = s.xk := by rw [State.nextInput_eq]
@[simp] theorem State.nextInput_yk : s.nextInput.yk = s.yk := by rw [State.nextInput_eq]
@[simp] theorem State.nextInput_zk : s.nextInput.zk = s.zk := by rw [State.nextInput_eq]
@[simp] theorem State.nextInput_sk : s.nextInput.sk = s.sk := by rw [State.nextInput_eq]
@[simp] theorem State.nextInput_pc : s.nextInput.pc = s.pc := by rw [State.nextInput_eq]
@[simp] theorem State.nextInput_ccr : s.nextInput.ccr = s.ccr := by rw [State.nextInput_eq]
@[simp] theorem State.nextInput_hr : s.nextInput.hr = s.hr := by rw [State.nextInput_eq]
@[simp] theorem State.nextInput_ir : s.nextInput.ir = s.ir := by rw [State.nextInput_eq]
@[simp] theorem State.nextInput_am : s.nextInput.am = s.am := by rw [State.nextInput_eq]
@[simp] theorem State.nextInput_xmsk : s.nextInput.xmsk = s.xmsk := by rw [State.nextInput_eq]
@[simp] theorem State.nextInput_ymsk : s.nextInput.ymsk = s.ymsk := by rw [State.nextInput_eq]
@[simp] theorem State.nextInput_sl : s.nextInput.sl = s.sl := by rw [State.nextInput_eq]
@[simp] theorem State.nextInput_inhibit : s.nextInput.inhibit = s.inhibit := by rw [State.nextInput_eq]
@[simp] theorem State.nextInput_heldOff : s.nextInput.heldOff = s.heldOff := by rw [State.nextInput_eq]
@[simp] theorem State.nextInput_run : s.nextInput.run = s.run := by rw [State.nextInput_eq]
@[simp] theorem State.nextInput_plat : s.nextInput.plat = s.plat := by rw [State.nextInput_eq]
@[simp] theorem State.nextInput_inputs : s.nextInput.inputs = s.inputs.tail := by rw [State.nextInput_eq]
@[simp] theorem State.nextInput_replies : s.nextInput.replies = s.replies := by rw [State.nextInput_eq]
@[simp] theorem State.nextInput_events : s.nextInput.events = s.events := by rw [State.nextInput_eq]
@[simp] theorem State.nextInput_draws : s.nextInput.draws = s.draws := by rw [State.nextInput_eq]
@[simp] theorem State.nextInput_sp20 : s.nextInput.sp20 = s.sp20 := by rw [State.nextInput_eq]; rfl
@[simp] theorem State.nextInput_kindAt (p : Space) (y : Addr) : s.nextInput.kindAt p y = s.kindAt p y := by rw [State.nextInput_eq]; rfl
@[simp] theorem State.nextInput_key (p : Space) (y : Addr) : s.nextInput.key p y = s.key p y := by rw [State.nextInput_eq]; rfl

/-! ## The register views after their own write -/

/-- A value cut in two and joined again. -/
theorem joined {m n : Nat} (v : BitVec (m + n)) : (v.extractLsb' n m ++ v.extractLsb' 0 n : BitVec (m + n)) = v := by
  apply BitVec.eq_of_getLsbD_eq
  intro i hi
  simp only [BitVec.getLsbD_append, BitVec.getLsbD_extractLsb']
  by_cases h : i < n
  · simp [h]
  · have h' : n + (i - n) = i := by omega
    have h'' : i - n < m := by omega
    simp [h, h', h'']

/-- The upper part of two values joined. -/
@[simp] theorem joined_high {m n : Nat} (x : BitVec m) (y : BitVec n) : (x ++ y : BitVec (m + n)).extractLsb' n m = x := by
  apply BitVec.eq_of_getLsbD_eq
  intro i hi
  have h : ¬ n + i < n := by omega
  have h' : n + i - n = i := by omega
  simp [BitVec.getLsbD_append, hi, h']

/-- The lower part of two values joined. -/
@[simp] theorem joined_low {m n : Nat} (x : BitVec m) (y : BitVec n) : (x ++ y : BitVec (m + n)).extractLsb' 0 n = y := by
  apply BitVec.eq_of_getLsbD_eq
  intro i hi
  simp [BitVec.getLsbD_append, hi]

@[simp] theorem State.withD_d (v : Word) : (s.withD v).d = v := joined (m := 8) (n := 8) v

@[simp] theorem State.withED_ed (v : Long) : (s.withED v).ed = v := by
  have h : (s.withED v).d = v.extractLsb' 0 16 := joined (m := 8) (n := 8) _
  have e : (s.withED v).ed = (s.withED v).e ++ (s.withED v).d := rfl
  rw [e, h]
  exact joined (m := 16) (n := 16) v

@[simp] theorem State.withX20_x20 (v : Addr) : (s.withX20 v).x20 = v := joined (m := 4) (n := 16) v

@[simp] theorem State.withY20_y20 (v : Addr) : (s.withY20 v).y20 = v := joined (m := 4) (n := 16) v

@[simp] theorem State.withZ20_z20 (v : Addr) : (s.withZ20 v).z20 = v := joined (m := 4) (n := 16) v

@[simp] theorem State.withSP20_sp20 (v : Addr) : (s.withSP20 v).sp20 = v := joined (m := 4) (n := 16) v

end Sys2Proof.Machine
end

