-- ==== Sys2Proof/Laws/Memory.lean ====
section
/-! SUPPORT. Memory as data: what a read finds after a write, for any list, and the canonical form. -/

namespace Sys2Proof.Machine

theorem Memory.get_erase (m : Memory) (a b : Nat) : Memory.get (Memory.erase m a) b = if b = a then 0#8 else Memory.get m b := by
  induction m with
  | nil => simp [Memory.erase, Memory.get]
  | cons c t ih =>
    obtain ⟨k, v⟩ := c
    by_cases hk : k = a
    · simp only [Memory.erase, hk, if_pos, ih, Memory.get]
      by_cases hb : b = a
      · simp [hb]
      · have : a ≠ b := fun h => hb h.symm
        simp [hb, this]
    · simp only [Memory.erase, hk, if_false, Memory.get, ih]
      by_cases hb : k = b
      · have : b ≠ a := fun h => hk (hb.trans h)
        simp [hb, this]
      · simp [hb]

/-- After putting a cell in a list that does not hold its key, a read finds it and nothing else new. -/
theorem Memory.get_insert (m : Memory) (a b : Nat) (v : Byte) (h : ∀ c ∈ m, c.1 ≠ a) :
    Memory.get (Memory.insert m a v) b = if b = a then v else Memory.get m b := by
  induction m with
  | nil => simp [Memory.insert, Memory.get, eq_comm]
  | cons c t ih =>
    obtain ⟨k, w⟩ := c
    have hk : k ≠ a := h (k, w) (by simp)
    have ht := ih (fun c hc => h c (List.mem_cons_of_mem _ hc))
    simp only [Memory.insert]
    by_cases hl : a < k
    · simp only [hl, if_true, Memory.get]
      by_cases hb : b = a
      · simp [hb]
      · have : a ≠ b := fun e => hb e.symm
        simp [hb, this]
    · simp only [hl, if_false, Memory.get, ht]
      by_cases hb : k = b
      · have : b ≠ a := fun e => hk (hb.trans e)
        simp [hb, this]
      · simp [hb]

theorem Memory.erase_no_key (m : Memory) (a : Nat) : ∀ c ∈ Memory.erase m a, c.1 ≠ a := by
  induction m with
  | nil => simp [Memory.erase]
  | cons c t ih =>
    obtain ⟨k, v⟩ := c
    by_cases hk : k = a
    · simpa [Memory.erase, hk] using ih
    · simp only [Memory.erase, hk, if_false, List.mem_cons]
      rintro c (rfl | hc)
      · exact hk
      · exact ih c hc

/-- Read after write: the written key gives the value written, every other key what it gave before. -/
theorem Memory.get_set (m : Memory) (a b : Nat) (v : Byte) :
    Memory.get (Memory.set m a v) b = if b = a then v else Memory.get m b := by
  unfold Memory.set
  by_cases hv : v = 0#8
  · simp [hv, Memory.get_erase]
  · simp only [hv, if_false]
    rw [Memory.get_insert _ _ _ _ (Memory.erase_no_key m a), Memory.get_erase]
    by_cases hb : b = a <;> simp [hb]

@[simp] theorem Memory.get_set_same (m : Memory) (a : Nat) (v : Byte) : Memory.get (Memory.set m a v) a = v := by
  simp [Memory.get_set]

theorem Memory.get_set_other (m : Memory) (a b : Nat) (v : Byte) (h : b ≠ a) :
    Memory.get (Memory.set m a v) b = Memory.get m b := by
  simp [Memory.get_set, h]

/-! ## The canonical form -/

theorem Memory.wfFrom_weaken {lo lo' : Nat} (m : Memory) (h : lo' ≤ lo) : Memory.wfFrom lo m = true → Memory.wfFrom lo' m = true := by
  cases m with
  | nil => simp [Memory.wfFrom]
  | cons c t =>
    obtain ⟨k, v⟩ := c
    simp only [Memory.wfFrom, Bool.and_eq_true, decide_eq_true_eq]
    rintro ⟨⟨⟨h1, h2⟩, h3⟩, h4⟩
    exact ⟨⟨⟨by omega, h2⟩, h3⟩, h4⟩

theorem Memory.wfFrom_erase (m : Memory) (lo a : Nat) : Memory.wfFrom lo m = true → Memory.wfFrom lo (Memory.erase m a) = true := by
  induction m generalizing lo with
  | nil => simp [Memory.erase, Memory.wfFrom]
  | cons c t ih =>
    obtain ⟨k, v⟩ := c
    simp only [Memory.wfFrom, Bool.and_eq_true, decide_eq_true_eq, Memory.erase]
    rintro ⟨⟨⟨h1, h2⟩, h3⟩, h4⟩
    by_cases hk : k = a
    · simp only [hk, if_true]
      exact Memory.wfFrom_weaken _ (by omega) (ih (k + 1) h4)
    · simp only [hk, if_false, Memory.wfFrom, Bool.and_eq_true, decide_eq_true_eq]
      exact ⟨⟨⟨h1, h2⟩, h3⟩, ih (k + 1) h4⟩

theorem Memory.wfFrom_insert (m : Memory) (lo a : Nat) (v : Byte) (hlo : lo ≤ a) (ha : a < 2 ^ 21) (hv : v ≠ 0#8)
    (hn : ∀ c ∈ m, c.1 ≠ a) : Memory.wfFrom lo m = true → Memory.wfFrom lo (Memory.insert m a v) = true := by
  induction m generalizing lo with
  | nil =>
    intro _
    simp only [Memory.insert, Memory.wfFrom, Bool.and_eq_true, decide_eq_true_eq, bne_iff_ne, ne_eq]
    exact ⟨⟨⟨hlo, ha⟩, hv⟩, trivial⟩
  | cons c t ih =>
    obtain ⟨k, w⟩ := c
    have hk : k ≠ a := hn (k, w) (by simp)
    simp only [Memory.wfFrom, Bool.and_eq_true, decide_eq_true_eq, Memory.insert]
    rintro ⟨⟨⟨h1, h2⟩, h3⟩, h4⟩
    by_cases hl : a < k
    · simp only [hl, if_true, Memory.wfFrom, Bool.and_eq_true, decide_eq_true_eq, bne_iff_ne, ne_eq]
      exact ⟨⟨⟨hlo, ha⟩, hv⟩, ⟨⟨by omega, h2⟩, by simpa using h3⟩, h4⟩
    · simp only [hl, if_false, Memory.wfFrom, Bool.and_eq_true, decide_eq_true_eq]
      exact ⟨⟨⟨h1, h2⟩, h3⟩, ih (k + 1) (by omega) (fun c hc => hn c (List.mem_cons_of_mem _ hc)) h4⟩

/-- A write keeps the canonical form. -/
theorem Memory.wf_set (m : Memory) (a : Nat) (v : Byte) (ha : a < 2 ^ 21) (h : Memory.wf m = true) : Memory.wf (Memory.set m a v) = true := by
  unfold Memory.set Memory.wf at *
  by_cases hv : v = 0#8
  · simpa [hv] using Memory.wfFrom_erase m 0 a h
  · simp only [hv, if_false]
    exact Memory.wfFrom_insert _ 0 a v (Nat.zero_le _) ha hv (Memory.erase_no_key m a) (Memory.wfFrom_erase m 0 a h)

/-- Below the first key of a canonical list nothing is listed. -/
theorem Memory.get_below (m : Memory) (lo a : Nat) (h : Memory.wfFrom lo m = true) (ha : a < lo) : Memory.get m a = 0#8 := by
  induction m generalizing lo with
  | nil => rfl
  | cons c t ih =>
    obtain ⟨k, v⟩ := c
    simp only [Memory.wfFrom, Bool.and_eq_true, decide_eq_true_eq] at h
    have hk : k ≠ a := by omega
    simp only [Memory.get, hk, if_false]
    exact ih (k + 1) h.2 (by omega)

/-- The reset memory is in canonical form. -/
theorem State.reset_mem_wf : Memory.wf State.reset.mem = true := rfl

/-! ## Bytes and words of the state after a write -/

theorem State.key_data (s : State) (a : Addr) : s.key .data a = a.toNat := rfl

theorem State.key_lt (s : State) (sp : Space) (a : Addr) : s.key sp a < 2 ^ 21 := by
  have := a.isLt
  cases sp with
  | data => simp only [State.key]; omega
  | prog => simp only [State.key]; split <;> omega

/-- Equal keys of one space are equal addresses. -/
theorem State.key_inj (s : State) (sp : Space) (a b : Addr) : s.key sp a = s.key sp b ↔ a = b := by
  constructor
  · intro h
    apply BitVec.eq_of_toNat_eq
    cases sp with
    | data => exact h
    | prog => simp only [State.key] at h; split at h <;> omega
  · rintro rfl; rfl

theorem State.putByte_byteAt (s : State) (x y : Addr) (v : Byte) :
    (s.putByte x v).byteAt .data y = if y = x then v else s.byteAt .data y := by
  simp only [State.byteAt, State.putByte, State.key_data, Memory.get_set]
  by_cases h : y = x
  · simp [h]
  · have : y.toNat ≠ x.toNat := fun e => h (BitVec.eq_of_toNat_eq e)
    simp [h, this]

theorem succ_ne (a : Addr) : a + 1#20 ≠ a := by
  intro h
  have := congrArg BitVec.toNat h
  have l := a.isLt
  simp only [BitVec.toNat_add] at this
  have e : (1#20 : Addr).toNat = 1 := rfl
  rw [e] at this
  omega

/-- Two words two bytes apart share no byte, and neither do the two bytes of one word. -/
theorem word_apart (a : Addr) : a - 2#20 ≠ a ∧ a - 2#20 ≠ a + 1#20 ∧ a - 2#20 + 1#20 ≠ a ∧ a - 2#20 + 1#20 ≠ a + 1#20 := by
  refine ⟨?_, ?_, ?_, ?_⟩ <;> bv_omega

theorem State.putWord_wordAt (s : State) (x : Addr) (v : Word) : (s.putWord x v).wordAt .data x = v := by
  have h := succ_ne x
  simp only [State.wordAt, State.putWord, State.putByte_byteAt, if_true]
  have h' : x ≠ x + 1#20 := fun e => h e.symm
  simp only [h', if_false]
  exact joined (m := 8) (n := 8) v

theorem State.putWord_get (s : State) (x : Addr) (v : Word) (k : Nat) (h0 : k ≠ x.toNat) (h1 : k ≠ (x + 1#20).toNat) :
    Memory.get (s.putWord x v).mem k = Memory.get s.mem k := by
  rw [State.putWord_mem, Memory.get_set_other _ _ _ _ h1, Memory.get_set_other _ _ _ _ h0]

theorem State.putByte_get (s : State) (x : Addr) (v : Byte) (k : Nat) (h0 : k ≠ x.toNat) :
    Memory.get (s.putByte x v).mem k = Memory.get s.mem k := by
  simp [Memory.get_set, h0]

end Sys2Proof.Machine
end

