-- ==== Sys2Proof/Laws/Bus.lean ====
section
/-! SUPPORT. What each bus, stack and exception operation answers where plain memory is in its way: one lemma for each operation, which later proofs cite in
place of the definition. -/

namespace Sys2Proof.Machine

@[simp] theorem Bus.bind_ok {α β : Type} (v : α) (s : State) (f : α → State → Bus β) : (Bus.ok v s).bind f = f v s := rfl
@[simp] theorem Bus.bind_berr {α β : Type} (s : State) (f : α → State → Bus β) : (Bus.berr s : Bus α).bind f = .berr s := rfl
@[simp] theorem Bus.bind_refused {α β : Type} (r : Refusal) (f : α → State → Bus β) : (Bus.refused r : Bus α).bind f = .refused r := rfl

/-! ## Single accesses -/

theorem read8_ready (s : State) (sp : Space) (a : Addr) (h : s.canRead8 sp a = true) : read8 s sp a = .ok (s.byteAt sp a) s := by
  unfold State.canRead8 at h
  unfold read8
  cases hk : s.kindAt sp a <;> simp [hk, Kind.readable] at h ⊢

theorem readAligned_ready (s : State) (sp : Space) (a : Addr) (h : s.canRead8 sp a = true) : readAligned s sp a = .ok (s.wordAt sp a) s := by
  unfold State.canRead8 at h
  unfold readAligned
  cases hk : s.kindAt sp a <;> simp [hk, Kind.readable] at h ⊢

/-- A word is read from plain memory at an even or an odd address alike. -/
theorem read16_ready (s : State) (sp : Space) (a : Addr) (h : s.canRead16 sp a = true) : read16 s sp a = .ok (s.wordAt sp a) s := by
  simp only [State.canRead16, Bool.and_eq_true] at h
  unfold read16
  by_cases ho : s.bytewise sp a
  · simp [ho, read8_ready s sp a h.1, read8_ready s sp (a + 1#20) h.2, State.wordAt]
  · rw [if_neg ho, readAligned_ready s sp a h.1]

theorem write8_ready (own : Bool) (s : State) (a : Addr) (v : Byte) (h : s.canWrite8 a = true) : write8 own s a v = .ok () (s.putByte a v) := by
  simp only [State.canWrite8, Bool.and_eq_true, beq_iff_eq, Bool.not_eq_true'] at h
  simp [write8, h.1, h.2]

theorem writeAligned_ready (own : Bool) (s : State) (a : Addr) (v : Word) (h : s.canWrite16 a = true) :
    writeAligned own s a v = .ok () (s.putWord a v) := by
  simp only [State.canWrite16, State.canWrite8, Bool.and_eq_true, beq_iff_eq, Bool.not_eq_true'] at h
  simp [writeAligned, h.1.1, h.1.2, h.2.2]

/-- A word is stored to plain memory at an even or an odd address alike. -/
theorem write16_ready (own : Bool) (s : State) (a : Addr) (v : Word) (h : s.canWrite16 a = true) : write16 own s a v = .ok () (s.putWord a v) := by
  unfold write16
  by_cases ho : s.bytewise .data a
  · have h' := h
    simp only [State.canWrite16, Bool.and_eq_true] at h'
    have h2 : (s.putByte a (v.extractLsb' 8 8)).canWrite8 (a + 1#20) = true := h'.2
    simp [ho, write8_ready own s a _ h'.1, write8_ready own _ (a + 1#20) _ h2, State.putWord]
  · rw [if_neg ho, writeAligned_ready own s a v h]

/-- At a boundary no prefetch window is in the way. -/
theorem write16_ram (s : State) (a : Addr) (v : Word) (h : s.isRam16 a = true) : write16 false s a v = .ok () (s.putWord a v) := by
  simp only [State.isRam16, Bool.and_eq_true, beq_iff_eq] at h
  unfold write16
  by_cases ho : s.bytewise .data a
  · simp [ho, write8, h.1, h.2, State.putWord]
  · rw [if_neg ho]; simp [writeAligned, h.1]

theorem canWrite8_readable (s : State) (a : Addr) (h : s.canWrite8 a = true) : s.canRead8 .data a = true := by
  simp only [State.canWrite8, Bool.and_eq_true, beq_iff_eq] at h
  simp [State.canRead8, h.1, Kind.readable]

theorem canWrite16_readable (s : State) (a : Addr) (h : s.canWrite16 a = true) : s.canRead16 .data a = true := by
  simp only [State.canWrite16, Bool.and_eq_true] at h
  simp [State.canRead16, canWrite8_readable s _ h.1, canWrite8_readable s _ h.2]

theorem canWrite16_ram (s : State) (a : Addr) (h : s.canWrite16 a = true) : s.isRam16 a = true := by
  simp only [State.canWrite16, State.canWrite8, Bool.and_eq_true] at h
  simp [State.isRam16, h.1.1, h.2.1]

/-! ## What was stored -/

theorem wroteBytes_putByte (s : State) (a : Addr) (v : Byte) : wroteBytes s (s.putByte a v) [(a, v)] := by
  refine ⟨?_, ?_⟩
  · intro p hp
    obtain rfl : p = (a, v) := by simpa using hp
    simp [State.putByte_byteAt]
  · intro k hk
    exact State.putByte_get s a v k (hk (a, v) (by simp))

theorem wroteWords_putWord (s : State) (a : Addr) (v : Word) : wroteWords s (s.putWord a v) [(a, v)] := by
  refine ⟨?_, ?_⟩
  · intro p hp
    obtain rfl : p = (a, v) := by simpa using hp
    exact State.putWord_wordAt s a v
  · intro k hk
    have := hk (a, v) (by simp)
    exact State.putWord_get s a v k this.1 this.2

/-- A word put elsewhere leaves a word alone. -/
theorem State.putWord_wordAt_other (s : State) (x y : Addr) (v : Word) (h1 : y ≠ x) (h2 : y ≠ x + 1#20) (h3 : y + 1#20 ≠ x) (h4 : y + 1#20 ≠ x + 1#20) :
    (s.putWord x v).wordAt .data y = s.wordAt .data y := by
  simp [State.wordAt, State.putWord, State.putByte_byteAt, h1, h2, h3, h4]

/-- `wroteBytes` and `wroteWords` look at memory alone. -/
theorem wroteWords_congr {s t s' t' : State} {l : List (Addr × Word)} (hs : s'.mem = s.mem) (ht : t'.mem = t.mem) (h : wroteWords s t l) :
    wroteWords s' t' l := by
  refine ⟨fun p hp => ?_, fun k hk => ?_⟩
  · have := h.1 p hp
    simpa [State.wordAt, State.byteAt, State.key_data, ht] using this
  · rw [ht, hs]; exact h.2 k hk

theorem wroteBytes_congr {s t s' t' : State} {l : List (Addr × Byte)} (hs : s'.mem = s.mem) (ht : t'.mem = t.mem) (h : wroteBytes s t l) :
    wroteBytes s' t' l := by
  refine ⟨fun p hp => ?_, fun k hk => ?_⟩
  · have := h.1 p hp
    simpa [State.byteAt, State.key_data, ht] using this
  · rw [ht, hs]; exact h.2 k hk

/-! ## Stack -/

theorem push16_ready (own : Bool) (s : State) (v : Word) (h : s.canWrite16 s.sp20 = true) :
    push16 own s v = .ok () ((s.putWord s.sp20 v).withSP20 (s.sp20 - 2#20)) := by
  simp [push16, write16_ready own s _ v h]

theorem push16_ram (s : State) (v : Word) (h : s.isRam16 s.sp20 = true) :
    push16 false s v = .ok () ((s.putWord s.sp20 v).withSP20 (s.sp20 - 2#20)) := by
  simp [push16, write16_ram s _ v h]

theorem pull16_ready (s : State) (h : s.canRead16 .data (s.sp20 + 2#20) = true) :
    pull16 s = .ok (s.wordAt .data (s.sp20 + 2#20)) (s.withSP20 (s.sp20 + 2#20)) := by
  have h' : (s.withSP20 (s.sp20 + 2#20)).canRead16 .data (s.sp20 + 2#20) = true := h
  simp [pull16, read16_ready _ _ _ h']

theorem push8_ready (s : State) (v : Byte) (h : s.canWrite8 (s.sp20 + 1#20) = true) :
    push8 s v = .ok () (((s.withSP20 (s.sp20 + 1#20)).putByte (s.sp20 + 1#20) v).withSP20 (s.sp20 + 1#20 - 2#20)) := by
  have h' : (s.withSP20 (s.sp20 + 1#20)).canWrite8 (s.sp20 + 1#20) = true := h
  simp [push8, write8_ready true _ _ v h']

theorem pull8_ready (s : State) (h : s.canRead8 .data (s.sp20 + 2#20) = true) :
    pull8 s = .ok (s.byteAt .data (s.sp20 + 2#20)) ((s.withSP20 (s.sp20 + 2#20)).withSP20 (s.sp20 + 2#20 - 1#20)) := by
  have h' : (s.withSP20 (s.sp20 + 2#20)).canRead8 .data (s.sp20 + 2#20) = true := h
  simp [pull8, read8_ready _ _ _ h']

/-- The state after the frame of `ret` is pushed. -/
def State.framed (s : State) (ret : Addr) : State :=
  (((s.putWord s.sp20 (ret.extractLsb' 0 16)).withSP20 (s.sp20 - 2#20)).putWord (s.sp20 - 2#20) (s.ccr.word (ret.extractLsb' 16 4))).withSP20
    (s.sp20 - 2#20 - 2#20)

theorem pushFrame_ready (own : Bool) (s : State) (ret : Addr) (h : s.canPushFrame = true) : pushFrame own s ret = .ok () (s.framed ret) := by
  simp only [State.canPushFrame, Bool.and_eq_true] at h
  have h2 : ((s.putWord s.sp20 (ret.extractLsb' 0 16)).withSP20 (s.sp20 - 2#20)).canWrite16
      ((s.putWord s.sp20 (ret.extractLsb' 0 16)).withSP20 (s.sp20 - 2#20)).sp20 = true := by
    simpa [State.canWrite16, State.canWrite8] using h.2
  simp [pushFrame, push16_ready own s _ h.1, push16_ready own _ _ h2, State.framed]

theorem pushFrame_ram (s : State) (ret : Addr) (h : s.canStackFrame = true) : pushFrame false s ret = .ok () (s.framed ret) := by
  simp only [State.canStackFrame, Bool.and_eq_true] at h
  have h2 : ((s.putWord s.sp20 (ret.extractLsb' 0 16)).withSP20 (s.sp20 - 2#20)).isRam16
      ((s.putWord s.sp20 (ret.extractLsb' 0 16)).withSP20 (s.sp20 - 2#20)).sp20 = true := by
    simpa [State.isRam16] using h.2
  simp [pushFrame, push16_ram s _ h.1, push16_ram _ _ h2, State.framed]

/-- The frame: its two words stored, nothing else of memory changed, SK : SP four lower, every other field as it was. -/
theorem framed_spec (s : State) (ret : Addr) :
    wroteWords s (s.framed ret) (s.frameOf ret) ∧
      s.framed ret =
        { s with
          mem := (s.framed ret).mem
          sk := (s.sp20 - 4#20).extractLsb' 16 4
          sp := (s.sp20 - 4#20).extractLsb' 0 16 } := by
  obtain ⟨a1, a2, a3, a4⟩ := word_apart s.sp20
  have e4 : s.sp20 - 2#20 - 2#20 = s.sp20 - 4#20 := by bv_omega
  refine ⟨⟨?_, ?_⟩, ?_⟩
  · intro p hp
    simp only [State.frameOf, List.mem_cons, List.not_mem_nil, or_false] at hp
    rcases hp with rfl | rfl
    · rw [State.framed, State.withSP20_wordAt, State.putWord_wordAt_other _ _ _ _ a1.symm a3.symm a2.symm a4.symm, State.withSP20_wordAt,
        State.putWord_wordAt]
    · rw [State.framed, State.withSP20_wordAt, State.putWord_wordAt]
  · intro k hk
    have k1 := hk (s.sp20, ret.extractLsb' 0 16) (by simp [State.frameOf])
    have k2 := hk (s.sp20 - 2#20, s.ccr.word (ret.extractLsb' 16 4)) (by simp [State.frameOf])
    rw [State.framed, State.withSP20_mem, State.putWord_get _ _ _ _ k2.1 k2.2, State.withSP20_mem, State.putWord_get _ _ _ _ k1.1 k1.2]
  · simp only [State.framed, State.withSP20, State.putWord, State.putByte, e4]

theorem pullFrame_ready (s : State) (h1 : s.canRead16 .data (s.sp20 + 2#20) = true) (h2 : s.canRead16 .data (s.sp20 + 4#20) = true) :
    pullFrame s = .ok (s.wordAt .data (s.sp20 + 2#20), s.wordAt .data (s.sp20 + 4#20)) (s.withSP20 (s.sp20 + 4#20)) := by
  have e4 : s.sp20 + 2#20 + 2#20 = s.sp20 + 4#20 := by bv_omega
  have h2' : (s.withSP20 (s.sp20 + 2#20)).canRead16 .data ((s.withSP20 (s.sp20 + 2#20)).sp20 + 2#20) = true := by
    simpa [e4, State.canRead16, State.canRead8] using h2
  simp only [pullFrame, pull16_ready s h1, Bus.bind_ok, pull16_ready _ h2', State.withSP20_sp20, e4, State.withSP20_wordAt]
  rfl

/-! ## Exceptions -/

theorem evenAddr_eq (a : Addr) : evenAddr a = roundedDown a := by
  apply BitVec.eq_of_toNat_eq
  have h : (0xFFFFE#20 : Addr) = ~~~(1#20 : Addr) := rfl
  have e : a.toNat % 2 + 2 * (a.toNat / 2) = a.toNat := Nat.mod_add_div _ _
  have l := a.isLt
  have hr : (roundedDown a).toNat = a.toNat / 2 * 2 := by
    simp only [roundedDown, BitVec.toNat_ofNat]
    omega
  rw [hr]
  unfold evenAddr
  have : a &&& 0xFFFFE#20 = (a >>> 1) <<< 1 := by
    apply BitVec.eq_of_getLsbD_eq
    intro i hi
    simp only [h, BitVec.getLsbD_and, BitVec.getLsbD_not, BitVec.getLsbD_shiftLeft, BitVec.getLsbD_ushiftRight]
    rcases Nat.eq_zero_or_pos i with rfl | hp
    · simp
    · have h1 : (1#20 : Addr).getLsbD i = false := by
        simp [BitVec.getLsbD_one]; omega
      rw [h1]
      have h2 : 1 + (i - 1) = i := by omega
      have h3 : ¬ i < 1 := by omega
      simp [hi, h2, h3]
  rw [this]
  simp only [BitVec.toNat_shiftLeft, BitVec.toNat_ushiftRight, Nat.shiftRight_eq_div_pow, Nat.shiftLeft_eq]
  omega

theorem vectorAddr_eq (n : Byte) : vectorAddr n = BitVec.ofNat 20 (2 * n.toNat) := by
  apply BitVec.eq_of_toNat_eq
  have l := n.isLt
  simp only [vectorAddr, BitVec.toNat_shiftLeft, BitVec.toNat_setWidth, BitVec.toNat_ofNat, Nat.shiftLeft_eq]
  omega

/-- What the entry sequence leaves once the frame is stacked and memory answers the vector fetch. -/
theorem entry_after_frame (own : Bool) (s : State) (n : Byte) (resume : Addr) (level : Option (BitVec 3))
    (hp : pushFrame own s (resume + 6#20) = .ok () (s.framed (resume + 6#20)))
    (hv : s.canRead16 .data (vectorAddr n) = true) :
    ∃ t, enterException own s n resume level = .next t ∧
      Entered s t n resume (level.getD s.ccr.ip) (match level with | none => [] | some l => [.interruptAcknowledge l]) := by
  obtain ⟨hw, hf⟩ := framed_spec s (resume + 6#20)
  generalize hg : s.framed (resume + 6#20) = f at hp hw hf
  have hvr : (acknowledge f level).canRead16 .data (vectorAddr n) = true := by
    have : (acknowledge f level).plat = s.plat := by
      cases level <;> (simp only [acknowledge, State.emit]; rw [hf])
    simpa [State.canRead16, State.canRead8, State.kindAt, State.mapSpace, this] using hv
  have hm : (acknowledge f level).mem = f.mem := by cases level <;> rfl
  have hwd : (acknowledge f level).wordAt .data (vectorAddr n) = f.wordAt .data (vectorAddr n) := by
    simp only [State.wordAt, State.byteAt, State.key_data, hm]
  have hwt : ∀ u : State, u.mem = f.mem → ∀ y, u.wordAt .data y = f.wordAt .data y := by
    intro u hu y
    simp only [State.wordAt, State.byteAt, State.key_data, hu]
  refine ⟨{ acknowledge f level with pc := evenAddr ((f.wordAt .data (vectorAddr n)).setWidth 20), run := .running, inhibit := false }, ?_, ?_, ?_⟩
  · simp [enterException, exceptionSequence, hp, read16_ready _ _ _ hvr, hwd]
  · exact wroteWords_congr rfl hm hw
  · generalize hu : ({ acknowledge f level with
        pc := evenAddr ((f.wordAt .data (vectorAddr n)).setWidth 20), run := .running, inhibit := false } : State) = u
    have hum : u.mem = f.mem := by rw [← hu]; exact hm
    rw [hwt u hum, hum, ← vectorAddr_eq, ← evenAddr_eq, ← hu]
    generalize f.wordAt .data (vectorAddr n) = w
    cases level with
    | none => simp only [acknowledge, Option.getD_none, List.append_nil]; rw [hf]
    | some l => simp only [acknowledge, State.emit, Option.getD_some]; rw [hf]

/-- Taking an exception of the executing instruction, where plain memory is in its way. -/
theorem enterException_ready (own : Bool) (s : State) (n : Byte) (resume : Addr) (level : Option (BitVec 3))
    (hp : s.canPushFrame = true) (hv : s.canRead16 .data (vectorAddr n) = true) :
    ∃ t, enterException own s n resume level = .next t ∧
      Entered s t n resume (level.getD s.ccr.ip) (match level with | none => [] | some l => [.interruptAcknowledge l]) :=
  entry_after_frame own s n resume level (pushFrame_ready own s _ hp) hv

/-- Taking an exception at a boundary, where plain memory is in its way. -/
theorem enterException_ram (s : State) (n : Byte) (resume : Addr) (level : Option (BitVec 3))
    (hp : s.canStackFrame = true) (hv : s.canRead16 .data (vectorAddr n) = true) :
    ∃ t, enterException false s n resume level = .next t ∧
      Entered s t n resume (level.getD s.ccr.ip) (match level with | none => [] | some l => [.interruptAcknowledge l]) :=
  entry_after_frame false s n resume level (pushFrame_ram s _ hp) hv

end Sys2Proof.Machine
end

