-- ==== Sys2Proof/Laws/Decode.lean ====
section
/-! SUPPORT. The word and byte helpers of the decoder and the encoder undo each other: one lemma for each pair. -/

namespace Sys2Proof

open Sys2Proof.Machine

@[simp] theorem hiByte_wordOf (h l : Byte) : hiByte (wordOf h l) = h := joined_high h l

@[simp] theorem loByte_wordOf (h l : Byte) : loByte (wordOf h l) = l := joined_low h l

@[simp] theorem wordOf_bytes (w : Word) : wordOf (hiByte w) (loByte w) = w := joined (m := 8) (n := 8) w

@[simp] theorem hiNib_append (h l : Nib) : hiNib (h ++ l) = h := joined_high h l

@[simp] theorem loNib_append (h l : Nib) : loNib (h ++ l) = l := joined_low h l

@[simp] theorem nibs_append (b : Byte) : (hiNib b ++ loNib b : Byte) = b := joined (m := 4) (n := 4) b

@[simp] theorem wordsOfBytes_bytesOfWords (ws : List Word) : wordsOfBytes (bytesOfWords ws) = ws := by
  induction ws with
  | nil => rfl
  | cons w t ih => simp only [bytesOfWords, wordsOfBytes, ih, wordOf_bytes]

theorem bytesOfWords_append (a b : List Word) : bytesOfWords (a ++ b) = bytesOfWords a ++ bytesOfWords b := by
  induction a with
  | nil => rfl
  | cons w t ih => simp only [List.cons_append, bytesOfWords, ih]

end Sys2Proof
end

