-- ==== Sys2Proof/Laws/Flags.lean ====
section
/-! SUPPORT. Each flag computation of the model equals the fact about integers that the claims state it by (Safety.lean): one lemma for each computation. -/

namespace Sys2Proof.Machine

theorem beq_zero_eq {w : Nat} (r : BitVec w) : (r == 0#w) = decide (r.toNat = 0) := by
  rw [Bool.eq_iff_iff]; simp [← BitVec.toNat_inj]

theorem flagsNZ_eq {w : Nat} (c : CCR) (r : BitVec w) : flagsNZ c r = withNZ c r := by
  simp only [flagsNZ, withNZ, BitVec.msb_eq_toInt, beq_zero_eq]

theorem flagsNZV_eq {w : Nat} (c : CCR) (r : BitVec w) : flagsNZV c r = withNZV c r := by
  simp only [flagsNZV, withNZV, withNZ, BitVec.msb_eq_toInt, beq_zero_eq]

theorem flagsTest_eq8 (c : CCR) (r : Byte) : flagsTest c r = (subtracted c r 0#8 false).2 := by
  have h := r.isLt
  have e : BitVec.ofInt 8 (r.toInt - (0#8 : Byte).toInt - (false.toNat : Int)) = r := by simp
  have b := BitVec.toInt_lt (x := r)
  have b' := BitVec.le_toInt (x := r)
  simp only [subtracted, withArith, withNZ, e, flagsTest, BitVec.msb_eq_toInt, beq_zero_eq, signedFits]
  congr 1
  simp; omega

theorem flagsTest_eq16 (c : CCR) (r : Word) : flagsTest c r = (subtracted c r 0#16 false).2 := by
  have h := r.isLt
  have e : BitVec.ofInt 16 (r.toInt - (0#16 : Word).toInt - (false.toNat : Int)) = r := by simp
  have b := BitVec.toInt_lt (x := r)
  have b' := BitVec.le_toInt (x := r)
  simp only [subtracted, withArith, withNZ, e, flagsTest, BitVec.msb_eq_toInt, beq_zero_eq, signedFits]
  congr 1
  simp; omega

theorem flagsCom_eq {w : Nat} (c : CCR) (r : BitVec w) : flagsCom c r = { withNZV c r with c := true } := by
  simp only [flagsCom, withNZV, withNZ, BitVec.msb_eq_toInt, beq_zero_eq]

/-- The overflow test by signs says that the exact signed sum does not fit. -/
theorem add_overflow8 (a b : Byte) (ci : Bool) :
    (a.msb == b.msb && (BitVec.ofNat 8 (a.toNat + b.toNat + ci.toNat)).msb != a.msb) = !signedFits 8 (a.toInt + b.toInt + ci.toNat) := by
  rw [Bool.eq_iff_iff]
  have ha := a.isLt
  have hb := b.isLt
  have hc := Bool.toNat_lt ci
  simp only [BitVec.msb_eq_decide, BitVec.toInt_eq_toNat_cond, signedFits, BitVec.toNat_ofNat, Bool.and_eq_true, beq_iff_eq, bne_iff_ne, ne_eq, decide_eq_decide,
    Bool.not_eq_true', Bool.and_eq_false_iff, decide_eq_false_iff_not]
  split <;> split <;> omega

theorem add_overflow16 (a b : Word) (ci : Bool) :
    (a.msb == b.msb && (BitVec.ofNat 16 (a.toNat + b.toNat + ci.toNat)).msb != a.msb) = !signedFits 16 (a.toInt + b.toInt + ci.toNat) := by
  rw [Bool.eq_iff_iff]
  have ha := a.isLt
  have hb := b.isLt
  have hc := Bool.toNat_lt ci
  simp only [BitVec.msb_eq_decide, BitVec.toInt_eq_toNat_cond, signedFits, BitVec.toNat_ofNat, Bool.and_eq_true, beq_iff_eq, bne_iff_ne, ne_eq, decide_eq_decide,
    Bool.not_eq_true', Bool.and_eq_false_iff, decide_eq_false_iff_not]
  split <;> split <;> omega

theorem addFlags8_eq (c : CCR) (a b : Byte) (ci : Bool) : addFlags8 c a b ci = added8 c a b ci := by
  simp only [addFlags8, addFlags, added8, added, withArith, withNZ, BitVec.msb_eq_toInt, beq_zero_eq, ← add_overflow8]

theorem addFlags16_eq (c : CCR) (a b : Word) (ci : Bool) : addFlags16 c a b ci = added c a b ci := by
  simp only [addFlags16, addFlags, added, withArith, withNZ, BitVec.msb_eq_toInt, beq_zero_eq, ← add_overflow16]

theorem sub_overflow8 (a b : Byte) (bi : Bool) :
    (a.msb != b.msb && (BitVec.ofInt 8 ((a.toNat : Int) - b.toNat - bi.toNat)).msb != a.msb) = !signedFits 8 (a.toInt - b.toInt - bi.toNat) := by
  rw [Bool.eq_iff_iff]
  have ha := a.isLt
  have hb := b.isLt
  have hc := Bool.toNat_lt bi
  simp only [BitVec.msb_eq_decide, BitVec.toInt_eq_toNat_cond, signedFits, BitVec.toNat_ofInt, Bool.and_eq_true, bne_iff_ne, ne_eq, decide_eq_decide,
    Bool.not_eq_true', Bool.and_eq_false_iff, decide_eq_false_iff_not]
  split <;> split <;> omega

theorem sub_overflow16 (a b : Word) (bi : Bool) :
    (a.msb != b.msb && (BitVec.ofInt 16 ((a.toNat : Int) - b.toNat - bi.toNat)).msb != a.msb) = !signedFits 16 (a.toInt - b.toInt - bi.toNat) := by
  rw [Bool.eq_iff_iff]
  have ha := a.isLt
  have hb := b.isLt
  have hc := Bool.toNat_lt bi
  simp only [BitVec.msb_eq_decide, BitVec.toInt_eq_toNat_cond, signedFits, BitVec.toNat_ofInt, Bool.and_eq_true, bne_iff_ne, ne_eq, decide_eq_decide,
    Bool.not_eq_true', Bool.and_eq_false_iff, decide_eq_false_iff_not]
  split <;> split <;> omega

theorem sub_result {w : Nat} (a b : BitVec w) (bi : Bool) :
    BitVec.ofInt w ((a.toNat : Int) - b.toNat - bi.toNat) = BitVec.ofInt w (a.toInt - b.toInt - bi.toNat) := by
  apply BitVec.eq_of_toInt_eq
  rw [BitVec.toInt_ofInt, BitVec.toInt_ofInt, BitVec.toInt_eq_toNat_bmod a, BitVec.toInt_eq_toNat_bmod b]
  have h : ((a.toNat : Int).bmod (2 ^ w) - (b.toNat : Int).bmod (2 ^ w) - bi.toNat) =
      ((a.toNat : Int).bmod (2 ^ w) - ((b.toNat : Int).bmod (2 ^ w) + bi.toNat)) := by ring
  have h2 : (a.toNat : Int) - ((b.toNat : Int).bmod (2 ^ w) + bi.toNat) = ((a.toNat : Int) - bi.toNat) - (b.toNat : Int).bmod (2 ^ w) := by ring
  rw [h, Int.bmod_sub_bmod, h2, Int.sub_bmod_bmod]
  congr 1; ring

theorem subFlags8_eq (c : CCR) (a b : Byte) (bi : Bool) : subFlags c a b bi = subtracted c a b bi := by
  simp only [subFlags, subtracted, withArith, withNZ, BitVec.msb_eq_toInt, beq_zero_eq, ← sub_overflow8, sub_result]
  congr 2
  rw [decide_eq_decide]; omega

theorem subFlags16_eq (c : CCR) (a b : Word) (bi : Bool) : subFlags c a b bi = subtracted c a b bi := by
  simp only [subFlags, subtracted, withArith, withNZ, BitVec.msb_eq_toInt, beq_zero_eq, ← sub_overflow16, sub_result]
  congr 2
  rw [decide_eq_decide]; omega

/-! ## One operand -/

theorem negFlags8_eq (c : CCR) (v : Byte) : negFlags c v = subtracted c 0#8 v false := by
  rw [← subFlags8_eq]
  have e : BitVec.ofInt 8 (((0#8 : Byte).toNat : Int) - v.toNat - (false.toNat : Int)) = -v := by
    apply BitVec.eq_of_toNat_eq
    have := v.isLt
    simp only [BitVec.toNat_ofInt, BitVec.toNat_neg]
    simp; omega
  simp only [subFlags, negFlags, e]
  have h := v.isLt
  congr 2
  · rw [Bool.eq_iff_iff]
    simp only [BitVec.msb_eq_decide, BitVec.toNat_neg, beq_iff_eq, ← BitVec.toNat_inj, BitVec.toNat_intMin, Bool.and_eq_true, bne_iff_ne, ne_eq,
      decide_eq_decide]
    simp; omega
  · rw [Bool.eq_iff_iff]
    simp only [bne_iff_ne, ne_eq, ← BitVec.toNat_inj, BitVec.toNat_neg]
    simp; omega

theorem negFlags16_eq (c : CCR) (v : Word) : negFlags c v = subtracted c 0#16 v false := by
  rw [← subFlags16_eq]
  have e : BitVec.ofInt 16 (((0#16 : Word).toNat : Int) - v.toNat - (false.toNat : Int)) = -v := by
    apply BitVec.eq_of_toNat_eq
    have := v.isLt
    simp only [BitVec.toNat_ofInt, BitVec.toNat_neg]
    simp; omega
  simp only [subFlags, negFlags, e]
  have h := v.isLt
  congr 2
  · rw [Bool.eq_iff_iff]
    simp only [BitVec.msb_eq_decide, BitVec.toNat_neg, beq_iff_eq, ← BitVec.toNat_inj, BitVec.toNat_intMin, Bool.and_eq_true, bne_iff_ne, ne_eq,
      decide_eq_decide]
    simp; omega
  · rw [Bool.eq_iff_iff]
    simp only [bne_iff_ne, ne_eq, ← BitVec.toNat_inj, BitVec.toNat_neg]
    simp; omega

theorem incFlags8_eq (c : CCR) (v : Byte) : incFlags c v = (v + 1#8, { (added c v 1#8 false).2 with c := c.c }) := by
  have e : BitVec.ofNat 8 (v.toNat + (1#8 : Byte).toNat + false.toNat) = v + 1#8 := by
    apply BitVec.eq_of_toNat_eq; simp
  have h := v.isLt
  simp only [incFlags, added, e, withArith, withNZ, BitVec.msb_eq_toInt, beq_zero_eq]
  congr 2
  rw [Bool.eq_iff_iff]
  simp only [beq_iff_eq, ← BitVec.toNat_inj, BitVec.toNat_intMax, signedFits, BitVec.toInt_eq_toNat_cond]
  split <;> simp <;> omega

theorem incFlags16_eq (c : CCR) (v : Word) : incFlags c v = (v + 1#16, { (added c v 1#16 false).2 with c := c.c }) := by
  have e : BitVec.ofNat 16 (v.toNat + (1#16 : Word).toNat + false.toNat) = v + 1#16 := by
    apply BitVec.eq_of_toNat_eq; simp
  have h := v.isLt
  simp only [incFlags, added, e, withArith, withNZ, BitVec.msb_eq_toInt, beq_zero_eq]
  congr 2
  rw [Bool.eq_iff_iff]
  simp only [beq_iff_eq, ← BitVec.toNat_inj, BitVec.toNat_intMax, signedFits, BitVec.toInt_eq_toNat_cond]
  split <;> simp <;> omega

theorem decFlags8_eq (c : CCR) (v : Byte) : decFlags c v = (v - 1#8, { (subtracted c v 1#8 false).2 with c := c.c }) := by
  have e : BitVec.ofInt 8 (v.toInt - (1#8 : Byte).toInt - (false.toNat : Int)) = v - 1#8 := by
    apply BitVec.eq_of_toInt_eq; simp [BitVec.toInt_sub]
  have h := v.isLt
  simp only [decFlags, subtracted, e, withArith, withNZ, BitVec.msb_eq_toInt, beq_zero_eq]
  congr 2
  rw [Bool.eq_iff_iff]
  simp only [beq_iff_eq, ← BitVec.toNat_inj, BitVec.toNat_intMin, signedFits, BitVec.toInt_eq_toNat_cond]
  split <;> simp <;> omega

theorem decFlags16_eq (c : CCR) (v : Word) : decFlags c v = (v - 1#16, { (subtracted c v 1#16 false).2 with c := c.c }) := by
  have e : BitVec.ofInt 16 (v.toInt - (1#16 : Word).toInt - (false.toNat : Int)) = v - 1#16 := by
    apply BitVec.eq_of_toInt_eq; simp [BitVec.toInt_sub]
  have h := v.isLt
  simp only [decFlags, subtracted, e, withArith, withNZ, BitVec.msb_eq_toInt, beq_zero_eq]
  congr 2
  rw [Bool.eq_iff_iff]
  simp only [beq_iff_eq, ← BitVec.toNat_inj, BitVec.toNat_intMin, signedFits, BitVec.toInt_eq_toNat_cond]
  split <;> simp <;> omega

theorem not_eq_ofNat {w : Nat} (v : BitVec w) : ~~~v = BitVec.ofNat w (2 ^ w - 1 - v.toNat) := by
  apply BitVec.eq_of_toNat_eq
  have := v.isLt
  rw [BitVec.toNat_not, BitVec.toNat_ofNat, Nat.mod_eq_of_lt (by omega)]

theorem comFlags_eq {w : Nat} (c : CCR) (v : BitVec w) :
    comFlags c v = (BitVec.ofNat w (2 ^ w - 1 - v.toNat), { withNZV c (BitVec.ofNat w (2 ^ w - 1 - v.toNat)) with c := true }) := by
  simp only [comFlags, flagsCom_eq, not_eq_ofNat]

/-! ## Shifts and rotates -/

theorem shiftFlags_eq {w : Nat} (c : CCR) (r : BitVec w) (out : Bool) : (r, shiftFlags c r out) = shifted c r out := by
  simp only [shiftFlags, shifted, withNZ, BitVec.msb_eq_toInt, beq_zero_eq]

theorem bit0_eq {w : Nat} (v : BitVec w) : v.getLsbD 0 = decide (v.toNat % 2 = 1) := by
  simp [BitVec.getLsbD, Nat.testBit_zero]

theorem lsrFlags_eq {w : Nat} (c : CCR) (v : BitVec w) : lsrFlags c v = shiftedLsr c v := by
  have e : v >>> 1 = BitVec.ofNat w (v.toNat / 2) := by
    apply BitVec.eq_of_toNat_eq
    have := v.isLt
    rw [BitVec.toNat_ushiftRight, Nat.shiftRight_eq_div_pow, BitVec.toNat_ofNat, Nat.mod_eq_of_lt (by omega), Nat.pow_one]
  simp only [lsrFlags, shiftFlags_eq, shiftedLsr, e, bit0_eq]

theorem aslFlags_eq {w : Nat} (c : CCR) (v : BitVec w) : aslFlags c v = shiftedAsl c v := by
  have e : v <<< 1 = BitVec.ofNat w (2 * v.toNat) := by
    apply BitVec.eq_of_toNat_eq
    rw [BitVec.toNat_shiftLeft, BitVec.toNat_ofNat, Nat.shiftLeft_eq, Nat.pow_one, Nat.mul_comm]
  simp only [aslFlags, shiftFlags_eq, shiftedAsl, e, BitVec.msb_eq_toInt]

theorem asrFlags_eq {w : Nat} (c : CCR) (v : BitVec w) : asrFlags c v = shiftedAsr c v := by
  have e : v.sshiftRight 1 = BitVec.ofInt w (v.toInt / 2) := by
    apply BitVec.eq_of_toInt_eq
    rw [BitVec.toInt_sshiftRight, Int.shiftRight_eq_div_pow, BitVec.toInt_ofInt]
    have h1 := BitVec.toInt_lt (x := v)
    have h2 := BitVec.le_toInt (x := v)
    rcases w with _ | w
    · have : v = 0#0 := BitVec.eq_nil v
      subst this; rfl
    · have hp : 0 < 2 ^ w := Nat.two_pow_pos w
      symm
      simp only [Nat.add_sub_cancel, Nat.pow_one] at h1 h2 ⊢
      apply Int.bmod_eq_of_le <;> push_cast <;> rw [Int.pow_succ] <;> omega
  simp only [asrFlags, shiftFlags_eq, shiftedAsr, e, bit0_eq]

theorem rolFlags8_eq (c : CCR) (v : Byte) : rolFlags c v = shiftedRol c v := by
  have e : (v <<< 1) ||| (BitVec.ofBool c.c).setWidth 8 = BitVec.ofNat 8 (2 * v.toNat + c.c.toNat) := by
    have h : ∀ (v : Byte) (b : Bool), (v <<< 1) ||| (BitVec.ofBool b).setWidth 8 = BitVec.ofNat 8 (2 * v.toNat + b.toNat) := by decide
    exact h v c.c
  simp only [rolFlags, shiftFlags_eq, shiftedRol, e, BitVec.msb_eq_toInt]

theorem rorFlags8_eq (c : CCR) (v : Byte) : rorFlags c v = shiftedRor c v := by
  have e : (v >>> 1) ||| ((BitVec.ofBool c.c).setWidth 8 <<< (8 - 1)) = BitVec.ofNat 8 (v.toNat / 2 + c.c.toNat * 2 ^ (8 - 1)) := by
    have h : ∀ (v : Byte) (b : Bool), (v >>> 1) ||| ((BitVec.ofBool b).setWidth 8 <<< (8 - 1)) = BitVec.ofNat 8 (v.toNat / 2 + b.toNat * 2 ^ (8 - 1)) := by decide
    exact h v c.c
  simp only [rorFlags, shiftFlags_eq, shiftedRor, e, bit0_eq]

theorem rol16_value (v : Word) (b : Bool) : (v <<< 1) ||| (BitVec.ofBool b).setWidth 16 = BitVec.ofNat 16 (2 * v.toNat + b.toNat) := by
  apply BitVec.eq_of_toNat_eq
  have h := v.isLt
  have hb := Bool.toNat_lt b
  have e : (v <<< 1).toNat = (v.toNat % 32768) <<< 1 := by
    rw [BitVec.toNat_shiftLeft, Nat.shiftLeft_eq, Nat.shiftLeft_eq]; omega
  have e2 : ((BitVec.ofBool b).setWidth 16).toNat = b.toNat := by cases b <;> rfl
  rw [BitVec.toNat_or, e, e2, ← Nat.shiftLeft_add_eq_or_of_lt (by omega), Nat.shiftLeft_eq, BitVec.toNat_ofNat]
  omega
theorem ror16_value (v : Word) (b : Bool) :
    (v >>> 1) ||| ((BitVec.ofBool b).setWidth 16 <<< (16 - 1)) = BitVec.ofNat 16 (v.toNat / 2 + b.toNat * 2 ^ (16 - 1)) := by
  apply BitVec.eq_of_toNat_eq
  have h := v.isLt
  have hb := Bool.toNat_lt b
  have e : (v >>> 1).toNat = v.toNat / 2 := by
    rw [BitVec.toNat_ushiftRight, Nat.shiftRight_eq_div_pow, Nat.pow_one]
  have e2 : ((BitVec.ofBool b).setWidth 16 <<< (16 - 1)).toNat = b.toNat <<< 15 := by cases b <;> rfl
  rw [BitVec.toNat_or, e, e2, Nat.or_comm, ← Nat.shiftLeft_add_eq_or_of_lt (by omega), Nat.shiftLeft_eq, BitVec.toNat_ofNat]
  omega

theorem rolFlags16_eq (c : CCR) (v : Word) : rolFlags c v = shiftedRol c v := by
  simp only [rolFlags, shiftFlags_eq, shiftedRol, rol16_value, BitVec.msb_eq_toInt]

theorem rorFlags16_eq (c : CCR) (v : Word) : rorFlags c v = shiftedRor c v := by
  simp only [rorFlags, shiftFlags_eq, shiftedRor, ror16_value, bit0_eq]

end Sys2Proof.Machine
end

