-- ==== Sys2Proof/Laws/Kept.lean ====
section
/-! SUPPORT. What any sequence of bus cycles leaves alone, whatever stands on the bus: one lemma for each operation that says everything it can have done to
the state. From these follow the statements about every instruction and every step. -/

namespace Sys2Proof.Machine

/-- Between `s` and `t` the platform and the inputs are the same, events were only appended, replies only used up, free values only drawn, memory kept its
canonical form and changed only in RAM, and, for the executing instruction's own stores, not inside its prefetch window. -/
structure Kept (own : Bool) (s t : State) : Prop where
  plat : t.plat = s.plat
  inputs : t.inputs = s.inputs
  events : ∃ es, t.events = s.events ++ es
  replies : ∃ rs, s.replies = rs ++ t.replies
  draws : s.draws ≤ t.draws
  wf : Memory.wf s.mem = true → Memory.wf t.mem = true
  ram : ∀ k, Memory.get t.mem k = Memory.get s.mem k ∨ ∃ a : Addr, k = a.toNat ∧ s.kindAt .data a = .ram
  window : own = true → ∀ a : Addr, s.inPrefetch a = true → Memory.get t.mem a.toNat = Memory.get s.mem a.toNat

/-- `t` is `s` after bus cycles and pushes or pulls: `Kept`, and every register but SK : SP is as it was. -/
structure Cycles (own : Bool) (s t : State) : Prop where
  kept : Kept own s t
  regs : t = { s with sk := t.sk, sp := t.sp, mem := t.mem, replies := t.replies, events := t.events, draws := t.draws }

theorem Kept.refl (own : Bool) (s : State) : Kept own s s :=
  ⟨rfl, rfl, ⟨[], by simp⟩, ⟨[], by simp⟩, Nat.le_refl _, id, fun _ => .inl rfl, fun _ _ _ => rfl⟩

theorem kindAt_of_plat {s t : State} (h : t.plat = s.plat) (sp : Space) (a : Addr) : t.kindAt sp a = s.kindAt sp a := by
  simp only [State.kindAt, State.mapSpace, h]

theorem inPrefetch_of {s t : State} (h : t.plat = s.plat) (hp : t.pc = s.pc) (a : Addr) : t.inPrefetch a = s.inPrefetch a := by
  simp only [State.inPrefetch, h, hp]

theorem Kept.trans {own : Bool} {s t u : State} (h : Kept own s t) (hpc : t.pc = s.pc) (g : Kept own t u) : Kept own s u where
  plat := g.plat.trans h.plat
  inputs := g.inputs.trans h.inputs
  events := by
    obtain ⟨e1, h1⟩ := h.events
    obtain ⟨e2, h2⟩ := g.events
    exact ⟨e1 ++ e2, by rw [h2, h1, List.append_assoc]⟩
  replies := by
    obtain ⟨e1, h1⟩ := h.replies
    obtain ⟨e2, h2⟩ := g.replies
    exact ⟨e1 ++ e2, by rw [h1, h2, List.append_assoc]⟩
  draws := Nat.le_trans h.draws g.draws
  wf := fun x => g.wf (h.wf x)
  ram := fun k => by
    rcases g.ram k with h1 | ⟨a, e, r⟩
    · rw [h1]; exact h.ram k
    · exact .inr ⟨a, e, by rw [← kindAt_of_plat h.plat]; exact r⟩
  window := fun ho a ha => by
    rw [g.window ho a (by rw [inPrefetch_of h.plat hpc]; exact ha), h.window ho a ha]

/-- Writing registers, drawing free values and going on elsewhere is `Kept`. -/
theorem Kept.of_regs (own : Bool) {s t : State} (h1 : t.plat = s.plat) (h2 : t.inputs = s.inputs) (h3 : t.events = s.events)
    (h4 : t.replies = s.replies) (h5 : s.draws ≤ t.draws) (h6 : t.mem = s.mem) : Kept own s t :=
  ⟨h1, h2, ⟨[], by simp [h3]⟩, ⟨[], by simp [h4]⟩, h5, by rw [h6]; exact id, fun _ => .inl (by rw [h6]), fun _ _ _ => by rw [h6]⟩

theorem Cycles.refl (own : Bool) (s : State) : Cycles own s s := ⟨Kept.refl own s, rfl⟩

theorem Cycles.pc {own : Bool} {s t : State} (h : Cycles own s t) : t.pc = s.pc := by rw [h.regs]
theorem Cycles.ccr {own : Bool} {s t : State} (h : Cycles own s t) : t.ccr = s.ccr := by rw [h.regs]
theorem Cycles.inhibit {own : Bool} {s t : State} (h : Cycles own s t) : t.inhibit = s.inhibit := by rw [h.regs]
theorem Cycles.run {own : Bool} {s t : State} (h : Cycles own s t) : t.run = s.run := by rw [h.regs]

theorem Cycles.trans {own : Bool} {s t u : State} (h : Cycles own s t) (g : Cycles own t u) : Cycles own s u :=
  ⟨h.kept.trans h.pc g.kept, by rw [g.regs, h.regs]⟩

/-- What holds of the state a bus sequence ends in, with or without a bus error; it is refused only for a store into the prefetch window. -/
def Bus.Sat {α : Type} (own : Bool) (x : Bus α) (P : State → Prop) : Prop :=
  match x with
  | .ok _ t => P t
  | .berr t => P t
  | .refused r => own = true ∧ r = .storeIntoPrefetch

theorem Bus.Sat.bind {α β : Type} {own : Bool} {x : Bus α} {f : α → State → Bus β} {P Q : State → Prop} (hx : x.Sat own P)
    (hf : ∀ v t, P t → (f v t).Sat own Q) (hb : ∀ t, P t → Q t) : (x.bind f).Sat own Q := by
  cases x with
  | ok v t => exact hf v t hx
  | berr t => exact hb t hx
  | refused r => exact hx

theorem Bus.Sat.mono {α : Type} {own : Bool} {x : Bus α} {P Q : State → Prop} (hx : x.Sat own P) (h : ∀ t, P t → Q t) : x.Sat own Q := by
  cases x with
  | ok v t => exact h t hx
  | berr t => exact h t hx
  | refused r => exact hx

/-- Bus sequences one after the other. -/
theorem Bus.Sat.cycles {α β : Type} {own : Bool} {s : State} {x : Bus α} {f : α → State → Bus β} (hx : x.Sat own (Cycles own s))
    (hf : ∀ v t, (f v t).Sat own (Cycles own t)) : (x.bind f).Sat own (Cycles own s) :=
  hx.bind (fun v t ht => (hf v t).mono fun _ hu => ht.trans hu) fun _ ht => ht

/-! ## Cycles -/

theorem emit_cycles (own : Bool) (s : State) (e : HostEvent) : Cycles own s (s.emit e) :=
  ⟨⟨rfl, rfl, ⟨[e], rfl⟩, ⟨[], rfl⟩, Nat.le_refl _, id, fun _ => .inl rfl, fun _ _ _ => rfl⟩, rfl⟩

theorem drew_cycles (own : Bool) (s : State) (n : Nat) : Cycles own s (s.drew n) :=
  ⟨Kept.of_regs own rfl rfl rfl rfl (Nat.le_add_right _ _) rfl, rfl⟩

theorem deviceRead_sat (own : Bool) (s : State) (sp : Space) (a : Addr) (wide : Bool) : (deviceRead s sp a wide).Sat own (Cycles own s) := by
  unfold deviceRead
  have e : (s.emit (.deviceRead sp a wide)).replies = s.replies := rfl
  simp only [e]
  cases hr : s.replies with
  | nil =>
    exact ⟨⟨rfl, rfl, ⟨_, rfl⟩, ⟨[], rfl⟩, Nat.le_add_right _ _, id, fun _ => .inl rfl, fun _ _ _ => rfl⟩, rfl⟩
  | cons r rest =>
    cases r with
    | data v => exact ⟨⟨rfl, rfl, ⟨_, rfl⟩, ⟨[.data v], hr⟩, Nat.le_refl _, id, fun _ => .inl rfl, fun _ _ _ => rfl⟩, rfl⟩
    | busError => exact ⟨⟨rfl, rfl, ⟨_, rfl⟩, ⟨[.busError], hr⟩, Nat.le_refl _, id, fun _ => .inl rfl, fun _ _ _ => rfl⟩, rfl⟩

theorem deviceWrite_sat (own : Bool) (s : State) (a : Addr) (wide : Bool) (v : Word) : (deviceWrite s a wide v).Sat own (Cycles own s) := by
  unfold deviceWrite
  have e : (s.emit (.deviceWrite a wide v)).replies = s.replies := rfl
  simp only [e]
  cases hr : s.replies with
  | nil => exact emit_cycles own s _
  | cons r rest =>
    cases r with
    | data v => exact ⟨⟨rfl, rfl, ⟨_, rfl⟩, ⟨[.data v], hr⟩, Nat.le_refl _, id, fun _ => .inl rfl, fun _ _ _ => rfl⟩, rfl⟩
    | busError => exact ⟨⟨rfl, rfl, ⟨_, rfl⟩, ⟨[.busError], hr⟩, Nat.le_refl _, id, fun _ => .inl rfl, fun _ _ _ => rfl⟩, rfl⟩

theorem read8_sat (own : Bool) (s : State) (sp : Space) (a : Addr) : (read8 s sp a).Sat own (Cycles own s) := by
  unfold read8
  split
  · exact Cycles.refl own s
  · exact Cycles.refl own s
  · exact (deviceRead_sat own s sp a false).cycles fun _ t => Cycles.refl own t
  · exact Cycles.refl own s
  · exact drew_cycles own s 1

theorem readAligned_sat (own : Bool) (s : State) (sp : Space) (a : Addr) : (readAligned s sp a).Sat own (Cycles own s) := by
  unfold readAligned
  split
  · exact Cycles.refl own s
  · exact Cycles.refl own s
  · exact deviceRead_sat own s sp a true
  · exact Cycles.refl own s
  · exact drew_cycles own s 1

theorem read16_sat (own : Bool) (s : State) (sp : Space) (a : Addr) : (read16 s sp a).Sat own (Cycles own s) := by
  unfold read16
  split
  · exact (read8_sat own s sp a).cycles fun _ t => (read8_sat own t sp _).cycles fun _ u => Cycles.refl own u
  · exact readAligned_sat own s sp a

theorem putByte_cycles (own : Bool) (s : State) (a : Addr) (v : Byte) (hr : s.kindAt .data a = .ram)
    (hw : own = true → s.inPrefetch a = false) : Cycles own s (s.putByte a v) := by
  refine ⟨⟨rfl, rfl, ⟨[], by simp⟩, ⟨[], by simp⟩, Nat.le_refl _, ?_, ?_, ?_⟩, rfl⟩
  · exact Memory.wf_set s.mem _ v (State.key_lt s .data a)
  · intro k
    by_cases h : k = a.toNat
    · exact .inr ⟨a, h, hr⟩
    · exact .inl (State.putByte_get s a v k h)
  · intro ho b hb
    apply State.putByte_get
    intro e
    have : b = a := BitVec.eq_of_toNat_eq e
    rw [this, hw ho] at hb
    exact Bool.noConfusion hb

theorem write8_sat (own : Bool) (s : State) (a : Addr) (v : Byte) : (write8 own s a v).Sat own (Cycles own s) := by
  unfold write8
  by_cases hc : (own && s.inPrefetch a) = true
  · rw [if_pos hc]
    exact ⟨(Bool.and_eq_true _ _ ▸ hc).1, rfl⟩
  · rw [if_neg hc]
    split
    · rename_i hr
      refine putByte_cycles own s a v hr fun ho => ?_
      simpa [ho] using hc
    · exact emit_cycles own s _
    · exact deviceWrite_sat own s a _ _
    · exact Cycles.refl own s
    · exact Cycles.refl own s

/-- Both bytes of a word that moves in one cycle are of one kind. -/
theorem kindAt_succ (s : State) (sp : Space) (a : Addr) (h : s.bytewise sp a = false) : s.kindAt sp (a + 1#20) = s.kindAt sp a := by
  simp only [State.bytewise, Bool.or_eq_false_iff, bne_eq_false_iff_eq] at h
  exact h.2.symm

theorem writeAligned_sat (own : Bool) (s : State) (a : Addr) (v : Word) (he : s.bytewise .data a = false) :
    (writeAligned own s a v).Sat own (Cycles own s) := by
  unfold writeAligned
  by_cases hc : (own && (s.inPrefetch a || s.inPrefetch (a + 1#20))) = true
  · rw [if_pos hc]
    exact ⟨(Bool.and_eq_true _ _ ▸ hc).1, rfl⟩
  · rw [if_neg hc]
    split
    · rename_i hr
      have h0 : own = true → s.inPrefetch a = false := fun ho => by
        simp only [ho, Bool.true_and, Bool.or_eq_true, not_or, Bool.not_eq_true] at hc
        exact hc.1
      have h1 : own = true → s.inPrefetch (a + 1#20) = false := fun ho => by
        simp only [ho, Bool.true_and, Bool.or_eq_true, not_or, Bool.not_eq_true] at hc
        exact hc.2
      have c1 := putByte_cycles own s a (v.extractLsb' 8 8) hr h0
      have hr' : (s.putByte a (v.extractLsb' 8 8)).kindAt .data (a + 1#20) = .ram := by
        rw [State.putByte_kindAt, kindAt_succ s .data a he]; exact hr
      exact c1.trans (putByte_cycles own _ (a + 1#20) (v.extractLsb' 0 8) hr' h1)
    · exact emit_cycles own s _
    · exact deviceWrite_sat own s a _ _
    · exact Cycles.refl own s
    · exact Cycles.refl own s

theorem write16_sat (own : Bool) (s : State) (a : Addr) (v : Word) : (write16 own s a v).Sat own (Cycles own s) := by
  unfold write16
  split
  · exact (write8_sat own s a _).cycles fun _ t => write8_sat own t _ _
  · rename_i h
    exact writeAligned_sat own s a v (by simpa using h)

/-! ## Stack -/

theorem withSP20_cycles (own : Bool) (s : State) (v : Addr) : Cycles own s (s.withSP20 v) :=
  ⟨Kept.of_regs own rfl rfl rfl rfl (Nat.le_refl _) rfl, rfl⟩

theorem push16_sat (own : Bool) (s : State) (v : Word) : (push16 own s v).Sat own (Cycles own s) :=
  (write16_sat own s _ v).cycles fun _ t => withSP20_cycles own t _

theorem pull16_sat (own : Bool) (s : State) : (pull16 s).Sat own (Cycles own s) :=
  (read16_sat own _ .data _).mono fun _ h => (withSP20_cycles own s _).trans h

theorem push8_sat (s : State) (v : Byte) : (push8 s v).Sat true (Cycles true s) :=
  Bus.Sat.mono ((write8_sat true (s.withSP20 (s.sp20 + 1#20)) _ v).cycles fun _ t => withSP20_cycles true t _) fun _ h =>
    (withSP20_cycles true s _).trans h

theorem pull8_sat (own : Bool) (s : State) : (pull8 s).Sat own (Cycles own s) :=
  Bus.Sat.mono ((read8_sat own (s.withSP20 (s.sp20 + 2#20)) .data _).cycles fun _ t => withSP20_cycles own t _) fun _ h =>
    (withSP20_cycles own s _).trans h

theorem pushFrame_sat (own : Bool) (s : State) (ret : Addr) : (pushFrame own s ret).Sat own (Cycles own s) :=
  (push16_sat own s _).cycles fun _ t => push16_sat own t _

theorem pullFrame_sat (own : Bool) (s : State) : (pullFrame s).Sat own (Cycles own s) :=
  (pull16_sat own s).cycles fun _ t => (pull16_sat own t).cycles fun _ u => Cycles.refl own u

/-! ## Where a bus error came from -/

/-- A sequence that ends in a bus error met an address that can fail and satisfies `W`. -/
def Bus.From {α : Type} (s : State) (x : Bus α) (W : Addr → Prop) : Prop := ∀ t, x = .berr t → ∃ a, s.mayFail a ∧ W a

theorem deviceRead_berr {s t : State} {sp : Space} {a : Addr} {wide : Bool} (h : deviceRead s sp a wide = .berr t) : DevReply.busError ∈ s.replies := by
  unfold deviceRead at h
  have e : (s.emit (.deviceRead sp a wide)).replies = s.replies := rfl
  simp only [e] at h
  cases hr : s.replies with
  | nil => rw [hr] at h; cases h
  | cons r rest =>
    rw [hr] at h
    cases r with
    | data v => cases h
    | busError => simp

theorem deviceWrite_berr {s t : State} {a : Addr} {wide : Bool} {v : Word} (h : deviceWrite s a wide v = .berr t) : DevReply.busError ∈ s.replies := by
  unfold deviceWrite at h
  have e : (s.emit (.deviceWrite a wide v)).replies = s.replies := rfl
  simp only [e] at h
  cases hr : s.replies with
  | nil => rw [hr] at h; cases h
  | cons r rest =>
    rw [hr] at h
    cases r with
    | data v => cases h
    | busError => simp

theorem read8_from (s : State) (a : Addr) : (read8 s .data a).From s (· = a) := by
  intro t h
  unfold read8 at h
  cases hk : s.kindAt .data a <;> simp only [hk] at h
  case ram => cases h
  case rom => cases h
  case openBus => cases h
  case unmapped => exact ⟨a, .inl hk, rfl⟩
  case device =>
    refine ⟨a, .inr ⟨hk, ?_⟩, rfl⟩
    cases hd : deviceRead s .data a false with
    | ok v u => rw [hd] at h; cases h
    | berr u => exact deviceRead_berr hd
    | refused r => rw [hd] at h; cases h

theorem write8_from (own : Bool) (s : State) (a : Addr) (v : Byte) : (write8 own s a v).From s (· = a) := by
  intro t h
  unfold write8 at h
  split at h
  · cases h
  · cases hk : s.kindAt .data a <;> simp only [hk] at h
    case ram => cases h
    case rom => cases h
    case openBus => cases h
    case unmapped => exact ⟨a, .inl hk, rfl⟩
    case device => exact ⟨a, .inr ⟨hk, deviceWrite_berr h⟩, rfl⟩

theorem mayFail_of_kept {own : Bool} {s t : State} (h : Kept own s t) {a : Addr} (g : t.mayFail a) : s.mayFail a := by
  obtain ⟨rs, hr⟩ := h.replies
  rcases g with g | ⟨g, m⟩
  · exact .inl ((kindAt_of_plat h.plat .data a).symm.trans g)
  · exact .inr ⟨(kindAt_of_plat h.plat .data a).symm.trans g, by rw [hr]; exact List.mem_append_right _ m⟩

theorem Bus.From.bind {α β : Type} {own : Bool} {s : State} {x : Bus α} {f : α → State → Bus β} {W : Addr → Prop} (hx : x.From s W)
    (hs : x.Sat own (Kept own s)) (hf : ∀ v t, Kept own s t → x = .ok v t → (f v t).From t W) : (x.bind f).From s W := by
  intro t h
  cases x with
  | ok v u =>
    obtain ⟨a, ha, w⟩ := hf v u hs rfl t h
    exact ⟨a, mayFail_of_kept hs ha, w⟩
  | berr u => exact hx u rfl
  | refused r => cases h

theorem Bus.From.mono {α : Type} {s : State} {x : Bus α} {W V : Addr → Prop} (hx : x.From s W) (h : ∀ a, W a → V a) : x.From s V :=
  fun t e => let ⟨a, ha, w⟩ := hx t e; ⟨a, ha, h a w⟩

/-- A bus error on a word comes from one of its bytes. -/
theorem read16_from (s : State) (a : Addr) : (read16 s .data a).From s fun b => b ∈ [a, a + 1#20] := by
  unfold read16
  split
  · refine Bus.From.bind (own := false) ((read8_from s a).mono fun b h => by simp [h]) ((read8_sat false s .data a).mono fun _ h => h.kept) ?_
    intro v t _ _
    refine Bus.From.bind (own := false) ((read8_from t _).mono fun b h => by simp [h]) ((read8_sat false t .data _).mono fun _ h => h.kept) ?_
    intro w u _ _ x hx
    cases hx
  · intro t h
    unfold readAligned at h
    cases hk : s.kindAt .data a <;> simp only [hk] at h
    case ram => cases h
    case rom => cases h
    case openBus => cases h
    case unmapped => exact ⟨a, .inl hk, by simp⟩
    case device => exact ⟨a, .inr ⟨hk, deviceRead_berr h⟩, by simp⟩

theorem write16_from (own : Bool) (s : State) (a : Addr) (v : Word) : (write16 own s a v).From s fun b => b ∈ [a, a + 1#20] := by
  unfold write16
  split
  · refine Bus.From.bind (own := own) ((write8_from own s a _).mono fun b h => by simp [h]) ((write8_sat own s a _).mono fun _ h => h.kept) ?_
    intro _ t _ _
    exact (write8_from own t _ _).mono fun b h => by simp [h]
  · intro t h
    unfold writeAligned at h
    split at h
    · cases h
    · cases hk : s.kindAt .data a <;> simp only [hk] at h
      case ram => cases h
      case rom => cases h
      case openBus => cases h
      case unmapped => exact ⟨a, .inl hk, by simp⟩
      case device => exact ⟨a, .inr ⟨hk, deviceWrite_berr h⟩, by simp⟩

theorem deviceWrite_sp (own : Bool) (s : State) (a : Addr) (wide : Bool) (v : Word) : (deviceWrite s a wide v).Sat own fun t => t.sp20 = s.sp20 := by
  unfold deviceWrite
  have e : (s.emit (.deviceWrite a wide v)).replies = s.replies := rfl
  simp only [e]
  cases s.replies with
  | nil => exact rfl
  | cons r rest => cases r <;> exact rfl

theorem write8_sp (own : Bool) (s : State) (a : Addr) (v : Byte) : (write8 own s a v).Sat own fun t => t.sp20 = s.sp20 := by
  unfold write8
  by_cases hc : (own && s.inPrefetch a) = true
  · rw [if_pos hc]
    exact ⟨(Bool.and_eq_true _ _ ▸ hc).1, rfl⟩
  · rw [if_neg hc]
    split
    · exact rfl
    · exact rfl
    · exact deviceWrite_sp own s a _ _
    · exact rfl
    · exact rfl

/-- A store leaves SK : SP. -/
theorem write16_sp (own : Bool) (s : State) (a : Addr) (v : Word) : (write16 own s a v).Sat own fun t => t.sp20 = s.sp20 := by
  unfold write16
  split
  · exact (write8_sp own s a _).bind (fun _ t ht => (write8_sp own t _ _).mono fun _ hu => hu.trans ht) fun _ ht => ht
  · unfold writeAligned
    by_cases hc : (own && (s.inPrefetch a || s.inPrefetch (a + 1#20))) = true
    · rw [if_pos hc]
      exact ⟨(Bool.and_eq_true _ _ ▸ hc).1, rfl⟩
    · rw [if_neg hc]
      split
      · exact rfl
      · exact rfl
      · exact deviceWrite_sp own s a _ _
      · exact rfl
      · exact rfl

/-- A push that ends in a bus error leaves SK : SP where it could not store. -/
theorem push16_from (own : Bool) (s t : State) (v : Word) (h : push16 own s v = .berr t) : ∃ a, s.mayFail a ∧ a ∈ [t.sp20, t.sp20 + 1#20] := by
  unfold push16 at h
  have hs := write16_sp own s s.sp20 v
  cases hx : write16 own s s.sp20 v with
  | ok x u => rw [hx] at h; cases h
  | refused r => rw [hx] at h; cases h
  | berr u =>
    rw [hx] at h hs
    cases h
    have e : t.sp20 = s.sp20 := hs
    obtain ⟨a, ha, w⟩ := write16_from own s s.sp20 v t hx
    exact ⟨a, ha, by rw [e]; exact w⟩

theorem pushFrame_from (own : Bool) (s t : State) (ret : Addr) (h : pushFrame own s ret = .berr t) : ∃ a, s.mayFail a ∧ a ∈ [t.sp20, t.sp20 + 1#20] := by
  unfold pushFrame at h
  have hs := push16_sat own s (ret.extractLsb' 0 16)
  cases hx : push16 own s (ret.extractLsb' 0 16) with
  | ok x u =>
    rw [hx] at h hs
    obtain ⟨a, ha, w⟩ := push16_from own u t _ h
    exact ⟨a, mayFail_of_kept (Cycles.kept hs) ha, w⟩
  | refused r => rw [hx] at h; cases h
  | berr u =>
    rw [hx] at h
    cases h
    exact push16_from own s t _ hx

/-! ## Exceptions -/

theorem evenAddr_even (a : Addr) : (evenAddr a).getLsbD 0 = false := by
  simp [evenAddr]

/-- What taking an exception can have done: bus cycles, then either the handler is reached (pc even, running, latch clear, IP raised for an interrupt) or the
machine has halted where it was, by a bus error on the word about to be pushed or on the vector. No register but SK : SP and no other flag changes. -/
structure Took (own : Bool) (n : Byte) (level : Option (BitVec 3)) (s t : State) : Prop where
  kept : Kept own s t
  regs : t = { s with
    sk := t.sk, sp := t.sp, mem := t.mem, replies := t.replies, events := t.events, draws := t.draws
    pc := t.pc, run := t.run, inhibit := t.inhibit, ccr := t.ccr }
  flags : t.ccr = { s.ccr with ip := t.ccr.ip }
  mask : level = none → t.ccr.ip = s.ccr.ip
  halts : t.run = .halted → ∃ a, s.mayFail a ∧ (a ∈ [t.sp20, t.sp20 + 1#20] ∨ a ∈ [vectorAddr n, vectorAddr n + 1#20])
  reached : (t.run = .running ∧ t.inhibit = false ∧ t.pc.getLsbD 0 = false) ∨ (t.run = .halted ∧ t.inhibit = false ∧ t.pc = s.pc)

theorem acknowledge_kept (own : Bool) (s : State) (level : Option (BitVec 3)) : Kept own s (acknowledge s level) := by
  cases level with
  | none => exact Kept.refl own s
  | some l => exact ⟨rfl, rfl, ⟨_, rfl⟩, ⟨[], rfl⟩, Nat.le_refl _, id, fun _ => .inl rfl, fun _ _ _ => rfl⟩

theorem acknowledge_regs (s : State) (level : Option (BitVec 3)) :
    acknowledge s level = { s with ccr := { s.ccr with ip := level.getD s.ccr.ip }, events := (acknowledge s level).events } := by
  cases level <;> rfl

/-- Taking an exception, whatever stands on the bus. -/
theorem enterException_sat (own : Bool) (s : State) (n : Byte) (resume : Addr) (level : Option (BitVec 3)) :
    match enterException own s n resume level with
    | .next t => Took own n level s t
    | .fault _ => False
    | .refused r => own = true ∧ r = .storeIntoPrefetch := by
  unfold enterException exceptionSequence State.halt
  have hp := pushFrame_sat own s (resume + 6#20)
  cases hx0 : pushFrame own s (resume + 6#20) with
  | refused r => rw [hx0] at hp; exact hp
  | berr t =>
    rw [hx0] at hp
    have h : Cycles own s t := hp
    refine ⟨h.kept.trans h.pc (Kept.of_regs own rfl rfl rfl rfl (Nat.le_refl _) rfl), ?_, ?_, fun _ => ?_,
      fun _ => let ⟨a, ha, w⟩ := pushFrame_from own s t _ hx0; ⟨a, ha, .inl w⟩, .inr ⟨rfl, rfl, h.pc⟩⟩
    · rw [h.regs]
    · show t.ccr = _
      rw [h.ccr]
    · show t.ccr.ip = _
      rw [h.ccr]
  | ok x t =>
    rw [hx0] at hp
    have h : Cycles own s t := hp
    have ha := acknowledge_kept own t level
    have hr := acknowledge_regs t level
    simp only [Bus.bind_ok]
    generalize acknowledge t level = a at ha hr
    have hv := read16_sat own a .data (vectorAddr n)
    have hpa : a.pc = t.pc := by rw [hr]
    have hc : a.ccr = { s.ccr with ip := level.getD s.ccr.ip } := by rw [hr, h.ccr]
    cases hx : read16 a .data (vectorAddr n) with
    | refused r => rw [hx] at hv; exact hv
    | berr u =>
      rw [hx] at hv
      have g : Cycles own a u := hv
      refine ⟨?_, ?_, ?_, fun hl => ?_, fun _ => ?_, .inr ⟨rfl, rfl, ?_⟩⟩
      · exact ((h.kept.trans h.pc ha).trans (hpa.trans h.pc) g.kept).trans (g.pc.trans (hpa.trans h.pc))
          (Kept.of_regs own rfl rfl rfl rfl (Nat.le_refl _) rfl)
      · rw [g.regs, hr, h.regs]
      · show u.ccr = _
        rw [g.ccr, hc]
      · show u.ccr.ip = _
        rw [g.ccr, hc, hl]; rfl
      · obtain ⟨b, hb, hm⟩ := read16_from a (vectorAddr n) u hx
        exact ⟨b, mayFail_of_kept h.kept (mayFail_of_kept ha hb), .inr hm⟩
      · show u.pc = _
        rw [g.pc, hpa, h.pc]
    | ok w u =>
      rw [hx] at hv
      have g : Cycles own a u := hv
      refine ⟨?_, ?_, ?_, fun hl => ?_, fun e => (nomatch e), .inl ⟨rfl, rfl, evenAddr_even _⟩⟩
      · exact ((h.kept.trans h.pc ha).trans (hpa.trans h.pc) g.kept).trans (g.pc.trans (hpa.trans h.pc))
          (Kept.of_regs own rfl rfl rfl rfl (Nat.le_refl _) rfl)
      · rw [g.regs, hr, h.regs]
      · show u.ccr = _
        rw [g.ccr, hc]
      · show u.ccr.ip = _
        rw [g.ccr, hc, hl]; rfl

/-- The exception of a bus error, whatever stands on the bus. -/
theorem busError_sat (s : State) :
    match busError s with
    | .next t => Took true s.plat.vecBerr none s t
    | .fault _ => False
    | .refused r => true = true ∧ r = .storeIntoPrefetch := enterException_sat true s _ _ none

/-! ## The shapes of meanings -/

/-- What holds of the next state an instruction gives; it stops only by refusing a store into its prefetch window. -/
def Answers (o : Out) (Q : State → Prop) : Prop :=
  match o with
  | .next t => Q t
  | .fault _ => False
  | .refused r => r = .storeIntoPrefetch

/-- The two ends of a bus sequence told apart: complete, or cut off by a bus error. -/
def Bus.Ends {α : Type} (x : Bus α) (PO PE : State → Prop) : Prop :=
  match x with
  | .ok _ t => PO t
  | .berr t => PE t
  | .refused r => r = .storeIntoPrefetch

theorem Bus.Sat.ends {α : Type} {own : Bool} {x : Bus α} {P PO PE : State → Prop} (hx : x.Sat own P) (ho : ∀ t, P t → PO t) (he : ∀ t, P t → PE t) :
    x.Ends PO PE := by
  cases x with
  | ok v t => exact ho t hx
  | berr t => exact he t hx
  | refused r => exact hx.2

theorem Bus.Sat.bindEnds {α β : Type} {own : Bool} {x : Bus α} {f : α → State → Bus β} {P PO PE : State → Prop} (hx : x.Sat own P)
    (hf : ∀ v t, P t → (f v t).Ends PO PE) (he : ∀ t, P t → PE t) : (x.bind f).Ends PO PE := by
  cases x with
  | ok v t => exact hf v t hx
  | berr t => exact he t hx
  | refused r => exact hx.2

theorem Bus.Ends.bind {α β : Type} {x : Bus α} {f : α → State → Bus β} {P PE PO : State → Prop} (hx : x.Ends P PE)
    (hf : ∀ v t, P t → (f v t).Ends PO PE) : (x.bind f).Ends PO PE := by
  cases x with
  | ok v t => exact hf v t hx
  | berr t => exact hx
  | refused r => exact hx

/-- A meaning that ends in `commit`: complete, or the bus error exception is taken from where the sequence was cut off. -/
theorem commit_answers {x : Bus Unit} {Q PE : State → Prop} (hx : x.Ends Q PE) (he : ∀ t u, PE t → Took true t.plat.vecBerr none t u → Q u) : Answers (commit x) Q := by
  cases x with
  | ok v t => exact hx
  | berr t =>
    have h := busError_sat t
    show Answers (busError t) Q
    unfold Answers
    cases hb : busError t with
    | next u => rw [hb] at h; exact he t u hx h
    | fault f => rw [hb] at h; exact h
    | refused r => rw [hb] at h; exact h.2
  | refused r => exact hx

/-- An exception the instruction itself takes. -/
theorem enterException_answers (s : State) (n : Byte) (resume : Addr) {Q : State → Prop} (h : ∀ t, Took true n none s t → Q t) :
    Answers (enterException true s n resume none) Q := by
  have g := enterException_sat true s n resume none
  unfold Answers
  cases hb : enterException true s n resume none with
  | next u => rw [hb] at g; exact h u g
  | fault f => rw [hb] at g; exact g
  | refused r => rw [hb] at g; exact g.2

section shapes

variable {s : State} {Q : State → Prop} (hb : ∀ t u, Cycles true s t → Took true t.plat.vecBerr none t u → Q u)
include hb

theorem useOperand_answers {α : Type} {x : Bus α} {len : Nat} {f : State → α → State} (hx : x.Sat true (Cycles true s))
    (hf : ∀ v t, Cycles true s t → Q ((f t v).advance len)) : Answers (useOperand x len f) Q :=
  commit_answers (hx.bindEnds (fun v t ht => hf v t ht) fun _ ht => ht) hb

theorem storeByte_answers {ea : Addr} {v : Byte} {len : Nat}
    (hf : ∀ t, Cycles true s t → Q ((t.withCCR (flagsNZV t.ccr v)).advance len)) : Answers (storeByte s ea v len) Q :=
  commit_answers ((write8_sat true s ea v).bindEnds (fun _ t ht => hf t ht) fun _ ht => ht) hb

theorem storeWord_answers {ea : Addr} {v : Word} {len : Nat}
    (hf : ∀ t, Cycles true s t → Q ((t.withCCR (flagsNZV t.ccr v)).advance len)) : Answers (storeWord s ea v len) Q :=
  commit_answers ((write16_sat true s ea v).bindEnds (fun _ t ht => hf t ht) fun _ ht => ht) hb

theorem clearByte_answers {ea : Addr} {len : Nat}
    (hf : ∀ t, Cycles true s t → Q ((t.withCCR (flagsClr t.ccr)).advance len)) : Answers (clearByte s ea len) Q :=
  commit_answers ((write8_sat true s ea 0).bindEnds (fun _ t ht => hf t ht) fun _ ht => ht) hb

theorem clearWord_answers {ea : Addr} {len : Nat}
    (hf : ∀ t, Cycles true s t → Q ((t.withCCR (flagsClr t.ccr)).advance len)) : Answers (clearWord s ea len) Q :=
  commit_answers ((write16_sat true s ea 0).bindEnds (fun _ t ht => hf t ht) fun _ ht => ht) hb

theorem modifyByte_answers {ea : Addr} {len : Nat} {f : CCR → Byte → Byte × CCR}
    (hf : ∀ v c t, Cycles true s t → Q ((t.withCCR (f c v).2).advance len)) : Answers (modifyByte s ea len f) Q :=
  commit_answers ((read8_sat true s .data ea).bindEnds
    (fun v t ht => (write8_sat true t ea _).bindEnds (fun _ u hu => hf v u.ccr u (ht.trans hu)) fun _ hu => ht.trans hu) fun _ ht => ht) hb

theorem modifyWord_answers {ea : Addr} {len : Nat} {f : CCR → Word → Word × CCR}
    (hf : ∀ v c t, Cycles true s t → Q ((t.withCCR (f c v).2).advance len)) : Answers (modifyWord s ea len f) Q :=
  commit_answers ((read16_sat true s .data ea).bindEnds
    (fun v t ht => (write16_sat true t ea _).bindEnds (fun _ u hu => hf v u.ccr u (ht.trans hu)) fun _ hu => ht.trans hu) fun _ ht => ht) hb

theorem moveByte_answers {src dst : Addr} {post : State → State} {len : Nat}
    (hf : ∀ (v : Byte) t, Cycles true s t → Q (((post t).withCCR (flagsNZV t.ccr v)).advance len)) : Answers (moveByte s src dst post len) Q :=
  commit_answers ((read8_sat true s .data src).bindEnds
    (fun v t ht => (write8_sat true t dst _).bindEnds (fun _ u hu => hf v u (ht.trans hu)) fun _ hu => ht.trans hu) fun _ ht => ht) hb

theorem moveWord_answers {src dst : Addr} {post : State → State} {len : Nat}
    (hf : ∀ (v : Word) t, Cycles true s t → Q (((post t).withCCR (flagsNZV t.ccr v)).advance len)) : Answers (moveWord s src dst post len) Q :=
  commit_answers ((read16_sat true s .data src).bindEnds
    (fun v t ht => (write16_sat true t dst _).bindEnds (fun _ u hu => hf v u (ht.trans hu)) fun _ hu => ht.trans hu) fun _ ht => ht) hb

theorem bitBranch_answers {o : BitBranch} {cond : Byte → Bool}
    (hf : ∀ t, Cycles true s t → Q (t.jump (t.pcx + bitOffset o)) ∧ Q (t.advance o.length)) : Answers (bitBranch s o cond) Q :=
  commit_answers ((read8_sat true s .data (eaBit s o)).bindEnds
    (fun v t ht => by
      show Q (if cond v then t.jump (t.pcx + bitOffset o) else t.advance o.length)
      cases cond v
      · exact (hf t ht).2
      · exact (hf t ht).1) fun _ ht => ht) hb

theorem call_answers {ret target : Addr} (hf : ∀ t, Cycles true s t → Q (t.jump target)) : Answers (call s ret target) Q :=
  commit_answers ((pushFrame_sat true s ret).bindEnds (fun _ t ht => hf t ht) fun _ ht => ht) hb

end shapes

section count

variable {s : State} {Q : State → Prop} (hb : ∀ t u, Cycles true s t → Took true t.plat.vecBerr none t u → Q u)
  (hc : ∀ c t u w, Cycles true s t → Cycles true (t.withCCR c) u → Took true u.plat.vecBerr none u w → Q w)
include hb hc

/-- INC and DEC of a byte: a bus error of the write finds the flags already written. -/
theorem countByte_answers {ea : Addr} {len : Nat} {f : CCR → Byte → Byte × CCR}
    (hf : ∀ c t u, Cycles true s t → Cycles true (t.withCCR c) u → Q (u.advance len)) : Answers (countByte s ea len f) Q := by
  refine commit_answers (PE := fun u => Cycles true s u ∨ ∃ c t, Cycles true s t ∧ Cycles true (t.withCCR c) u) ?_ ?_
  · exact (read8_sat true s .data ea).bindEnds
      (fun v t ht => (write8_sat true (t.withCCR (f t.ccr v).2) ea _).bindEnds (fun _ u hu => hf _ t u ht hu) fun _ hu => .inr ⟨_, t, ht, hu⟩)
      fun _ ht => .inl ht
  · rintro u w (h | ⟨c, t, h, g⟩) hw
    · exact hb u w h hw
    · exact hc c t u w h g hw

/-- INC and DEC of a word. -/
theorem countWord_answers {ea : Addr} {len : Nat} {f : CCR → Word → Word × CCR}
    (hf : ∀ c t u, Cycles true s t → Cycles true (t.withCCR c) u → Q (u.advance len)) : Answers (countWord s ea len f) Q := by
  refine commit_answers (PE := fun u => Cycles true s u ∨ ∃ c t, Cycles true s t ∧ Cycles true (t.withCCR c) u) ?_ ?_
  · exact (read16_sat true s .data ea).bindEnds
      (fun v t ht => (write16_sat true (t.withCCR (f t.ccr v).2) ea _).bindEnds (fun _ u hu => hf _ t u ht hu) fun _ hu => .inr ⟨_, t, ht, hu⟩)
      fun _ ht => .inl ht
  · rintro u w (h | ⟨c, t, h, g⟩) hw
    · exact hb u w h hw
    · exact hc c t u w h g hw

end count

theorem operand8_sat (own : Bool) (s : State) (o : Src8) : (operand8 s o).Sat own (Cycles own s) := by
  cases o with
  | imm8 ii => exact Cycles.refl own s
  | mem m => exact read8_sat own s .data _

theorem operandD_sat (own : Bool) (s : State) (o : SrcD) : (operandD s o).Sat own (Cycles own s) := by
  cases o with
  | imm16 w => exact Cycles.refl own s
  | mem m => exact read16_sat own s .data _

theorem operandDI_sat (own : Bool) (s : State) (o : SrcDI) : (operandDI s o).Sat own (Cycles own s) := by
  cases o with
  | imm8 ii => exact Cycles.refl own s
  | imm16 w => exact Cycles.refl own s
  | mem m => exact read16_sat own s .data _

theorem operandE_sat (own : Bool) (s : State) (o : SrcE) : (operandE s o).Sat own (Cycles own s) := by
  cases o with
  | imm16 w => exact Cycles.refl own s
  | mem m => exact read16_sat own s .data _

theorem operandEI_sat (own : Bool) (s : State) (o : SrcEI) : (operandEI s o).Sat own (Cycles own s) := by
  cases o with
  | imm8 ii => exact Cycles.refl own s
  | imm16 w => exact Cycles.refl own s
  | mem m => exact read16_sat own s .data _

theorem operandX_sat (own : Bool) (s : State) (o : SrcX) : (operandX s o).Sat own (Cycles own s) := by
  cases o with
  | imm16 w => exact Cycles.refl own s
  | mem m => exact read16_sat own s .data _

end Sys2Proof.Machine
end

