-- ==== Sys2Proof/Laws/Operands.lean ====
section
/-! SUPPORT. What operand reads and the shapes that families of instructions share answer where plain memory is in their way, and the address arithmetic of the
claims: one lemma for each operation. -/

namespace Sys2Proof.Machine

/-! ## Addresses -/

theorem pcPlus_eq (s : State) (n : Nat) : s.pc + BitVec.ofNat 20 n = s.pcPlus n := by
  apply BitVec.eq_of_toNat_eq
  simp [State.pcPlus]

theorem advance_eq (s : State) (n : Nat) : s.advance n = { s with pc := s.pcPlus n } := by
  rw [← pcPlus_eq]; rfl

/-- Signed addition to an address is addition of integers modulo 2^20. -/
theorem add_signExtend {w : Nat} (a : Addr) (x : BitVec w) (hw : w ≤ 20) : a + x.signExtend 20 = BitVec.ofInt 20 (a.toNat + x.toInt) := by
  apply BitVec.eq_of_toInt_eq
  rw [BitVec.toInt_add, BitVec.toInt_signExtend, BitVec.toInt_ofInt, Nat.min_eq_right hw]
  have h : (x.toInt).bmod (2 ^ w) = x.toInt := BitVec.toInt_bmod_cancel x
  rw [h, BitVec.toInt_eq_toNat_bmod, Int.bmod_add_bmod]

theorem add_unsigned {w : Nat} (a : Addr) (x : BitVec w) (hw : w ≤ 20) : a + x.setWidth 20 = BitVec.ofInt 20 (a.toNat + x.toNat) := by
  apply BitVec.eq_of_toNat_eq
  have hx : x.toNat < 2 ^ 20 := Nat.lt_of_lt_of_le x.isLt (Nat.pow_le_pow_right (by decide) hw)
  rw [BitVec.toNat_add, BitVec.toNat_setWidth, BitVec.toNat_ofInt, Nat.mod_eq_of_lt hx]
  omega

theorem roundedDown_ofInt (t : Int) : roundedDown (BitVec.ofInt 20 t) = BitVec.ofInt 20 (t / 2 * 2) := by
  apply BitVec.eq_of_toNat_eq
  simp only [roundedDown, BitVec.toNat_ofInt, BitVec.toNat_ofNat]
  omega

/-- The target of a relative branch or call. -/
theorem relative_eq {w : Nat} (s : State) (x : BitVec w) (hw : w ≤ 20) : evenAddr (s.pcx + x.signExtend 20) = s.relative x.toInt := by
  have h : s.pcx + x.signExtend 20 = BitVec.ofInt 20 (s.pc.toNat + 6 + x.toInt) := by
    rw [add_signExtend _ _ hw]
    apply BitVec.eq_of_toNat_eq
    simp only [State.pcx, BitVec.toNat_ofInt, BitVec.toNat_add, BitVec.toNat_ofNat]
    omega
  rw [evenAddr_eq, h, roundedDown_ofInt]
  rfl

theorem imm20_eq8 (a : Addr) (ii : Byte) : a + imm20 (.imm8 ii) = BitVec.ofInt 20 (a.toNat + ii.toInt) := add_signExtend a ii (by decide)

theorem imm20_eq16 (a : Addr) (w : Word) : a + imm20 (.imm16 w) = BitVec.ofInt 20 (a.toNat + w.toInt) := add_signExtend a w (by decide)

/-! ## Operands -/

theorem operand8_ready (s : State) (o : Src8) (h : ready8 s o = true) : operand8 s o = .ok (value8 s o) s := by
  cases o with
  | imm8 ii => rfl
  | mem m => exact read8_ready s .data _ h

theorem operandD_ready (s : State) (o : SrcD) (h : readyD s o = true) : operandD s o = .ok (valueD s o) s := by
  cases o with
  | imm16 w => rfl
  | mem m => exact read16_ready s .data _ h

theorem operandDI_ready (s : State) (o : SrcDI) (h : readyDI s o = true) : operandDI s o = .ok (valueDI s o) s := by
  cases o with
  | imm8 ii => rfl
  | imm16 w => rfl
  | mem m => exact read16_ready s .data _ h

theorem operandE_ready (s : State) (o : SrcE) (h : readyE s o = true) : operandE s o = .ok (valueE s o) s := by
  cases o with
  | imm16 w => rfl
  | mem m => exact read16_ready s .data _ h

theorem operandEI_ready (s : State) (o : SrcEI) (h : readyEI s o = true) : operandEI s o = .ok (valueEI s o) s := by
  cases o with
  | imm8 ii => rfl
  | imm16 w => rfl
  | mem m => exact read16_ready s .data _ h

theorem operandX_ready (s : State) (o : SrcX) (h : readyX s o = true) : operandX s o = .ok (valueX s o) s := by
  cases o with
  | imm16 w => rfl
  | mem m => exact read16_ready s .data _ h

/-! ## Shapes -/

theorem useOperand_ready {α : Type} {x : Bus α} {s : State} {v : α} (len : Nat) (f : State → α → State) (h : x = .ok v s) :
    useOperand x len f = .next ((f s v).advance len) := by
  subst h; rfl

theorem storeByte_ready (s : State) (ea : Addr) (v : Byte) (len : Nat) (h : s.canWrite8 ea = true) :
    storeByte s ea v len = .next (((s.putByte ea v).withCCR (flagsNZV s.ccr v)).advance len) := by
  simp [storeByte, write8_ready true s ea v h, commit]

theorem storeWord_ready (s : State) (ea : Addr) (v : Word) (len : Nat) (h : s.canWrite16 ea = true) :
    storeWord s ea v len = .next (((s.putWord ea v).withCCR (flagsNZV s.ccr v)).advance len) := by
  simp [storeWord, write16_ready true s ea v h, commit]

theorem clearByte_ready (s : State) (ea : Addr) (len : Nat) (h : s.canWrite8 ea = true) :
    clearByte s ea len = .next (((s.putByte ea 0#8).withCCR (flagsClr s.ccr)).advance len) := by
  simp [clearByte, write8_ready true s ea _ h, commit]

theorem clearWord_ready (s : State) (ea : Addr) (len : Nat) (h : s.canWrite16 ea = true) :
    clearWord s ea len = .next (((s.putWord ea 0#16).withCCR (flagsClr s.ccr)).advance len) := by
  simp [clearWord, write16_ready true s ea _ h, commit]

theorem modifyByte_ready (s : State) (ea : Addr) (len : Nat) (f : CCR → Byte → Byte × CCR) (h : s.canWrite8 ea = true) :
    modifyByte s ea len f =
      .next (((s.putByte ea (f s.ccr (s.byteAt .data ea)).1).withCCR (f s.ccr (s.byteAt .data ea)).2).advance len) := by
  simp [modifyByte, read8_ready s .data ea (canWrite8_readable s ea h), write8_ready true s ea _ h, commit]

theorem modifyWord_ready (s : State) (ea : Addr) (len : Nat) (f : CCR → Word → Word × CCR) (h : s.canWrite16 ea = true) :
    modifyWord s ea len f =
      .next (((s.putWord ea (f s.ccr (s.wordAt .data ea)).1).withCCR (f s.ccr (s.wordAt .data ea)).2).advance len) := by
  simp [modifyWord, read16_ready s .data ea (canWrite16_readable s ea h), write16_ready true s ea _ h, commit]

theorem countByte_ready (s : State) (ea : Addr) (len : Nat) (f : CCR → Byte → Byte × CCR) (h : s.canWrite8 ea = true) :
    countByte s ea len f =
      .next (((s.putByte ea (f s.ccr (s.byteAt .data ea)).1).withCCR (f s.ccr (s.byteAt .data ea)).2).advance len) := by
  have h' : (s.withCCR (f s.ccr (s.byteAt .data ea)).2).canWrite8 ea = true := h
  simp only [countByte, read8_ready s .data ea (canWrite8_readable s ea h), Bus.bind_ok, write8_ready true _ ea _ h', commit]
  rfl

theorem countWord_ready (s : State) (ea : Addr) (len : Nat) (f : CCR → Word → Word × CCR) (h : s.canWrite16 ea = true) :
    countWord s ea len f =
      .next (((s.putWord ea (f s.ccr (s.wordAt .data ea)).1).withCCR (f s.ccr (s.wordAt .data ea)).2).advance len) := by
  have h' : (s.withCCR (f s.ccr (s.wordAt .data ea)).2).canWrite16 ea = true := h
  simp only [countWord, read16_ready s .data ea (canWrite16_readable s ea h), Bus.bind_ok, write16_ready true _ ea _ h', commit]
  rfl

theorem moveByte_ready (s : State) (src dst : Addr) (post : State → State) (len : Nat) (hr : s.canRead8 .data src = true)
    (hw : s.canWrite8 dst = true) :
    moveByte s src dst post len =
      .next (((post (s.putByte dst (s.byteAt .data src))).withCCR (flagsNZV s.ccr (s.byteAt .data src))).advance len) := by
  simp [moveByte, read8_ready s .data src hr, write8_ready true s dst _ hw, commit]

theorem moveWord_ready (s : State) (src dst : Addr) (post : State → State) (len : Nat) (hr : s.canRead16 .data src = true)
    (hw : s.canWrite16 dst = true) :
    moveWord s src dst post len =
      .next (((post (s.putWord dst (s.wordAt .data src))).withCCR (flagsNZV s.ccr (s.wordAt .data src))).advance len) := by
  simp [moveWord, read16_ready s .data src hr, write16_ready true s dst _ hw, commit]

theorem bitBranch_ready (s : State) (o : BitBranch) (cond : Byte → Bool) (h : s.canRead8 .data (eaBit s o) = true) :
    bitBranch s o cond = .next (if cond (s.byteAt .data (eaBit s o)) then s.jump (s.pcx + bitOffset o) else s.advance o.length) := by
  simp [bitBranch, read8_ready s .data _ h, commit]

theorem call_ready (s : State) (ret target : Addr) (h : s.canPushFrame = true) : call s ret target = .next ((s.framed ret).jump target) := by
  simp [call, pushFrame_ready true s ret h, commit]

/-- From the next state of a byte store to what the claims say of it. -/
theorem storesByte_of {i : Instr} {s : State} {ea : Addr} {v : Byte} {c : CCR} {n : Nat}
    (h : exec i s = .next (((s.putByte ea v).withCCR c).advance n)) : storesByte i s ea v c n :=
  ⟨_, h, by simp only [advance_eq, State.withCCR, State.putByte, State.pcPlus], wroteBytes_congr rfl rfl (wroteBytes_putByte s ea v)⟩

/-- From the next state of a word store to what the claims say of it. -/
theorem storesWord_of {i : Instr} {s : State} {ea : Addr} {v : Word} {c : CCR} {n : Nat}
    (h : exec i s = .next (((s.putWord ea v).withCCR c).advance n)) : storesWord i s ea v c n :=
  ⟨_, h, by simp only [advance_eq, State.withCCR, State.putWord, State.putByte, State.pcPlus], wroteWords_congr rfl rfl (wroteWords_putWord s ea v)⟩

end Sys2Proof.Machine
end

