-- ==== Sys2Proof/Laws/Device.lean ====
section
/-! SUPPORT. What one cycle of a device answers for each reply the outside may have given, and what an access answers where nothing answers it and no bus error
comes: one lemma for each access and reply. -/

namespace Sys2Proof.Machine

/-- The state after a device cycle: the event shown, the replies still to come. -/
def State.cycled (s : State) (e : HostEvent) (rest : List DevReply) : State := { s with replies := rest, events := s.events ++ [e] }

@[simp] theorem State.cycled_kindAt (s : State) (e : HostEvent) (rest : List DevReply) (p : Space) (y : Addr) :
    (s.cycled e rest).kindAt p y = s.kindAt p y := rfl
@[simp] theorem State.cycled_inPrefetch (s : State) (e : HostEvent) (rest : List DevReply) (y : Addr) :
    (s.cycled e rest).inPrefetch y = s.inPrefetch y := rfl
@[simp] theorem State.cycled_replies (s : State) (e : HostEvent) (rest : List DevReply) : (s.cycled e rest).replies = rest := rfl
@[simp] theorem State.cycled_events (s : State) (e : HostEvent) (rest : List DevReply) : (s.cycled e rest).events = s.events ++ [e] := rfl
@[simp] theorem State.cycled_mem (s : State) (e : HostEvent) (rest : List DevReply) : (s.cycled e rest).mem = s.mem := rfl
@[simp] theorem State.cycled_ccr (s : State) (e : HostEvent) (rest : List DevReply) : (s.cycled e rest).ccr = s.ccr := rfl

section cycles

variable (s : State) (sp : Space) (a : Addr) (wide : Bool)

theorem deviceRead_data (v : Word) (rest : List DevReply) (h : s.replies = .data v :: rest) :
    deviceRead s sp a wide = .ok v (s.cycled (.deviceRead sp a wide) rest) := by
  have h' : (s.emit (.deviceRead sp a wide)).replies = .data v :: rest := h
  simp only [deviceRead, h']
  rfl

theorem deviceRead_error (rest : List DevReply) (h : s.replies = .busError :: rest) :
    deviceRead s sp a wide = .berr (s.cycled (.deviceRead sp a wide) rest) := by
  have h' : (s.emit (.deviceRead sp a wide)).replies = .busError :: rest := h
  simp only [deviceRead, h']
  rfl

theorem deviceRead_free (h : s.replies = []) :
    deviceRead s sp a wide = .ok (s.draw 0 16) ((s.cycled (.deviceRead sp a wide) s.replies).drew 1) := by
  have h' : (s.emit (.deviceRead sp a wide)).replies = [] := h
  simp only [deviceRead, h']
  rfl

theorem deviceWrite_data (v w : Word) (rest : List DevReply) (h : s.replies = .data w :: rest) :
    deviceWrite s a wide v = .ok () (s.cycled (.deviceWrite a wide v) rest) := by
  have h' : (s.emit (.deviceWrite a wide v)).replies = .data w :: rest := h
  simp only [deviceWrite, h']
  rfl

theorem deviceWrite_error (v : Word) (rest : List DevReply) (h : s.replies = .busError :: rest) :
    deviceWrite s a wide v = .berr (s.cycled (.deviceWrite a wide v) rest) := by
  have h' : (s.emit (.deviceWrite a wide v)).replies = .busError :: rest := h
  simp only [deviceWrite, h']
  rfl

theorem deviceWrite_free (v : Word) (h : s.replies = []) : deviceWrite s a wide v = .ok () (s.cycled (.deviceWrite a wide v) s.replies) := by
  have h' : (s.emit (.deviceWrite a wide v)).replies = [] := h
  simp only [deviceWrite, h']
  rfl

theorem read8_device (h : s.kindAt sp a = .device) : read8 s sp a = (deviceRead s sp a false).bind fun v s => .ok (v.extractLsb' 0 8) s := by
  simp only [read8, h]

theorem write8_device (v : Byte) (h : s.kindAt .data a = .device) (hp : s.inPrefetch a = false) :
    write8 true s a v = deviceWrite s a false (v.setWidth 16) := by
  simp only [write8, h, hp, Bool.and_false, Bool.false_eq_true, if_false]

/-- A word whose two bytes stand in a device, at an even address: one cycle. -/
theorem read16_device_even (h : s.kindAt sp a = .device) (h2 : s.kindAt sp (a + 1#20) = .device) (he : a.getLsbD 0 = false) :
    read16 s sp a = deviceRead s sp a true := by
  have hb : s.bytewise sp a = false := by simp only [State.bytewise, he, h, h2]; rfl
  simp only [read16, hb, readAligned, h, Bool.false_eq_true, if_false]

theorem write16_device_even (v : Word) (h : s.kindAt .data a = .device) (h2 : s.kindAt .data (a + 1#20) = .device) (he : a.getLsbD 0 = false)
    (hp : s.inPrefetch a = false) (hp2 : s.inPrefetch (a + 1#20) = false) : write16 true s a v = deviceWrite s a true v := by
  have hb : s.bytewise .data a = false := by simp only [State.bytewise, he, h, h2]; rfl
  simp only [write16, hb, writeAligned, h, hp, hp2, Bool.or_self, Bool.and_false, Bool.false_eq_true, if_false]

/-- A word at an odd address, or whose bytes are of two kinds: two byte accesses, the high byte first. -/
theorem read16_bytewise (h : s.bytewise sp a = true) :
    read16 s sp a = (read8 s sp a).bind fun h s => (read8 s sp (a + 1#20)).bind fun l s => .ok (h ++ l) s := by
  simp only [read16, h, if_true]

theorem write16_bytewise (own : Bool) (v : Word) (h : s.bytewise .data a = true) :
    write16 own s a v = (write8 own s a (v.extractLsb' 8 8)).bind fun _ s => write8 own s (a + 1#20) (v.extractLsb' 0 8) := by
  simp only [write16, h, if_true]

theorem read8_open (h : s.kindAt sp a = .openBus) : read8 s sp a = .ok (s.draw 0 8) (s.drew 1) := by
  simp only [read8, h]

theorem write8_open (v : Byte) (h : s.kindAt .data a = .openBus) (hp : s.inPrefetch a = false) : write8 true s a v = .ok () s := by
  simp only [write8, h, hp, Bool.and_false, Bool.false_eq_true, if_false]

/-- A word that nothing answers: one free value at an even address, one for each byte at an odd one. -/
theorem read16_open (h : s.kindAt sp a = .openBus) (h2 : s.kindAt sp (a + 1#20) = .openBus) :
    ∃ v, read16 s sp a = .ok v (s.drew (if a.getLsbD 0 = true then 2 else 1)) := by
  cases ho : a.getLsbD 0 with
  | true =>
    have hb : s.bytewise sp a = true := by simp only [State.bytewise, ho]; rfl
    rw [read16_bytewise s sp a hb, read8_open s sp a h, Bus.bind_ok, read8_open (s.drew 1) sp (a + 1#20) h2, Bus.bind_ok]
    exact ⟨_, rfl⟩
  | false =>
    have hb : s.bytewise sp a = false := by simp only [State.bytewise, ho, h, h2]; rfl
    simp only [read16, hb, readAligned, h, Bool.false_eq_true, if_false]
    exact ⟨_, rfl⟩

theorem write16_open (v : Word) (h : s.kindAt .data a = .openBus) (h2 : s.kindAt .data (a + 1#20) = .openBus) (hp : s.inPrefetch a = false)
    (hp2 : s.inPrefetch (a + 1#20) = false) : write16 true s a v = .ok () s := by
  cases ho : a.getLsbD 0 with
  | true =>
    have hb : s.bytewise .data a = true := by simp only [State.bytewise, ho]; rfl
    rw [write16_bytewise s a true v hb, write8_open s a _ h hp, Bus.bind_ok, write8_open s (a + 1#20) _ h2 hp2]
  | false =>
    have hb : s.bytewise .data a = false := by simp only [State.bytewise, ho, h, h2]; rfl
    simp only [write16, hb, writeAligned, h, hp, hp2, Bool.or_self, Bool.and_false, Bool.false_eq_true, if_false]

end cycles

end Sys2Proof.Machine
end

