-- ==== Sys2Proof/Laws/Lost.lean ====
section
/-! SUPPORT. What the bus and stack operations answer where nothing answers the core: one lemma for each operation. -/

namespace Sys2Proof.Machine

/-! ## Accesses that nothing answers -/

theorem read8_lost (s : State) (sp : Space) (a : Addr) (h : s.lostRead sp a = true) : read8 s sp a = .berr s := by
  simp only [State.lostRead, beq_iff_eq] at h
  simp [read8, h]

theorem read16_lost (s : State) (sp : Space) (a : Addr) (h : s.lostRead sp a = true) : read16 s sp a = .berr s := by
  unfold read16
  by_cases hb : s.bytewise sp a
  · simp [hb, read8_lost s sp a h]
  · simp only [State.lostRead, beq_iff_eq] at h
    simp [hb, readAligned, h]

theorem write8_lost (s : State) (a : Addr) (v : Byte) (h : s.lostWrite8 a = true) : write8 true s a v = .berr s := by
  simp only [State.lostWrite8, Bool.and_eq_true, beq_iff_eq, Bool.not_eq_true'] at h
  simp [write8, h.1, h.2]

theorem write16_lost (s : State) (a : Addr) (v : Word) (h : s.lostWrite16 a = true) : write16 true s a v = .berr s := by
  simp only [State.lostWrite16, Bool.and_eq_true, Bool.not_eq_true'] at h
  unfold write16
  by_cases hb : s.bytewise .data a
  · simp [hb, write8_lost s a _ h.1]
  · have h1 := h.1
    simp only [State.lostWrite8, Bool.and_eq_true, beq_iff_eq, Bool.not_eq_true'] at h1
    simp [hb, writeAligned, h1.1, h1.2, h.2]

/-- The first byte of a word is stored, nothing answers the second. -/
theorem write16_half (s : State) (a : Addr) (v : Word) (h1 : s.canWrite8 a = true) (h2 : s.lostWrite8 (a + 1#20) = true) :
    write16 true s a v = .berr (s.putByte a (v.extractLsb' 8 8)) := by
  have hk1 : s.kindAt .data a = .ram := by
    simp only [State.canWrite8, Bool.and_eq_true, beq_iff_eq] at h1
    exact h1.1
  have hk2 : s.kindAt .data (a + 1#20) = .unmapped := by
    simp only [State.lostWrite8, Bool.and_eq_true, beq_iff_eq] at h2
    exact h2.1
  have hb : s.bytewise .data a = true := by simp [State.bytewise, hk1, hk2]
  have h2' : (s.putByte a (v.extractLsb' 8 8)).lostWrite8 (a + 1#20) = true := h2
  simp [write16, hb, write8_ready true s a _ h1, write8_lost _ _ _ h2']

/-! ## Stack -/

theorem push16_lost (s : State) (v : Word) (h : s.lostWrite16 s.sp20 = true) : push16 true s v = .berr s := by
  simp [push16, write16_lost s _ v h]

theorem pull16_lost (s : State) (h : s.lostRead .data (s.sp20 + 2#20) = true) : pull16 s = .berr (s.withSP20 (s.sp20 + 2#20)) := by
  have h' : (s.withSP20 (s.sp20 + 2#20)).lostRead .data (s.sp20 + 2#20) = true := h
  simp [pull16, read16_lost _ _ _ h']

theorem push8_lost (s : State) (v : Byte) (h : s.lostWrite8 (s.sp20 + 1#20) = true) : push8 s v = .berr (s.withSP20 (s.sp20 + 1#20)) := by
  have h' : (s.withSP20 (s.sp20 + 1#20)).lostWrite8 (s.sp20 + 1#20) = true := h
  simp [push8, write8_lost _ _ v h']

theorem pull8_lost (s : State) (h : s.lostRead .data (s.sp20 + 2#20) = true) : pull8 s = .berr (s.withSP20 (s.sp20 + 2#20)) := by
  have h' : (s.withSP20 (s.sp20 + 2#20)).lostRead .data (s.sp20 + 2#20) = true := h
  simp [pull8, read8_lost _ _ _ h']

/-- Nothing answers the second push of a frame. -/
theorem pushFrame_half (s : State) (ret : Addr) (h1 : s.canWrite16 s.sp20 = true) (h2 : s.lostWrite16 (s.sp20 - 2#20) = true) :
    pushFrame true s ret = .berr ((s.putWord s.sp20 (ret.extractLsb' 0 16)).withSP20 (s.sp20 - 2#20)) := by
  have h2' : ((s.putWord s.sp20 (ret.extractLsb' 0 16)).withSP20 (s.sp20 - 2#20)).lostWrite16
      ((s.putWord s.sp20 (ret.extractLsb' 0 16)).withSP20 (s.sp20 - 2#20)).sp20 = true := by
    simpa [State.lostWrite16, State.lostWrite8] using h2
  simp [pushFrame, push16_ready true s _ h1, push16_lost _ _ h2']

theorem pushAddr_zero (s : State) : s.pushAddr 0 = s.sp20 := by simp [State.pushAddr]

theorem pushAddr_succ (s : State) (k : Nat) : s.pushAddr (k + 1) = s.pushAddr k - 2#20 := by
  have h : BitVec.ofNat 20 (2 * (k + 1)) = BitVec.ofNat 20 (2 * k) + 2#20 := by
    rw [Nat.mul_add, BitVec.ofNat_add]
  simp only [State.pushAddr, h]
  bv_omega

/-- One push. -/
theorem pushedWords_one (s : State) (v : Word) : pushedWords s ((s.putWord s.sp20 v).withSP20 (s.sp20 - 2#20)) [v] := by
  have e : s.pushAddr 1 = s.sp20 - 2#20 := rfl
  refine ⟨by simp only [List.length_singleton, e, State.withSP20, State.putWord, State.putByte], ?_⟩
  have h := wroteWords_putWord s s.sp20 v
  simpa [pushAddr_zero] using wroteWords_congr (s' := s) (t' := (s.putWord s.sp20 v).withSP20 (s.sp20 - 2#20)) rfl rfl h

end Sys2Proof.Machine
end

