-- ==== Sys2Proof/Laws/Mac.lean ====
section
/-! SUPPORT. The multiply and accumulate unit's shared operations as facts about integers: one lemma for each operation. -/

namespace Sys2Proof.Machine

theorem bothMinusOne_eq (h i : Word) : bothMinusOne h i = decide (h.toInt = -32768 ∧ i.toInt = -32768) := by
  have m : ∀ w : Word, (w == 0x8000#16) = decide (w.toInt = -32768) := by
    intro w
    rw [Bool.eq_iff_iff, beq_iff_eq, decide_eq_true_eq, ← BitVec.toInt_inj]
    rfl
  simp only [bothMinusOne, m, Bool.decide_and]

theorem evTest_eq (r : Acc36) : evTest r = !signedFits 32 r.toInt := by
  have h := r.isLt
  rw [Bool.eq_iff_iff]
  simp only [evTest, bne_iff_ne, ne_eq, ← BitVec.toNat_inj, BitVec.extractLsb'_toNat, signedFits, BitVec.toInt_eq_toNat_cond, Bool.not_eq_true',
    Bool.and_eq_true, Bool.and_eq_false_iff, decide_eq_false_iff_not, Nat.shiftRight_eq_div_pow]
  simp
  split <;> omega

theorem ovf36_eq (t : Int) : ovf36 t = !signedFits 36 t := by
  rw [Bool.eq_iff_iff]
  simp [ovf36, signedFits]

/-- All that an addition into AM does. -/
theorem macAdd_eq (s : State) (x : Int) :
    macAdd s x =
      { s with
        am := BitVec.ofInt 36 (s.am.toInt + x)
        sl := if signedFits 36 (s.am.toInt + x) = false ∧ s.ccr.mv = false then decide (s.am.toInt + x < 0) else s.sl
        ccr :=
          { s.ccr with
            mv := s.ccr.mv || !signedFits 36 (s.am.toInt + x)
            ev := !signedFits 32 (BitVec.ofInt 36 (s.am.toInt + x)).toInt } } := by
  simp only [macAdd, ovf36_eq, evTest_eq]
  congr 1
  by_cases h : signedFits 36 (s.am.toInt + x) <;> by_cases h' : s.ccr.mv <;> simp [h, h']

theorem satValue_eq (mv sl : Bool) (r : Acc36) :
    satValue mv sl r = if (if mv = true then sl = true else r.toInt < 0) then 0x8000#16 else 0x7FFF#16 := by
  cases mv <;> simp [satValue, BitVec.msb_eq_toInt]

/-- AM[31:16] is AM divided by 2^16, rounded down. -/
theorem am_upper (x : Acc36) : x.extractLsb' 16 16 = BitVec.ofInt 16 (x.toInt / 65536) := by
  have h := x.isLt
  apply BitVec.eq_of_toNat_eq
  simp only [BitVec.toInt_eq_toNat_cond, BitVec.extractLsb'_toNat, Nat.shiftRight_eq_div_pow, BitVec.toNat_ofInt]
  simp
  split <;> omega

/-- TMER's rounding: the nearest multiple of 2^16, ties to the even one. -/
theorem roundAM_eq (am : Acc36) :
    roundAM am =
      65536 * (if am.toInt % 65536 < 32768 then am.toInt / 65536
        else if 32768 < am.toInt % 65536 then am.toInt / 65536 + 1 else am.toInt / 65536 + am.toInt / 65536 % 2) := by
  have h := am.isLt
  have e : (am.extractLsb' 0 16 : Word).toNat = am.toNat % 65536 := by simp [BitVec.extractLsb'_toNat]
  have e2 : am.getLsbD 16 = decide (am.toNat / 65536 % 2 = 1) := by rw [BitVec.getLsbD, Nat.testBit_eq_decide_div_mod_eq]
  simp only [roundAM, e, e2, BitVec.toInt_eq_toNat_cond]
  simp only [Bool.or_eq_true, Bool.and_eq_true, decide_eq_true_eq]
  split <;> split <;> split <;> (try split) <;> omega

/-! ## The frame of PSHMAC -/

theorem Slot.place_getLsbD {w : Nat} (p : Slot) (k : Nat) (v : BitVec w) (i : Nat) :
    (p.place k v).getLsbD i = (decide (p.word = k) && decide (i < 16) && decide (p.lo ≤ i) && v.getLsbD (i - p.lo)) := by
  unfold Slot.place
  by_cases h : p.word = k
  · by_cases hi : i < 16
    · by_cases hl : p.lo ≤ i
      · have h2 : ¬ i < p.lo := by omega
        simp [h, hi, hl, h2]
      · have h2 : i < p.lo := by omega
        simp [h, hl, h2]
    · simp [h, hi]
  · simp [h]

/-- A field placed in a word comes back from it. -/
theorem Slot.place_own {w : Nat} (p : Slot) (v : BitVec w) (j : Nat) (hw : p.lo + w ≤ 16) (hj : j < w) :
    (p.place p.word v).getLsbD (p.lo + j) = v.getLsbD j := by
  have h1 : p.lo + j < 16 := by omega
  have h2 : p.lo + j - p.lo = j := by omega
  rw [Slot.place_getLsbD, h2]
  simp [h1]

/-- A field apart from another holds no bit of it. -/
theorem Slot.place_other {w v : Nat} (p q : Slot) (x : BitVec v) (j : Nat) (hj : j < w)
    (h : p.word ≠ q.word ∨ p.lo + w ≤ q.lo ∨ q.lo + v ≤ p.lo) : (q.place p.word x).getLsbD (p.lo + j) = false := by
  rw [Slot.place_getLsbD]
  by_cases hq : q.word = p.word
  · rcases h with h | h | h
    · exact absurd hq.symm h
    · have : ¬ q.lo ≤ p.lo + j := by omega
      simp [this]
    · rw [BitVec.getLsbD_of_ge _ _ (by omega : v ≤ p.lo + j - q.lo)]
      simp
  · simp [hq]

/-- Each field of a frame that fits stands in one of its words. -/
theorem MacFrame.fits_words (f : MacFrame) (h : f.fits = true) :
    f.words < 2 ^ 19 ∧ ∀ p ∈ [f.hr, f.ir, f.amLow, f.amMid, f.amHigh, f.sl, f.xmsk, f.ymsk], p.word < f.words := by
  simp only [MacFrame.fits, Bool.and_eq_true, decide_eq_true_eq, List.all_cons, List.all_nil] at h
  obtain ⟨⟨h0, ⟨a1, -⟩, ⟨a2, -⟩, ⟨a3, -⟩, ⟨a4, -⟩, ⟨a5, -⟩, ⟨a6, -⟩, ⟨a7, -⟩, ⟨a8, -⟩, -⟩, -⟩ := h
  refine ⟨h0, fun p hp => ?_⟩
  simp only [List.mem_cons, List.not_mem_nil, or_false] at hp
  rcases hp with rfl | rfl | rfl | rfl | rfl | rfl | rfl | rfl <;> assumption

theorem macFrame_length (s : State) : (macFrame s).length = s.plat.macFrame.words := by simp [macFrame]

theorem macFrame_getD (s : State) (k : Nat) (h : k < s.plat.macFrame.words) : (macFrame s).getD k 0 = macFrameWord s k := by
  simp [macFrame, List.getD, h]

/-- A field read out of a word, as numbers. -/
theorem Slot.take_toNat {w : Nat} (p : Slot) (x : Word) (old v : BitVec w) (h : p.take p.word x old = v) : x.toNat / 2 ^ p.lo % 2 ^ w = v.toNat := by
  rw [← h]
  simp [Slot.take, Nat.shiftRight_eq_div_pow]

/-- AM is the sum of its three pieces. -/
theorem am_sum (x : Acc36) :
    x.toNat = (x.extractLsb' 32 4).toNat * 4294967296 + (x.extractLsb' 16 16).toNat * 65536 + (x.extractLsb' 0 16).toNat := by
  have := x.isLt
  simp only [BitVec.extractLsb'_toNat, Nat.shiftRight_eq_div_pow]
  omega

/-- Each field of a frame that fits is read back from its word. -/
theorem macFrameWord_take (s : State) (h : s.plat.macFrame.fits = true) :
    let f := s.plat.macFrame
    (∀ old, f.hr.take f.hr.word (macFrameWord s f.hr.word) old = s.hr) ∧
    (∀ old, f.ir.take f.ir.word (macFrameWord s f.ir.word) old = s.ir) ∧
    (∀ old, f.amLow.take f.amLow.word (macFrameWord s f.amLow.word) old = (s.am.extractLsb' 0 16 : Word)) ∧
    (∀ old, f.amMid.take f.amMid.word (macFrameWord s f.amMid.word) old = (s.am.extractLsb' 16 16 : Word)) ∧
    (∀ old, f.amHigh.take f.amHigh.word (macFrameWord s f.amHigh.word) old = (s.am.extractLsb' 32 4 : Nib)) ∧
    (∀ old, f.sl.take f.sl.word (macFrameWord s f.sl.word) old = BitVec.ofBool s.sl) ∧
    (∀ old, f.xmsk.take f.xmsk.word (macFrameWord s f.xmsk.word) old = s.xmsk) ∧
    ∀ old, f.ymsk.take f.ymsk.word (macFrameWord s f.ymsk.word) old = s.ymsk := by
  intro f
  simp only [MacFrame.fits, Bool.and_eq_true, decide_eq_true_eq, List.all_cons, List.all_nil, List.pairwise_cons, List.mem_cons, List.not_mem_nil,
    or_false, forall_eq_or_imp, forall_eq, false_imp_iff, implies_true, List.Pairwise.nil, and_true] at h
  obtain ⟨⟨-, ⟨-, a1⟩, ⟨-, a2⟩, ⟨-, a3⟩, ⟨-, a4⟩, ⟨-, a5⟩, ⟨-, a6⟩, ⟨-, a7⟩, ⟨-, a8⟩⟩,
    ⟨p12, p13, p14, p15, p16, p17, p18⟩, ⟨p23, p24, p25, p26, p27, p28⟩, ⟨p34, p35, p36, p37, p38⟩, ⟨p45, p46, p47, p48⟩, ⟨p56, p57, p58⟩,
    ⟨p67, p68⟩, p78⟩ := h
  have flip : ∀ {p q : Slot} {m n : Nat}, (p.word ≠ q.word ∨ p.lo + m ≤ q.lo ∨ q.lo + n ≤ p.lo) →
      (q.word ≠ p.word ∨ q.lo + n ≤ p.lo ∨ p.lo + m ≤ q.lo) := by
    intro p q m n h
    rcases h with h | h | h
    · exact .inl (Ne.symm h)
    · exact .inr (.inr h)
    · exact .inr (.inl h)
  have tk : ∀ {w : Nat} (p : Slot) (v old : BitVec w) (x : Word), (∀ j, j < w → x.getLsbD (p.lo + j) = v.getLsbD j) → p.take p.word x old = v := by
    intro w p v old x hx
    apply BitVec.eq_of_getLsbD_eq
    intro j hj
    simp [Slot.take, hx j hj, hj]
  refine ⟨fun old => tk _ _ _ _ fun j hj => ?_, fun old => tk _ _ _ _ fun j hj => ?_, fun old => tk _ _ _ _ fun j hj => ?_,
    fun old => tk _ _ _ _ fun j hj => ?_, fun old => tk _ _ _ _ fun j hj => ?_, fun old => tk _ _ _ _ fun j hj => ?_,
    fun old => tk _ _ _ _ fun j hj => ?_, fun old => tk _ _ _ _ fun j hj => ?_⟩ <;>
    simp only [macFrameWord, BitVec.getLsbD_or]
  · rw [Slot.place_own _ _ _ a1 hj, Slot.place_other _ _ _ _ hj p12, Slot.place_other _ _ _ _ hj p13, Slot.place_other _ _ _ _ hj p14,
      Slot.place_other _ _ _ _ hj p15, Slot.place_other _ _ _ _ hj p16, Slot.place_other _ _ _ _ hj p17, Slot.place_other _ _ _ _ hj p18]
    simp
  · rw [Slot.place_own _ _ _ a2 hj, Slot.place_other _ _ _ _ hj (flip p12), Slot.place_other _ _ _ _ hj p23, Slot.place_other _ _ _ _ hj p24,
      Slot.place_other _ _ _ _ hj p25, Slot.place_other _ _ _ _ hj p26, Slot.place_other _ _ _ _ hj p27, Slot.place_other _ _ _ _ hj p28]
    simp
  · rw [Slot.place_own _ _ _ a3 hj, Slot.place_other _ _ _ _ hj (flip p13), Slot.place_other _ _ _ _ hj (flip p23), Slot.place_other _ _ _ _ hj p34,
      Slot.place_other _ _ _ _ hj p35, Slot.place_other _ _ _ _ hj p36, Slot.place_other _ _ _ _ hj p37, Slot.place_other _ _ _ _ hj p38]
    simp
  · rw [Slot.place_own _ _ _ a4 hj, Slot.place_other _ _ _ _ hj (flip p14), Slot.place_other _ _ _ _ hj (flip p24),
      Slot.place_other _ _ _ _ hj (flip p34), Slot.place_other _ _ _ _ hj p45, Slot.place_other _ _ _ _ hj p46, Slot.place_other _ _ _ _ hj p47,
      Slot.place_other _ _ _ _ hj p48]
    simp
  · rw [Slot.place_own _ _ _ a5 hj, Slot.place_other _ _ _ _ hj (flip p15), Slot.place_other _ _ _ _ hj (flip p25),
      Slot.place_other _ _ _ _ hj (flip p35), Slot.place_other _ _ _ _ hj (flip p45), Slot.place_other _ _ _ _ hj p56,
      Slot.place_other _ _ _ _ hj p57, Slot.place_other _ _ _ _ hj p58]
    simp
  · rw [Slot.place_own _ _ _ a6 hj, Slot.place_other _ _ _ _ hj (flip p16), Slot.place_other _ _ _ _ hj (flip p26),
      Slot.place_other _ _ _ _ hj (flip p36), Slot.place_other _ _ _ _ hj (flip p46), Slot.place_other _ _ _ _ hj (flip p56),
      Slot.place_other _ _ _ _ hj p67, Slot.place_other _ _ _ _ hj p68]
    simp
  · rw [Slot.place_own _ _ _ a7 hj, Slot.place_other _ _ _ _ hj (flip p17), Slot.place_other _ _ _ _ hj (flip p27),
      Slot.place_other _ _ _ _ hj (flip p37), Slot.place_other _ _ _ _ hj (flip p47), Slot.place_other _ _ _ _ hj (flip p57),
      Slot.place_other _ _ _ _ hj (flip p67), Slot.place_other _ _ _ _ hj p78]
    simp
  · rw [Slot.place_own _ _ _ a8 hj, Slot.place_other _ _ _ _ hj (flip p18), Slot.place_other _ _ _ _ hj (flip p28),
      Slot.place_other _ _ _ _ hj (flip p38), Slot.place_other _ _ _ _ hj (flip p48), Slot.place_other _ _ _ _ hj (flip p58),
      Slot.place_other _ _ _ _ hj (flip p68), Slot.place_other _ _ _ _ hj (flip p78)]
    simp

end Sys2Proof.Machine
end

