-- ==== Sys2Proof/Laws/PerInstr.lean ====
section
/-! SUPPORT. One lemma for each constructor of `Instr`: its encoding takes as many bytes as `Instr.length` says, the number of bytes the program counter moves over it
(R101, R106). -/

namespace Sys2Proof.Laws.EncodingShape

/-- The encoding has the length the opcode table gives the instruction. -/
def Statement (i : Instr) : Prop := (encodeBytes i).length = i.length

theorem ldaa (o : Src8) : Statement (.ldaa o) := by
  cases o with
  | imm8 _ => rfl
  | mem m => cases m <;> rfl
theorem ldab (o : Src8) : Statement (.ldab o) := by
  cases o with
  | imm8 _ => rfl
  | mem m => cases m <;> rfl
theorem ldd (o : SrcD) : Statement (.ldd o) := by
  cases o with
  | imm16 _ => rfl
  | mem m => cases m <;> rfl
theorem lde (o : SrcE) : Statement (.lde o) := by
  cases o with
  | imm16 _ => rfl
  | mem m => cases m <;> rfl
theorem lded (hhll : Word) : Statement (.lded hhll) := rfl
theorem movb (o : Move) : Statement (.movb o) := by cases o <;> rfl
theorem movw (o : Move) : Statement (.movw o) := by cases o <;> rfl
theorem staa (m : MemE) : Statement (.staa m) := by cases m <;> rfl
theorem stab (m : MemE) : Statement (.stab m) := by cases m <;> rfl
theorem std (m : MemE) : Statement (.std m) := by cases m <;> rfl
theorem ste (m : MemW) : Statement (.ste m) := by cases m <;> rfl
theorem sted (hhll : Word) : Statement (.sted hhll) := rfl
theorem adca (o : Src8) : Statement (.adca o) := by
  cases o with
  | imm8 _ => rfl
  | mem m => cases m <;> rfl
theorem adcb (o : Src8) : Statement (.adcb o) := by
  cases o with
  | imm8 _ => rfl
  | mem m => cases m <;> rfl
theorem adcd (o : SrcD) : Statement (.adcd o) := by
  cases o with
  | imm16 _ => rfl
  | mem m => cases m <;> rfl
theorem adce (o : SrcE) : Statement (.adce o) := by
  cases o with
  | imm16 _ => rfl
  | mem m => cases m <;> rfl
theorem adda (o : Src8) : Statement (.adda o) := by
  cases o with
  | imm8 _ => rfl
  | mem m => cases m <;> rfl
theorem addb (o : Src8) : Statement (.addb o) := by
  cases o with
  | imm8 _ => rfl
  | mem m => cases m <;> rfl
theorem addd (o : SrcDI) : Statement (.addd o) := by
  cases o with
  | imm8 _ => rfl
  | imm16 _ => rfl
  | mem m => cases m <;> rfl
theorem adde (o : SrcEI) : Statement (.adde o) := by
  cases o with
  | imm8 _ => rfl
  | imm16 _ => rfl
  | mem m => cases m <;> rfl
theorem sbca (o : Src8) : Statement (.sbca o) := by
  cases o with
  | imm8 _ => rfl
  | mem m => cases m <;> rfl
theorem sbcb (o : Src8) : Statement (.sbcb o) := by
  cases o with
  | imm8 _ => rfl
  | mem m => cases m <;> rfl
theorem sbcd (o : SrcD) : Statement (.sbcd o) := by
  cases o with
  | imm16 _ => rfl
  | mem m => cases m <;> rfl
theorem sbce (o : SrcE) : Statement (.sbce o) := by
  cases o with
  | imm16 _ => rfl
  | mem m => cases m <;> rfl
theorem suba (o : Src8) : Statement (.suba o) := by
  cases o with
  | imm8 _ => rfl
  | mem m => cases m <;> rfl
theorem subb (o : Src8) : Statement (.subb o) := by
  cases o with
  | imm8 _ => rfl
  | mem m => cases m <;> rfl
theorem subd (o : SrcD) : Statement (.subd o) := by
  cases o with
  | imm16 _ => rfl
  | mem m => cases m <;> rfl
theorem sube (o : SrcE) : Statement (.sube o) := by
  cases o with
  | imm16 _ => rfl
  | mem m => cases m <;> rfl
theorem cmpa (o : Src8) : Statement (.cmpa o) := by
  cases o with
  | imm8 _ => rfl
  | mem m => cases m <;> rfl
theorem cmpb (o : Src8) : Statement (.cmpb o) := by
  cases o with
  | imm8 _ => rfl
  | mem m => cases m <;> rfl
theorem cpd (o : SrcD) : Statement (.cpd o) := by
  cases o with
  | imm16 _ => rfl
  | mem m => cases m <;> rfl
theorem cpe (o : SrcE) : Statement (.cpe o) := by
  cases o with
  | imm16 _ => rfl
  | mem m => cases m <;> rfl
theorem tst (m : MemB) : Statement (.tst m) := by cases m <;> rfl
theorem tstw (m : MemW) : Statement (.tstw m) := by cases m <;> rfl
theorem dec (m : MemB) : Statement (.dec m) := by cases m <;> rfl
theorem decw (m : MemW) : Statement (.decw m) := by cases m <;> rfl
theorem inc (m : MemB) : Statement (.inc m) := by cases m <;> rfl
theorem incw (m : MemW) : Statement (.incw m) := by cases m <;> rfl
theorem clr (m : MemB) : Statement (.clr m) := by cases m <;> rfl
theorem clrw (m : MemW) : Statement (.clrw m) := by cases m <;> rfl
theorem com (m : MemB) : Statement (.com m) := by cases m <;> rfl
theorem comw (m : MemW) : Statement (.comw m) := by cases m <;> rfl
theorem neg (m : MemB) : Statement (.neg m) := by cases m <;> rfl
theorem negw (m : MemW) : Statement (.negw m) := by cases m <;> rfl
theorem anda (o : Src8) : Statement (.anda o) := by
  cases o with
  | imm8 _ => rfl
  | mem m => cases m <;> rfl
theorem andb (o : Src8) : Statement (.andb o) := by
  cases o with
  | imm8 _ => rfl
  | mem m => cases m <;> rfl
theorem andd (o : SrcD) : Statement (.andd o) := by
  cases o with
  | imm16 _ => rfl
  | mem m => cases m <;> rfl
theorem ande (o : SrcE) : Statement (.ande o) := by
  cases o with
  | imm16 _ => rfl
  | mem m => cases m <;> rfl
theorem eora (o : Src8) : Statement (.eora o) := by
  cases o with
  | imm8 _ => rfl
  | mem m => cases m <;> rfl
theorem eorb (o : Src8) : Statement (.eorb o) := by
  cases o with
  | imm8 _ => rfl
  | mem m => cases m <;> rfl
theorem eord (o : SrcD) : Statement (.eord o) := by
  cases o with
  | imm16 _ => rfl
  | mem m => cases m <;> rfl
theorem eore (o : SrcE) : Statement (.eore o) := by
  cases o with
  | imm16 _ => rfl
  | mem m => cases m <;> rfl
theorem oraa (o : Src8) : Statement (.oraa o) := by
  cases o with
  | imm8 _ => rfl
  | mem m => cases m <;> rfl
theorem orab (o : Src8) : Statement (.orab o) := by
  cases o with
  | imm8 _ => rfl
  | mem m => cases m <;> rfl
theorem ord (o : SrcD) : Statement (.ord o) := by
  cases o with
  | imm16 _ => rfl
  | mem m => cases m <;> rfl
theorem ore (o : SrcE) : Statement (.ore o) := by
  cases o with
  | imm16 _ => rfl
  | mem m => cases m <;> rfl
theorem bita (o : Src8) : Statement (.bita o) := by
  cases o with
  | imm8 _ => rfl
  | mem m => cases m <;> rfl
theorem bitb (o : Src8) : Statement (.bitb o) := by
  cases o with
  | imm8 _ => rfl
  | mem m => cases m <;> rfl
theorem bclr (mm : Byte) (m : MemB) : Statement (.bclr mm m) := by cases m <;> rfl
theorem bclrw (mmmm : Word) (m : MemW) : Statement (.bclrw mmmm m) := by cases m <;> rfl
theorem bset (mm : Byte) (m : MemB) : Statement (.bset mm m) := by cases m <;> rfl
theorem bsetw (mmmm : Word) (m : MemW) : Statement (.bsetw mmmm m) := by cases m <;> rfl
theorem lsr (m : MemB) : Statement (.lsr m) := by cases m <;> rfl
theorem lsrw (m : MemW) : Statement (.lsrw m) := by cases m <;> rfl
theorem asl (m : MemB) : Statement (.asl m) := by cases m <;> rfl
theorem aslw (m : MemW) : Statement (.aslw m) := by cases m <;> rfl
theorem asr (m : MemB) : Statement (.asr m) := by cases m <;> rfl
theorem asrw (m : MemW) : Statement (.asrw m) := by cases m <;> rfl
theorem rol (m : MemB) : Statement (.rol m) := by cases m <;> rfl
theorem rolw (m : MemW) : Statement (.rolw m) := by cases m <;> rfl
theorem ror (m : MemB) : Statement (.ror m) := by cases m <;> rfl
theorem rorw (m : MemW) : Statement (.rorw m) := by cases m <;> rfl
theorem bra (rr : Byte) : Statement (.bra rr) := rfl
theorem brn (rr : Byte) : Statement (.brn rr) := rfl
theorem bcc (rr : Byte) : Statement (.bcc rr) := rfl
theorem bcs (rr : Byte) : Statement (.bcs rr) := rfl
theorem beq (rr : Byte) : Statement (.beq rr) := rfl
theorem bmi (rr : Byte) : Statement (.bmi rr) := rfl
theorem bne (rr : Byte) : Statement (.bne rr) := rfl
theorem bpl (rr : Byte) : Statement (.bpl rr) := rfl
theorem bvc (rr : Byte) : Statement (.bvc rr) := rfl
theorem bvs (rr : Byte) : Statement (.bvs rr) := rfl
theorem bhi (rr : Byte) : Statement (.bhi rr) := rfl
theorem bls (rr : Byte) : Statement (.bls rr) := rfl
theorem bge (rr : Byte) : Statement (.bge rr) := rfl
theorem bgt (rr : Byte) : Statement (.bgt rr) := rfl
theorem ble (rr : Byte) : Statement (.ble rr) := rfl
theorem blt (rr : Byte) : Statement (.blt rr) := rfl
theorem lbra (rrrr : Word) : Statement (.lbra rrrr) := rfl
theorem lbrn (rrrr : Word) : Statement (.lbrn rrrr) := rfl
theorem lbcc (rrrr : Word) : Statement (.lbcc rrrr) := rfl
theorem lbcs (rrrr : Word) : Statement (.lbcs rrrr) := rfl
theorem lbeq (rrrr : Word) : Statement (.lbeq rrrr) := rfl
theorem lbev (rrrr : Word) : Statement (.lbev rrrr) := rfl
theorem lbmi (rrrr : Word) : Statement (.lbmi rrrr) := rfl
theorem lbmv (rrrr : Word) : Statement (.lbmv rrrr) := rfl
theorem lbne (rrrr : Word) : Statement (.lbne rrrr) := rfl
theorem lbpl (rrrr : Word) : Statement (.lbpl rrrr) := rfl
theorem lbvc (rrrr : Word) : Statement (.lbvc rrrr) := rfl
theorem lbvs (rrrr : Word) : Statement (.lbvs rrrr) := rfl
theorem lbhi (rrrr : Word) : Statement (.lbhi rrrr) := rfl
theorem lbls (rrrr : Word) : Statement (.lbls rrrr) := rfl
theorem lbge (rrrr : Word) : Statement (.lbge rrrr) := rfl
theorem lbgt (rrrr : Word) : Statement (.lbgt rrrr) := rfl
theorem lble (rrrr : Word) : Statement (.lble rrrr) := rfl
theorem lblt (rrrr : Word) : Statement (.lblt rrrr) := rfl
theorem brclr (mm : Byte) (o : BitBranch) : Statement (.brclr mm o) := by cases o <;> rfl
theorem brset (mm : Byte) (o : BitBranch) : Statement (.brset mm o) := by cases o <;> rfl
theorem jmp (t : JumpTarget) : Statement (.jmp t) := by cases t <;> rfl
theorem bsr (rr : Byte) : Statement (.bsr rr) := rfl
theorem jsr (t : JumpTarget) : Statement (.jsr t) := by cases t <;> rfl
theorem lbsr (rrrr : Word) : Statement (.lbsr rrrr) := rfl
theorem aix (o : Imm) : Statement (.aix o) := by cases o <;> rfl
theorem aiy (o : Imm) : Statement (.aiy o) := by cases o <;> rfl
theorem aiz (o : Imm) : Statement (.aiz o) := by cases o <;> rfl
theorem cpx (o : SrcX) : Statement (.cpx o) := by
  cases o with
  | imm16 _ => rfl
  | mem m => cases m <;> rfl
theorem cpy (o : SrcX) : Statement (.cpy o) := by
  cases o with
  | imm16 _ => rfl
  | mem m => cases m <;> rfl
theorem cpz (o : SrcX) : Statement (.cpz o) := by
  cases o with
  | imm16 _ => rfl
  | mem m => cases m <;> rfl
theorem ldx (o : SrcX) : Statement (.ldx o) := by
  cases o with
  | imm16 _ => rfl
  | mem m => cases m <;> rfl
theorem ldy (o : SrcX) : Statement (.ldy o) := by
  cases o with
  | imm16 _ => rfl
  | mem m => cases m <;> rfl
theorem ldz (o : SrcX) : Statement (.ldz o) := by
  cases o with
  | imm16 _ => rfl
  | mem m => cases m <;> rfl
theorem stx (m : MemB) : Statement (.stx m) := by cases m <;> rfl
theorem sty (m : MemB) : Statement (.sty m) := by cases m <;> rfl
theorem stz (m : MemB) : Statement (.stz m) := by cases m <;> rfl
theorem ais (o : Imm) : Statement (.ais o) := by cases o <;> rfl
theorem cps (o : SrcX) : Statement (.cps o) := by
  cases o with
  | imm16 _ => rfl
  | mem m => cases m <;> rfl
theorem lds (o : SrcX) : Statement (.lds o) := by
  cases o with
  | imm16 _ => rfl
  | mem m => cases m <;> rfl
theorem sts (m : MemB) : Statement (.sts m) := by cases m <;> rfl
theorem pshm (ii : Byte) : Statement (.pshm ii) := rfl
theorem pulm (ii : Byte) : Statement (.pulm ii) := rfl
theorem andp (jjkk : Word) : Statement (.andp jjkk) := rfl
theorem orp (jjkk : Word) : Statement (.orp jjkk) := rfl
theorem mac (xo yo : Nib) : Statement (.mac xo yo) := rfl
theorem rmac (xo yo : Nib) : Statement (.rmac xo yo) := rfl
theorem tab : Statement (.tab) := rfl
theorem tba : Statement (.tba) := rfl
theorem tde : Statement (.tde) := rfl
theorem ted : Statement (.ted) := rfl
theorem xgab : Statement (.xgab) := rfl
theorem xgde : Statement (.xgde) := rfl
theorem aba : Statement (.aba) := rfl
theorem ade : Statement (.ade) := rfl
theorem sba : Statement (.sba) := rfl
theorem sde : Statement (.sde) := rfl
theorem daa : Statement (.daa) := rfl
theorem sxt : Statement (.sxt) := rfl
theorem cba : Statement (.cba) := rfl
theorem tsta : Statement (.tsta) := rfl
theorem tstb : Statement (.tstb) := rfl
theorem tstd : Statement (.tstd) := rfl
theorem tste : Statement (.tste) := rfl
theorem ediv : Statement (.ediv) := rfl
theorem edivs : Statement (.edivs) := rfl
theorem emul : Statement (.emul) := rfl
theorem emuls : Statement (.emuls) := rfl
theorem fdiv : Statement (.fdiv) := rfl
theorem fmuls : Statement (.fmuls) := rfl
theorem idiv : Statement (.idiv) := rfl
theorem mul : Statement (.mul) := rfl
theorem deca : Statement (.deca) := rfl
theorem decb : Statement (.decb) := rfl
theorem inca : Statement (.inca) := rfl
theorem incb : Statement (.incb) := rfl
theorem clra : Statement (.clra) := rfl
theorem clrb : Statement (.clrb) := rfl
theorem clrd : Statement (.clrd) := rfl
theorem clre : Statement (.clre) := rfl
theorem coma : Statement (.coma) := rfl
theorem comb : Statement (.comb) := rfl
theorem comd : Statement (.comd) := rfl
theorem come : Statement (.come) := rfl
theorem nega : Statement (.nega) := rfl
theorem negb : Statement (.negb) := rfl
theorem negd : Statement (.negd) := rfl
theorem nege : Statement (.nege) := rfl
theorem lsra : Statement (.lsra) := rfl
theorem lsrb : Statement (.lsrb) := rfl
theorem lsrd : Statement (.lsrd) := rfl
theorem lsre : Statement (.lsre) := rfl
theorem asla : Statement (.asla) := rfl
theorem aslb : Statement (.aslb) := rfl
theorem asld : Statement (.asld) := rfl
theorem asle : Statement (.asle) := rfl
theorem asra : Statement (.asra) := rfl
theorem asrb : Statement (.asrb) := rfl
theorem asrd : Statement (.asrd) := rfl
theorem asre : Statement (.asre) := rfl
theorem rola : Statement (.rola) := rfl
theorem rolb : Statement (.rolb) := rfl
theorem rold : Statement (.rold) := rfl
theorem role : Statement (.role) := rfl
theorem rora : Statement (.rora) := rfl
theorem rorb : Statement (.rorb) := rfl
theorem rord : Statement (.rord) := rfl
theorem rore : Statement (.rore) := rfl
theorem rts : Statement (.rts) := rfl
theorem rti : Statement (.rti) := rfl
theorem swi : Statement (.swi) := rfl
theorem abx : Statement (.abx) := rfl
theorem aby : Statement (.aby) := rfl
theorem abz : Statement (.abz) := rfl
theorem adx : Statement (.adx) := rfl
theorem ady : Statement (.ady) := rfl
theorem adz : Statement (.adz) := rfl
theorem aex : Statement (.aex) := rfl
theorem aey : Statement (.aey) := rfl
theorem aez : Statement (.aez) := rfl
theorem tsx : Statement (.tsx) := rfl
theorem tsy : Statement (.tsy) := rfl
theorem tsz : Statement (.tsz) := rfl
theorem txs : Statement (.txs) := rfl
theorem txy : Statement (.txy) := rfl
theorem txz : Statement (.txz) := rfl
theorem tys : Statement (.tys) := rfl
theorem tyx : Statement (.tyx) := rfl
theorem tyz : Statement (.tyz) := rfl
theorem tzs : Statement (.tzs) := rfl
theorem tzx : Statement (.tzx) := rfl
theorem tzy : Statement (.tzy) := rfl
theorem xgdx : Statement (.xgdx) := rfl
theorem xgdy : Statement (.xgdy) := rfl
theorem xgdz : Statement (.xgdz) := rfl
theorem xgex : Statement (.xgex) := rfl
theorem xgey : Statement (.xgey) := rfl
theorem xgez : Statement (.xgez) := rfl
theorem tbek : Statement (.tbek) := rfl
theorem tbsk : Statement (.tbsk) := rfl
theorem tbxk : Statement (.tbxk) := rfl
theorem tbyk : Statement (.tbyk) := rfl
theorem tbzk : Statement (.tbzk) := rfl
theorem tekb : Statement (.tekb) := rfl
theorem tskb : Statement (.tskb) := rfl
theorem txkb : Statement (.txkb) := rfl
theorem tykb : Statement (.tykb) := rfl
theorem tzkb : Statement (.tzkb) := rfl
theorem psha : Statement (.psha) := rfl
theorem pshb : Statement (.pshb) := rfl
theorem pula : Statement (.pula) := rfl
theorem pulb : Statement (.pulb) := rfl
theorem tap : Statement (.tap) := rfl
theorem tdp : Statement (.tdp) := rfl
theorem tpa : Statement (.tpa) := rfl
theorem tpd : Statement (.tpd) := rfl
theorem ace : Statement (.ace) := rfl
theorem aced : Statement (.aced) := rfl
theorem aslm : Statement (.aslm) := rfl
theorem asrm : Statement (.asrm) := rfl
theorem clrm : Statement (.clrm) := rfl
theorem ldhi : Statement (.ldhi) := rfl
theorem pshmac : Statement (.pshmac) := rfl
theorem pulmac : Statement (.pulmac) := rfl
theorem tdmsk : Statement (.tdmsk) := rfl
theorem tedm : Statement (.tedm) := rfl
theorem tem : Statement (.tem) := rfl
theorem tmer : Statement (.tmer) := rfl
theorem tmet : Statement (.tmet) := rfl
theorem tmxed : Statement (.tmxed) := rfl
theorem lpstop : Statement (.lpstop) := rfl
theorem wai : Statement (.wai) := rfl
theorem bgnd : Statement (.bgnd) := rfl
theorem nop : Statement (.nop) := rfl

end Sys2Proof.Laws.EncodingShape
end

