-- ==== Sys2Proof/Laws/Rmac.lean ====
section
/-! SUPPORT. RMAC over memory that answers: one pass, the loop pass by pass, and how the V of earlier passes carries through it. -/

namespace Sys2Proof.Machine

/-- Every operand RMAC can meet is in memory that answers. -/
def State.macReady (s : State) : Prop := ∀ w : Word, s.canRead16 .data (s.xk ++ w) = true ∧ s.canRead16 .data (s.yk ++ w) = true

theorem loadHR_ready (s : State) (h : s.canRead16 .data s.x20 = true) : loadHR s = .ok () { s with hr := s.wordAt .data s.x20 } := by
  rw [loadHR, read16_ready _ _ _ h, Bus.bind_ok]

theorem loadIR_ready (s : State) (h : s.canRead16 .data s.y20 = true) : loadIR s = .ok () { s with ir := s.wordAt .data s.y20 } := by
  rw [loadIR, read16_ready _ _ _ h, Bus.bind_ok]

/-- A pass up to its loads; `v` says that an earlier pass multiplied -1 by -1. -/
def State.rmacSummed (s : State) (v : Bool) (xo yo : Nib) : State :=
  let t := macAdd s (fracMul s.hr s.ir).toInt
  macQualifyBoth (t.withCCR { t.ccr with v := v || bothMinusOne s.hr s.ir }) xo yo

/-- The state after one pass. -/
def State.rmacPassed (s : State) (v : Bool) (xo yo : Nib) : State :=
  let t := s.rmacSummed v xo yo
  { t with hr := t.wordAt .data t.x20, ir := t.wordAt .data t.y20, e := t.e - 1#16 }

/-- One pass where memory answers (R570). -/
theorem rmacPass_ready (s : State) (h : s.macReady) (v : Bool) (xo yo : Nib) : rmacPass s v xo yo = .ok () (s.rmacPassed v xo yo) := by
  show ((loadHR (s.rmacSummed v xo yo)).bind fun _ t => (loadIR t).bind fun _ t => .ok () { t with e := t.e - 1#16 }) = _
  have hx : (s.rmacSummed v xo yo).canRead16 .data (s.rmacSummed v xo yo).x20 = true := (h _).1
  rw [loadHR_ready _ hx, Bus.bind_ok]
  have hy : ({ s.rmacSummed v xo yo with hr := (s.rmacSummed v xo yo).wordAt .data (s.rmacSummed v xo yo).x20 } : State).canRead16 .data
      ({ s.rmacSummed v xo yo with hr := (s.rmacSummed v xo yo).wordAt .data (s.rmacSummed v xo yo).x20 } : State).y20 = true := (h _).2
  rw [loadIR_ready _ hy, Bus.bind_ok]
  rfl

theorem rmacPassed_macReady {s : State} (h : s.macReady) (v : Bool) (xo yo : Nib) : (s.rmacPassed v xo yo).macReady := h

theorem rmacPassed_yields (s : State) (v : Bool) (xo yo : Nib) : rmacYields (s.rmacPassed v xo yo) = rmacYields s := rfl

@[simp] theorem rmacPassed_e (s : State) (v : Bool) (xo yo : Nib) : (s.rmacPassed v xo yo).e = s.e - 1#16 := rfl

/-- The V of earlier passes is or-ed into a pass's own. -/
theorem rmacPassed_v (s : State) (v : Bool) (xo yo : Nib) :
    s.rmacPassed v xo yo =
      { s.rmacPassed false xo yo with ccr := { (s.rmacPassed false xo yo).ccr with v := v || (s.rmacPassed false xo yo).ccr.v } } := rfl

/-- No pass but the test of V looks at V. -/
theorem rmacPassed_of_v (s : State) (u v : Bool) (xo yo : Nib) :
    ({ s with ccr := { s.ccr with v := u } } : State).rmacPassed v xo yo = s.rmacPassed v xo yo := rfl

/-- The loop, pass by pass, where memory answers (R570). -/
theorem rmacLoop_succ (k : Nat) (s : State) (h : s.macReady) (v : Bool) (xo yo : Nib) :
    rmacLoop (k + 1) s v xo yo =
      if (s.e - 1#16).msb then .ok () ((s.rmacPassed v xo yo).advance 2)
      else if rmacYields s then .ok () (s.rmacPassed v xo yo)
      else rmacLoop k (s.rmacPassed v xo yo) (v || bothMinusOne s.hr s.ir) xo yo := by
  rw [rmacLoop, rmacPass_ready s h, Bus.bind_ok, rmacPassed_yields, rmacPassed_e]

/-- From `s` to `t` only what passes write, and the program counter, has changed. -/
def RmacFrame (s t : State) : Prop :=
  t =
    { s with
      am := t.am, sl := t.sl, ccr := { s.ccr with mv := t.ccr.mv, ev := t.ccr.ev, v := t.ccr.v }
      ix := t.ix, iy := t.iy, hr := t.hr, ir := t.ir, e := t.e, pc := t.pc }

theorem RmacFrame.trans {s t u : State} (h1 : RmacFrame s t) (h2 : RmacFrame t u) : RmacFrame s u :=
  Eq.trans h2 <| congrArg (fun x : State =>
    { x with
      am := u.am, sl := u.sl, ccr := { x.ccr with mv := u.ccr.mv, ev := u.ccr.ev, v := u.ccr.v }
      ix := u.ix, iy := u.iy, hr := u.hr, ir := u.ir, e := u.e, pc := u.pc }) h1

theorem rmacPassed_frame (s : State) (v : Bool) (xo yo : Nib) : RmacFrame s (s.rmacPassed v xo yo) := rfl

/-- The condition codes with V or-ed. -/
def State.orV (s : State) (v : Bool) : State := { s with ccr := { s.ccr with v := v || s.ccr.v } }

theorem orV_frame (s : State) (v : Bool) : RmacFrame s (s.orV v) := rfl

theorem orV_orV (s : State) (u v : Bool) : (s.orV v).orV u = s.orV (u || v) := by
  unfold State.orV
  rw [Bool.or_assoc]

/-- Where E ends (R570): one pass, or all that E counts. -/
def rmacEnd (e : Word) : Word := if 0 ≤ e.toInt ∨ e.toInt = -32768 then 0xFFFF#16 else e - 1#16

theorem rmacEnd_done (e : Word) (h : (e - 1#16).msb = true) : rmacEnd e = e - 1#16 := by
  have := BitVec.msb_eq_true_iff_two_mul_ge.1 h
  have hs : (e - 1#16).toNat = (e.toNat + 65535) % 65536 := by
    rw [BitVec.toNat_sub]
    exact congrArg (· % 65536) (Nat.add_comm ..)
  have l := e.isLt
  rw [rmacEnd, BitVec.toInt_eq_toNat_cond]
  by_cases g : e.toNat = 0
  · rw [if_pos (.inl (by split <;> omega)), BitVec.eq_of_toNat_eq (x := e) (y := 0#16) g]
    rfl
  · rw [if_neg (by split <;> omega)]

theorem rmacEnd_more (e : Word) (h : (e - 1#16).msb = false) : (e - 1#16).toNat < 32768 ∧ rmacEnd (e - 1#16) = 0xFFFF#16 ∧ rmacEnd e = 0xFFFF#16 := by
  have := BitVec.msb_eq_false_iff_two_mul_lt.1 h
  have l := e.isLt
  unfold rmacEnd
  rw [BitVec.toInt_eq_toNat_cond, BitVec.toInt_eq_toNat_cond]
  refine ⟨by omega, ?_, ?_⟩
  · rw [if_pos (.inl (by split <;> omega))]
  · rw [if_pos]
    split <;> bv_omega

/-- With fuel for every pass to come, the loop ends at a next state; more fuel changes nothing, the V before it is not looked at, and the V of earlier passes is or-ed into
its own. Only what a pass writes, and the program counter, changes; where RMAC is not split, E is at its end and the program counter at the next instruction. -/
theorem rmacLoop_ready (k : Nat) (s : State) (h : s.macReady) (xo yo : Nib) (hk : (s.e - 1#16).msb = false → (s.e - 1#16).toNat + 1 < k) (hk0 : 0 < k) :
    ∃ t : State, (∀ m v u, k ≤ m → rmacLoop m { s with ccr := { s.ccr with v := u } } v xo yo = .ok () (t.orV v)) ∧
      RmacFrame s t ∧ (rmacYields s = false → t.pc = s.pc + 2#20 ∧ t.e = rmacEnd s.e) := by
  induction k generalizing s with
  | zero => omega
  | succ k ih =>
    have one : ∀ m v u, k + 1 ≤ m → ∃ j, k ≤ j ∧ rmacLoop m { s with ccr := { s.ccr with v := u } } v xo yo =
        if (s.e - 1#16).msb then .ok () ((s.rmacPassed v xo yo).advance 2)
        else if rmacYields s then .ok () (s.rmacPassed v xo yo)
        else rmacLoop j (s.rmacPassed v xo yo) (v || bothMinusOne s.hr s.ir) xo yo := by
      intro m v u hm
      obtain ⟨j, rfl⟩ : ∃ j, m = j + 1 := ⟨m - 1, by omega⟩
      exact ⟨j, by omega, rmacLoop_succ j { s with ccr := { s.ccr with v := u } } h v xo yo⟩
    cases hm : (s.e - 1#16).msb with
    | true =>
      refine ⟨(s.rmacPassed false xo yo).advance 2, fun m v u hm' => ?_, rfl, fun _ => ⟨rfl, (rmacEnd_done s.e hm).symm⟩⟩
      obtain ⟨j, -, e⟩ := one m v u hm'
      rw [e, hm, if_pos rfl]
      rfl
    | false =>
      obtain ⟨p1, p2, p3⟩ := rmacEnd_more s.e hm
      cases hy : rmacYields s with
      | true =>
        refine ⟨s.rmacPassed false xo yo, fun m v u hm' => ?_, rfl, fun g => by cases g⟩
        obtain ⟨j, -, e⟩ := one m v u hm'
        rw [e, hm, if_neg Bool.false_ne_true, hy, if_pos rfl]
        rfl
      | false =>
        have hk1 := hk hm
        obtain ⟨t, h1, h2, h3⟩ := ih (s.rmacPassed false xo yo) h
          (fun g => by
            rw [rmacPassed_e] at g ⊢
            have := BitVec.msb_eq_false_iff_two_mul_lt.1 g
            bv_omega) (by omega)
        refine ⟨t.orV (bothMinusOne s.hr s.ir), fun m v u hm' => ?_, h2.trans (orV_frame t _), fun _ => ?_⟩
        · obtain ⟨j, hj, e⟩ := one m v u hm'
          rw [e, hm, if_neg Bool.false_ne_true, hy, if_neg Bool.false_ne_true, rmacPassed_v, h1 j _ _ hj, orV_orV]
        · obtain ⟨g1, g2⟩ := h3 hy
          exact ⟨g1, g2.trans (p2.trans p3.symm)⟩

end Sys2Proof.Machine
end

