-- ==== Sys2Proof/Laws/Stack.lean ====
section
/-! SUPPORT. Runs of pushes and pulls (PSHM, PULM, PSHMAC, PULMAC): what they leave where memory answers, and where nothing answers one of them. -/

namespace Sys2Proof.Machine

/-! ## Pushes -/

/-- The state after one push. -/
def State.pushed (s : State) (v : Word) : State := (s.putWord s.sp20 v).withSP20 (s.sp20 - 2#20)

@[simp] theorem State.pushed_sp20 (s : State) (v : Word) : (s.pushed v).sp20 = s.sp20 - 2#20 := State.withSP20_sp20 _ _
@[simp] theorem State.pushed_mem (s : State) (v : Word) : (s.pushed v).mem = (s.putWord s.sp20 v).mem := rfl
@[simp] theorem State.pushed_plat (s : State) (v : Word) : (s.pushed v).plat = s.plat := rfl
@[simp] theorem State.pushed_pc (s : State) (v : Word) : (s.pushed v).pc = s.pc := rfl

theorem pushed_pushAddr (s : State) (v : Word) (k : Nat) : (s.pushed v).pushAddr k = s.pushAddr (k + 1) := by
  simp only [State.pushAddr, State.pushed_sp20, Nat.mul_add, BitVec.ofNat_add]
  bv_omega

theorem pushed_canWrite16 (s : State) (v : Word) (a : Addr) : (s.pushed v).canWrite16 a = s.canWrite16 a := rfl
theorem pushed_lostWrite16 (s : State) (v : Word) (a : Addr) : (s.pushed v).lostWrite16 a = s.lostWrite16 a := rfl

/-- Two words of a run of pushes have no byte in common. -/
theorem pushAddr_apart (s : State) (k : Nat) (h : k + 1 < 2 ^ 19) :
    s.sp20 ≠ s.pushAddr (k + 1) ∧ s.sp20 ≠ s.pushAddr (k + 1) + 1#20 ∧ s.sp20 + 1#20 ≠ s.pushAddr (k + 1) ∧ s.sp20 + 1#20 ≠ s.pushAddr (k + 1) + 1#20 := by
  have l := s.sp20.isLt
  refine ⟨?_, ?_, ?_, ?_⟩ <;> intro e <;> have e := congrArg BitVec.toNat e <;>
    simp only [State.pushAddr, BitVec.toNat_sub, BitVec.toNat_add, BitVec.toNat_ofNat] at e <;> omega

/-- The words below stand, and one more has been pushed before them. -/
theorem pushedWords_cons (s t : State) (v : Word) (l : List Word) (hl : l.length < 2 ^ 19) (h : pushedWords (s.pushed v) t l) :
    pushedWords s t (v :: l) := by
  obtain ⟨h1, h2, h3⟩ := h
  rw [pushed_pushAddr] at h1
  have e : (v :: l).zipIdx.map (fun p => (s.pushAddr p.2, p.1)) =
      (s.sp20, v) :: l.zipIdx.map (fun p => ((s.pushed v).pushAddr p.2, p.1)) := by
    rw [List.zipIdx_cons, List.map_cons, pushAddr_zero, List.zipIdx_succ, List.map_map]
    simp only [pushed_pushAddr]
    rfl
  refine ⟨?_, ?_, ?_⟩
  · rw [h1]
    rfl
  · intro p hp
    rw [e, List.mem_cons] at hp
    rcases hp with rfl | hp
    · have k0 := s.putWord_wordAt s.sp20 v
      have hb : ∀ a : Addr, (∀ k, k < l.length → a ≠ s.pushAddr (k + 1) ∧ a ≠ s.pushAddr (k + 1) + 1#20) →
          t.byteAt .data a = (s.putWord s.sp20 v).byteAt .data a := by
        intro a ha
        refine h3 a.toNat ?_
        intro p hp
        obtain ⟨q, hq, rfl⟩ := List.mem_map.1 hp
        have hlt : q.2 < l.length := by
          have := List.snd_lt_of_mem_zipIdx hq
          simpa using this
        have := ha q.2 hlt
        rw [pushed_pushAddr]
        exact ⟨fun x => this.1 (BitVec.eq_of_toNat_eq x), fun x => this.2 (BitVec.eq_of_toNat_eq x)⟩
      have b0 := hb s.sp20 fun k hk => ⟨(pushAddr_apart s k (by omega)).1, (pushAddr_apart s k (by omega)).2.1⟩
      have b1 := hb (s.sp20 + 1#20) fun k hk => ⟨(pushAddr_apart s k (by omega)).2.2.1, (pushAddr_apart s k (by omega)).2.2.2⟩
      show t.byteAt .data s.sp20 ++ t.byteAt .data (s.sp20 + 1#20) = v
      rw [b0, b1]
      exact k0
    · exact h2 p hp
  · intro k hk
    rw [e] at hk
    rw [h3 k fun p hp => hk p (List.mem_cons_of_mem _ hp)]
    have := hk (s.sp20, v) (List.mem_cons_self ..)
    exact State.putWord_get s s.sp20 v k this.1 this.2

theorem pushedWords_nil (s : State) : pushedWords s s [] := by
  refine ⟨?_, fun p hp => by simp at hp, fun k _ => rfl⟩
  have e : s.withSP20 s.sp20 = s := by simp only [State.withSP20, State.sp20, joined_high, joined_low]
  rw [List.length_nil, pushAddr_zero, e]

/-- A run of pushes into RAM. -/
theorem pushAll_ready (s : State) (l : List Word) (hl : l.length ≤ 2 ^ 19) (h : ∀ k, k < l.length → s.canWrite16 (s.pushAddr k) = true) :
    ∃ t, pushAll s l = .ok () t ∧ pushedWords s t l := by
  induction l generalizing s with
  | nil => exact ⟨s, rfl, pushedWords_nil s⟩
  | cons v l ih =>
    have h0 : s.canWrite16 s.sp20 = true := by simpa [pushAddr_zero] using h 0 (by simp)
    have hlen : (v :: l).length = l.length + 1 := List.length_cons
    obtain ⟨t, ht, hw⟩ := ih (s.pushed v) (by omega) fun k hk => by
      rw [pushed_pushAddr, pushed_canWrite16]
      exact h (k + 1) (by omega)
    refine ⟨t, ?_, pushedWords_cons s t v l (by omega) hw⟩
    rw [pushAll, push16_ready true s v h0, Bus.bind_ok]
    exact ht

/-- A run of pushes that nothing answers from push `k` on: the words before it stay pushed. -/
theorem pushAll_lost (s : State) (l : List Word) (k : Nat) (hk : k < l.length) (hl : k ≤ 2 ^ 19) (h : ∀ j, j < k → s.canWrite16 (s.pushAddr j) = true)
    (hx : s.lostWrite16 (s.pushAddr k) = true) : ∃ t, pushAll s l = .berr t ∧ pushedWords s t (l.take k) := by
  induction l generalizing s k with
  | nil => simp at hk
  | cons v l ih =>
    cases k with
    | zero =>
      rw [pushAddr_zero] at hx
      refine ⟨s, ?_, pushedWords_nil s⟩
      rw [pushAll, push16_lost s v hx, Bus.bind_berr]
    | succ k =>
      have h0 : s.canWrite16 s.sp20 = true := by simpa [pushAddr_zero] using h 0 (by omega)
      obtain ⟨t, ht, hw⟩ := ih (s.pushed v) k (by simpa using hk) (by omega)
        (fun j hj => by rw [pushed_pushAddr, pushed_canWrite16]; exact h (j + 1) (by omega))
        (by rw [pushed_pushAddr, pushed_lostWrite16]; exact hx)
      refine ⟨t, ?_, ?_⟩
      · rw [pushAll, push16_ready true s v h0, Bus.bind_ok]
        exact ht
      · exact pushedWords_cons s t v (l.take k) (by simp; omega) hw

/-- PSHM's loop is a run of pushes of the selected words. -/
theorem pushSelected_eq (s : State) (mask : Byte) (l : List Word) (n : Nat) :
    pushSelected s (mask >>> n) l = pushAll s (((l.zipIdx n).filter fun p => mask.getLsbD p.2).map fun p => p.1) := by
  induction l generalizing s n with
  | nil => rfl
  | cons v l ih =>
    have hb : (mask >>> n).getLsbD 0 = mask.getLsbD n := by simp
    have hs : (mask >>> n) >>> 1 = mask >>> (n + 1) := by rw [BitVec.shiftRight_add]
    rw [pushSelected, hb, hs, List.zipIdx_cons]
    cases hm : mask.getLsbD n with
    | true =>
      simp only [if_true, List.filter_cons, hm, List.map_cons, pushAll]
      congr 1
      funext _ t
      exact ih t (n + 1)
    | false =>
      simp only [Bool.false_eq_true, if_false, List.filter_cons, hm]
      exact ih s (n + 1)

/-- The words PSHM's loop selects. -/
theorem selectedWords_eq (s : State) (ii : Byte) :
    (((pshmWords s).zipIdx 0).filter fun p => ii.getLsbD p.2).map (fun p => p.1) = s.selectedWords ii := by
  have e : s.ccrSeen = s.ccr.word ((s.pcPlus 6).extractLsb' 16 4) := by
    rw [← pcPlus_eq]
    rfl
  have h : s.selectedWords ii = ((((pshmWords s).zipIdx 0).map fun p => (p.2, p.1)).filter fun p => ii.getLsbD p.1).map fun p => p.2 := by
    unfold State.selectedWords pshmWords
    rw [e]
    rfl
  rw [h, List.filter_map, List.map_map]
  rfl

theorem selectedWords_length (s : State) (ii : Byte) : (s.selectedWords ii).length ≤ 7 := by
  unfold State.selectedWords
  rw [List.length_map]
  exact List.length_filter_le _ _

/-- PSHM is a run of pushes. -/
theorem execPshm_eq (s : State) (ii : Byte) (h : ii.getLsbD 7 = false) :
    execPshm ii s = commit ((pushAll s (s.selectedWords ii)).bind fun _ s => .ok () (s.advance 2)) := by
  have hw : maskWellFormed ii = true := by rw [maskWellFormed, h]; rfl
  have hs := pushSelected_eq s ii (pshmWords s) 0
  rw [BitVec.ushiftRight_zero, selectedWords_eq] at hs
  simp only [execPshm, hw, if_true, hs]

/-! ## Pulls -/

theorem withSP20_pullAddr (s : State) (k : Nat) : (s.withSP20 (s.sp20 + 2#20)).pullAddr k = s.pullAddr (k + 1) := by
  simp only [State.pullAddr, State.withSP20_sp20, Nat.mul_add, BitVec.ofNat_add]
  bv_omega

/-- Loads of registers of which none moves SK : SP and none touches memory or the memory map. -/
def Calm (fs : List (State → Word → State)) : Prop :=
  ∀ f ∈ fs, ∀ s v, (f s v).sp20 = s.sp20 ∧ (f s v).mem = s.mem ∧ (f s v).plat = s.plat

/-- The state after a run of pulls: each register loaded from the next word up the stack, SK : SP two higher for each. -/
def pulledEach (s : State) : List (State → Word → State) → State
  | [] => s
  | f :: fs => pulledEach (f (s.withSP20 (s.sp20 + 2#20)) (s.wordAt .data (s.sp20 + 2#20))) fs

theorem calm_pullAddr {f : State → Word → State} {fs : List (State → Word → State)} (h : Calm (f :: fs)) (s : State) (v : Word) (k : Nat) :
    (f (s.withSP20 (s.sp20 + 2#20)) v).pullAddr k = s.pullAddr (k + 1) := by
  rw [← withSP20_pullAddr]
  simp only [State.pullAddr, (h f (List.mem_cons_self ..) _ _).1]

theorem canRead16_of_plat {s t : State} (h : t.plat = s.plat) (sp : Space) (a : Addr) : t.canRead16 sp a = s.canRead16 sp a := by
  simp only [State.canRead16, State.canRead8, kindAt_of_plat h]

/-- A run of pulls from memory that answers. -/
theorem pullEach_ready (s : State) (fs : List (State → Word → State)) (hc : Calm fs)
    (h : ∀ k, k < fs.length → s.canRead16 .data (s.pullAddr k) = true) : pullEach s fs = .ok () (pulledEach s fs) := by
  induction fs generalizing s with
  | nil => rfl
  | cons f fs ih =>
    have h0 : s.canRead16 .data (s.sp20 + 2#20) = true := h 0 (by simp)
    have hf := hc f (List.mem_cons_self ..)
    rw [pullEach, pull16_ready s h0, Bus.bind_ok, pulledEach]
    refine ih _ (fun g hg => hc g (List.mem_cons_of_mem _ hg)) fun k hk => ?_
    rw [calm_pullAddr hc, canRead16_of_plat (hf _ _).2.2]
    exact h (k + 1) (by simpa using hk)

/-- A run of pulls that nothing answers from pull `k` on: the registers before it stay loaded, and SK : SP stands at the word not read. -/
theorem pullEach_lost (s : State) (fs : List (State → Word → State)) (k : Nat) (hc : Calm fs) (hk : k < fs.length)
    (h : ∀ j, j < k → s.canRead16 .data (s.pullAddr j) = true) (hx : s.lostRead .data (s.pullAddr k) = true) :
    pullEach s fs = .berr ((pulledEach s (fs.take k)).withSP20 (s.pullAddr k)) := by
  induction fs generalizing s k with
  | nil => simp at hk
  | cons f fs ih =>
    cases k with
    | zero =>
      have hx' : s.lostRead .data (s.sp20 + 2#20) = true := hx
      rw [pullEach, pull16_lost s hx', Bus.bind_berr]
      rfl
    | succ k =>
      have h0 : s.canRead16 .data (s.sp20 + 2#20) = true := h 0 (by omega)
      have hf := hc f (List.mem_cons_self ..)
      rw [pullEach, pull16_ready s h0, Bus.bind_ok, List.take_succ_cons, pulledEach, ← calm_pullAddr hc s (s.wordAt .data (s.sp20 + 2#20)) k]
      refine ih _ k (fun g hg => hc g (List.mem_cons_of_mem _ hg)) (by simpa using hk) (fun j hj => ?_) ?_
      · rw [calm_pullAddr hc, canRead16_of_plat (hf _ _).2.2]
        exact h (j + 1) (by omega)
      · rw [calm_pullAddr hc]
        simpa only [State.lostRead, kindAt_of_plat (hf _ _).2.2, State.withSP20_kindAt] using hx

/-- PULM's loop is a run of pulls of the selected registers. -/
theorem pullSelected_eq (s : State) (mask : Byte) (l : List (State → Word → State)) (n : Nat) :
    pullSelected s (mask >>> n) l = pullEach s (((l.zipIdx n).filter fun p => mask.getLsbD p.2).map fun p => p.1) := by
  induction l generalizing s n with
  | nil => rfl
  | cons v l ih =>
    have hb : (mask >>> n).getLsbD 0 = mask.getLsbD n := by simp
    have hs : (mask >>> n) >>> 1 = mask >>> (n + 1) := by rw [BitVec.shiftRight_add]
    rw [pullSelected, hb, hs, List.zipIdx_cons]
    cases hm : mask.getLsbD n with
    | true =>
      simp only [if_true, List.filter_cons, hm, List.map_cons, pullEach]
      congr 1
      funext _ t
      exact ih _ (n + 1)
    | false =>
      simp only [Bool.false_eq_true, if_false, List.filter_cons, hm]
      exact ih s (n + 1)

theorem calm_pulmWrites : Calm pulmWrites := by
  intro f hf s v
  simp only [pulmWrites, List.mem_cons, List.not_mem_nil, or_false] at hf
  rcases hf with rfl | rfl | rfl | rfl | rfl | rfl | rfl <;> exact ⟨rfl, rfl, rfl⟩

theorem calm_pulmacWrites (f : MacFrame) : Calm (pulmacWrites f) := by
  intro g hg s v
  simp only [pulmacWrites, List.mem_map, List.mem_reverse, List.mem_range] at hg
  obtain ⟨k, -, rfl⟩ := hg
  exact ⟨rfl, rfl, rfl⟩

/-- PULM is a run of pulls. -/
theorem execPulm_eq (s : State) (ii : Byte) (h : ii.getLsbD 7 = false) :
    execPulm ii s =
      commit ((pullEach s (((pulmWrites.zipIdx 0).filter fun p => ii.getLsbD p.2).map fun p => p.1)).bind fun _ s => .ok () (s.advance 2)) := by
  have hw : maskWellFormed ii = true := by rw [maskWellFormed, h]; rfl
  have hs := pullSelected_eq s ii pulmWrites 0
  rw [BitVec.ushiftRight_zero] at hs
  simp only [execPulm, hw, if_true, hs]

/-! ## PULMAC -/

/-- What a field of the MAC frame holds after a pull of `n` words, the last pushed first: its place in its word, or what it held. -/
def Slot.pulled {w : Nat} (p : Slot) (s : State) (n : Nat) (old : BitVec w) : BitVec w :=
  if p.word < n then ((s.wordAt .data (s.pullAddr (n - 1 - p.word))) >>> p.lo).setWidth w else old

theorem Slot.pulled_zero {w : Nat} (p : Slot) (s : State) (old : BitVec w) : p.pulled s 0 old = old := if_neg (Nat.not_lt_zero _)

theorem Slot.pulled_succ {w : Nat} (p : Slot) (s t : State) (n : Nat) (old : BitVec w) (hw : ∀ a, t.wordAt .data a = s.wordAt .data a)
    (ha : ∀ k, t.pullAddr k = s.pullAddr (k + 1)) :
    p.pulled t n (p.take n (s.wordAt .data (s.sp20 + 2#20)) old) = p.pulled s (n + 1) old := by
  unfold Slot.pulled Slot.take
  by_cases h : p.word < n
  · have e : n - 1 - p.word + 1 = n + 1 - 1 - p.word := by omega
    rw [if_pos h, if_pos (by omega), hw, ha, e]
  · rw [if_neg h]
    by_cases h2 : p.word = n
    · have e : n + 1 - 1 - p.word = 0 := by omega
      rw [if_pos h2, if_pos (by omega), e]
      rfl
    · rw [if_neg h2, if_neg (by omega)]

/-- What a field holds after the pull, as numbers. -/
theorem Slot.pulled_toNat {w : Nat} (p : Slot) (s : State) (n : Nat) (old : BitVec w) :
    (p.pulled s n old).toNat = if p.word < n then (s.wordAt .data (s.pullAddr (n - 1 - p.word))).toNat / 2 ^ p.lo % 2 ^ w else old.toNat := by
  unfold Slot.pulled
  split
  · simp [Nat.shiftRight_eq_div_pow]
  · rfl

theorem am_pieces (x : Acc36) : ((x.extractLsb' 32 4 : Nib) ++ ((x.extractLsb' 16 16 : Word) ++ (x.extractLsb' 0 16 : Word)) : Acc36) = x := by
  apply BitVec.eq_of_getLsbD_eq
  intro i hi
  simp only [BitVec.getLsbD_append, BitVec.getLsbD_extractLsb']
  by_cases h : i < 16
  · simp [h, show i < 32 by omega]
  · by_cases h2 : i < 32
    · simp [h, h2, show i - 16 < 16 by omega, show 16 + (i - 16) = i by omega]
    · simp [h2, show i - 32 < 4 by omega, show 32 + (i - 32) = i by omega]

theorem am_piece (h : Nib) (m l : Word) :
    ((h ++ (m ++ l) : Acc36).extractLsb' 32 4 : Nib) = h ∧ ((h ++ (m ++ l) : Acc36).extractLsb' 16 16 : Word) = m ∧
      ((h ++ (m ++ l) : Acc36).extractLsb' 0 16 : Word) = l := by
  refine ⟨?_, ?_, ?_⟩ <;> apply BitVec.eq_of_getLsbD_eq <;> intro i hi <;> simp only [BitVec.getLsbD_append, BitVec.getLsbD_extractLsb']
  · simp [hi]
  · simp [hi, show 16 + i < 32 by omega]
  · simp [hi, show i < 32 by omega]

/-- A run of pulls of the first `n` words of a frame, the last first (R569). -/
theorem pulledFrame (n : Nat) (s : State) :
    let f := s.plat.macFrame
    pulledEach s ((List.range n).reverse.map loadFrameWord) =
      { s.withSP20 (s.sp20 + BitVec.ofNat 20 (2 * n)) with
        hr := f.hr.pulled s n s.hr
        ir := f.ir.pulled s n s.ir
        am := f.amHigh.pulled s n (s.am.extractLsb' 32 4 : Nib) ++
          (f.amMid.pulled s n (s.am.extractLsb' 16 16 : Word) ++ f.amLow.pulled s n (s.am.extractLsb' 0 16 : Word))
        sl := (f.sl.pulled s n (BitVec.ofBool s.sl)).getLsbD 0
        xmsk := f.xmsk.pulled s n s.xmsk
        ymsk := f.ymsk.pulled s n s.ymsk } := by
  intro f
  induction n generalizing s with
  | zero =>
    have e : s.withSP20 (s.sp20 + BitVec.ofNat 20 (2 * 0)) = s := by
      simp only [State.withSP20, State.sp20, Nat.mul_zero, BitVec.add_zero, joined_high, joined_low]
    have b : (BitVec.ofBool s.sl).getLsbD 0 = s.sl := by cases s.sl <;> rfl
    simp only [List.range_zero, List.reverse_nil, List.map_nil, pulledEach, Slot.pulled_zero, am_pieces, b, e]
  | succ n ih =>
    obtain ⟨t, ht⟩ : ∃ t, t = loadFrameWord n (s.withSP20 (s.sp20 + 2#20)) (s.wordAt .data (s.sp20 + 2#20)) := ⟨_, rfl⟩
    have hsp : t.sp20 = s.sp20 + 2#20 := by rw [ht]; exact State.withSP20_sp20 s (s.sp20 + 2#20)
    have hw : ∀ a, t.wordAt .data a = s.wordAt .data a := fun _ => by rw [ht]; rfl
    have ha : ∀ k, t.pullAddr k = s.pullAddr (k + 1) := fun k => by rw [ht]; exact withSP20_pullAddr s k
    have e : t.sp20 + BitVec.ofNat 20 (2 * n) = s.sp20 + BitVec.ofNat 20 (2 * (n + 1)) := by
      rw [hsp, Nat.mul_add, BitVec.ofNat_add]
      bv_omega
    have l : (List.range (n + 1)).reverse.map loadFrameWord = loadFrameWord n :: (List.range n).reverse.map loadFrameWord := by
      rw [List.range_succ, List.reverse_append]
      rfl
    have pf : t.plat.macFrame = f := by rw [ht]; rfl
    have frame : ∀ x, t.withSP20 x = { s.withSP20 x with hr := t.hr, ir := t.ir, am := t.am, sl := t.sl, xmsk := t.xmsk, ymsk := t.ymsk } :=
      fun x => by rw [ht]; rfl
    have g1 : f.hr.pulled t n t.hr = f.hr.pulled s (n + 1) s.hr := by rw [← Slot.pulled_succ _ s t n _ hw ha, ht]; rfl
    have g2 : f.ir.pulled t n t.ir = f.ir.pulled s (n + 1) s.ir := by rw [← Slot.pulled_succ _ s t n _ hw ha, ht]; rfl
    have g3 : f.xmsk.pulled t n t.xmsk = f.xmsk.pulled s (n + 1) s.xmsk := by rw [← Slot.pulled_succ _ s t n _ hw ha, ht]; rfl
    have g4 : f.ymsk.pulled t n t.ymsk = f.ymsk.pulled s (n + 1) s.ymsk := by rw [← Slot.pulled_succ _ s t n _ hw ha, ht]; rfl
    have am := am_piece (f.amHigh.take n (s.wordAt .data (s.sp20 + 2#20)) (s.am.extractLsb' 32 4 : Nib))
      (f.amMid.take n (s.wordAt .data (s.sp20 + 2#20)) (s.am.extractLsb' 16 16 : Word))
      (f.amLow.take n (s.wordAt .data (s.sp20 + 2#20)) (s.am.extractLsb' 0 16 : Word))
    have tam : t.am = f.amHigh.take n (s.wordAt .data (s.sp20 + 2#20)) (s.am.extractLsb' 32 4 : Nib) ++
        (f.amMid.take n (s.wordAt .data (s.sp20 + 2#20)) (s.am.extractLsb' 16 16 : Word) ++
          f.amLow.take n (s.wordAt .data (s.sp20 + 2#20)) (s.am.extractLsb' 0 16 : Word)) := by rw [ht]; rfl
    have tsl : BitVec.ofBool t.sl = f.sl.take n (s.wordAt .data (s.sp20 + 2#20)) (BitVec.ofBool s.sl) := by
      have h : ∀ x : BitVec 1, BitVec.ofBool (x.getLsbD 0) = x := by decide
      rw [ht]
      exact h _
    rw [l, pulledEach, ← ht, ih t, pf, g1, g2, g3, g4, e, frame, tsl, tam, am.1, am.2.1, am.2.2, Slot.pulled_succ _ s t n _ hw ha,
      Slot.pulled_succ _ s t n _ hw ha, Slot.pulled_succ _ s t n _ hw ha, Slot.pulled_succ _ s t n _ hw ha]

/-- PULMAC where memory answers (R569). -/
theorem execPulmac_ready (s : State) (h : ∀ k, k < s.plat.macFrame.words → s.canRead16 .data (s.pullAddr k) = true) :
    execPulmac s = .next ((pulledEach s (pulmacWrites s.plat.macFrame)).advance 2) := by
  have hl : (pulmacWrites s.plat.macFrame).length = s.plat.macFrame.words := by simp [pulmacWrites]
  rw [execPulmac, pullEach_ready s _ (calm_pulmacWrites _) (by rw [hl]; exact h), Bus.bind_ok]
  rfl

end Sys2Proof.Machine
end

