-- ==== Sys2Proof/Laws/Step.lean ====
section
/-! SUPPORT. What the stores of other agents change, what the boundary decides where nothing happens, and what a fetch answers from plain memory. -/

namespace Sys2Proof.Machine

/-! ## The outside world -/

/-- A store of another agent changes one byte of RAM. -/
theorem hostWrite_get (s : State) (w : HostWrite) (k : Nat) :
    Memory.get (s.hostWrite w).mem k = Memory.get s.mem k ∨ (k = s.key w.space w.addr ∧ s.kindAt w.space w.addr = .ram) := by
  unfold State.hostWrite
  split
  · rename_i h
    by_cases hk : k = s.key w.space w.addr
    · exact .inr ⟨hk, h⟩
    · refine .inl ?_
      show Memory.get (Memory.set s.mem _ _) k = _
      rw [Memory.get_set, if_neg hk]
  · exact .inl rfl

theorem hostWrite_wf (s : State) (w : HostWrite) (h : Memory.wf s.mem = true) : Memory.wf (s.hostWrite w).mem = true := by
  unfold State.hostWrite
  split
  · exact Memory.wf_set s.mem _ _ (State.key_lt s w.space w.addr) h
  · exact h

theorem hostWrite_eq (s : State) (w : HostWrite) : s.hostWrite w = { s with mem := (s.hostWrite w).mem } := State.hostWrites_eq s [w]

/-- The stores of other agents change bytes of RAM they name, and no others. -/
theorem hostWrites_get (s : State) (l : List HostWrite) (k : Nat) :
    Memory.get (s.hostWrites l).mem k = Memory.get s.mem k ∨ ∃ w ∈ l, k = s.key w.space w.addr ∧ s.kindAt w.space w.addr = .ram := by
  induction l generalizing s with
  | nil => exact .inl rfl
  | cons w ws ih =>
    have e := hostWrite_eq s w
    rcases ih (s.hostWrite w) with h | ⟨x, hx, h⟩
    · rcases hostWrite_get s w k with g | g
      · exact .inl (h.trans g)
      · exact .inr ⟨w, List.mem_cons_self .., g⟩
    · rw [e] at h
      exact .inr ⟨x, List.mem_cons_of_mem _ hx, h⟩

theorem hostWrites_wf (s : State) (l : List HostWrite) (h : Memory.wf s.mem = true) : Memory.wf (s.hostWrites l).mem = true := by
  induction l generalizing s with
  | nil => exact h
  | cons w ws ih => exact ih _ (hostWrite_wf s w h)

theorem nextInput_get (s : State) (k : Nat) :
    Memory.get s.nextInput.mem k = Memory.get s.mem k ∨ ∃ w ∈ s.input.writes, k = s.key w.space w.addr ∧ s.kindAt w.space w.addr = .ram :=
  hostWrites_get s s.input.writes k

theorem nextInput_wf (s : State) (h : Memory.wf s.mem = true) : Memory.wf s.nextInput.mem = true := hostWrites_wf s s.input.writes h

/-- Where no other agent stores, memory is as it was. -/
theorem nextInput_quiet (s : State) (h : s.input.writes = []) : s.nextInput = { s with inputs := s.inputs.tail } := by
  unfold State.nextInput
  rw [h]
  rfl

theorem begun_eq (s : State) : s.begun = { s with mem := s.nextInput.mem, inputs := s.inputs.tail, inhibit := false, heldOff := s.inhibit } := by
  unfold State.begun
  rw [State.nextInput_eq]

/-! ## The boundary -/

/-- Where nothing happens at the boundary, the instruction runs from the state with the input used up the hold-off latch clear and its old value
noted. -/
theorem boundary_atInstruction (s : State) (h : s.atInstruction = true) : boundary s = .go s.begun := by
  simp only [State.atInstruction, Bool.and_eq_true, beq_iff_eq, Bool.not_eq_true'] at h
  obtain ⟨⟨⟨⟨⟨h1, h2⟩, h3⟩, h4⟩, -⟩, -⟩ := h
  have hr : recognised s.begun s.input.irq = recognised s s.input.irq := by rw [begun_eq]; rfl
  have hrun : s.nextInput.run = .running := by rw [State.nextInput_run, h1]
  unfold boundary
  simp only [h2, h3, Bool.false_eq_true, if_false]
  split
  · rename_i g; rw [hrun] at g; cases g
  · rename_i g; rw [hrun] at g; cases g
  · rename_i g; rw [hrun] at g; cases g
  · rename_i g; rw [hrun] at g; cases g
  · rw [State.nextInput_inhibit]
    have hn : ¬ (!s.inhibit && recognised s.begun s.input.irq) = true := by
      rw [hr]
      cases hi : s.inhibit <;> simp_all
    exact if_neg hn

/-- The program counter is even where an instruction runs. -/
theorem atInstruction_even (s : State) (h : s.atInstruction = true) : s.pc.getLsbD 0 = false := by
  simp only [State.atInstruction, Bool.and_eq_true, Bool.not_eq_true'] at h
  exact h.1.2

/-- Where nothing happens at the boundary, the step is the fetch and what is fetched. -/
theorem step_atInstruction (s : State) (h : s.atInstruction = true) :
    step s = match fetch s.begun with
      | .ok (some i) s => exec i s
      | .ok none s => illegalInstruction s
      | .berr s => busError s
      | .refused r => .refused r := by
  have hp : s.begun.pc.getLsbD 0 = false := by rw [begun_eq]; exact atInstruction_even s h
  have hd : s.fetchDisturbed = false := by
    simp only [State.atInstruction, Bool.and_eq_true, Bool.not_eq_true'] at h
    exact h.2
  unfold step
  rw [boundary_atInstruction s h, hd]
  exact (if_neg (by rw [hp]; exact Bool.false_ne_true)).trans (if_neg Bool.false_ne_true)

/-! ## The fetch -/

/-- An unassigned opcode word: no operand word is fetched. -/
theorem fetch_unassigned (s : State) (h : s.canRead16 .prog s.pc = true) (hd : decodeOp (s.wordAt .prog s.pc) 0 0 = none) :
    fetch s = .ok none s := by
  simp only [fetch, read16_ready s .prog _ h, Bus.bind_ok, hd]

/-- An instruction of one word. -/
theorem fetch_one (s : State) (i : Instr) (h : s.canRead16 .prog s.pc = true) (hd : decodeOp (s.wordAt .prog s.pc) 0 0 = some i)
    (hl : i.length = 2) : fetch s = .ok (some i) s := by
  simp only [fetch, read16_ready s .prog _ h, Bus.bind_ok, hd, hl, if_true]

/-- An instruction of two words. -/
theorem fetch_two (s : State) (i : Instr) (h : s.canRead16 .prog s.pc = true) (h1 : s.canRead16 .prog (s.pc + 2#20) = true)
    (hd : decodeOp (s.wordAt .prog s.pc) 0 0 = some i) (hl : i.length = 4) :
    fetch s = .ok (decodeOp (s.wordAt .prog s.pc) (s.wordAt .prog (s.pc + 2#20)) 0) s := by
  have hn : ¬ (4 : Nat) = 2 := by decide
  simp only [fetch, read16_ready s .prog _ h, Bus.bind_ok, hd, hl, if_neg hn, read16_ready s .prog _ h1, if_true]

/-- An instruction of three words. -/
theorem fetch_three (s : State) (i : Instr) (h : s.canRead16 .prog s.pc = true) (h1 : s.canRead16 .prog (s.pc + 2#20) = true)
    (h2 : s.canRead16 .prog (s.pc + 4#20) = true) (hd : decodeOp (s.wordAt .prog s.pc) 0 0 = some i) (hl : i.length = 6) :
    fetch s = .ok (decodeOp (s.wordAt .prog s.pc) (s.wordAt .prog (s.pc + 2#20)) (s.wordAt .prog (s.pc + 4#20))) s := by
  have hn : ¬ (6 : Nat) = 2 := by decide
  have hn' : ¬ (6 : Nat) = 4 := by decide
  simp only [fetch, read16_ready s .prog _ h, Bus.bind_ok, hd, hl, if_neg hn, if_neg hn', read16_ready s .prog _ h1, read16_ready s .prog _ h2]

end Sys2Proof.Machine
end

