-- ==== Sys2Proof/Tests/Slice0.lean ====
section
/-! SUPPORT. Tests: the smoke test of WellFormed, words of the opcode table for every instruction, worked examples of 95_test_vectors.md (the number in a
name is the number of the example there), and for each statement with hypotheses a state and operands that meet them. -/

namespace Sys2Proof.Tests

open Sys2Proof Sys2Proof.Machine

/-! ## Well-formedness: each check refuses a term (R115) -/

theorem test_wf_jmp_ext20_zero_nibble : Instr.wellFormed (.jmp (.ext20 1 0 0x2000)) = false := by decide

theorem test_wf_jmp_ind20_zero_nibble : Instr.wellFormed (.jmp (.ind20 .x 8 0 0x2000)) = false := by decide

theorem test_wf_jsr_ext20_zero_nibble : Instr.wellFormed (.jsr (.ext20 0xF 0 0x2000)) = false := by decide

theorem test_wf_jsr_ind20_zero_nibble : Instr.wellFormed (.jsr (.ind20 .z 2 0 0x2000)) = false := by decide

theorem test_wf_pshm_reserved_bit : Instr.wellFormed (.pshm 0x80) = false := by decide

theorem test_wf_pulm_reserved_bit : Instr.wellFormed (.pulm 0xFF) = false := by decide

theorem test_wf_accepts : ([.jmp (.ext20 0 0xF 0xFFFF), .jsr (.ind20 .y 0 3 4), .pshm 0x7F, .pulm 0x7F, .nop] : List Instr).all Instr.wellFormed = true := by
  decide

/-! ## Decoding: one word for each mnemonic and class of addressing modes, from spec/opcode_table.json, operand bits chosen at random; and the same words
from the encoder -/

/-- Each list of words decodes to the instruction beside it, all of it used, and is what the encoder gives. -/
def decodesTo (l : List (List Word × Instr)) : Bool :=
  l.all fun p =>
    (match decodeWords p.1 with
      | .ok (i, []) => decide (i = p.2)
      | _ => false) && encode p.2 == p.1

theorem test_decode_data_movement_1 : decodesTo [
    ([0x5564], .ldaa (.mem (.ind8 .y 0x64))),
    ([0x75EF], .ldaa (.imm8 0xEF)),
    ([0x1745, 0xCB99], .ldaa (.mem (.ind16 .x 0xCB99))),
    ([0x1775, 0x0A32], .ldaa (.mem (.ext 0xA32))),
    ([0x2765], .ldaa (.mem (.eoff .z))),
    ([0x6A72], .staa (.ind8 .z 0x72)),
    ([0x174A, 0xE8E4], .staa (.ind16 .x 0xE8E4)),
    ([0x177A, 0xE990], .staa (.ext 0xE990)),
    ([0x276A], .staa (.eoff .z)),
    ([0xD568], .ldab (.mem (.ind8 .y 0x68))),
    ([0xF5A8], .ldab (.imm8 0xA8)),
    ([0x17C5, 0x95BF], .ldab (.mem (.ind16 .x 0x95BF))),
    ([0x17F5, 0x518E], .ldab (.mem (.ext 0x518E))),
    ([0x27E5], .ldab (.mem (.eoff .z))),
    ([0xEA7F], .stab (.ind8 .z 0x7F)),
    ([0x17CA, 0xCEBE], .stab (.ind16 .x 0xCEBE)),
    ([0x17FA, 0x2A66], .stab (.ext 0x2A66)),
    ([0x27EA], .stab (.eoff .z)),
    ([0x95C2], .ldd (.mem (.ind8 .y 0xC2))),
    ([0x37B5, 0x955B], .ldd (.imm16 0x955B)),
    ([0x37C5, 0xF2A6], .ldd (.mem (.ind16 .x 0xF2A6))),
    ([0x37F5, 0xEADF], .ldd (.mem (.ext 0xEADF))),
    ([0x27A5], .ldd (.mem (.eoff .z))),
    ([0x8A23], .std (.ind8 .x 0x23)),
    ([0x37DA, 0x3735], .std (.ind16 .y 0x3735)),
    ([0x37FA, 0x0351], .std (.ext 0x351)),
    ([0x278A], .std (.eoff .x)),
    ([0x3735, 0x5C61], .lde (.imm16 0x5C61)),
    ([0x3745, 0x9A1B], .lde (.mem (.ind16 .x 0x9A1B))),
    ([0x3775, 0x3320], .lde (.mem (.ext 0x3320))),
    ([0x376A, 0x318E], .ste (.ind16 .z 0x318E)),
    ([0x377A, 0xDF25], .ste (.ext 0xDF25)),
    ([0x302F, 0x7D33], .movb (.ixpToExt 0x2F 0x7D33)),
    ([0x316E, 0x1FA9], .movw (.ixpToExt 0x6E 0x1FA9)),
    ([0x3235, 0x544E], .movb (.extToIxp 0x35 0x544E)),
    ([0x3347, 0x3421], .movw (.extToIxp 0x47 0x3421)),
    ([0x37FE, 0x32B2, 0x594D], .movb (.extToExt 0x32B2 0x594D)),
    ([0x37FF, 0xDBD9, 0x746C], .movw (.extToExt 0xDBD9 0x746C)),
    ([0x2771, 0xE1A3], .lded 0xE1A3),
    ([0x2773, 0xEEF6], .sted 0xEEF6)] = true := by decide

theorem test_decode_data_movement_2 : decodesTo [
    ([0x277A], .xgde),
    ([0x277B], .tde),
    ([0x27FB], .ted),
    ([0x3707], .tba),
    ([0x3717], .tab),
    ([0x371A], .xgab)] = true := by decide

theorem test_decode_arithmetic_1 : decodesTo [
    ([0x40E4], .suba (.mem (.ind8 .x 0xE4))),
    ([0x70C6], .suba (.imm8 0xC6)),
    ([0x1760, 0x01CC], .suba (.mem (.ind16 .z 0x1CC))),
    ([0x1770, 0xED16], .suba (.mem (.ext 0xED16))),
    ([0x2750], .suba (.mem (.eoff .y))),
    ([0x6107], .adda (.mem (.ind8 .z 7))),
    ([0x719B], .adda (.imm8 0x9B)),
    ([0x1751, 0x40C9], .adda (.mem (.ind16 .y 0x40C9))),
    ([0x1771, 0xB310], .adda (.mem (.ext 0xB310))),
    ([0x2741], .adda (.mem (.eoff .x))),
    ([0x52DC], .sbca (.mem (.ind8 .y 0xDC))),
    ([0x720E], .sbca (.imm8 0xE)),
    ([0x1742, 0xA41A], .sbca (.mem (.ind16 .x 0xA41A))),
    ([0x1772, 0x17C2], .sbca (.mem (.ext 0x17C2))),
    ([0x2762], .sbca (.mem (.eoff .z))),
    ([0x4387], .adca (.mem (.ind8 .x 0x87))),
    ([0x730C], .adca (.imm8 0xC)),
    ([0x1763, 0xB1C5], .adca (.mem (.ind16 .z 0xB1C5))),
    ([0x1773, 0x8CD5], .adca (.mem (.ext 0x8CD5))),
    ([0x2753], .adca (.mem (.eoff .y))),
    ([0x580E], .cmpa (.mem (.ind8 .y 0xE))),
    ([0x78AA], .cmpa (.imm8 0xAA)),
    ([0x1748, 0xC0B0], .cmpa (.mem (.ind16 .x 0xC0B0))),
    ([0x1778, 0x0D91], .cmpa (.mem (.ext 0xD91))),
    ([0x2768], .cmpa (.mem (.eoff .z))),
    ([0xC0E4], .subb (.mem (.ind8 .x 0xE4))),
    ([0xF0FA], .subb (.imm8 0xFA)),
    ([0x17E0, 0x5AFF], .subb (.mem (.ind16 .z 0x5AFF))),
    ([0x17F0, 0xF06D], .subb (.mem (.ext 0xF06D))),
    ([0x27D0], .subb (.mem (.eoff .y))),
    ([0xE138], .addb (.mem (.ind8 .z 0x38))),
    ([0xF186], .addb (.imm8 0x86)),
    ([0x17D1, 0x26FA], .addb (.mem (.ind16 .y 0x26FA))),
    ([0x17F1, 0x5E80], .addb (.mem (.ext 0x5E80))),
    ([0x27C1], .addb (.mem (.eoff .x))),
    ([0xD2E1], .sbcb (.mem (.ind8 .y 0xE1))),
    ([0xF20F], .sbcb (.imm8 0xF)),
    ([0x17C2, 0x717A], .sbcb (.mem (.ind16 .x 0x717A))),
    ([0x17F2, 0xDB3C], .sbcb (.mem (.ext 0xDB3C))),
    ([0x27E2], .sbcb (.mem (.eoff .z)))] = true := by decide

theorem test_decode_arithmetic_2 : decodesTo [
    ([0xC39E], .adcb (.mem (.ind8 .x 0x9E))),
    ([0xF377], .adcb (.imm8 0x77)),
    ([0x17E3, 0xF4DD], .adcb (.mem (.ind16 .z 0xF4DD))),
    ([0x17F3, 0x8615], .adcb (.mem (.ext 0x8615))),
    ([0x27D3], .adcb (.mem (.eoff .y))),
    ([0xD8D8], .cmpb (.mem (.ind8 .y 0xD8))),
    ([0xF8F6], .cmpb (.imm8 0xF6)),
    ([0x17C8, 0x6EB3], .cmpb (.mem (.ind16 .x 0x6EB3))),
    ([0x17F8, 0x403D], .cmpb (.mem (.ext 0x403D))),
    ([0x27E8], .cmpb (.mem (.eoff .z))),
    ([0x8041], .subd (.mem (.ind8 .x 0x41))),
    ([0x37B0, 0x54E9], .subd (.imm16 0x54E9)),
    ([0x37E0, 0x7D27], .subd (.mem (.ind16 .z 0x7D27))),
    ([0x37F0, 0x01EE], .subd (.mem (.ext 0x1EE))),
    ([0x2790], .subd (.mem (.eoff .y))),
    ([0xA124], .addd (.mem (.ind8 .z 0x24))),
    ([0x37B1, 0xE494], .addd (.imm16 0xE494)),
    ([0x37D1, 0x7221], .addd (.mem (.ind16 .y 0x7221))),
    ([0x37F1, 0xA3A2], .addd (.mem (.ext 0xA3A2))),
    ([0x2781], .addd (.mem (.eoff .x))),
    ([0x92DB], .sbcd (.mem (.ind8 .y 0xDB))),
    ([0x37B2, 0x14F0], .sbcd (.imm16 0x14F0)),
    ([0x37C2, 0x1B99], .sbcd (.mem (.ind16 .x 0x1B99))),
    ([0x37F2, 0xBC48], .sbcd (.mem (.ext 0xBC48))),
    ([0x27A2], .sbcd (.mem (.eoff .z))),
    ([0x839E], .adcd (.mem (.ind8 .x 0x9E))),
    ([0x37B3, 0x3338], .adcd (.imm16 0x3338)),
    ([0x37E3, 0xAD98], .adcd (.mem (.ind16 .z 0xAD98))),
    ([0x37F3, 0xAFAC], .adcd (.mem (.ext 0xAFAC))),
    ([0x2793], .adcd (.mem (.eoff .y))),
    ([0x98F8], .cpd (.mem (.ind8 .y 0xF8))),
    ([0x37B8, 0x1B57], .cpd (.imm16 0x1B57)),
    ([0x37C8, 0x6A9C], .cpd (.mem (.ind16 .x 0x6A9C))),
    ([0x37F8, 0xAF2C], .cpd (.mem (.ext 0xAF2C))),
    ([0x27A8], .cpd (.mem (.eoff .z))),
    ([0xFC5D], .addd (.imm8 0x5D)),
    ([0x3730, 0xE1FF], .sube (.imm16 0xE1FF)),
    ([0x3740, 0x5824], .sube (.mem (.ind16 .x 0x5824))),
    ([0x3770, 0x6951], .sube (.mem (.ext 0x6951))),
    ([0x3731, 0x3B5A], .adde (.imm16 0x3B5A))] = true := by decide

theorem test_decode_arithmetic_3 : decodesTo [
    ([0x3741, 0x4E7D], .adde (.mem (.ind16 .x 0x4E7D))),
    ([0x3771, 0x397B], .adde (.mem (.ext 0x397B))),
    ([0x3732, 0x2063], .sbce (.imm16 0x2063)),
    ([0x3742, 0xCB19], .sbce (.mem (.ind16 .x 0xCB19))),
    ([0x3772, 0x12AA], .sbce (.mem (.ext 0x12AA))),
    ([0x3733, 0xC5B8], .adce (.imm16 0xC5B8)),
    ([0x3743, 0x25E1], .adce (.mem (.ind16 .x 0x25E1))),
    ([0x3773, 0xC7E3], .adce (.mem (.ext 0xC7E3))),
    ([0x3738, 0x3E96], .cpe (.imm16 0x3E96)),
    ([0x3748, 0x9A91], .cpe (.mem (.ind16 .x 0x9A91))),
    ([0x3778, 0xC5D9], .cpe (.mem (.ext 0xC5D9))),
    ([0x7CFB], .adde (.imm8 0xFB)),
    ([0x01B9], .dec (.ind8 .x 0xB9)),
    ([0x1711, 0x2594], .dec (.ind16 .y 0x2594)),
    ([0x1731, 0xE742], .dec (.ext 0xE742)),
    ([0x2701, 0xDFAE], .decw (.ind16 .x 0xDFAE)),
    ([0x2731, 0x6F41], .decw (.ext 0x6F41)),
    ([0x13E7], .inc (.ind8 .y 0xE7)),
    ([0x1723, 0x4785], .inc (.ind16 .z 0x4785)),
    ([0x1733, 0x41B5], .inc (.ext 0x41B5)),
    ([0x2713, 0x2108], .incw (.ind16 .y 0x2108)),
    ([0x2733, 0x941A], .incw (.ext 0x941A)),
    ([0x16FF], .tst (.ind8 .y 0xFF)),
    ([0x1726, 0x128F], .tst (.ind16 .z 0x128F)),
    ([0x1736, 0x8403], .tst (.ext 0x8403)),
    ([0x2716, 0x2A38], .tstw (.ind16 .y 0x2A38)),
    ([0x2736, 0xF954], .tstw (.ext 0xF954)),
    ([0x2776], .tste),
    ([0x2778], .ade),
    ([0x2779], .sde),
    ([0x27F6], .tstd),
    ([0x27F8], .sxt),
    ([0x3701], .deca),
    ([0x3703], .inca),
    ([0x3706], .tsta),
    ([0x370A], .sba),
    ([0x370B], .aba),
    ([0x3711], .decb),
    ([0x3713], .incb),
    ([0x3716], .tstb)] = true := by decide

theorem test_decode_arithmetic_4 : decodesTo [
    ([0x371B], .cba),
    ([0x3721], .daa),
    ([0x3724], .mul),
    ([0x3725], .emul),
    ([0x3726], .emuls),
    ([0x3727], .fmuls),
    ([0x3728], .ediv),
    ([0x3729], .edivs),
    ([0x372A], .idiv),
    ([0x372B], .fdiv)] = true := by decide

theorem test_decode_logic_bit_shift_1 : decodesTo [
    ([0x6460], .eora (.mem (.ind8 .z 0x60))),
    ([0x74FE], .eora (.imm8 0xFE)),
    ([0x1754, 0x51D8], .eora (.mem (.ind16 .y 0x51D8))),
    ([0x1774, 0xEE94], .eora (.mem (.ext 0xEE94))),
    ([0x2744], .eora (.mem (.eoff .x))),
    ([0x4634], .anda (.mem (.ind8 .x 0x34))),
    ([0x76D9], .anda (.imm8 0xD9)),
    ([0x1766, 0xE0BA], .anda (.mem (.ind16 .z 0xE0BA))),
    ([0x1776, 0x7C4A], .anda (.mem (.ext 0x7C4A))),
    ([0x2756], .anda (.mem (.eoff .y))),
    ([0x67CD], .oraa (.mem (.ind8 .z 0xCD))),
    ([0x77D6], .oraa (.imm8 0xD6)),
    ([0x1757, 0x928F], .oraa (.mem (.ind16 .y 0x928F))),
    ([0x1777, 0x6F28], .oraa (.mem (.ext 0x6F28))),
    ([0x2747], .oraa (.mem (.eoff .x))),
    ([0x49A4], .bita (.mem (.ind8 .x 0xA4))),
    ([0x7940], .bita (.imm8 0x40)),
    ([0x1769, 0x44FD], .bita (.mem (.ind16 .z 0x44FD))),
    ([0x1779, 0x0F85], .bita (.mem (.ext 0xF85))),
    ([0x2759], .bita (.mem (.eoff .y))),
    ([0xE454], .eorb (.mem (.ind8 .z 0x54))),
    ([0xF427], .eorb (.imm8 0x27)),
    ([0x17D4, 0xF66A], .eorb (.mem (.ind16 .y 0xF66A))),
    ([0x17F4, 0x98AF], .eorb (.mem (.ext 0x98AF))),
    ([0x27C4], .eorb (.mem (.eoff .x))),
    ([0xC6AA], .andb (.mem (.ind8 .x 0xAA))),
    ([0xF680], .andb (.imm8 0x80)),
    ([0x17E6, 0x6D24], .andb (.mem (.ind16 .z 0x6D24))),
    ([0x17F6, 0xDED1], .andb (.mem (.ext 0xDED1))),
    ([0x27D6], .andb (.mem (.eoff .y))),
    ([0xE7AD], .orab (.mem (.ind8 .z 0xAD))),
    ([0xF747], .orab (.imm8 0x47)),
    ([0x17D7, 0xD2FE], .orab (.mem (.ind16 .y 0xD2FE))),
    ([0x17F7, 0x0140], .orab (.mem (.ext 0x140))),
    ([0x27C7], .orab (.mem (.eoff .x))),
    ([0xC9D1], .bitb (.mem (.ind8 .x 0xD1))),
    ([0xF946], .bitb (.imm8 0x46)),
    ([0x17E9, 0x8A63], .bitb (.mem (.ind16 .z 0x8A63))),
    ([0x17F9, 0x2AA3], .bitb (.mem (.ext 0x2AA3))),
    ([0x27D9], .bitb (.mem (.eoff .y)))] = true := by decide

theorem test_decode_logic_bit_shift_2 : decodesTo [
    ([0xA4E6], .eord (.mem (.ind8 .z 0xE6))),
    ([0x37B4, 0xA43B], .eord (.imm16 0xA43B)),
    ([0x37D4, 0xB40F], .eord (.mem (.ind16 .y 0xB40F))),
    ([0x37F4, 0x79D9], .eord (.mem (.ext 0x79D9))),
    ([0x2784], .eord (.mem (.eoff .x))),
    ([0x868F], .andd (.mem (.ind8 .x 0x8F))),
    ([0x37B6, 0xBC35], .andd (.imm16 0xBC35)),
    ([0x37E6, 0xE7C5], .andd (.mem (.ind16 .z 0xE7C5))),
    ([0x37F6, 0x12E5], .andd (.mem (.ext 0x12E5))),
    ([0x2796], .andd (.mem (.eoff .y))),
    ([0xA70F], .ord (.mem (.ind8 .z 0xF))),
    ([0x37B7, 0xF305], .ord (.imm16 0xF305)),
    ([0x37D7, 0x9BFD], .ord (.mem (.ind16 .y 0x9BFD))),
    ([0x37F7, 0x28C5], .ord (.mem (.ext 0x28C5))),
    ([0x2787], .ord (.mem (.eoff .x))),
    ([0x3734, 0x556A], .eore (.imm16 0x556A)),
    ([0x3744, 0xFE37], .eore (.mem (.ind16 .x 0xFE37))),
    ([0x3774, 0xC4A9], .eore (.mem (.ext 0xC4A9))),
    ([0x3736, 0xE648], .ande (.imm16 0xE648)),
    ([0x3746, 0x2855], .ande (.mem (.ind16 .x 0x2855))),
    ([0x3776, 0xB971], .ande (.mem (.ext 0xB971))),
    ([0x3737, 0xEBF9], .ore (.imm16 0xEBF9)),
    ([0x3747, 0x3975], .ore (.mem (.ind16 .x 0x3975))),
    ([0x3777, 0x972A], .ore (.mem (.ext 0x972A))),
    ([0x1071], .com (.ind8 .y 0x71)),
    ([0x1720, 0x5AE8], .com (.ind16 .z 0x5AE8)),
    ([0x1730, 0x0537], .com (.ext 0x537)),
    ([0x2710, 0x6E5C], .comw (.ind16 .y 0x6E5C)),
    ([0x2730, 0x7590], .comw (.ext 0x7590)),
    ([0x22D8], .neg (.ind8 .z 0xD8)),
    ([0x1702, 0x58AC], .neg (.ind16 .x 0x58AC)),
    ([0x1732, 0x0C42], .neg (.ext 0xC42)),
    ([0x2722, 0x0E8F], .negw (.ind16 .z 0xE8F)),
    ([0x2732, 0x6626], .negw (.ext 0x6626)),
    ([0x04B1], .asl (.ind8 .x 0xB1)),
    ([0x1714, 0x799E], .asl (.ind16 .y 0x799E)),
    ([0x1734, 0x39DB], .asl (.ext 0x39DB)),
    ([0x2704, 0x8DB5], .aslw (.ind16 .x 0x8DB5)),
    ([0x2734, 0x5872], .aslw (.ext 0x5872)),
    ([0x25BF], .clr (.ind8 .z 0xBF))] = true := by decide

theorem test_decode_logic_bit_shift_3 : decodesTo [
    ([0x1705, 0x60CA], .clr (.ind16 .x 0x60CA)),
    ([0x1735, 0x3E20], .clr (.ext 0x3E20)),
    ([0x2725, 0x4B9F], .clrw (.ind16 .z 0x4B9F)),
    ([0x2735, 0x9E9A], .clrw (.ext 0x9E9A)),
    ([0x0C4A], .rol (.ind8 .x 0x4A)),
    ([0x171C, 0xD03D], .rol (.ind16 .y 0xD03D)),
    ([0x173C, 0x0377], .rol (.ext 0x377)),
    ([0x270C, 0xDB98], .rolw (.ind16 .x 0xDB98)),
    ([0x273C, 0xC6F9], .rolw (.ext 0xC6F9)),
    ([0x2D88], .asr (.ind8 .z 0x88)),
    ([0x170D, 0x7DE9], .asr (.ind16 .x 0x7DE9)),
    ([0x173D, 0x05EA], .asr (.ext 0x5EA)),
    ([0x272D, 0x9855], .asrw (.ind16 .z 0x9855)),
    ([0x273D, 0xB636], .asrw (.ext 0xB636)),
    ([0x1ED4], .ror (.ind8 .y 0xD4)),
    ([0x172E, 0x4B4A], .ror (.ind16 .z 0x4B4A)),
    ([0x173E, 0x29EF], .ror (.ext 0x29EF)),
    ([0x271E, 0x194A], .rorw (.ind16 .y 0x194A)),
    ([0x273E, 0x98A0], .rorw (.ext 0x98A0)),
    ([0x0FEB], .lsr (.ind8 .x 0xEB)),
    ([0x171F, 0xAB23], .lsr (.ind16 .y 0xAB23)),
    ([0x173F, 0xA4FA], .lsr (.ext 0xA4FA)),
    ([0x270F, 0xBA7F], .lsrw (.ind16 .x 0xBA7F)),
    ([0x273F, 0x5D30], .lsrw (.ext 0x5D30)),
    ([0x1728, 0x94B7], .bclr 0x94 (.ind8 .z 0xB7)),
    ([0x08B2, 0x95AD], .bclr 0xB2 (.ind16 .x 0x95AD)),
    ([0x388D, 0x353E], .bclr 0x8D (.ext 0x353E)),
    ([0x2728, 0x87C0, 0x0BB9], .bclrw 0xBB9 (.ind16 .z 0x87C0)),
    ([0x2738, 0x062A, 0xE731], .bclrw 0xE731 (.ext 0x62A)),
    ([0x1719, 0x08AA], .bset 8 (.ind8 .y 0xAA)),
    ([0x296C, 0xCE36], .bset 0x6C (.ind16 .z 0xCE36)),
    ([0x39E6, 0x6ABF], .bset 0xE6 (.ext 0x6ABF)),
    ([0x2719, 0xBB41, 0xBB23], .bsetw 0xBB23 (.ind16 .y 0xBB41)),
    ([0x2739, 0xD903, 0xB2B7], .bsetw 0xB2B7 (.ext 0xD903)),
    ([0x2770], .come),
    ([0x2772], .nege),
    ([0x2774], .asle),
    ([0x2775], .clre),
    ([0x277C], .role),
    ([0x277D], .asre)] = true := by decide

theorem test_decode_logic_bit_shift_4 : decodesTo [
    ([0x277E], .rore),
    ([0x277F], .lsre),
    ([0x27F0], .comd),
    ([0x27F2], .negd),
    ([0x27F4], .asld),
    ([0x27F5], .clrd),
    ([0x27FC], .rold),
    ([0x27FD], .asrd),
    ([0x27FE], .rord),
    ([0x27FF], .lsrd),
    ([0x3700], .coma),
    ([0x3702], .nega),
    ([0x3704], .asla),
    ([0x3705], .clra),
    ([0x370C], .rola),
    ([0x370D], .asra),
    ([0x370E], .rora),
    ([0x370F], .lsra),
    ([0x3710], .comb),
    ([0x3712], .negb),
    ([0x3714], .aslb),
    ([0x3715], .clrb),
    ([0x371C], .rolb),
    ([0x371D], .asrb),
    ([0x371E], .rorb),
    ([0x371F], .lsrb)] = true := by decide

theorem test_decode_program_control_1 : decodesTo [
    ([0xCBD8, 0x29E0], .brclr 0xD8 (.ind8 .x 0x29 0xE0)),
    ([0x1A3F, 0x5425, 0x2894], .brclr 0x3F (.ind16 .y 0x5425 0x2894)),
    ([0x3A8C, 0xB354, 0x6631], .brclr 0x8C (.ext 0xB354 0x6631)),
    ([0x8B0B, 0x896C], .brset 0xB (.ind8 .x 0x89 0x6C)),
    ([0x1BAC, 0xF7B1, 0xB394], .brset 0xAC (.ind16 .y 0xF7B1 0xB394)),
    ([0x3B20, 0xA311, 0xA24C], .brset 0x20 (.ext 0xA311 0xA24C)),
    ([0xB075], .bra 0x75),
    ([0x3780, 0x2806], .lbra 0x2806),
    ([0xB185], .brn 0x85),
    ([0x3781, 0xA151], .lbrn 0xA151),
    ([0xB26B], .bhi 0x6B),
    ([0x3782, 0x881B], .lbhi 0x881B),
    ([0xB35B], .bls 0x5B),
    ([0x3783, 0xEB62], .lbls 0xEB62),
    ([0xB4F3], .bcc 0xF3),
    ([0x3784, 0xB80A], .lbcc 0xB80A),
    ([0xB557], .bcs 0x57),
    ([0x3785, 0xAD9E], .lbcs 0xAD9E),
    ([0xB697], .bne 0x97),
    ([0x3786, 0xCFFF], .lbne 0xCFFF),
    ([0xB7A1], .beq 0xA1),
    ([0x3787, 0x1293], .lbeq 0x1293),
    ([0xB8C3], .bvc 0xC3),
    ([0x3788, 0xDC70], .lbvc 0xDC70),
    ([0xB931], .bvs 0x31),
    ([0x3789, 0x5900], .lbvs 0x5900),
    ([0xBAEA], .bpl 0xEA),
    ([0x378A, 0x80DE], .lbpl 0x80DE),
    ([0xBBEF], .bmi 0xEF),
    ([0x378B, 0x6B73], .lbmi 0x6B73),
    ([0xBCDF], .bge 0xDF),
    ([0x378C, 0xA434], .lbge 0xA434),
    ([0xBDA2], .blt 0xA2),
    ([0x378D, 0x07F8], .lblt 0x7F8),
    ([0xBE27], .bgt 0x27),
    ([0x378E, 0x27AF], .lbgt 0x27AF),
    ([0xBFB7], .ble 0xB7),
    ([0x378F, 0x6232], .lble 0x6232),
    ([0x3790, 0xEDCB], .lbmv 0xEDCB),
    ([0x3791, 0x63AD], .lbev 0x63AD)] = true := by decide

theorem test_decode_program_control_2 : decodesTo [
    ([0x362D], .bsr 0x2D),
    ([0x27F9, 0xE61E], .lbsr 0xE61E),
    ([0x4B02, 0xE9F4], .jmp (.ind20 .x 0 2 0xE9F4)),
    ([0x9905, 0x44DF], .jsr (.ind20 .y 0 5 0x44DF)),
    ([0x7A08, 0xCD12], .jmp (.ext20 0 8 0xCD12)),
    ([0xFA09, 0x2753], .jsr (.ext20 0 9 0x2753)),
    ([0x2777], .rti),
    ([0x27F7], .rts),
    ([0x3720], .swi)] = true := by decide

theorem test_decode_index_extension_1 : decodesTo [
    ([0x6CAE], .cpx (.mem (.ind8 .z 0xAE))),
    ([0x8CB2], .stx (.ind8 .x 0xB2)),
    ([0xDC78], .ldx (.mem (.ind8 .y 0x78))),
    ([0x176C, 0x4BB8], .cpx (.mem (.ind16 .z 0x4BB8))),
    ([0x178C, 0x21D9], .stx (.ind16 .x 0x21D9)),
    ([0x17DC, 0x3DAD], .ldx (.mem (.ind16 .y 0x3DAD))),
    ([0x177C, 0x0DBD], .cpx (.mem (.ext 0xDBD))),
    ([0x17BC, 0x8438], .stx (.ext 0x8438)),
    ([0x17FC, 0x24CA], .ldx (.mem (.ext 0x24CA))),
    ([0x377C, 0x474B], .cpx (.imm16 0x474B)),
    ([0x37BC, 0x0341], .ldx (.imm16 0x341)),
    ([0x5D2E], .cpy (.mem (.ind8 .y 0x2E))),
    ([0xADCB], .sty (.ind8 .z 0xCB)),
    ([0xCDD0], .ldy (.mem (.ind8 .x 0xD0))),
    ([0x175D, 0xE993], .cpy (.mem (.ind16 .y 0xE993))),
    ([0x17AD, 0x0259], .sty (.ind16 .z 0x259)),
    ([0x17CD, 0x5695], .ldy (.mem (.ind16 .x 0x5695))),
    ([0x177D, 0x0588], .cpy (.mem (.ext 0x588))),
    ([0x17BD, 0x3A26], .sty (.ext 0x3A26)),
    ([0x17FD, 0x704B], .ldy (.mem (.ext 0x704B))),
    ([0x377D, 0xF168], .cpy (.imm16 0xF168)),
    ([0x37BD, 0x8692], .ldy (.imm16 0x8692)),
    ([0x4EFD], .cpz (.mem (.ind8 .x 0xFD))),
    ([0x9E7E], .stz (.ind8 .y 0x7E)),
    ([0xEE6A], .ldz (.mem (.ind8 .z 0x6A))),
    ([0x174E, 0xCDBE], .cpz (.mem (.ind16 .x 0xCDBE))),
    ([0x179E, 0x7192], .stz (.ind16 .y 0x7192)),
    ([0x17EE, 0x99B9], .ldz (.mem (.ind16 .z 0x99B9))),
    ([0x177E, 0x998E], .cpz (.mem (.ext 0x998E))),
    ([0x17BE, 0x3E9D], .stz (.ext 0x3E9D)),
    ([0x17FE, 0xD887], .ldz (.mem (.ext 0xD887))),
    ([0x377E, 0x9675], .cpz (.imm16 0x9675)),
    ([0x37BE, 0x42AE], .ldz (.imm16 0x42AE)),
    ([0x3CD6], .aix (.imm8 0xD6)),
    ([0x373C, 0xA151], .aix (.imm16 0xA151)),
    ([0x3D1E], .aiy (.imm8 0x1E)),
    ([0x373D, 0x862A], .aiy (.imm16 0x862A)),
    ([0x3E9A], .aiz (.imm8 0x9A)),
    ([0x373E, 0xCABB], .aiz (.imm16 0xCABB)),
    ([0x274D], .tyx)] = true := by decide

theorem test_decode_index_extension_2 : decodesTo [
    ([0x274E], .tzx),
    ([0x274F], .tsx),
    ([0x275C], .txy),
    ([0x275E], .tzy),
    ([0x275F], .tsy),
    ([0x276C], .txz),
    ([0x276D], .tyz),
    ([0x276F], .tsz),
    ([0x27BB], .tekb),
    ([0x27FA], .tbek),
    ([0x374C], .xgex),
    ([0x374D], .aex),
    ([0x374E], .txs),
    ([0x374F], .abx),
    ([0x375C], .xgey),
    ([0x375D], .aey),
    ([0x375E], .tys),
    ([0x375F], .aby),
    ([0x376C], .xgez),
    ([0x376D], .aez),
    ([0x376E], .tzs),
    ([0x376F], .abz),
    ([0x379C], .tbxk),
    ([0x379D], .tbyk),
    ([0x379E], .tbzk),
    ([0x379F], .tbsk),
    ([0x37AC], .txkb),
    ([0x37AD], .tykb),
    ([0x37AE], .tzkb),
    ([0x37AF], .tskb),
    ([0x37CC], .xgdx),
    ([0x37CD], .adx),
    ([0x37DC], .xgdy),
    ([0x37DD], .ady),
    ([0x37EC], .xgdz),
    ([0x37ED], .adz)] = true := by decide

theorem test_decode_stack_ccr : decodesTo [
    ([0x6FBA], .cps (.mem (.ind8 .z 0xBA))),
    ([0x8F9F], .sts (.ind8 .x 0x9F)),
    ([0xDF80], .lds (.mem (.ind8 .y 0x80))),
    ([0x176F, 0xE551], .cps (.mem (.ind16 .z 0xE551))),
    ([0x178F, 0xDA83], .sts (.ind16 .x 0xDA83)),
    ([0x17DF, 0x58D9], .lds (.mem (.ind16 .y 0x58D9))),
    ([0x177F, 0xA6DC], .cps (.mem (.ext 0xA6DC))),
    ([0x17BF, 0xDF2D], .sts (.ext 0xDF2D)),
    ([0x17FF, 0x37AD], .lds (.mem (.ext 0x37AD))),
    ([0x377F, 0x4BF1], .cps (.imm16 0x4BF1)),
    ([0x37BF, 0x7BC7], .lds (.imm16 0x7BC7)),
    ([0x341F], .pshm 0x1F),
    ([0x351D], .pulm 0x1D),
    ([0x3F32], .ais (.imm8 0x32)),
    ([0x373F, 0xA501], .ais (.imm16 0xA501)),
    ([0x373A, 0xBD27], .andp 0xBD27),
    ([0x373B, 0x5E96], .orp 0x5E96),
    ([0x3708], .psha),
    ([0x3709], .pula),
    ([0x3718], .pshb),
    ([0x3719], .pulb),
    ([0x372C], .tpd),
    ([0x372D], .tdp),
    ([0x37FC], .tpa),
    ([0x37FD], .tap)] = true := by decide

theorem test_decode_dsp : decodesTo [
    ([0x7B6A], .mac 6 0xA),
    ([0xFBB2], .rmac 0xB 2),
    ([0x27B0], .ldhi),
    ([0x27B1], .tedm),
    ([0x27B2], .tem),
    ([0x27B3], .tmxed),
    ([0x27B4], .tmer),
    ([0x27B5], .tmet),
    ([0x27B6], .aslm),
    ([0x27B7], .clrm),
    ([0x27B8], .pshmac),
    ([0x27B9], .pulmac),
    ([0x27BA], .asrm),
    ([0x3722], .ace),
    ([0x3723], .aced),
    ([0x372F], .tdmsk)] = true := by decide

theorem test_decode_stop_wait_null : decodesTo [
    ([0x274C], .nop),
    ([0x27F1], .lpstop),
    ([0x27F3], .wai),
    ([0x37A6], .bgnd)] = true := by decide

/-- Unassigned cells of each page (R114). -/
theorem test_decode_unassigned :
    ([0x0700, 0x3700 + 0x2E, 0x7D00, 0xFF00, 0x1707, 0x270A, 0x2780 + 0x09, 0x37FB] : List Word).all (fun w => (decodeOp w 0 0).isNone) = true := by
  decide

/-- An instruction cut short, and no bytes at all, are refused by name. -/
theorem test_decode_truncated : decodeBytes [0x17, 0x75, 0x12] = .error .truncated ∧ decodeBytes [] = .error .truncated ∧
    decodeBytes [0x37, 0xFE, 0x10, 0x00] = .error .truncated := by decide

/-! ## Single steps -/

/-- All flags clear, IP = 7. -/
def clear : CCR := { CCR.reset with s := false }

/-- The state the examples start from: registers 0, memory empty, A0 = $00200. -/
def base : State := { State.reset with ccr := clear, pc := 0x200 }

/-- Bytes in data space from `a` up, modulo 2^20. -/
def put (a : Addr) (bs : List Byte) (s : State) : State :=
  match bs with
  | [] => s
  | b :: t => put (a + 1) t (s.putByte a b)

/-- Data space holds these bytes from `a` up. -/
def holds (s : State) (a : Addr) (bs : List Byte) : Bool :=
  match bs with
  | [] => true
  | b :: t => s.byteAt .data a == b && holds s (a + 1) t

/-- One step that answers a next state with this property. -/
def steps (s : State) (p : State → Bool) : Bool :=
  match step s with
  | .next t => p t
  | _ => false

/-- One step that is refused for this reason. -/
def refuses (s : State) (r : Refusal) : Bool :=
  match step s with
  | .refused q => q == r
  | _ => false

/-- One step that faults for this reason. -/
def faults (s : State) (f : Fault) : Bool :=
  match step s with
  | .fault g => g == f
  | _ => false

/-- One step of the instruction with these bytes, placed at the pc. -/
def runs (s : State) (code : List Byte) (p : State → Bool) : Bool := steps (put s.pc code s) p

theorem test_T3_ldaa : runs (base |>.withZ20 0xFFFF0 |> put 0x10 [0]) [0x17, 0x65, 0, 0x20]
    (fun t => t.a == 0 && !t.ccr.n && t.ccr.z && !t.ccr.v) = true := by decide

theorem test_T4_ldaa : runs ({ base with e := 0xFFE0 } |>.withX20 0x10 |> put 0xFFFF0 [0x7F]) [0x27, 0x45]
    (fun t => t.a == 0x7F && !t.ccr.n && !t.ccr.z && !t.ccr.v) = true := by decide

theorem test_T6_ldd : runs ({ base with ek := 3 } |> put 0x3FFFF [0x12] |> put 0x40000 [0x34]) [0x37, 0xF5, 0xFF, 0xFF]
    (fun t => t.d == 0x1234 && !t.ccr.n && !t.ccr.z && !t.ccr.v) = true := by decide

theorem test_T8_jmp : runs (base |>.withX20 4) [0x4B, 0xF, 0xFF, 0xFE]
    (fun t => t.pc == 2) = true := by decide

theorem test_T9_jmp : runs (base) [0x7A, 1, 0, 1]
    (fun t => t.pc == 0x10000) = true := by decide

theorem test_T10_movb : runs ({ base with ek := 2 } |>.withX20 0x10000 |> put 0x10000 [0]) [0x30, 0xFF, 0x40, 0]
    (fun t => t.x20 == 0xFFFF && holds t 0x24000 [0] && !t.ccr.n && t.ccr.z && !t.ccr.v) = true := by decide

theorem test_T12_bra : runs { base with pc := 0 } [0xB0, 0x80] (fun t => t.pc == 0xFFF86) = true := by decide

theorem test_T15_ldd : runs (base |> put 0x1001 [0xAB, 0xCD]) [0x37, 0xF5, 0x10, 1]
    (fun t => t.d == 0xABCD && t.a == 0xAB && t.b == 0xCD && t.ccr.n && !t.ccr.z && !t.ccr.v) = true := by decide

theorem test_T16_std : runs ({ base with ek := 0 } |>.withD 0x1234) [0x37, 0xFA, 0xFF, 0xFF]
    (fun t => holds t 0xFFFF [0x12] && holds t 0x10000 [0x34] && !t.ccr.n && !t.ccr.z && !t.ccr.v) = true := by decide

theorem test_T18_sted : runs ({ base with e := 0x1234, ek := 0 } |>.withD 0x5678) [0x27, 0x73, 0x10, 0]
    (fun t => holds t 0x1000 [0x12, 0x34, 0x56, 0x78]) = true := by decide

theorem test_T19_lded : runs ({ base with ek := 0 } |> put 0x1000 [0x80, 0, 0, 1]) [0x27, 0x71, 0x10, 0]
    (fun t => t.e == 0x8000 && t.d == 1) = true := by decide

theorem test_T20_movw : runs ({ base with ek := 0 } |> put 0x1000 [0x80, 0]) [0x37, 0xFF, 0x10, 0, 0x10, 2]
    (fun t => holds t 0x1002 [0x80, 0] && t.ccr.n && !t.ccr.z && !t.ccr.v) = true := by decide

theorem test_T22_tab : runs ({ base with a := 0x90, b := 1 }) [0x37, 0x17]
    (fun t => t.b == 0x90 && t.d == 0x9090 && t.ccr.n && !t.ccr.z && !t.ccr.v) = true := by decide

theorem test_T25_xgde : runs ({ base with e := 0x2222 } |>.withD 0x1111) [0x27, 0x7A]
    (fun t => t.d == 0x2222 && t.e == 0x1111) = true := by decide

theorem test_T28_adda : runs ({ base with a := 0x7F }) [0x71, 1]
    (fun t => t.a == 0x80 && t.ccr.h && t.ccr.n && !t.ccr.z && t.ccr.v && !t.ccr.c) = true := by decide

theorem test_T36_adca : runs ({ base with a := 0x80, ccr := { clear with c := true } }) [0x73, 0x7F]
    (fun t => t.a == 0 && t.ccr.h && !t.ccr.n && t.ccr.z && !t.ccr.v && t.ccr.c) = true := by decide

theorem test_T39_aba : runs ({ base with a := 0x80, b := 0x80 }) [0x37, 0xB]
    (fun t => t.a == 0 && t.b == 0x80 && !t.ccr.h && !t.ccr.n && t.ccr.z && t.ccr.v && t.ccr.c) = true := by decide

theorem test_T40_addd : runs (base |>.withD 0x7FFF) [0x37, 0xB1, 0, 1]
    (fun t => t.d == 0x8000 && t.ccr.n && !t.ccr.z && t.ccr.v && !t.ccr.c) = true := by decide

theorem test_T46_addd : runs (base |>.withD 0x8000) [0xFC, 0x80]
    (fun t => t.d == 0x7F80 && !t.ccr.n && !t.ccr.z && t.ccr.v && t.ccr.c) = true := by decide

theorem test_T47_ade : runs ({ base with e := 0x4000 } |>.withD 0x4000) [0x27, 0x78]
    (fun t => t.e == 0x8000 && t.ccr.n && !t.ccr.z && t.ccr.v && !t.ccr.c) = true := by decide

theorem test_T52_suba : runs ({ base with a := 0x7F }) [0x70, 0xFF]
    (fun t => t.a == 0x80 && t.ccr.n && !t.ccr.z && t.ccr.v && t.ccr.c) = true := by decide

theorem test_T55_sbca : runs ({ base with a := 0x80, ccr := { clear with c := true } }) [0x72, 0]
    (fun t => t.a == 0x7F && !t.ccr.n && !t.ccr.z && t.ccr.v && !t.ccr.c) = true := by decide

theorem test_T58_cmpa : runs ({ base with a := 0x80 }) [0x78, 0x7F]
    (fun t => t.a == 0x80 && !t.ccr.n && !t.ccr.z && t.ccr.v && !t.ccr.c) = true := by decide

theorem test_T60_sde : runs ({ base with e := 0 } |>.withD 1) [0x27, 0x79]
    (fun t => t.e == 0xFFFF && t.ccr.n && !t.ccr.z && !t.ccr.v && t.ccr.c) = true := by decide

theorem test_T63_inca : runs ({ base with a := 0x7F }) [0x37, 3]
    (fun t => t.a == 0x80 && t.ccr.n && !t.ccr.z && t.ccr.v) = true := by decide

theorem test_T66_decb : runs ({ base with b := 0x80 }) [0x37, 0x11]
    (fun t => t.b == 0x7F && !t.ccr.n && !t.ccr.z && t.ccr.v) = true := by decide

theorem test_T73_daa : runs ({ base with a := 0x9A, ccr := { clear with c := false, h := false } }) [0x37, 0x21]
    (fun t => t.a == 0 && t.ccr.c && !t.ccr.n && t.ccr.z) = true := by decide

theorem test_T77_daa : runs ({ base with a := 0x31, ccr := { clear with c := true, h := true } }) [0x37, 0x21]
    (fun t => t.a == 0x97 && t.ccr.c && t.ccr.n && !t.ccr.z) = true := by decide

theorem test_T85_mul : runs ({ base with a := 0x10, b := 8 }) [0x37, 0x24]
    (fun t => t.d == 0x80 && t.ccr.c) = true := by decide

theorem test_T91_emul : runs ({ base with e := 1 } |>.withD 0x8000) [0x37, 0x25]
    (fun t => t.e == 0 && t.d == 0x8000 && !t.ccr.n && !t.ccr.z && t.ccr.c) = true := by decide

theorem test_T94_emuls : runs ({ base with e := 0x8000 } |>.withD 0x7FFF) [0x37, 0x26]
    (fun t => t.e == 0xC000 && t.d == 0x8000 && t.ccr.n && !t.ccr.z && t.ccr.c) = true := by decide

theorem test_T97_fmuls : runs ({ base with e := 0x8000 } |>.withD 0x8000) [0x37, 0x27]
    (fun t => t.e == 0x8000 && t.d == 0 && t.ccr.n && !t.ccr.z && t.ccr.v && !t.ccr.c) = true := by decide

theorem test_T100_ediv : runs ({ base with ix := 3 } |>.withED 0x10000) [0x37, 0x28]
    (fun t => t.ix == 0x5555 && t.d == 1 && !t.ccr.n && !t.ccr.z && !t.ccr.v && !t.ccr.c) = true := by decide

theorem test_T105_edivs : runs ({ base with ix := 2 } |>.withED 0xFFFFFFF9) [0x37, 0x29]
    (fun t => t.ix == 0xFFFD && t.d == 0xFFFF && t.ccr.n && !t.ccr.z && !t.ccr.v && t.ccr.c) = true := by decide

theorem test_T106_edivs : runs ({ base with ix := 0xFFFE } |>.withED 7) [0x37, 0x29]
    (fun t => t.ix == 0xFFFD && t.d == 1 && t.ccr.n && !t.ccr.z && !t.ccr.v && t.ccr.c) = true := by decide

theorem test_T112_idiv : runs ({ base with ix := 0 } |>.withD 0x1234) [0x37, 0x2A]
    (fun t => t.ix == 0xFFFF && !t.ccr.z && !t.ccr.v && t.ccr.c) = true := by decide

theorem test_T114_fdiv : runs ({ base with ix := 3 } |>.withD 1) [0x37, 0x2B]
    (fun t => t.ix == 0x5555 && t.d == 1 && !t.ccr.z && !t.ccr.v && !t.ccr.c) = true := by decide

theorem test_T117_fdiv : runs ({ base with ix := 0 } |>.withD 1) [0x37, 0x2B]
    (fun t => t.ix == 0xFFFF && !t.ccr.z && t.ccr.v && t.ccr.c) = true := by decide

theorem test_T118_sxt : runs ({ base with a := 0x55, b := 0x80 }) [0x27, 0xF8]
    (fun t => t.a == 0xFF && t.d == 0xFF80 && t.ccr.n && !t.ccr.z) = true := by decide

theorem test_T121_coma : runs ({ base with a := 0x55 }) [0x37, 0]
    (fun t => t.a == 0xAA && t.ccr.n && !t.ccr.z && !t.ccr.v && t.ccr.c) = true := by decide

theorem test_T124_nega : runs ({ base with a := 0x80 }) [0x37, 2]
    (fun t => t.a == 0x80 && t.ccr.n && !t.ccr.z && t.ccr.v && t.ccr.c) = true := by decide

theorem test_T128_negd : runs (base |>.withD 0x8000) [0x27, 0xF2]
    (fun t => t.d == 0x8000 && t.ccr.n && !t.ccr.z && t.ccr.v && t.ccr.c) = true := by decide

theorem test_T130_clra : runs ({ base with a := 0xFF, b := 0x12, ccr := { clear with n := true, c := true } }) [0x37, 5]
    (fun t => t.a == 0 && t.d == 0x12 && !t.ccr.n && t.ccr.z && !t.ccr.v && !t.ccr.c) = true := by decide

theorem test_T131_bita : runs ({ base with a := 0x81 }) [0x79, 0x80]
    (fun t => t.ccr.n && !t.ccr.z && !t.ccr.v) = true := by decide

theorem test_T134_bset : runs (base |> put 0x2000 [0x7F]) [0x39, 1, 0x20, 0]
    (fun t => holds t 0x2000 [0x7F] && !t.ccr.n && !t.ccr.z && !t.ccr.v) = true := by decide

theorem test_T136_bclr : runs (base |> put 0x2000 [0x81]) [0x38, 1, 0x20, 0]
    (fun t => holds t 0x2000 [0x80] && t.ccr.n && !t.ccr.z && !t.ccr.v) = true := by decide

theorem test_T137_lsra : runs ({ base with a := 0x81, ccr := { clear with c := false } }) [0x37, 0xF]
    (fun t => t.a == 0x40 && !t.ccr.n && !t.ccr.z && t.ccr.v && t.ccr.c) = true := by decide

theorem test_T139_lsrd : runs ({ base with ccr := { clear with c := false } } |>.withD 0x8000) [0x27, 0xFF]
    (fun t => t.d == 0x4000 && !t.ccr.n && !t.ccr.z && !t.ccr.v && !t.ccr.c) = true := by decide

theorem test_T143_asla : runs ({ base with a := 0xC0, ccr := { clear with c := false } }) [0x37, 4]
    (fun t => t.a == 0x80 && t.ccr.n && !t.ccr.z && !t.ccr.v && t.ccr.c) = true := by decide

theorem test_T148_asra : runs ({ base with a := 0xFF, ccr := { clear with c := false } }) [0x37, 0xD]
    (fun t => t.a == 0xFF && t.ccr.n && !t.ccr.z && !t.ccr.v && t.ccr.c) = true := by decide

theorem test_T149_asrd : runs ({ base with ccr := { clear with c := false } } |>.withD 0x8001) [0x27, 0xFD]
    (fun t => t.d == 0xC000 && t.ccr.n && !t.ccr.z && !t.ccr.v && t.ccr.c) = true := by decide

theorem test_T150_rola : runs ({ base with a := 0, ccr := { clear with c := true } }) [0x37, 0xC]
    (fun t => t.a == 1 && !t.ccr.n && !t.ccr.z && !t.ccr.v && !t.ccr.c) = true := by decide

theorem test_T154_rora : runs ({ base with a := 0, ccr := { clear with c := true } }) [0x37, 0xE]
    (fun t => t.a == 0x80 && t.ccr.n && !t.ccr.z && t.ccr.v && !t.ccr.c) = true := by decide

theorem test_T157_rord : runs ({ base with ccr := { clear with c := true } } |>.withD 1) [0x27, 0xFE]
    (fun t => t.d == 0x8000 && t.ccr.n && !t.ccr.z && !t.ccr.v && t.ccr.c) = true := by decide

theorem test_T160_bra : runs base [0xB0, 0xFF] (fun t => t.pc == 0x204) = true := by decide

theorem test_T166_lbra : runs { base with pc := 0x10000 } [0x37, 0x80, 0x80, 0] (fun t => t.pc == 0x08006) = true := by decide

theorem test_T168_lbrn : runs ({ base with pc := 0x300 }) [0x37, 0x81, 1, 0]
    (fun t => t.pc == 0x304) = true := by decide

theorem test_T173_lbev : runs ({ base with ccr := { clear with ev := false, mv := true }, pc := 0x300 }) [0x37, 0x91, 1, 0]
    (fun t => t.pc == 0x304) = true := by decide

theorem test_T174_lbmv : runs ({ base with ccr := { clear with mv := true }, pc := 0x300 }) [0x37, 0x90, 1, 0]
    (fun t => t.pc == 0x406) = true := by decide

theorem test_T176_brclr : runs (base |>.withX20 0x400 |> put 0x410 [0xF0]) [0xCB, 0xF, 0x10, 8] (fun t => t.pc == 0x20E) = true := by decide

theorem test_T180_brset : runs (base |>.withX20 0x400 |> put 0x410 [0xF7]) [0x8B, 8, 0x10, 8]
    (fun t => t.pc == 0x204) = true := by decide

theorem test_T181_brset : runs (base |> put 0x1000 [0x81]) [0x3B, 0x81, 0x10, 0, 0xFF, 0xF6] (fun t => t.pc == 0x1FC) = true := by decide

theorem test_T183_jsr : runs ({ base with pc := 0x1FFFC } |>.withSP20 0x800 |>.withCCR (CCR.ofWord 0xE0)) [0xFA, 0, 0x20, 0]
    (fun t => t.sp20 == 0x7FC && holds t 0x800 [0, 2] && holds t 0x7FE [0, 0xE2] && t.pc == 0x2000) = true := by decide

theorem test_T184_bsr : runs ({ base with pc := 0x100 } |>.withSP20 0x7FE |>.withCCR (CCR.ofWord 0xE0)) [0x36, 0x20]
    (fun t => t.sp20 == 0x7FA && holds t 0x7FE [1, 4] && holds t 0x7FC [0, 0xE0] && t.pc == 0x124) = true := by decide

theorem test_T187_rts : runs (base |>.withSP20 0x7FC |>.withCCR (CCR.ofWord 0xE0) |> put 0x7FE [0xFF, 0xF3] |> put 0x800 [2, 6]) [0x27, 0xF7]
    (fun t => t.sp20 == 0x800 && t.ccr.word 0 == 0xE0) = true := by decide

theorem test_T189_swi : runs ({ base with pc := 0x10202 } |>.withSP20 0x7FE |>.withCCR (CCR.ofWord 0xE0) |> put 0xC [5, 0]) [0x37, 0x20]
    (fun t => t.sp20 == 0x7FA && holds t 0x7FE [2, 0xA] && holds t 0x7FC [0, 0xE1] && t.pc == 0x500 && t.ccr.ip == 7) = true := by decide

theorem test_T190_rti : runs (base |>.withSP20 0x7FA |>.withCCR (CCR.ofWord 0xE0) |> put 0x7FC [0x20, 0x11] |> put 0x7FE [2, 0xA]) [0x27, 0x77]
    (fun t => t.sp20 == 0x7FE && t.ccr.word 0 == 0x2010 && t.ccr.ip == 0 && t.ccr.h && t.ccr.sm) = true := by decide

theorem test_T192_abx : runs ({ base with b := 0x20 } |>.withX20 0xFFF0) [0x37, 0x4F]
    (fun t => t.x20 == 0x10010) = true := by decide

theorem test_T195_adx : runs (base |>.withX20 0x10000 |>.withD 0xFFFF) [0x37, 0xCD]
    (fun t => t.x20 == 0xFFFF) = true := by decide

theorem test_T196_aez : runs ({ base with e := 0x7FFF } |>.withZ20 0xF000) [0x37, 0x6D]
    (fun t => t.z20 == 0x16FFF) = true := by decide

theorem test_T198_aix : runs (base |>.withX20 0xFFFF) [0x3C, 1]
    (fun t => t.x20 == 0x10000 && t.ix == 0 && t.ccr.z) = true := by decide

theorem test_T199_aix : runs (base |>.withX20 0x8000) [0x37, 0x3C, 0x80, 0]
    (fun t => t.x20 == 0 && t.ccr.z) = true := by decide

theorem test_T201_cpx : runs (base |>.withX20 0x51000) [0x37, 0x7C, 0x10, 0]
    (fun t => !t.ccr.n && t.ccr.z && !t.ccr.v && !t.ccr.c) = true := by decide

theorem test_T203_ldx : runs (base |>.withX20 0x5ABCD) [0x37, 0xBC, 0, 0]
    (fun t => t.x20 == 0x50000 && !t.ccr.n && t.ccr.z && !t.ccr.v) = true := by decide

theorem test_T204_stx : runs ({ base with ek := 0 } |>.withX20 0x58001) [0x17, 0xBC, 0x10, 0]
    (fun t => holds t 0x1000 [0x80, 1] && t.ccr.n && !t.ccr.z && !t.ccr.v) = true := by decide

theorem test_T205_tsx : runs (base |>.withSP20 0xFFFE) [0x27, 0x4F]
    (fun t => t.x20 == 0x10000) = true := by decide

theorem test_T206_txs : runs (base |>.withX20 0x10000) [0x37, 0x4E]
    (fun t => t.sp20 == 0xFFFE) = true := by decide

theorem test_T208_txy : runs (base |>.withX20 0xA1234 |>.withY20 0) [0x27, 0x5C]
    (fun t => t.y20 == 0xA1234) = true := by decide

theorem test_T209_xgdx : runs (base |>.withX20 0x5ABCD |>.withD 0x1234) [0x37, 0xCC]
    (fun t => t.x20 == 0x51234 && t.d == 0xABCD) = true := by decide

theorem test_T210_xgey : runs ({ base with e := 1 } |>.withY20 0x2FFFF) [0x37, 0x5C]
    (fun t => t.y20 == 0x20001 && t.e == 0xFFFF) = true := by decide

theorem test_T211_tbxk : runs ({ base with b := 0xF1 } |>.withX20 0x10) [0x37, 0x9C]
    (fun t => t.x20 == 0x10010) = true := by decide

theorem test_T213_txkb : runs ({ base with xk := 0xA, b := 0xFF, a := 0x77 }) [0x37, 0xAC]
    (fun t => t.b == 0xA && t.a == 0x77) = true := by decide

theorem test_T217_pshm : runs ({ base with ek := 1, xk := 2, yk := 3, zk := 4, pc := 0x10000 } |>.withSP20 0x800 |>.withCCR (CCR.ofWord 0xE0)) [0x34, 0x60]
    (fun t => t.sp20 == 0x7FC && holds t 0x800 [0x12, 0x34] && holds t 0x7FE [0, 0xE1]) = true := by decide

theorem test_T222_psha : runs ({ base with a := 0xAB } |>.withSP20 0x7FE) [0x37, 8]
    (fun t => t.sp20 == 0x7FD && holds t 0x7FF [0xAB]) = true := by decide

theorem test_T223_pula : runs (base |>.withSP20 0x7FD |> put 0x7FF [0xAB]) [0x37, 9]
    (fun t => t.sp20 == 0x7FE && t.a == 0xAB) = true := by decide

theorem test_T225_ais : runs (base |>.withSP20 0x10000) [0x3F, 0xFC]
    (fun t => t.sp20 == 0xFFFC) = true := by decide

theorem test_T227_lds : runs (base |>.withSP20 0x3FFFF) [0x37, 0xBF, 7, 0xFE]
    (fun t => t.sp20 == 0x307FE && !t.ccr.n && !t.ccr.z && !t.ccr.v) = true := by decide

theorem test_T229_sts : runs ({ base with ek := 0 } |>.withSP20 0x107FE) [0x17, 0xBF, 0x10, 0]
    (fun t => holds t 0x1000 [7, 0xFE] && !t.ccr.n && !t.ccr.z && !t.ccr.v) = true := by decide

theorem test_T230_andp : runs (base) [0x37, 0x3A, 0xFF, 0x1F]
    (fun t => t.inhibit) = true := by decide

theorem test_T232_orp : runs (base) [0x37, 0x3B, 0x80, 0xEF]
    (fun t => t.ccr.ip == 7 && t.inhibit && t.ccr.s) = true := by decide

theorem test_T233_tap : runs ({ base with a := 0x85 }) [0x37, 0xFD]
    (fun t => t.inhibit && t.ccr.s && t.ccr.z && t.ccr.c) = true := by decide

theorem test_T234_tdp : runs (base |>.withD 0xAF) [0x37, 0x2D]
    (fun t => t.ccr.ip == 5 && t.inhibit) = true := by decide

theorem test_T237_tpd : runs ({ base with pc := 0x3FFFC } |>.withCCR (CCR.ofWord 0xE0)) [0x37, 0x2C]
    (fun t => t.d == 0xE4) = true := by decide

theorem test_T239_ace : runs ({ base with am := 0x7FFFF0000, e := 1, ccr := { clear with mv := false } }) [0x37, 0x22]
    (fun t => t.am == 0x800000000 && !t.sl && t.ccr.mv && t.ccr.ev) = true := by decide

theorem test_T242_aced : runs ({ base with am := 0x7FFFFFFFF, ccr := { clear with mv := false } } |>.withED 1) [0x37, 0x23]
    (fun t => t.am == 0x800000000 && !t.sl && t.ccr.mv && t.ccr.ev) = true := by decide

theorem test_T244_aced : runs ({ base with am := 0, ccr := { clear with mv := true } } |>.withED 0) [0x37, 0x23]
    (fun t => t.am == 0 && !t.ccr.mv && !t.ccr.ev) = true := by decide

theorem test_T245_tmet : runs ({ base with am := 0x800000000, sl := false, ccr := { clear with mv := true, ev := true, sm := true } }) [0x27, 0xB5]
    (fun t => t.e == 0x7FFF && !t.ccr.n && !t.ccr.z) = true := by decide

theorem test_T247_tmet : runs ({ base with am := 0xC0000000, ccr := { clear with ev := true, mv := false, sm := true } }) [0x27, 0xB5]
    (fun t => t.e == 0x7FFF) = true := by decide

theorem test_T251_tmer : runs ({ base with am := 0x12358000, ccr := { clear with sm := false } }) [0x27, 0xB4]
    (fun t => t.e == 0x1236) = true := by decide

theorem test_T253_tmer : runs ({ base with am := 0x7FFF8000, ccr := { clear with sm := true } }) [0x27, 0xB4]
    (fun t => t.e == 0x7FFF && t.ccr.ev && !t.ccr.n) = true := by decide

theorem test_T255_mac : runs ({ base with am := 0x10000, hr := 0x4000, ir := 0x2000, xmsk := 0xFF, ymsk := 0xFF } |>.withX20 0x1000 |>.withY20 0x2000
      |> put 0x1002 [0x11, 0x11] |> put 0x2002 [0x22, 0x22]) [0x7B, 0x22]
    (fun t => t.ed == 0x10000000 && t.am == 0x10010000 && t.ix == 0x1002 && t.iy == 0x2002 && t.iz == 0x4000 && t.hr == 0x1111 && t.ir == 0x2222 &&
      !t.ccr.ev && !t.ccr.v) = true := by decide

theorem test_T257_mac : runs ({ base with ix := 0x1000, iy := 0x2007, xmsk := 7, ymsk := 7 }) [0x7B, 0xF1]
    (fun t => t.yk == 0) = true := by decide

theorem test_T258_rmac : runs ({ base with xmsk := 0xFF, ymsk := 0xFF, e := 1, hr := 0x4000, ir := 0x4000, ix := 0x1000, iy := 0x2000, am := 0 } |> put 0x1002 [0x20, 0] |> put 0x2002 [0x40, 0] |> put 0x1004 [0, 0] |> put 0x2004 [0, 0]) [0xFB, 0x22]
    (fun t => t.hr == 0 && t.ir == 0 && t.am == 0x30000000 && t.ix == 0x1004 && t.iy == 0x2004 && t.e == 0xFFFF && !t.ccr.ev) = true := by decide

theorem test_T260_aslm : runs ({ base with am := 0xC00000001 }) [0x27, 0xB6]
    (fun t => t.am == 0x800000002 && t.ccr.c && t.ccr.n && t.ccr.ev) = true := by decide

theorem test_T262_asrm : runs ({ base with am := 0xFFFFFFFFF }) [0x27, 0xBA]
    (fun t => t.am == 0xFFFFFFFFF && t.ccr.c && t.ccr.n && !t.ccr.ev) = true := by decide

theorem test_T263_tedm : runs ({ base with e := 0x8000 } |>.withD 1) [0x27, 0xB1]
    (fun t => t.am == 0xF80000001 && !t.ccr.ev && !t.ccr.mv) = true := by decide

theorem test_T265_tem : runs ({ base with e := 0xC000 }) [0x27, 0xB2]
    (fun t => t.am == 0xFC0000000) = true := by decide

theorem test_T266_tmxed : runs ({ base with am := 0xF80000001, xk := 5 }) [0x27, 0xB3]
    (fun t => t.ix == 0xFFFF && t.e == 0x8000 && t.d == 1 && t.xk == 5) = true := by decide

theorem test_T268_clrm : runs ({ base with am := 0xFFFFFFFFF, ccr := { clear with ev := true, mv := true } }) [0x27, 0xB7]
    (fun t => t.am == 0 && !t.ccr.ev && !t.ccr.mv) = true := by decide

theorem test_T269_ldhi : runs (base |>.withX20 0x1000 |>.withY20 0x2000 |> put 0x1000 [0x40, 0] |> put 0x2000 [0x20, 0]) [0x27, 0xB0]
    (fun t => t.hr == 0x4000 && t.ir == 0x2000) = true := by decide

theorem test_T270_tdmsk : runs (base |>.withD 0xF07) [0x37, 0x2F]
    (fun t => t.xmsk == 0xF && t.ymsk == 7) = true := by decide

theorem test_T273_lpstop : runs ({ base with ccr := { clear with s := true } }) [0x27, 0xF1]
    (fun t => t.pc == 0x202) = true := by decide

theorem test_T280_nop : runs ({ base with pc := 0x500 }) [0x27, 0x4C]
    (fun t => t.pc == 0x502) = true := by decide

/-! ## Boundary, exceptions, reset -/

/-- A request of level `l`, answered with `r`. -/
def request (l : BitVec 3) (r : IackResult) : HostInput := { reset := false, bkpt := false, irq := l, iack := r, writes := [] }

/-- Reset asserted. -/
def resetInput : HostInput := { reset := true, bkpt := false, irq := 0, iack := .spurious, writes := [] }

/-- The platform with bytes of one kind among RAM. -/
def region (first size : Nat) (k : Kind) : Platform := { Platform.default with regions := [⟨.data, first, size, k⟩] }

/-- The platform with bytes that nothing answers. -/
def hole (first size : Nat) : Platform := region first size .unmapped

/-- Other agents store these bytes in data space, and nothing else happens. -/
def stored (l : List (Addr × Byte)) : HostInput := { quiet with writes := l.map fun p => ⟨.data, p.1, p.2⟩ }

theorem test_T274_lpstop : runs { base with ccr := { clear with ip := 3 } } [0x27, 0xF1]
    (fun t => t.run == .stopped && t.events == [.lpstopBroadcast 3] && t.pc == 0x202 && t.mem == (put 0x200 [0x27, 0xF1] base).mem) = true := by decide

theorem test_T275_level_below_ip : steps { base with run := .stopped, ccr := { clear with ip := 3 }, inputs := [request 2 (.vector 0x40)] }
    (fun t => t.run == .stopped && t.inputs == []) = true := by decide

theorem test_T276_interrupt_ends_stop :
    steps ({ base with run := .stopped, pc := 0x202, ccr := { clear with ip := 3 }, inputs := [request 5 (.vector 0x40)] } |>.withSP20 0x800
      |> put 0x80 [8, 0]) (fun t => holds t 0x800 [2, 8] && holds t 0x7FE [0, 0x60] && t.sp20 == 0x7FC && t.ccr.ip == 5 && t.pc == 0x800 &&
        t.run == .running && t.events == [.interruptAcknowledge 5]) = true := by decide

theorem test_T278_autovector :
    steps ({ base with run := .waiting, pc := 0x302, ccr := { clear with ip := 0 }, inputs := [request 1 .autovector] } |>.withSP20 0x800
      |> put 0x22 [9, 0]) (fun t => holds t 0x800 [3, 8] && t.ccr.ip == 1 && t.pc == 0x900 && t.run == .running) = true := by decide

theorem test_T281_bgnd_illegal : runs ({ base with pc := 0x400 } |>.withSP20 0x800 |> put 0xE [6, 0]) [0x37, 0xA6]
    (fun t => holds t 0x800 [4, 8] && holds t 0x7FE [0, 0xE0] && t.pc == 0x600 && t.ccr.ip == 7) = true := by decide

theorem test_T284_unassigned_at_bank_end : runs ({ base with pc := 0x3FFFA, ccr := { clear with ip := 0 } } |>.withSP20 0x800 |> put 0xE [6, 0]) [7, 0]
    (fun t => holds t 0x800 [0, 2] && holds t 0x7FE [0, 4] && t.pc == 0x600) = true := by decide

theorem test_T285_bus_error_read :
    runs ({ base with a := 0x11, pc := 0x300, plat := hole 0x8000 8, ccr := { clear with c := true } } |>.withSP20 0x800 |> put 0xA [7, 0])
      [0x17, 0x75, 0x80, 0] (fun t => t.a == 0x11 && t.ccr == { clear with c := true } && holds t 0x800 [3, 6] && t.pc == 0x700) = true := by decide

theorem test_T286_double_fault :
    runs ({ base with a := 0x11, e := 5, pc := 0x300, plat := hole 0x7FE 2 } |>.withSP20 0x800) [0x34, 3]
      (fun t => t.run == .halted && holds t 0x800 [0x11, 0] && t.sp20 == 0x7FE) = true := by decide

theorem test_T287_divide_by_zero :
    runs ({ base with e := 1, pc := 0x300 } |>.withSP20 0x800 |> put 0x10 [7, 0x80]) [0x37, 0x28]
      (fun t => t.e == 1 && t.ix == 0 && holds t 0x800 [3, 8] && t.pc == 0x780) = true := by decide

theorem test_T288_interrupt :
    steps ({ base with pc := 0x12344, ccr := { clear with ip := 1, c := true }, inputs := [request 3 (.vector 0x40)] } |>.withSP20 0x900
      |> put 0x80 [0x20, 0]) (fun t => holds t 0x900 [0x23, 0x4A] && holds t 0x8FE [1, 0x21] && t.sp20 == 0x8FC && t.ccr.ip == 3 && t.pc == 0x2000) = true := by
  decide

theorem test_T292_level7_nonmaskable :
    steps ({ base with inputs := [request 7 (.vector 0x40)], plat := { Platform.default with level7NonMaskable := true } } |>.withSP20 0x900
      |> put 0x80 [0x20, 0]) (fun t => t.pc == 0x2000 && t.ccr.ip == 7) = true := by decide

theorem test_T296_hold_off :
    steps ({ base with inhibit := true, ccr := { clear with ip := 0 }, inputs := [request 5 (.vector 0x40)] } |> put 0x200 [0x27, 0x4C])
      (fun t => t.pc == 0x202 && !t.inhibit && t.ccr.ip == 0) = true := by decide

theorem test_T299_reset :
    steps ({ base with run := .halted, inhibit := true, inputs := [resetInput] } |> put 0 [0, 0x12, 4, 0, 7, 0xFE, 0x80, 0])
      (fun t => t.zk == 0 && t.sk == 1 && t.pc == 0x20400 && t.sp20 == 0x107FE && t.z20 == 0x08000 && t.ccr.ip == 7 && !t.inhibit && t.run == .running) = true := by
  decide

theorem test_T302_reset_words_unmapped : steps { base with inputs := [resetInput], plat := hole 0 8 } (fun t => t.run == .halted) = true := by decide

theorem test_T221_reserved_mask : refuses (put 0x200 [0x34, 0x80] base) .reservedMaskBit = true := by decide

theorem test_store_into_prefetch_refused : refuses (put 0x200 [0x17, 0x7A, 0x02, 0x0B] base) .storeIntoPrefetch = true := by decide

theorem test_store_beyond_prefetch : runs base [0x17, 0x7A, 0x02, 0x0C] (fun t => t.pc == 0x204) = true := by decide

theorem test_device_read : runs { base with plat := region 0x4000 16 .device, replies := [.data 0x12AB] } [0x17, 0x75, 0x40, 1]
    (fun t => t.a == 0xAB && t.replies == [] && t.events == [.deviceRead .data 0x4001 false]) = true := by decide

/-- A store of another agent is in memory before the next instruction reads it (R99); one into what is about to be fetched is refused (R94). -/
theorem test_host_write : runs { base with inputs := [stored [(0x3000, 9), (0x3000, 7)]] } [0x17, 0x75, 0x30, 0]
    (fun t => t.a == 7 && holds t 0x3000 [7] && t.inputs == []) = true := by decide

theorem test_host_write_into_prefetch : refuses { base with inputs := [stored [(0x20B, 9)]] } .hostWriteIntoPrefetch = true ∧
    steps { base with inputs := [stored [(0x20B, 9)]], run := .waiting } (fun t => holds t 0x20B [9]) = true := by decide

/-- The kind is that of each address (R96): the odd byte of a word is ROM, and a word store is two byte cycles. -/
theorem test_kind_of_odd_byte : runs { base with a := 0x12, b := 0x34, plat := region 0x4001 1 .rom } [0x37, 0xFA, 0x40, 0]
    (fun t => holds t 0x4000 [0x12, 0] && t.events == [.romWrite 0x4001 false 0x34]) = true := by decide

/-- A read that nothing answers and that no bus error ends gives a free value (R96). -/
theorem test_open_bus : runs { base with plat := region 0x4000 2 .openBus } [0x37, 0xF5, 0x40, 0] (fun t => t.draws == 1 && t.pc == 0x204) = true := by decide

/-- RESET_LAYOUT is a parameter (R650): the words the other way round. -/
theorem test_reset_layout :
    steps ({ base with inputs := [resetInput], plat := { Platform.default with resetLayout :=
        { zk := ⟨3, 12⟩, sk := ⟨3, 8⟩, pk := ⟨3, 4⟩, pc := ⟨2, 0⟩, sp := ⟨1, 0⟩, iz := ⟨0, 0⟩ } } } |> put 0 [0x80, 0, 7, 0xFE, 4, 0, 0x31, 0x20])
      (fun t => t.zk == 3 && t.sk == 1 && t.pc == 0x20400 && t.sp == 0x7FE && t.iz == 0x8000) = true := by decide

/-- MAC_FRAME is a parameter (R568): AM alone, in three words. -/
theorem test_mac_frame :
    runs ({ base with am := 0x912345678, plat := { Platform.default with macFrame :=
        { words := 3, hr := ⟨9, 0⟩, ir := ⟨9, 0⟩, amLow := ⟨2, 0⟩, amMid := ⟨1, 0⟩, amHigh := ⟨0, 4⟩, sl := ⟨9, 0⟩, xmsk := ⟨9, 0⟩, ymsk := ⟨9, 0⟩ } } }
      |>.withSP20 0x800) [0x27, 0xB8] (fun t => t.sp20 == 0x7FA && holds t 0x7FC [0x56, 0x78, 0x12, 0x34, 0, 0x90]) = true := by decide

/-- RMAC where an interrupt waits for the next step: split between passes, but not right after ANDP, ORP, TAP or TDP (R570, R662), nor where a breakpoint comes
first. -/
theorem test_rmac_split :
    let s (held bkpt : Bool) : State :=
      { base with e := 1, inhibit := held, plat := { Platform.default with rmacInterruptible := true }, ccr := { clear with ip := 0 },
                  inputs := [{ quiet with irq := if held then 5 else 0 }, { request 5 .spurious with bkpt := bkpt }] }
    runs (s false false) [0xFB, 0x22] (fun t => t.e == 0 && t.pc == 0x200) = true ∧
      runs (s true false) [0xFB, 0x22] (fun t => t.e == 0xFFFF && t.pc == 0x202) = true ∧
      runs (s false true) [0xFB, 0x22] (fun t => t.e == 0xFFFF && t.pc == 0x202) = true := by decide

/-- The latch is clear outside the running state (R612). -/
theorem test_latch_cleared_by_breakpoint :
    steps { base with inhibit := true, inputs := [{ quiet with bkpt := true }], plat := { Platform.default with bdmEnabled := true } }
      (fun t => t.run == .background && !t.inhibit) = true ∧
    steps { base with inhibit := true, inputs := [{ quiet with bkpt := true }], sp := 0x800, plat := hole 0x800 1 } (fun t => t.run == .halted && !t.inhibit) = true := by
  decide

theorem test_odd_program_counter : faults { base with pc := 0x201 } .oddProgramCounter = true := by decide

/-- DAA on a combination its table does not list goes on: only A, N, Z, V and C are free (R251). -/
theorem test_T83_daa_goes_on : (match exec .daa { base with a := 7, ccr := { clear with h := true } } with
    | .next t => t.pc == 0x202 && t.ccr.h && t.draws == 5
    | _ => false) = true := by decide

/-! ## Witnesses: the hypotheses of the statements can be met, at the ends of their ranges -/

/-- Does the outcome answer a next state? -/
def completes (o : Out) : Bool :=
  match o with
  | .next _ => true
  | _ => false

/-- The state after an outcome that is one. -/
def after (s : State) (o : Out) : State :=
  match o with
  | .next t => t
  | _ => s

/-- A stack pointer at $00800, XK : IX at $01000, YK : IY at $02000. -/
def ready : State := base |>.withSP20 0x800 |>.withX20 0x1000 |>.withY20 0x2000

theorem witness_EncodingUndoesDecoding :
    decodeWords [0x75A3, 0xFFFF] = .ok (.ldaa (.imm8 0xA3), [0xFFFF]) ∧
      decodeWords [0x37FE, 0x1000, 0xFFFF] = .ok (.movb (.extToExt 0x1000 0xFFFF), []) := by decide

theorem witness_MemoryReadsWritesAndCanonicalForm :
    Memory.wf [(0, 1), (2 ^ 21 - 1, 0xFF)] = true ∧ Memory.wf [] = true ∧ (2 ^ 21 - 1 < 2 ^ 21) ∧
      ∀ a, Memory.get [(0, 1)] a = Memory.get (Memory.set [] 0 1) a := ⟨by decide, by decide, by decide, fun _ => rfl⟩

theorem witness_WordAccessAtEveryAddress :
    ([0x1000, 0x1001, 0xFFFFF, 0x0020C, 0x001FE] : List Addr).all ready.canWrite16 = true ∧ ready.canWrite16 0x001FF = false := by decide

theorem witness_InvariantKeptByEveryStep : ready.Inv ∧ ∃ t, step ready = .next t := ⟨⟨by decide, by decide, by decide⟩, _, rfl⟩

theorem witness_StepChangesOnlyWhatItMay :
    (∃ t, step (put 0x200 [0x17, 0x7A, 0x30, 0x00] { ready with a := 9 }) = .next t ∧ Memory.get t.mem 0x3000 ≠ Memory.get ready.mem 0x3000) ∧
      let s : State := { ready with run := .waiting, inputs := [stored [(0xFFFFF, 9)]] }
      (∃ t, step s = .next t) ∧ Memory.get s.nextInput.mem 0xFFFFF ≠ Memory.get s.mem 0xFFFFF :=
  ⟨⟨_, rfl, by decide⟩, ⟨_, rfl⟩, by decide⟩

theorem witness_PrefetchWindowNeverChanges :
    (∃ t, exec (.staa (.ext 0x20C)) { base with a := 9 } = .next t) ∧ base.plat.splitSpaces = false ∧
      ([0x200, 0x20B] : List Addr).all (fun a => decide ((a - base.pc).toNat < 12)) = true ∧ ((0x20C : Addr) - base.pc).toNat = 12 :=
  ⟨⟨_, rfl⟩, rfl, by decide, by decide⟩

theorem witness_ModeFieldWriters :
    (∃ t, exec (.andp 0) base = .next t ∧ t.ccr.ip ≠ base.ccr.ip) ∧ (∃ t, exec (.orp 0x10) base = .next t ∧ t.ccr.sm ≠ base.ccr.sm) ∧
      ∃ t, exec .tap { base with a := 0x80 } = .next t ∧ t.ccr.s ≠ base.ccr.s := ⟨⟨_, rfl, by decide⟩, ⟨_, rfl, by decide⟩, _, rfl, by decide⟩

theorem witness_InterruptHoldOff :
    (∃ t, exec (.andp 0xFF1F) base = .next t ∧ base.inhibit = false ∧ t.inhibit = true) ∧ (base.run = .running ∧ resetInput.reset = true) ∧
      (let s := { base with inhibit := true, inputs := [request 7 .spurious] }
       s.run = .running ∧ s.inhibit = true ∧ s.input.reset = false ∧ s.input.bkpt = false ∧ completes (step s) = true) :=
  ⟨⟨_, rfl, rfl, rfl⟩, ⟨rfl, rfl⟩, by decide⟩

theorem witness_RunStateWriters :
    base.run = .running ∧ (∃ t, exec .lpstop base = .next t ∧ t.run = .stopped) ∧ (∃ t, exec .wai base = .next t ∧ t.run = .waiting) ∧
      (∃ t, exec .bgnd { base with plat := { Platform.default with bdmEnabled := true } } = .next t ∧ t.run = .background) ∧
      (∃ t, exec .swi { base with sp := 0x800, plat := hole 0x801 1 } = .next t ∧ t.run = .halted) ∧
      (∃ t, exec .swi { base with sp := 0x800, plat := region 0xC 2 .device, replies := [.busError] } = .next t ∧ t.run = .halted) ∧
      ∃ t, exec (.ldaa (.mem (.ext 0x4000))) { base with sp := 0x800, plat := hole 0xA 0x7000 } = .next t ∧ t.run = .halted :=
  ⟨rfl, ⟨_, rfl, rfl⟩, ⟨_, rfl, rfl⟩, ⟨_, rfl, rfl⟩, ⟨_, rfl, rfl⟩, ⟨_, rfl, rfl⟩, _, rfl, rfl⟩

theorem witness_OnlyDeclaredRefusals :
    (exec (.pshm 0x80) base = .refused .reservedMaskBit ∧ exec (.pulm 0xFF) base = .refused .reservedMaskBit ∧
      exec (.jmp (.ext20 1 0 0)) base = .refused .reservedZeroNibble ∧ exec (.jsr (.ind20 .x 15 0 0)) base = .refused .reservedZeroNibble) ∧
      base.plat.splitSpaces = false ∧ (eaM base (.ext 0x200) - base.pc).toNat = 0 ∧ (eaM base (.ext 0x20B) - base.pc).toNat = 11 ∧
      exec (.movw (.extToExt 0x300 0x20B)) base = .refused .storeIntoPrefetch ∧ completes (exec (.bset 1 (.ext 0x1FF)) base) = true ∧
      exec .swi { base with sp := 0x20D } = .refused .storeIntoPrefetch ∧ exec .pshmac { base with sp := 0x215 } = .refused .storeIntoPrefetch ∧
      step { base with pc := 0x201 } = .fault .oddProgramCounter :=
  ⟨⟨rfl, rfl, rfl, rfl⟩, rfl, by decide, by decide, rfl, by decide, rfl, rfl, rfl⟩

/-- Stores of other agents into the window: its two ends, with the latch set under a request and with none; and one byte past it. -/
theorem witness_OnlyDeclaredRefusals_host :
    let meets (s : State) : Bool :=
      s.input.writes.any (fun w => s.kindAt w.space w.addr == .ram && !s.plat.splitSpaces && decide ((w.addr - s.pc).toNat < 12)) && s.run == .running &&
        !s.pc.getLsbD 0 && !s.input.reset && !s.input.bkpt && (s.inhibit || s.input.irq == 0)
    meets { base with inputs := [stored [(0x20B, 9)]] } = true ∧ meets { base with inhibit := true, inputs := [{ stored [(0x200, 0)] with irq := 7 }] } = true ∧
      meets { base with inputs := [stored [(0x20C, 9)]] } = false ∧ ({ base with inputs := [stored [(0x200, 9)]] }).fetchDisturbed = true := by decide

/-- The hypotheses of `StepRunsDecodedInstruction`, as a Bool. -/
def fetchable (s : State) (i : Instr) : Bool :=
  s.atInstruction && i.wellFormed && (List.range i.length).all (fun k => s.canRead8 .prog (s.pcPlus k)) &&
    (match decodeBytes ((List.range i.length).map fun k => s.begun.byteAt .prog (s.pcPlus k)) with
      | .ok (j, []) => decide (j = i)
      | _ => false)

theorem witness_StepRunsDecodedInstruction :
    fetchable (put 0x200 [0x27, 0x4C] base) .nop = true ∧
      fetchable (put 0xFFFFE [0x0A, 0x81, 0, 0x10, 0xFF, 0xF6] { base with pc := 0xFFFFE }) (.brclr 0x81 (.ind16 .x 0x10 0xFFF6)) = true ∧
      fetchable (put 0x200 [0x37, 0x1A, 0xFF, 0x1F] { base with inhibit := true, inputs := [request 7 .spurious] }) (.andp 0xFF1F) = false ∧
      fetchable (put 0x200 [0x37, 0x3A, 0xFF, 0x1F] { base with inhibit := true, inputs := [request 7 .spurious] }) (.andp 0xFF1F) = true ∧
      fetchable (put 0x200 [0x27, 0x4C] { base with inputs := [stored [(0x20C, 9), (0x1FF, 9)]] }) .nop = true ∧
      fetchable (put 0x200 [0x27, 0x4C] { base with inputs := [stored [(0x201, 0x4C)]] }) .nop = false := by decide

/-- A boundary that the latch holds off, under a request of level 7, before NOP and before the longest instruction. -/
theorem witness_InterruptHoldOff_whole :
    let meets (s : State) (i : Instr) : Bool := s.inhibit && decide (s.inputs = [request 7 .spurious]) && fetchable s i
    let held (pc : Addr) : State := { base with pc := pc, inhibit := true, inputs := [request 7 .spurious] }
    meets (put 0x200 [0x27, 0x4C] (held 0x200)) .nop = true ∧
      meets (put 0xFFFFE [0x0A, 0x81, 0, 0x10, 0xFF, 0xF6] (held 0xFFFFE)) (.brclr 0x81 (.ind16 .x 0x10 0xFFF6)) = true := by decide

theorem witness_UnassignedOpcodeTraps :
    (let s := put 0x200 [0xFF, 0x00] ready
     s.atInstruction && s.canRead16 .prog s.pc && (decodeOp (s.begun.wordAt .prog s.pc) 0 0).isNone && s.canPushFrame &&
       s.canRead16 .data (BitVec.ofNat 20 (2 * s.plat.vecIllegal.toNat))) = true := by decide

theorem witness_BoundaryOrder :
    let nmi : Platform := { Platform.default with level7NonMaskable := true }
    let bdm : Platform := { Platform.default with bdmEnabled := true }
    let three : State := { base with ccr := { clear with ip := 3 } }
    resetInput.reset = true ∧
      ({ three with run := .halted }).input.reset = false ∧ ({ three with run := .background }).input.reset = false ∧
      recognised three 4 = true ∧ recognised three 3 = false ∧ recognised base 7 = false ∧ recognised { base with plat := nmi } 7 = true ∧
      (let s : State := { three with run := .waiting, inputs := [request 4 .spurious] }
       s.input.reset = false ∧ s.run = .waiting ∧ s.ccr.ip.toNat < s.input.irq.toNat) ∧
      (let s : State := { three with run := .stopped, inputs := [request 3 .spurious] }
       s.input.reset = false ∧ s.run = .stopped ∧ ¬(s.ccr.ip.toNat < s.input.irq.toNat) ∧ s.input.irq ≠ 7#3) ∧
      (let s : State := { three with plat := bdm, inputs := [{ quiet with bkpt := true }] }
       s.input.reset = false ∧ s.run = .running ∧ s.input.bkpt = true ∧ s.plat.bdmEnabled = true) ∧
      (let s : State := { three with inhibit := true, inputs := [{ quiet with bkpt := true }] }
       s.input.reset = false ∧ s.run = .running ∧ s.input.bkpt = true ∧ s.plat.bdmEnabled = false ∧ s.inhibit = true) ∧
      (let s : State := { three with inputs := [{ request 4 .spurious with writes := [⟨.data, 0x200, 1⟩] }] }
       s.input.reset = false ∧ s.run = .running ∧ s.input.bkpt = false ∧ s.inhibit = false ∧ s.ccr.ip.toNat < s.input.irq.toNat) := by decide

theorem witness_InterruptAndBreakpointEntry :
    ready.canStackFrame = true ∧ ([0, 4, 0x0F, 0x11, 0x17, 0x18, 0xFF] : List Nat).all (fun n => ready.canRead16 .data (BitVec.ofNat 20 (2 * n))) = true ∧
      (0x11#8).toNat = (ready.plat.vecAutoBase.toNat + (1#3).toNat) % 256 ∧ (0x17#8).toNat = (ready.plat.vecAutoBase.toNat + (7#3).toNat) % 256 := by decide

theorem witness_SoftwareInterruptEntry : ready.canPushFrame = true ∧ ready.canRead16 .data 0x0000C = true := by decide

theorem witness_SynchronousTraps :
    ready.canPushFrame = true ∧ ({ ready with ix := 0 }).canPushFrame = true ∧ ({ ready with ix := 0 }).ix = 0 ∧ ready.plat.bdmEnabled = false ∧
      ready.canRead16 .data (BitVec.ofNat 20 (2 * ready.plat.vecDiv0.toNat)) = true ∧
      ready.canRead16 .data (BitVec.ofNat 20 (2 * ready.plat.vecIllegal.toNat)) = true := by decide

/-- Each access of an exception entry, a RESET word, and the halted state. -/
theorem witness_BusErrorAndDoubleFault_entry :
    (ready.canPushFrame && ready.canRead16 .data (BitVec.ofNat 20 (2 * ready.plat.vecBerr.toNat))) = true ∧
      ({ ready with plat := hole 0x800 1 }).lostWrite16 0x800 = true ∧
      (let s : State := { ready with plat := hole 0x7FE 1 }
       s.canWrite16 s.sp20 && s.lostWrite16 (s.sp20 - 2#20)) = true ∧
      (let s : State := { ready with plat := hole 0xA 1 }
       s.canPushFrame && s.lostRead .data (BitVec.ofNat 20 (2 * s.plat.vecBerr.toNat))) = true ∧
      (let s : State := { ready with plat := hole 0 1, inputs := [resetInput] }
       s.input.reset && s.lostRead .prog 0) = true ∧
      (let s : State := { ready with run := .halted }
       s.run == .halted && !s.input.reset) = true := by decide

/-- Nothing answers the opcode word, and the first operand word. -/
theorem witness_BusErrorAndDoubleFault_fetch :
    (let s : State := { ready with plat := hole 0x200 1 }
     s.atInstruction && s.lostRead .prog s.pc) = true ∧
      (let s := put 0x200 [0x17, 0x75] { ready with plat := hole 0x202 1 }
       s.atInstruction && s.canRead16 .prog s.pc && s.lostRead .prog (s.pc + 2#20) &&
         (match decodeOp (s.begun.wordAt .prog s.pc) 0 0 with
           | some i => decide (i.length ≠ 2)
           | none => false)) = true := by decide

/-- One access, at both ends of a region, and the accesses of an instruction that has several. -/
theorem witness_BusErrorAndDoubleFault_accesses :
    let s : State := { ready with plat := hole 0x4000 16 }
    (([.ext 0x4000, .ext 0x400F] : List MemE).all fun m => s.lostRead .data (eaM s m) && s.lostWrite8 (eaM s m) && s.lostWrite16 (eaM s m)) = true ∧
      (s.canWrite8 (eaM s (.ext 0x3FFF)) && s.lostWrite8 (eaM s (.ext 0x3FFF) + 1#20)) = true ∧
      (let s : State := { ready with plat := hole 0x4001 1 }
       s.canWrite8 (eaM s (.ext 0x4000)) && s.lostWrite8 (eaM s (.ext 0x4000) + 1#20)) = true ∧
      (s.canRead16 .data (eaExt s 0x3FFE) && s.lostRead .data (eaExt s 0x3FFE + 2#20)) = true ∧
      (s.canWrite16 (eaExt s 0x3FFE) && s.lostWrite16 (eaExt s 0x3FFE + 2#20)) = true ∧
      s.lostRead .data (moveAddrs s (.extToExt 0x4000 0x3000)).1 = true ∧
      (let s : State := { ready with plat := hole 0x1000 1 }
       s.lostRead .data (moveAddrs s (.ixpToExt 0xFF 0x3000)).1 && s.canRead16 .data (moveAddrs s (.extToIxp 0xFF 0x3000)).1 &&
         s.lostWrite16 (moveAddrs s (.extToIxp 0xFF 0x3000)).2) = true ∧
      (s.canRead8 .data (moveAddrs s (.extToExt 0x3000 0x400F)).1 && s.lostWrite8 (moveAddrs s (.extToExt 0x3000 0x400F)).2) = true ∧
      (let s : State := { ready with plat := region 0x4000 16 .device, replies := [.data 0x12FF, .busError] }
       s.kindAt .data (eaB s (.ext 0x4000)) == .device && !s.inPrefetch (eaB s (.ext 0x4000)) && s.replies == .data 0x12FF :: .busError :: []) = true := by decide

/-- Runs of pushes and pulls that meet a hole at their first and their last word; calls, returns and byte pushes. -/
theorem witness_BusErrorAndDoubleFault_stack :
    let at' (a : Nat) : State := { ready with plat := hole a 1 }
    let pushes (s : State) (k n : Nat) : Bool := decide (k < n) && (List.range k).all (fun j => s.canWrite16 (s.pushAddr j)) && s.lostWrite16 (s.pushAddr k)
    let pulls (s : State) (ii : Byte) (j : Nat) : Bool :=
      ii.getLsbD j && (List.range j).all (fun i => !ii.getLsbD i || s.canRead16 .data (s.pullAddr (selectedBelow ii i))) &&
        s.lostRead .data (s.pullAddr (selectedBelow ii j))
    pushes (at' 0x800) 0 ((at' 0x800).selectedWords 0x01).length = true ∧ pushes (at' 0x7F4) 6 ((at' 0x7F4).selectedWords 0x7F).length = true ∧
      pulls (at' 0x802) 0x7F 0 = true ∧ pulls (at' 0x80E) 0x7F 6 = true ∧ pulls (at' 0x804) 0x41 6 = true ∧
      pushes (at' 0x800) 0 (at' 0x800).plat.macFrame.words = true ∧ pushes (at' 0x7F6) 5 (at' 0x7F6).plat.macFrame.words = true ∧
      ((JumpTarget.ext20 0 1 0x1000).wellFormed && pushes (at' 0x7FE) 1 2) = true ∧
      ((at' 0x804).canRead16 .data (ready.sp20 + 2#20) && (at' 0x804).lostRead .data (ready.sp20 + 4#20)) = true ∧
      (at' 0x801).lostWrite8 (ready.sp20 + 1#20) = true ∧ (at' 0x802).lostRead .data (ready.sp20 + 2#20) = true := by decide

theorem witness_BusErrorAndDoubleFault_mac :
    let at' (a : Nat) : State := { ready with plat := hole a 1 }
    ((at' 0x2000).canRead16 .data ready.x20 && (at' 0x2000).lostRead .data ready.y20) = true ∧
      (at' 0x1000).lostRead .data (ready.xk ++ qualify ready.plat ready.ix 15 ready.xmsk) = true ∧
      ((at' 0x2000).canRead16 .data (ready.xk ++ qualify ready.plat ready.ix 7 ready.xmsk) &&
        (at' 0x2000).lostRead .data (ready.yk ++ qualify ready.plat ready.iy 8 ready.ymsk)) = true := by decide

theorem witness_ResetSequence :
    let meets (s : State) : Bool := s.input.reset && s.canRead16 .prog 0 && s.canRead16 .prog 2 && s.canRead16 .prog 4 && s.canRead16 .prog 6
    let s : State := { ready with run := .halted, inputs := [resetInput] }
    let r : State := { s with plat := { Platform.default with resetLayout := { ResetLayout.default with zk := ⟨4, 0⟩, sk := ⟨3, 12⟩, pk := ⟨0, 13⟩ } } }
    meets s = true ∧ s.plat.resetLayout = ResetLayout.default ∧ meets r = true ∧ r.plat.resetLayout ≠ ResetLayout.default := by decide

/-- A handler that has changed registers and memory outside the frame. -/
theorem witness_ReturnEndsEveryException :
    let t := after ready (takeInterrupt ready 5 (.vector 0x40))
    let u : State := { t.putByte 0x3000 7 with a := 9, ix := 0xFFFF }
    takeInterrupt ready 5 (.vector 0x40) = .next t ∧ ready.canStackFrame = true ∧ ready.pc.getLsbD 0 = false ∧
      Entered ready t 0x40 ready.pc 5 [.interruptAcknowledge 5] ∧ u.plat = ready.plat ∧ u.wordAt .data ready.sp20 = t.wordAt .data ready.sp20 ∧
      u.wordAt .data (ready.sp20 - 2#20) = t.wordAt .data (ready.sp20 - 2#20) ∧ u.sk = t.sk ∧ u.sp = t.sp ∧ u.mem ≠ t.mem := by
  refine ⟨rfl, by decide, by decide, ?_, rfl, by decide, by decide, rfl, rfl, by decide⟩
  obtain ⟨t, h, he⟩ := enterException_ram ready 0x40 ready.pc (some 5) (by decide) (by decide)
  have e : after ready (takeInterrupt ready 5 (.vector 0x40)) = t := congrArg (after ready) h
  rw [e]
  exact he

/-- A subroutine that has changed registers and memory outside the frame. -/
theorem witness_ReturnEndsEveryCall :
    ready.canPushFrame = true ∧ ready.pc.getLsbD 0 = false ∧ (∃ t, exec (.lbsr 0x8000) ready = .next t) ∧ (∃ t, exec (.bsr 0x80) ready = .next t) ∧
      let t := after ready (exec (.jsr (.ext20 0 2 0x1000)) ready)
      let u : State := { t.putByte 0x801 7 |>.putByte 0x800 2 with a := 9 }
      let w : State := { t.putByte 0x802 7 with a := 9 }
      exec (.jsr (.ext20 0 2 0x1000)) ready = .next t ∧ w.plat = ready.plat ∧ w.wordAt .data ready.sp20 = t.wordAt .data ready.sp20 ∧
        w.wordAt .data (ready.sp20 - 2#20) = t.wordAt .data (ready.sp20 - 2#20) ∧ w.sk = t.sk ∧ w.sp = t.sp ∧ w.mem ≠ t.mem ∧
        u.wordAt .data ready.sp20 ≠ t.wordAt .data ready.sp20 :=
  ⟨by decide, by decide, ⟨_, rfl⟩, ⟨_, rfl⟩, rfl, rfl, by decide, by decide, rfl, rfl, by decide, by decide⟩

/-- For Loads, Additions, Subtractions, ComparesAndTests, BooleanLogic and BranchesAfterCompareDecideTheOrder: an immediate, a byte at the top of memory, and
words at an odd address and across it. -/
theorem witness_operands_ready :
    ready8 ready (.imm8 0xFF) = true ∧ ready8 { ready with ek := 15 } (.mem (.ext 0xFFFF)) = true ∧ readyD ready (.imm16 0) = true ∧
      readyD { ready with ek := 15 } (.mem (.ext 0xFFFF)) = true ∧ readyDI ready (.imm8 0x80) = true ∧ readyDI ready (.mem (.eoff .x)) = true ∧
      readyE ready (.imm16 0) = true ∧ readyE ready (.mem (.ind16 .z 0x8001)) = true ∧ readyEI ready (.imm8 0x80) = true ∧
      readyEI ready (.mem (.ext 0)) = true ∧ readyX ready (.imm16 0) = true ∧ readyX ready (.mem (.ind8 .y 0xFF)) = true ∧
      ready.canRead8 .data (eaB ready (.ind8 .x 0xFF)) = true ∧ ready.canRead16 .data (eaW ready (.ext 0xFFFF)) = true ∧
      ready.canRead16 .data (eaExt { ready with ek := 15 } 0xFFFE) = true ∧ ready.canRead16 .data (eaExt { ready with ek := 15 } 0xFFFE + 2#20) = true := by decide

theorem witness_GlossaryPageInstructions : ready8 ready (.imm8 0) = true ∧ ready8 ready (.mem (.eoff .z)) = true := by decide

theorem witness_BranchesAfterCompareDecideTheOrder : ready8 ready (.imm8 0x80) = true ∧ ∃ t, exec (.cmpa (.imm8 0x80)) ready = .next t := ⟨rfl, _, rfl⟩

/-- For Stores, IncrementsAndDecrements, MemoryClearComplementNegateAndBits and ShiftsAndRotates: the bytes on both sides of the prefetch window, and the top of
memory. -/
theorem witness_destinations_writable :
    let s : State := { ready with ek := 15, pc := 0xF0200 }
    (([.ext 0x1FF, .ext 0x20C, .ext 0xFFFF, .eoff .x] : List MemE).all fun m => s.canWrite8 (eaM s m)) = true ∧
      (([.ext 0x1FE, .ext 0x20C, .ext 0xFFFF, .eoff .x] : List MemE).all fun m => s.canWrite16 (eaM s m)) = true ∧
      (([.ext 0x1FE, .ext 0xFFFF, .ind16 .y 0x8000] : List MemW).all fun m => s.canWrite16 (eaW s m)) = true ∧
      (([.ext 0x1FF, .ext 0x20C, .ind8 .z 0xFF] : List MemB).all fun m => s.canWrite8 (eaB s m)) = true ∧
      (([.ext 0x1FE, .ext 0xFFFF, .ind8 .z 0xFF] : List MemB).all fun m => s.canWrite16 (eaB s m)) = true ∧
      s.canWrite16 (eaExt s 0xFFFE) = true ∧ s.canWrite16 (eaExt s 0xFFFE + 2#20) = true := by decide

theorem witness_MemoryClearComplementNegateAndBits (v mm : Byte) :
    (∀ i, (v &&& ~~~mm).getLsbD i = (v.getLsbD i && !mm.getLsbD i)) ∧ ∀ i, (v ||| mm).getLsbD i = (v.getLsbD i || mm.getLsbD i) := by
  refine ⟨fun i => ?_, fun i => by simp⟩
  by_cases h : i < 8
  · simp [h]
  · simp [BitVec.getLsbD_of_ge v i (by omega)]

theorem witness_Moves :
    ready.canRead8 .data ready.x20 = true ∧ ready.canWrite8 (eaExt ready 0x20C) = true ∧ ready.canRead8 .data (eaExt ready 0xFFFF) = true ∧
      ready.canWrite8 ready.x20 = true ∧ ready.canRead16 .data ready.x20 = true ∧ ready.canWrite16 (eaExt ready 0xFFFF) = true ∧
      ready.canRead16 .data (eaExt ready 0xFFFF) = true ∧ ready.canWrite16 ready.x20 = true := by decide

/-- DAA: combinations its table lists, at the ends of the columns, and ones it does not. -/
theorem witness_DecimalAdjustAndSignExtend :
    let listed (a : Byte) (h c : Bool) : Bool :=
      (!h || decide (a.toNat % 16 ≤ 3)) && (!c || decide (a.toNat / 16 ≤ if h then 3 else 2))
    listed 0xFF false false = true ∧ listed 0xF3 true false = true ∧ listed 0x33 true true = true ∧ listed 0x2F false true = true ∧
      listed 0xF4 true false = false ∧ listed 0x43 true true = false ∧ listed 0x3F false true = false := by decide

theorem witness_Multiplications :
    (0x8000#16).toInt = -32768 ∧ ¬((0x8001#16).toInt = -32768) := by decide

theorem witness_Divisions :
    (0 < (1#16).toNat ∧ (0x0000FFFF#32).toNat / (1#16).toNat < 65536 ∧ 65536 ≤ (0x00010000#32).toNat / (1#16).toNat) ∧
      ((1#16).toInt ≠ 0 ∧ ((0x00007FFF#32).toInt.tdiv (1#16).toInt ≤ 32767) ∧ (-32768 ≤ (0xFFFF8000#32).toInt.tdiv (1#16).toInt) ∧
        32767 < (0x00008000#32).toInt.tdiv (1#16).toInt ∧ (0xFFFF7FFF#32).toInt.tdiv (1#16).toInt < -32768) ∧
      ((3#16).toNat < (4#16).toNat ∧ (4#16).toNat ≤ (4#16).toNat ∧ (0#16).toNat ≤ (0#16).toNat) ∧ (0#16).toNat = 0 := by decide

theorem witness_RelativeBranches : (Instr.bra 0x80, true) ∈ [(Instr.bra 0x80, true)] ∧ (Instr.lbmv 0x8000, base.ccr.mv) ∈ [(Instr.lbmv 0x8000, false)] := by decide

theorem witness_BitConditionBranches :
    ready.canRead8 .data (eaBit ready (.ind8 .x 0xFF 0x80)) = true ∧ ready.canRead8 .data (eaBit ready (.ext 0xFFFF 0x8000)) = true ∧
      (∀ i : Fin 8, (0x0F#8).getLsbD i = true → (0xF0#8).getLsbD i = false) ∧ ((0x01#8).getLsbD 0 = true ∧ (0xFF#8).getLsbD 0 = true) ∧
      (∀ i : Fin 8, (0x0F#8).getLsbD i = true → (0x0F#8).getLsbD i = true) ∧ ((0x80#8).getLsbD 7 = true ∧ (0x7F#8).getLsbD 7 = false) := by decide

theorem witness_JumpsAndCalls :
    (JumpTarget.ext20 0 15 0xFFFF).wellFormed = true ∧ (JumpTarget.ind20 .z 0 0 0).wellFormed = true ∧ ready.canPushFrame = true := by decide

theorem witness_Returns : (let s := ready.withSP20 0xFFFFC
    s.canRead16 .data (s.sp20 + 2#20) && s.canRead16 .data (s.sp20 + 4#20)) = true := by decide

theorem witness_ByteStackInstructions : (let s := ready.withSP20 0xFFFFE
    s.canWrite8 (s.sp20 + 1#20) && s.canRead8 .data (s.sp20 + 2#20)) = true := by decide

theorem witness_PushMultiple :
    let meets (ii : Byte) : Bool :=
      !ii.getLsbD 7 && (List.range (ready.selectedWords ii).length).all fun k => ready.canWrite16 (ready.pushAddr k)
    meets 0x7F = true ∧ meets 0 = true ∧ meets 0x40 = true := by decide

theorem witness_PullMultiple :
    let meets (ii : Byte) : Bool :=
      !ii.getLsbD 7 && (List.range 7).all fun j => !ii.getLsbD j || ready.canRead16 .data (ready.pullAddr (selectedBelow ii j))
    meets 0x7F = true ∧ meets 0 = true ∧ meets 0x40 = true := by decide

/-- Between the two, registers have changed and a call has pushed over the words below SK : SP. -/
theorem witness_PullUndoesPush :
    let t := after ready (exec (.pshm 0x61) ready)
    let u : State := { t.putWord 0x7FA 0xEEEE |>.putWord 0x7F8 0xEEEE with a := 9, ek := 3 }
    let word (k : Nat) : Addr := ready.pushAddr k
    (0x61#8).getLsbD 7 = false ∧ (0x43#8).getLsbD 7 = false ∧ (∀ k : Fin 7, (0x43#8).getLsbD k = (0x61#8).getLsbD (6 - k)) ∧
      (ready.selectedWords 0x61).length = 3 ∧ ((List.range 3).all fun k => ready.canWrite16 (word k)) = true ∧ exec (.pshm 0x61) ready = .next t ∧
      u.plat = ready.plat ∧ ((List.range 3).all fun k => u.wordAt .data (word k) == t.wordAt .data (word k)) = true ∧ u.sk = t.sk ∧ u.sp = t.sp ∧
      u.wordAt .data (word 3) ≠ t.wordAt .data (word 3) ∧ (ready.selectedWords 0).length = 0 :=
  ⟨by decide, by decide, by decide, by decide, by decide, rfl, rfl, by decide, rfl, rfl, by decide, by decide⟩

theorem witness_LoadAndMultiplyAccumulate :
    ready.canRead16 .data ready.x20 = true ∧ ready.canRead16 .data ready.y20 = true ∧
      (let s : State := { ready with ix := 0xFFFF, xmsk := 0 }
       s.plat.macQualify = .standard ∧ s.canRead16 .data (s.xk ++ qualify s.plat s.ix 15 s.xmsk) = true ∧
         s.canRead16 .data (s.yk ++ qualify s.plat s.iy 8 s.ymsk) = true) := by decide

/-- Operands everywhere in memory, and counts on both sides of the end: the last pass, one that RMAC goes on from, whole and split. -/
theorem witness_RepeatingMultiplyAccumulate :
    let s : State := { base with ccr := { clear with ip := 0 }, inputs := [request 1 .spurious], plat := { Platform.default with rmacInterruptible := true } }
    (∀ w : Word, s.canRead16 .data (s.xk ++ w) = true ∧ s.canRead16 .data (s.yk ++ w) = true) ∧
      (0#16 - 1#16).toInt < 0 ∧ (0xFFFF#16 - 1#16).toInt < 0 ∧ 0 ≤ (1#16 - 1#16).toInt ∧ 0 ≤ (0x8000#16 - 1#16).toInt ∧
      -- split
      (s.plat.rmacInterruptible = true ∧ s.heldOff = false ∧ s.inputs = request 1 .spurious :: [] ∧ (request 1 .spurious).reset = false ∧
        (request 1 .spurious).bkpt = false ∧ s.ccr.ip.toNat < (request 1 .spurious).irq.toNat) ∧
      -- not split: not interruptible, after ANDP, or no input left
      base.plat.rmacInterruptible = false ∧ ({ s with heldOff := true }).heldOff ≠ false ∧ ({ s with inputs := [] }).inputs = [] :=
  ⟨fun _ => ⟨rfl, rfl⟩, by decide, by decide, by decide, by decide, ⟨rfl, rfl, rfl, rfl, rfl, by decide⟩, rfl, by decide, rfl⟩

/-- The default frame and another that holds every register, with memory changed outside the frame between; and a frame that holds nothing. -/
theorem witness_MacStateSavedAndRestored :
    let framed (f : MacFrame) : State := { ready with am := 0x912345678, sl := true, xmsk := 3, plat := { Platform.default with macFrame := f } }
    let ready' (s : State) : Bool :=
      let n := s.plat.macFrame.words
      let t := after s (exec .pshmac s)
      let u : State := { t.putByte 0x802 7 with am := 0, hr := 9 }
      decide (n ≤ 2 ^ 19) && (List.range n).all (fun k => s.canWrite16 (s.pushAddr k) && s.canRead16 .data (s.pullAddr k)) && completes (exec .pshmac s) &&
        u.plat == s.plat && (List.range n).all (fun k => u.wordAt .data (s.pushAddr k) == t.wordAt .data (s.pushAddr k)) && u.sk == t.sk && u.sp == t.sp
    let other : MacFrame :=
      { words := 5, hr := ⟨4, 0⟩, ir := ⟨3, 0⟩, amLow := ⟨2, 0⟩, amMid := ⟨1, 0⟩, amHigh := ⟨0, 12⟩, sl := ⟨0, 11⟩, xmsk := ⟨0, 3⟩, ymsk := ⟨0, 0⟩ }
    let roomy : MacFrame := { other with words := 6, xmsk := ⟨5, 8⟩, ymsk := ⟨5, 0⟩ }
    MacFrame.default.fits = true ∧ (framed .default).plat.macFrame = MacFrame.default ∧ ready' (framed .default) = true ∧ roomy.fits = true ∧ ready' (framed roomy) = true ∧ other.fits = false ∧
      ready' (framed { other with words := 0 }) = true := by decide

theorem witness_StopWaitAndNull :
    ({ base with ccr := { clear with s := true } }).ccr.s = true ∧ base.ccr.s = false ∧
      ({ base with plat := { Platform.default with bdmEnabled := true } }).plat.bdmEnabled = true := by decide

/-- Bytes and words of a device at both ends of its region, at even and at odd addresses, for each kind of reply. -/
theorem witness_DeviceAndRomAccesses :
    let d : State := { base with plat := region 0x4000 16 .device }
    let bytes (s : State) (k : Kind) (m : MemE) : Bool := s.kindAt .data (eaM s m) == k && !s.inPrefetch (eaM s m)
    let words (s : State) (k : Kind) (odd : Bool) (m : MemE) : Bool :=
      bytes s k m && s.kindAt .data (eaM s m + 1#20) == k && !s.inPrefetch (eaM s m + 1#20) && (eaM s m).getLsbD 0 == odd
    bytes d .device (.ext 0x4000) = true ∧ bytes d .device (.ext 0x400F) = true ∧ bytes d .ram (.ext 0x4010) = true ∧
      words d .device false (.ext 0x400E) = true ∧ words d .device true (.ext 0x400D) = true ∧ words d .device true (.ext 0x400F) = false ∧
      d.replies = [] ∧ ({ d with replies := [.data 0xFFFF] }).replies = .data 0xFFFF :: [] ∧ ({ d with replies := [.busError] }).replies = .busError :: [] ∧
      ({ d with replies := [.data 1, .data 2] }).replies = .data 1 :: .data 2 :: [] ∧
      ({ d with replies := [.data 1, .busError] }).replies = .data 1 :: .busError :: [] := by decide

/-- An even word whose bytes are of two kinds, ROM, and bytes that nothing answers. -/
theorem witness_DeviceAndRomAccesses_kinds :
    (([[], [.data 0xFFFF], [.busError]] : List (List DevReply)).all fun replies =>
       let s : State := { base with plat := region 0x4001 1 .device, replies := replies }
       let a := eaM s (.ext 0x4000)
       !a.getLsbD 0 && s.kindAt .data a == .ram && !s.inPrefetch a && s.kindAt .data (a + 1#20) == .device && !s.inPrefetch (a + 1#20)) = true ∧
      (let s : State := { base with plat := region 0x5000 16 .rom }
       (([.ext 0x5000, .ext 0x500E, .ext 0x500D] : List MemE).all fun m =>
         s.kindAt .data (eaM s m) == .rom && s.kindAt .data (eaM s m + 1#20) == .rom && !s.inPrefetch (eaM s m) && !s.inPrefetch (eaM s m + 1#20))) = true ∧
      (let s : State := { base with plat := region 0x6000 3 .openBus }
       (([.ext 0x6000, .ext 0x6001] : List MemE).all fun m =>
         s.kindAt .data (eaM s m) == .openBus && s.kindAt .data (eaM s m + 1#20) == .openBus && !s.inPrefetch (eaM s m) && !s.inPrefetch (eaM s m + 1#20))) =
         true := by decide


end Sys2Proof.Tests
end

/-! ## Every instruction and every step is `Kept`

What one instruction, an exception entry, the reset sequence and so a whole step can have done to what lies outside the registers, in the terms of `Kept`. The
instructions are told apart by the shape of their meaning only. -/

namespace Sys2Proof.Machine

/-! ### Register writes -/

/-- What lies outside the registers and the count of free values. -/
def State.outside (s : State) : Platform × List HostInput × List HostEvent × List DevReply × Memory :=
  (s.plat, s.inputs, s.events, s.replies, s.mem)

theorem Kept.of_outside {own : Bool} {s t : State} (h : t.outside = s.outside) (hd : s.draws ≤ t.draws) : Kept own s t := by
  simp only [State.outside, Prod.mk.injEq] at h
  obtain ⟨hplat, hinputs, hevents, hreplies, hmem⟩ := h
  exact .of_regs own hplat hinputs hevents hreplies hd hmem

theorem Kept.weaken {s t : State} (h : Kept true s t) : Kept false s t :=
  { h with window := fun e => nomatch e }

/-! ### Sequences of bus cycles with register writes between them -/

/-- `t` is a state in the middle of an instruction that began in `s`: the prefetch window has not moved, and nothing was stored into it. -/
structure Within (s t : State) : Prop where
  kept : Kept true s t
  pc : t.pc = s.pc

theorem Within.of_outside {s t : State} (h : t.outside = s.outside) (hd : s.draws ≤ t.draws) (hpc : t.pc = s.pc) : Within s t :=
  ⟨.of_outside h hd, hpc⟩

theorem Within.trans {s t u : State} (h : Within s t) (g : Within t u) : Within s u := ⟨h.kept.trans h.pc g.kept, g.pc.trans h.pc⟩

theorem Cycles.within {s t : State} (h : Cycles true s t) : Within s t := ⟨h.kept, h.pc⟩

/-- An exception taken in the middle of an instruction. -/
theorem Within.took {s t u : State} {n : Byte} {level : Option (BitVec 3)} (h : Within s t) (g : Took true n level t u) : Kept true s u :=
  h.kept.trans h.pc g.kept

theorem Bus.Sat.within {α β : Type} {s : State} {x : Bus α} {f : α → State → Bus β} (hx : x.Sat true (Within s))
    (hf : ∀ v t, (f v t).Sat true (Within t)) : (x.bind f).Sat true (Within s) :=
  hx.bind (fun v t ht => (hf v t).mono fun _ hu => ht.trans hu) fun _ ht => ht

/-- The last register writes of an instruction, the program counter among them. -/
theorem Bus.Sat.finish {α : Type} {s : State} {x : Bus α} {f : α → State → State} (hx : x.Sat true (Within s))
    (hf : ∀ v t, Kept true t (f v t)) : (x.bind fun v t => .ok () (f v t)).Ends (Kept true s) (Within s) :=
  hx.bindEnds (fun v t ht => ht.kept.trans ht.pc (hf v t)) fun _ ht => ht

theorem commit_kept {s : State} {x : Bus Unit} (hx : x.Ends (Kept true s) (Within s)) : Answers (commit x) (Kept true s) :=
  commit_answers hx fun _ _ ht hu => ht.took hu

/-! ### The shapes of meanings -/

theorem kept_of_busError {s : State} (t u : State) (ht : Cycles true s t) (hu : Took true t.plat.vecBerr none t u) : Kept true s u :=
  ht.within.took hu

theorem Cycles.then_regs {s t u : State} (ht : Cycles true s t) (h : u.outside = t.outside) (hd : t.draws ≤ u.draws) : Kept true s u :=
  ht.kept.trans ht.pc (.of_outside h hd)

/-- An instruction that touches registers alone. -/
theorem next_kept {s t : State} (h : t.outside = s.outside) (hd : s.draws ≤ t.draws) : Answers (.next t) (Kept true s) := Kept.of_outside h hd

theorem useOperand_kept {α : Type} {s : State} {x : Bus α} {len : Nat} {f : State → α → State} (hx : x.Sat true (Cycles true s))
    (hf : ∀ t v, Kept true t ((f t v).advance len)) : Answers (useOperand x len f) (Kept true s) :=
  useOperand_answers kept_of_busError hx fun v t ht => ht.kept.trans ht.pc (hf t v)

theorem storeByte_kept (s : State) (ea : Addr) (v : Byte) (len : Nat) : Answers (storeByte s ea v len) (Kept true s) :=
  storeByte_answers kept_of_busError fun _ ht => ht.then_regs rfl (Nat.le_refl _)

theorem storeWord_kept (s : State) (ea : Addr) (v : Word) (len : Nat) : Answers (storeWord s ea v len) (Kept true s) :=
  storeWord_answers kept_of_busError fun _ ht => ht.then_regs rfl (Nat.le_refl _)

theorem clearByte_kept (s : State) (ea : Addr) (len : Nat) : Answers (clearByte s ea len) (Kept true s) :=
  clearByte_answers kept_of_busError fun _ ht => ht.then_regs rfl (Nat.le_refl _)

theorem clearWord_kept (s : State) (ea : Addr) (len : Nat) : Answers (clearWord s ea len) (Kept true s) :=
  clearWord_answers kept_of_busError fun _ ht => ht.then_regs rfl (Nat.le_refl _)

theorem modifyByte_kept (s : State) (ea : Addr) (len : Nat) (f : CCR → Byte → Byte × CCR) : Answers (modifyByte s ea len f) (Kept true s) :=
  modifyByte_answers kept_of_busError fun _ _ _ ht => ht.then_regs rfl (Nat.le_refl _)

theorem modifyWord_kept (s : State) (ea : Addr) (len : Nat) (f : CCR → Word → Word × CCR) : Answers (modifyWord s ea len f) (Kept true s) :=
  modifyWord_answers kept_of_busError fun _ _ _ ht => ht.then_regs rfl (Nat.le_refl _)

/-- INC and DEC write the flags between the read and the write. -/
theorem within_of_count {s : State} (c : CCR) (t u : State) (ht : Cycles true s t) (hu : Cycles true (t.withCCR c) u) : Within s u :=
  ht.within.trans <| (Within.of_outside rfl (Nat.le_refl _) rfl : Within t (t.withCCR c)).trans hu.within

theorem countByte_kept (s : State) (ea : Addr) (len : Nat) (f : CCR → Byte → Byte × CCR) : Answers (countByte s ea len f) (Kept true s) :=
  countByte_answers kept_of_busError (fun c t u _ ht hu hw => (within_of_count c t u ht hu).took hw) fun c t u ht hu =>
    let h := within_of_count c t u ht hu
    h.kept.trans h.pc (.of_outside rfl (Nat.le_refl _))

theorem countWord_kept (s : State) (ea : Addr) (len : Nat) (f : CCR → Word → Word × CCR) : Answers (countWord s ea len f) (Kept true s) :=
  countWord_answers kept_of_busError (fun c t u _ ht hu hw => (within_of_count c t u ht hu).took hw) fun c t u ht hu =>
    let h := within_of_count c t u ht hu
    h.kept.trans h.pc (.of_outside rfl (Nat.le_refl _))

theorem movePost_outside (s : State) (o : Move) : (movePost s o).outside = s.outside ∧ (movePost s o).draws = s.draws := by
  cases o <;> exact ⟨rfl, rfl⟩

theorem execMovb_kept (s : State) (o : Move) : Answers (execMovb o s) (Kept true s) :=
  moveByte_answers kept_of_busError fun _ t ht => ht.then_regs (movePost_outside t o).1 (movePost_outside t o).2.ge

theorem execMovw_kept (s : State) (o : Move) : Answers (execMovw o s) (Kept true s) :=
  moveWord_answers kept_of_busError fun _ t ht => ht.then_regs (movePost_outside t o).1 (movePost_outside t o).2.ge

theorem branch_kept (s : State) (cond : Bool) (off : Addr) (len : Nat) : Answers (branch s cond off len) (Kept true s) := by
  cases cond with
  | true => exact next_kept rfl (Nat.le_refl _)
  | false => exact next_kept rfl (Nat.le_refl _)

theorem bitBranch_kept (s : State) (o : BitBranch) (cond : Byte → Bool) : Answers (bitBranch s o cond) (Kept true s) :=
  bitBranch_answers kept_of_busError fun _ ht => ⟨ht.then_regs rfl (Nat.le_refl _), ht.then_regs rfl (Nat.le_refl _)⟩

theorem call_kept (s : State) (ret target : Addr) : Answers (call s ret target) (Kept true s) :=
  call_answers kept_of_busError fun _ ht => ht.then_regs rfl (Nat.le_refl _)

theorem enterException_kept (s : State) (n : Byte) (resume : Addr) : Answers (enterException true s n resume none) (Kept true s) :=
  enterException_answers s n resume fun _ ht => ht.kept

/-! ### Long loads and stores -/

theorem execLded_kept (s : State) (hhll : Word) : Answers (execLded hhll s) (Kept true s) := by
  refine commit_kept ((read16_sat true s .data _).bindEnds (fun v t ht => ?_) fun _ ht => ht.within)
  have hv : Within s { t with e := v } := ht.within.trans (.of_outside rfl (Nat.le_refl _) rfl)
  exact ((read16_sat true { t with e := v } .data _).mono fun _ hu => hv.trans hu.within).finish fun _ _ => .of_outside rfl (Nat.le_refl _)

theorem execSted_kept (s : State) (hhll : Word) : Answers (execSted hhll s) (Kept true s) :=
  commit_kept <| (write16_sat true s _ _).bindEnds
    (fun _ t ht => ((write16_sat true t _ _).mono fun _ hu => (ht.trans hu).within).finish fun _ _ => .of_outside rfl (Nat.le_refl _))
    fun _ ht => ht.within

/-! ### Runs of pushes and pulls -/

theorem pushAll_sat (s : State) (l : List Word) : (pushAll s l).Sat true (Cycles true s) := by
  induction l generalizing s with
  | nil => exact Cycles.refl true s
  | cons w ws ih => exact (push16_sat true s w).cycles fun _ t => ih t

/-- Loads of registers, none of them the program counter. -/
def Loads (fs : List (State → Word → State)) : Prop := ∀ f ∈ fs, ∀ s v, Within s (f s v)

theorem loads_pulmWrites : Loads pulmWrites := by
  intro f hf s v
  simp only [pulmWrites, List.mem_cons, List.not_mem_nil, or_false] at hf
  rcases hf with rfl | rfl | rfl | rfl | rfl | rfl | rfl <;> exact .of_outside rfl (Nat.le_refl _) rfl

theorem loads_pulmacWrites (p : MacFrame) : Loads (pulmacWrites p) := by
  intro f hf s v
  simp only [pulmacWrites, List.mem_map] at hf
  obtain ⟨k, -, rfl⟩ := hf
  exact .of_outside rfl (Nat.le_refl _) rfl

theorem pullEach_sat (s : State) {fs : List (State → Word → State)} (h : Loads fs) : (pullEach s fs).Sat true (Within s) := by
  induction fs generalizing s with
  | nil => exact (Cycles.refl true s).within
  | cons f fs ih =>
    refine ((pull16_sat true s).mono fun _ ht => ht.within).within fun v t => ?_
    have hf : Within t (f t v) := h f (List.mem_cons_self ..) t v
    exact (ih (f t v) fun g hg => h g (List.mem_cons_of_mem _ hg)).mono fun _ hu => hf.trans hu

theorem execPshm_kept (s : State) (ii : Byte) (h : maskWellFormed ii = true) : Answers (execPshm ii s) (Kept true s) := by
  rw [execPshm_eq s ii (by simpa [maskWellFormed] using h)]
  exact commit_kept (((pushAll_sat s _).mono fun _ ht => ht.within).finish fun _ _ => .of_outside rfl (Nat.le_refl _))

theorem execPulm_kept (s : State) (ii : Byte) (h : maskWellFormed ii = true) : Answers (execPulm ii s) (Kept true s) := by
  rw [execPulm_eq s ii (by simpa [maskWellFormed] using h)]
  have hl : Loads (((pulmWrites.zipIdx 0).filter fun p => ii.getLsbD p.2).map fun p => p.1) := by
    intro f hf
    obtain ⟨p, hp, rfl⟩ := List.mem_map.mp hf
    exact loads_pulmWrites p.1 (List.fst_mem_of_mem_zipIdx (List.mem_filter.mp hp).1)
  exact commit_kept ((pullEach_sat s hl).finish fun _ _ => .of_outside rfl (Nat.le_refl _))

theorem execPshmac_kept (s : State) : Answers (execPshmac s) (Kept true s) :=
  commit_kept (((pushAll_sat s _).mono fun _ ht => ht.within).finish fun _ _ => .of_outside rfl (Nat.le_refl _))

theorem execPulmac_kept (s : State) : Answers (execPulmac s) (Kept true s) :=
  commit_kept ((pullEach_sat s (loads_pulmacWrites _)).finish fun _ _ => .of_outside rfl (Nat.le_refl _))

/-! ### The multiply and accumulate unit -/

theorem loadHR_sat (s : State) : (loadHR s).Sat true (Within s) :=
  ((read16_sat true s .data _).mono fun _ ht => ht.within).within fun _ _ => .of_outside rfl (Nat.le_refl _) rfl

theorem loadIR_sat (s : State) : (loadIR s).Sat true (Within s) :=
  ((read16_sat true s .data _).mono fun _ ht => ht.within).within fun _ _ => .of_outside rfl (Nat.le_refl _) rfl

/-- HR and IR loaded from wherever IX and IY stand by then. -/
theorem loadHR_loadIR_sat {s t : State} (h : Within s t) : ((loadHR t).bind fun _ u => loadIR u).Sat true (Within s) :=
  ((loadHR_sat t).within fun _ u => loadIR_sat u).mono fun _ hu => h.trans hu

theorem Bus.bind_assoc {α β γ : Type} (x : Bus α) (f : α → State → Bus β) (g : β → State → Bus γ) :
    (x.bind f).bind g = x.bind fun v s => (f v s).bind g := by
  cases x <;> rfl

theorem execLdhi_kept (s : State) : Answers (execLdhi s) (Kept true s) := by
  have h := (loadHR_loadIR_sat (.of_outside rfl (Nat.le_refl _) rfl : Within s s)).finish fun _ t =>
    (.of_outside rfl (Nat.le_refl _) : Kept true t (t.advance 2))
  rw [Bus.bind_assoc] at h
  exact commit_kept h

/-- MAC up to its loads: the sum, the product, the index registers and IZ (R567). -/
def State.macSummed (s : State) (xo yo : Nib) : State :=
  let t := macAdd (s.withED (fracMul s.hr s.ir)) (fracMul s.hr s.ir).toInt
  { macQualifyBoth (t.withCCR { t.ccr with v := bothMinusOne s.hr s.ir }) xo yo with iz := s.hr }

theorem execMac_kept (s : State) (xo yo : Nib) : Answers (execMac xo yo s) (Kept true s) := by
  have h := (loadHR_loadIR_sat (.of_outside rfl (Nat.le_refl _) rfl : Within s (s.macSummed xo yo))).finish fun _ t =>
    (.of_outside rfl (Nat.le_refl _) : Kept true t (t.advance 2))
  rw [Bus.bind_assoc] at h
  exact commit_kept h

theorem rmacPass_sat (s : State) (v : Bool) (xo yo : Nib) : (rmacPass s v xo yo).Sat true (Within s) := by
  have h := (loadHR_loadIR_sat (.of_outside rfl (Nat.le_refl _) rfl : Within s (s.rmacSummed v xo yo))).within
    (f := fun _ t => Bus.ok () { t with e := t.e - 1#16 }) fun _ _ => .of_outside rfl (Nat.le_refl _) rfl
  rw [Bus.bind_assoc] at h
  exact h

/-- RMAC ends after a pass, past itself or, interrupted, at its own address; a bus error cuts it off within itself. -/
theorem rmacLoop_ends (fuel : Nat) (s : State) (v : Bool) (xo yo : Nib) : (rmacLoop fuel s v xo yo).Ends (Kept true s) (Within s) := by
  induction fuel generalizing s v with
  | zero => exact Kept.of_outside (t := s.advance 2) rfl (Nat.le_refl _)
  | succ k ih =>
    refine (rmacPass_sat s v xo yo).bindEnds (fun _ t ht => ?_) fun _ ht => ht
    split
    · exact ht.kept.trans ht.pc (.of_outside rfl (Nat.le_refl _))
    · split
      · exact ht.kept
      · have g := ih t (v || bothMinusOne s.hr s.ir)
        cases hx : rmacLoop k t (v || bothMinusOne s.hr s.ir) xo yo with
        | ok w u => rw [hx] at g; exact ht.kept.trans ht.pc g
        | berr u => rw [hx] at g; exact ht.trans g
        | refused r => rw [hx] at g; exact g

theorem execRmac_kept (s : State) (xo yo : Nib) : Answers (execRmac xo yo s) (Kept true s) := commit_kept (rmacLoop_ends _ s false xo yo)

/-! ### Divisions and the other instructions of several cases -/

theorem Answers.ite {c : Prop} [Decidable c] {x y : Out} {Q : State → Prop} (hx : Answers x Q) (hy : Answers y Q) :
    Answers (if c then x else y) Q := by
  split
  · exact hx
  · exact hy

theorem divideByZero_kept (s : State) : Answers (divideByZero s) (Kept true s) := enterException_kept s _ _

theorem execDaa_kept (s : State) : Answers (execDaa s) (Kept true s) := by
  unfold execDaa inherent
  dsimp only
  split
  · exact next_kept rfl (Nat.le_add_right _ _)
  · exact next_kept rfl (Nat.le_add_right _ _)

theorem execEdiv_kept (s : State) : Answers (execEdiv s) (Kept true s) :=
  .ite (divideByZero_kept s) (.ite (next_kept rfl (Nat.le_add_right _ _)) (next_kept rfl (Nat.le_refl _)))

theorem execEdivs_kept (s : State) : Answers (execEdivs s) (Kept true s) :=
  .ite (divideByZero_kept s) (.ite (next_kept rfl (Nat.le_add_right _ _)) (next_kept rfl (Nat.le_refl _)))

theorem execFdiv_kept (s : State) : Answers (execFdiv s) (Kept true s) :=
  .ite (next_kept rfl (Nat.le_add_right _ _)) (.ite (next_kept rfl (Nat.le_add_right _ _)) (next_kept rfl (Nat.le_refl _)))

theorem execIdiv_kept (s : State) : Answers (execIdiv s) (Kept true s) :=
  .ite (next_kept rfl (Nat.le_add_right _ _)) (next_kept rfl (Nat.le_refl _))

/-- LPSTOP's broadcast is an event (R590). -/
theorem execLpstop_kept (s : State) : Answers (execLpstop s) (Kept true s) := by
  unfold execLpstop
  cases hs : s.ccr.s with
  | true =>
    simp only [inherent, hs, if_true]
    exact next_kept rfl (Nat.le_refl _)
  | false =>
    simp only [inherent, hs, Bool.false_eq_true, if_false]
    exact (emit_cycles true s (.lpstopBroadcast s.ccr.ip)).then_regs rfl (Nat.le_refl _)

theorem execBgnd_kept (s : State) : Answers (execBgnd s) (Kept true s) := .ite (next_kept rfl (Nat.le_refl _)) (enterException_kept s _ _)

theorem execRts_kept (s : State) : Answers (execRts s) (Kept true s) :=
  commit_kept (((pullFrame_sat true s).mono fun _ ht => ht.within).finish fun _ _ => .of_outside rfl (Nat.le_refl _))

theorem execRti_kept (s : State) : Answers (execRti s) (Kept true s) :=
  commit_kept (((pullFrame_sat true s).mono fun _ ht => ht.within).finish fun _ _ => .of_outside rfl (Nat.le_refl _))

/-! ### All instructions -/

/-- The well-formed instructions, by the shape of their meaning. -/
theorem exec_answers_kept (i : Instr) (s : State) (h : i.wellFormed = true) : Answers (exec i s) (Kept true s) := by
  cases i with
  -- an operand is read, registers are written
  | ldaa o | ldab o | adca o | adcb o | adda o | addb o | sbca o | sbcb o | suba o | subb o | cmpa o | cmpb o
  | anda o | andb o | eora o | eorb o | oraa o | orab o | bita o | bitb o =>
    exact useOperand_kept (operand8_sat true s o) fun _ _ => .of_outside rfl (Nat.le_refl _)
  | ldd o | adcd o | sbcd o | subd o | cpd o | andd o | eord o | ord o =>
    exact useOperand_kept (operandD_sat true s o) fun _ _ => .of_outside rfl (Nat.le_refl _)
  | addd o => exact useOperand_kept (operandDI_sat true s o) fun _ _ => .of_outside rfl (Nat.le_refl _)
  | lde o | adce o | sbce o | sube o | cpe o | ande o | eore o | ore o =>
    exact useOperand_kept (operandE_sat true s o) fun _ _ => .of_outside rfl (Nat.le_refl _)
  | adde o => exact useOperand_kept (operandEI_sat true s o) fun _ _ => .of_outside rfl (Nat.le_refl _)
  | ldx o | ldy o | ldz o | lds o | cpx o | cpy o | cpz o | cps o =>
    exact useOperand_kept (operandX_sat true s o) fun _ _ => .of_outside rfl (Nat.le_refl _)
  | tst m => exact useOperand_kept (read8_sat true s .data _) fun _ _ => .of_outside rfl (Nat.le_refl _)
  | tstw m => exact useOperand_kept (read16_sat true s .data _) fun _ _ => .of_outside rfl (Nat.le_refl _)
  | lded hhll => exact execLded_kept s hhll
  -- memory is written
  | staa m | stab m => exact storeByte_kept s _ _ _
  | std m | ste m | stx m | sty m | stz m | sts m => exact storeWord_kept s _ _ _
  | sted hhll => exact execSted_kept s hhll
  | movb o => exact execMovb_kept s o
  | movw o => exact execMovw_kept s o
  | clr m => exact clearByte_kept s _ _
  | clrw m => exact clearWord_kept s _ _
  | com m | neg m | lsr m | asl m | asr m | rol m | ror m => exact modifyByte_kept s _ _ _
  | comw m | negw m | lsrw m | aslw m | asrw m | rolw m | rorw m => exact modifyWord_kept s _ _ _
  | bclr mm m => exact modifyByte_kept s _ _ fun c v => logicFlags c (v &&& ~~~mm)
  | bset mm m => exact modifyByte_kept s _ _ fun c v => logicFlags c (v ||| mm)
  | bclrw mmmm m => exact modifyWord_kept s _ _ fun c v => logicFlags c (v &&& ~~~mmmm)
  | bsetw mmmm m => exact modifyWord_kept s _ _ fun c v => logicFlags c (v ||| mmmm)
  | inc m | dec m => exact countByte_kept s _ _ _
  | incw m | decw m => exact countWord_kept s _ _ _
  -- program control
  | bra r | brn r | bcc r | bcs r | beq r | bmi r | bne r | bpl r | bvc r | bvs r | bhi r | bls r | bge r | bgt r | ble r | blt r
  | lbra r | lbrn r | lbcc r | lbcs r | lbeq r | lbev r | lbmi r | lbmv r | lbne r | lbpl r | lbvc r | lbvs r | lbhi r | lbls r
  | lbge r | lbgt r | lble r | lblt r => exact branch_kept s _ _ _
  | brclr mm o | brset mm o => exact bitBranch_kept s o _
  | jmp t =>
    have e : exec (.jmp t) s = .next (s.jump (eaJump s t)) := if_pos h
    rw [e]
    exact next_kept rfl (Nat.le_refl _)
  | jsr t =>
    have e : exec (.jsr t) s = call s s.pcx (eaJump s t) := if_pos h
    rw [e]
    exact call_kept s _ _
  | bsr r | lbsr r => exact call_kept s _ _
  | rts => exact execRts_kept s
  | rti => exact execRti_kept s
  | swi => exact enterException_kept s _ _
  -- immediate operands of registers
  | aix o | aiy o | aiz o | ais o | andp w | orp w => exact next_kept rfl (Nat.le_refl _)
  -- the stack
  | psha | pshb => exact commit_kept (((push8_sat s _).mono fun _ ht => ht.within).finish fun _ _ => .of_outside rfl (Nat.le_refl _))
  | pula | pulb => exact commit_kept (((pull8_sat true s).mono fun _ ht => ht.within).finish fun _ _ => .of_outside rfl (Nat.le_refl _))
  | pshm ii => exact execPshm_kept s ii h
  | pulm ii => exact execPulm_kept s ii h
  -- the multiply and accumulate unit
  | ldhi => exact execLdhi_kept s
  | mac xo yo => exact execMac_kept s xo yo
  | rmac xo yo => exact execRmac_kept s xo yo
  | pshmac => exact execPshmac_kept s
  | pulmac => exact execPulmac_kept s
  -- several cases
  | daa => exact execDaa_kept s
  | ediv => exact execEdiv_kept s
  | edivs => exact execEdivs_kept s
  | fdiv => exact execFdiv_kept s
  | idiv => exact execIdiv_kept s
  | lpstop => exact execLpstop_kept s
  | bgnd => exact execBgnd_kept s
  -- registers alone
  | tab | tba | tde | ted | xgab | xgde | aba | ade | sba | sde | sxt | cba | tsta | tstb | tstd | tste | emul | emuls | fmuls | mul
  | deca | decb | inca | incb | clra | clrb | clrd | clre | coma | comb | comd | come | nega | negb | negd | nege
  | lsra | lsrb | lsrd | lsre | asla | aslb | asld | asle | asra | asrb | asrd | asre | rola | rolb | rold | role
  | rora | rorb | rord | rore | abx | aby | abz | adx | ady | adz | aex | aey | aez
  | tsx | tsy | tsz | txs | txy | txz | tys | tyx | tyz | tzs | tzx | tzy | xgdx | xgdy | xgdz | xgex | xgey | xgez
  | tbek | tbsk | tbxk | tbyk | tbzk | tekb | tskb | txkb | tykb | tzkb | tap | tdp | tpa | tpd
  | ace | aced | aslm | asrm | clrm | tdmsk | tedm | tem | tmer | tmet | tmxed | wai | nop =>
    exact next_kept rfl (Nat.le_refl _)

/-- Reserved operand values are refused (R115). -/
theorem exec_illFormed (i : Instr) (s : State) (h : i.wellFormed = false) : ∃ r, exec i s = .refused r := by
  have hn {b : Bool} (hb : b = false) : ¬ b = true := Bool.eq_false_iff.mp hb
  cases i
  case jmp t => exact ⟨_, if_neg (hn h)⟩
  case jsr t => exact ⟨_, if_neg (hn h)⟩
  case pshm ii => exact ⟨_, if_neg (hn h)⟩
  case pulm ii => exact ⟨_, if_neg (hn h)⟩
  all_goals exact nomatch h

theorem Answers.of_next {o : Out} {Q : State → Prop} {t : State} (h : Answers o Q) (e : o = .next t) : Q t := by
  subst e
  exact h

theorem exec_kept {i : Instr} {s t : State} (h : exec i s = .next t) : Kept true s t := by
  cases hw : i.wellFormed with
  | true => exact (exec_answers_kept i s hw).of_next h
  | false =>
    obtain ⟨r, e⟩ := exec_illFormed i s hw
    exact nomatch e.symm.trans h

/-! ### The fetch, exceptions at a boundary and reset -/

theorem fetch_sat (own : Bool) (s : State) : (fetch s).Sat own (Cycles own s) := by
  refine (read16_sat own s .prog _).cycles fun w0 t => ?_
  split
  · exact Cycles.refl own t
  · split
    · exact Cycles.refl own t
    · refine (read16_sat own t .prog _).cycles fun w1 u => ?_
      split
      · exact Cycles.refl own u
      · exact (read16_sat own u .prog _).cycles fun _ w => Cycles.refl own w

theorem takeInterrupt_kept {s t : State} {l : BitVec 3} {r : IackResult} (h : takeInterrupt s l r = .next t) : Kept false s t := by
  have g := enterException_sat false s (vectorOf s.plat l r) s.pc (some l)
  rw [show enterException false s (vectorOf s.plat l r) s.pc (some l) = .next t from h] at g
  exact g.kept

theorem breakpoint_kept {s t : State} (h : breakpoint s = .next t) : Kept false s t := by
  have g := enterException_sat false s s.plat.vecBkpt s.pc none
  rw [show enterException false s s.plat.vecBkpt s.pc none = .next t from h] at g
  exact g.kept

theorem Bus.Sat.cyclesKept {α β : Type} {own : Bool} {s : State} {x : Bus α} {f : α → State → Bus β} (hx : x.Sat own (Cycles own s))
    (hf : ∀ v t, (f v t).Sat own (Kept own t)) : (x.bind f).Sat own (Kept own s) :=
  hx.bind (fun v t ht => (hf v t).mono fun _ hu => ht.kept.trans ht.pc hu) fun _ ht => ht.kept

/-- Reset reads four words and draws 23 free values (R650, R652). -/
theorem resetSequence_sat (own : Bool) (s : State) : (resetSequence s).Sat own (Kept own s) :=
  (read16_sat own s .prog 0).cyclesKept fun _ t => (read16_sat own t .prog 2).cyclesKept fun _ u =>
    (read16_sat own u .prog 4).cyclesKept fun _ v => (read16_sat own v .prog 6).cyclesKept fun _ _ =>
      .of_outside rfl (Nat.le_add_right _ 23)

theorem takeReset_kept {s t : State} (h : takeReset s = .next t) : Kept false s t := by
  have g := resetSequence_sat false s
  unfold takeReset at h
  cases hx : resetSequence s with
  | ok v u =>
    rw [hx] at h g
    cases h
    exact g
  | berr u =>
    rw [hx] at h g
    cases h
    exact ⟨g.plat, g.inputs, g.events, g.replies, g.draws, g.wf, g.ram, g.window⟩
  | refused r =>
    rw [hx] at h
    cases h

/-! ### The boundary and the step -/

theorem wake_kept {s t : State} {i : HostInput} (h : wake s i = .next t) : Kept false s t := by
  unfold wake at h
  split at h
  · exact takeInterrupt_kept h
  · cases h
    exact Kept.refl false s

/-- What a boundary leaves: a step that is over has kept what the stores of other agents left, and an instruction runs from `begun` only. -/
def Boundary.Sound (s : State) : Boundary → Prop
  | .over o => ∀ t, o = .next t → Kept false s.nextInput t
  | .go t => t = s.begun

theorem boundary_sound (s : State) : (boundary s).Sound s := by
  unfold boundary
  dsimp only
  split
  · exact fun t h => takeReset_kept h
  · split
    · rintro t ⟨⟩
      exact Kept.refl false _
    · rintro t ⟨⟩
      exact Kept.refl false _
    · exact fun t h => wake_kept h
    · exact fun t h => wake_kept h
    · have hn : Within s.nextInput { s.nextInput with inhibit := false } := .of_outside rfl (Nat.le_refl _) rfl
      split
      · intro t h
        split at h
        · cases h
          exact .of_outside rfl (Nat.le_refl _)
        · exact hn.kept.weaken.trans hn.pc (breakpoint_kept h)
      · split
        · exact fun t h => hn.kept.weaken.trans hn.pc (takeInterrupt_kept h)
        · show _ = s.begun
          rw [State.begun, State.nextInput_inhibit]

/-- A whole step, but for the stores of other agents that come before it. -/
theorem step_kept {s t : State} (h : step s = .next t) : Kept false s.nextInput t := by
  have hb := boundary_sound s
  unfold step at h
  rcases hx : boundary s with o | u
  · rw [hx] at h hb
    exact hb t h
  · rw [hx] at h hb
    have hu : u = s.begun := hb
    have hn : Within s.nextInput u := hu ▸ .of_outside rfl (Nat.le_refl _) rfl
    have hf := fetch_sat true u
    dsimp only at h
    split at h
    · cases h
    · split at h
      · cases h
      · cases hy : fetch u with
        | refused r =>
          rw [hy] at h
          cases h
        | berr v =>
          rw [hy] at h hf
          have hv : Within s.nextInput v := hn.trans (Cycles.within hf)
          exact (hv.took (by simpa only [h] using busError_sat v)).weaken
        | ok oi v =>
          rw [hy] at h hf
          have hv : Within s.nextInput v := hn.trans (Cycles.within hf)
          cases oi with
          | none =>
            have g := (enterException_kept v v.plat.vecIllegal (v.pc + 2#20)).of_next h
            exact (hv.kept.trans hv.pc g).weaken
          | some i => exact (hv.kept.trans hv.pc (exec_kept h)).weaken

/-- Settles O10: the step is `Kept` from the state the stores of other agents left, and those stores change bytes of RAM they name. -/
theorem stepChangesOnlyWhatItMay : Obligations.StepChangesOnlyWhatItMay := by
  unfold Obligations.StepChangesOnlyWhatItMay
  intro s t h
  have hk := step_kept h
  refine ⟨?_, ?_, ?_, ?_, ?_, ?_, ?_⟩
  · exact hk.plat.trans s.nextInput_plat
  · exact hk.inputs.trans s.nextInput_inputs
  · simpa only [State.nextInput_events] using hk.events
  · simpa only [State.nextInput_replies] using hk.replies
  · simpa only [State.nextInput_draws] using hk.draws
  · intro k hne
    simpa only [State.nextInput_kindAt] using (hk.ram k).resolve_left hne
  · intro k hne
    exact (nextInput_get s k).resolve_left hne

end Sys2Proof.Machine

/-! ## What an instruction can end in

Every instruction ends in a next state whose control fields (program counter, latch, run state, IP, SM and S) changed in one of the listed ways, or refuses a store of its own,
at an address its operands or SK : SP name. The meanings are followed bus cycle by bus cycle: `Amid` says what holds in the middle of an instruction, `Ran` what holds after it. -/

namespace Sys2Proof.Machine

/-! ### The terms -/

/-- ANDP, ORP, TDP, PULM with mask bit 0 and RTI: the instructions that load IP and SM. -/
def LoadsModes (i : Instr) : Prop :=
  (∃ w, i = .andp w) ∨ (∃ w, i = .orp w) ∨ i = .tdp ∨ (∃ ii, i = .pulm ii ∧ ii.getLsbD 0 = true) ∨ i = .rti

/-- The fields of the CCR that are no flags (R35, R43, R44). -/
def CCR.modes (c : CCR) : BitVec 3 × Bool × Bool := (c.ip, c.sm, c.s)

/-- The fields that steer the machine. -/
def State.steering (s : State) : Addr × Bool × Run × BitVec 3 × Bool × Bool := (s.pc, s.inhibit, s.run, s.ccr.modes)

/-- The vectors of the exceptions an instruction takes (R601, R621). -/
def State.trapVectors (s : State) : List Byte := [6#8, s.plat.vecBerr, s.plat.vecIllegal, s.plat.vecDiv0]

/-- How many bytes from SK : SP the pushes of one instruction and of the exception it takes can reach: PSHM and PULM move seven words, PSHMAC and PULMAC those of the frame. -/
def State.stackReach (s : State) : Nat := 2 * max 7 s.plat.macFrame.words

/-- The instruction may store at `a`: its operands name it, or it is near SK : SP. -/
def MayStore (i : Instr) (s : State) (a : Addr) : Prop :=
  a ∈ storeBytes i s ∨ ∃ k : Int, -(s.stackReach : Int) ≤ k ∧ k ≤ (s.stackReach : Int) + 1 ∧ a = BitVec.ofInt 20 (s.sp20.toNat + k)

/-- The instruction may store into its own prefetch window (R94). -/
def Barred (i : Instr) (s : State) : Prop := ∃ a, s.inPrefetch a = true ∧ MayStore i s a

/-- The latch and the run state after an instruction: as they were, or an exception was entered, or its entry halted the machine (R624), or interrupts are held off
(R547), or the instruction is one of those that end the running state (R590 to R592). -/
inductive Ended (i : Instr) (s t : State) : Prop where
  | kept (hi : t.inhibit = s.inhibit) (hr : t.run = s.run)
  | entered (hi : t.inhibit = false) (hr : t.run = .running)
  | halted (hi : t.inhibit = false) (hr : t.run = .halted) (a : Addr) (ha : s.mayFail a)
      (hw : a ∈ [t.sp20, t.sp20 + 1#20] ∨ ∃ n ∈ s.trapVectors, a ∈ [vectorAddr n, vectorAddr n + 1#20])
  | heldOff (hi : t.inhibit = true) (hr : t.run = s.run)
  | stopped (hi : t.inhibit = s.inhibit) (hr : t.run = .stopped) (h : i = .lpstop) (hs : s.ccr.s = false)
  | waiting (hi : t.inhibit = s.inhibit) (hr : t.run = .waiting) (h : i = .wai)
  | background (hi : t.inhibit = s.inhibit) (hr : t.run = .background) (h : i = .bgnd) (hp : s.plat.bdmEnabled = true)

/-- What holds of the state an instruction ends in: the program counter stays even (R33), and IP, SM, S, the latch and the run state change as listed. -/
structure Ran (i : Instr) (s t : State) : Prop where
  even : s.pc.getLsbD 0 = false → t.pc.getLsbD 0 = false
  mask : (t.ccr.ip = s.ccr.ip ∧ t.ccr.sm = s.ccr.sm) ∨ LoadsModes i
  stop : t.ccr.s = s.ccr.s ∨ LoadsModes i ∨ i = .tap
  ended : Ended i s t

/-- All that an instruction can answer. -/
def Runs (i : Instr) (s : State) (o : Out) : Prop :=
  match o with
  | .next t => Ran i s t
  | .fault _ => False
  | .refused r => r = .storeIntoPrefetch ∧ Barred i s

/-- `t` is a state in the middle of the instruction, SK : SP moved by `k`. -/
structure Amid (i : Instr) (k : Int) (s t : State) : Prop where
  within : Within s t
  inhibit : t.inhibit = s.inhibit
  run : t.run = s.run
  modes : t.ccr.modes = s.ccr.modes ∨ LoadsModes i
  stack : t.sp20 = s.sp20 + BitVec.ofInt 20 k

/-- A bus error may cut the instruction off where SK : SP has moved by `k`: the frame of its exception is still near the first SK : SP. -/
def InReach (s : State) (k : Int) : Prop := 2 - (s.stackReach : Int) ≤ k ∧ k ≤ s.stackReach

/-- The instruction is cut off by a bus error. -/
def Cut (i : Instr) (s t : State) : Prop := ∃ k, InReach s k ∧ Amid i k s t

/-- A bus sequence of the instruction: complete, cut off, or refused for a store into the prefetch window. -/
def Bus.Leads {α : Type} (i : Instr) (s : State) (x : Bus α) (P : State → Prop) : Prop :=
  match x with
  | .ok _ t => P t
  | .berr t => Cut i s t
  | .refused r => r = .storeIntoPrefetch ∧ Barred i s

theorem Bus.Leads.bind {α β : Type} {i : Instr} {s : State} {x : Bus α} {f : α → State → Bus β} {P Q : State → Prop} (hx : x.Leads i s P)
    (hf : ∀ v t, P t → (f v t).Leads i s Q) : (x.bind f).Leads i s Q := by
  cases x with
  | ok v t => exact hf v t hx
  | berr t => exact hx
  | refused r => exact hx

/-! ### SK : SP and the bytes near it -/

theorem stackReach_ge (s : State) : 14 ≤ s.stackReach ∧ 2 * s.plat.macFrame.words ≤ s.stackReach := by
  unfold State.stackReach
  omega

theorem inReach_small {s : State} {k : Int} (h : -12 ≤ k) (h' : k ≤ 14) : InReach s k := by
  have := (stackReach_ge s).1
  unfold InReach
  omega

theorem offset_add (a b : Addr) (k l : Int) (h : a = b + BitVec.ofInt 20 k) : a + BitVec.ofInt 20 l = b + BitVec.ofInt 20 (k + l) := by
  rw [h, BitVec.ofInt_add, BitVec.add_assoc]

/-- A byte that stands `l` from where SK : SP is in the middle of an instruction. -/
theorem Amid.near {i : Instr} {k : Int} {s t : State} (h : Amid i k s t) (l : Int) (hl : -(s.stackReach : Int) ≤ k + l) (hl' : k + l ≤ (s.stackReach : Int) + 1) :
    MayStore i s (t.sp20 + BitVec.ofInt 20 l) := by
  refine .inr ⟨k + l, hl, hl', ?_⟩
  rw [offset_add _ _ _ _ h.stack, BitVec.ofInt_add (s.sp20.toNat : Int), BitVec.ofInt_natCast, BitVec.ofNat_toNat, BitVec.setWidth_eq]

theorem Amid.barred {i : Instr} {k : Int} {s t : State} (h : Amid i k s t) {a : Addr} (ha : t.inPrefetch a = true) (hs : MayStore i s a) : Barred i s :=
  ⟨a, by rwa [inPrefetch_of h.within.kept.plat h.within.pc] at ha, hs⟩

/-! ### In the middle of an instruction -/

theorem Amid.refl (i : Instr) (s : State) : Amid i 0 s s := ⟨.of_outside rfl (Nat.le_refl _) rfl, rfl, rfl, .inl rfl, (BitVec.add_zero _).symm⟩

/-- Registers are written that neither steer nor hold SK : SP. -/
theorem Amid.regs {i : Instr} {k : Int} {s t u : State} (h : Amid i k s t) (ho : u.outside = t.outside) (hd : t.draws ≤ u.draws)
    (hs : u.steering = t.steering) (hp : u.sp20 = t.sp20) : Amid i k s u := by
  simp only [State.steering, Prod.mk.injEq] at hs
  obtain ⟨hpc, hi, hr, hm⟩ := hs
  exact ⟨h.within.trans (.of_outside ho hd hpc), hi.trans h.inhibit, hr.trans h.run, h.modes.imp_left hm.trans, hp.trans h.stack⟩

/-- Bus cycles that leave SK : SP. -/
theorem Amid.cycles {i : Instr} {k : Int} {s t u : State} (h : Amid i k s t) (g : Cycles true t u) (hp : u.sp20 = t.sp20) : Amid i k s u :=
  ⟨h.within.trans g.within, g.inhibit.trans h.inhibit, g.run.trans h.run, h.modes.imp_left fun hm => (congrArg CCR.modes g.ccr).trans hm, hp.trans h.stack⟩

theorem Amid.moveSP {i : Instr} {k l m : Int} {s t : State} (h : Amid i k s t) (hm : k + l = m) : Amid i m s (t.withSP20 (t.sp20 + BitVec.ofInt 20 l)) :=
  ⟨h.within.trans (.of_outside rfl (Nat.le_refl _) rfl), h.inhibit, h.run, h.modes, by rw [State.withSP20_sp20, offset_add _ _ _ _ h.stack, hm]⟩

theorem withCCR_steering {s : State} {c : CCR} (h : c.modes = s.ccr.modes) : (s.withCCR c).steering = s.steering := by
  simp only [State.steering, State.withCCR, h]

theorem Amid.flags {i : Instr} {k : Int} {s t : State} {c : CCR} (h : Amid i k s t) (hc : c.modes = t.ccr.modes) : Amid i k s (t.withCCR c) :=
  h.regs rfl (Nat.le_refl _) (withCCR_steering hc) rfl

theorem sub_two (a : Addr) : a - 2#20 = a + BitVec.ofInt 20 (-2) := BitVec.sub_eq_add_neg a 2#20
theorem sub_one (a : Addr) : a - 1#20 = a + BitVec.ofInt 20 (-1) := BitVec.sub_eq_add_neg a 1#20

/-- SK : SP moves down by a push, or up by two and down by one for a byte. -/
theorem Amid.lowerSP {i : Instr} {k : Int} {s t : State} (h : Amid i k s t) :
    Amid i (k - 2) s (t.withSP20 (t.sp20 - 2#20)) ∧ Amid i (k - 1) s (t.withSP20 (t.sp20 - 1#20)) := by
  rw [sub_two, sub_one]
  exact ⟨h.moveSP (l := -2) rfl, h.moveSP (l := -1) rfl⟩

/-! ### Bus cycles -/

theorem deviceRead_sp (own : Bool) (s : State) (sp : Space) (a : Addr) (wide : Bool) : (deviceRead s sp a wide).Sat own fun t => t.sp20 = s.sp20 := by
  unfold deviceRead
  have e : (s.emit (.deviceRead sp a wide)).replies = s.replies := rfl
  simp only [e]
  cases s.replies with
  | nil => exact rfl
  | cons r rest => cases r <;> exact rfl

theorem read8_sp (own : Bool) (s : State) (sp : Space) (a : Addr) : (read8 s sp a).Sat own fun t => t.sp20 = s.sp20 := by
  unfold read8
  split
  · exact rfl
  · exact rfl
  · exact (deviceRead_sp own s sp a false).bind (fun _ _ ht => ht) fun _ ht => ht
  · exact rfl
  · exact rfl

/-- A read leaves SK : SP. -/
theorem read16_sp (own : Bool) (s : State) (sp : Space) (a : Addr) : (read16 s sp a).Sat own fun t => t.sp20 = s.sp20 := by
  unfold read16
  split
  · exact (read8_sp own s sp a).bind (fun _ t ht => (read8_sp own t sp _).bind (fun _ _ hu => hu.trans ht) fun _ hu => hu.trans ht) fun _ ht => ht
  · unfold readAligned
    split
    · exact rfl
    · exact rfl
    · exact deviceRead_sp own s sp a true
    · exact rfl
    · exact rfl

/-- One access in the middle of an instruction: where it refuses, the instruction is barred. -/
theorem Amid.access {α : Type} {i : Instr} {k : Int} {s t : State} {x : Bus α} (h : Amid i k s t) (hk : InReach s k) (hc : x.Sat true (Cycles true t))
    (hp : x.Sat true fun u => u.sp20 = t.sp20) (hr : ∀ r, x = .refused r → Barred i s) : x.Leads i s (Amid i k s) := by
  cases x with
  | ok v u => exact h.cycles hc hp
  | berr u => exact ⟨k, hk, h.cycles hc hp⟩
  | refused r => exact ⟨hc.2, hr r rfl⟩

/-- What no window is in the way of is not refused. -/
theorem not_refused {α : Type} {x : Bus α} {P : State → Prop} (h : x.Sat false P) (r : Refusal) : x ≠ .refused r := by
  rintro rfl
  exact Bool.false_ne_true h.1

/-- A refused byte store would have met the window (R94). -/
theorem write8_refused {own : Bool} {s : State} {a : Addr} {v : Byte} {r : Refusal} (h : write8 own s a v = .refused r) : s.inPrefetch a = true := by
  unfold write8 at h
  by_cases hc : (own && s.inPrefetch a) = true
  · exact ((Bool.and_eq_true ..).mp hc).2
  · rw [if_neg hc] at h
    have g := deviceWrite_sat false s a false (v.setWidth 16)
    split at h
    · cases h
    · cases h
    · exact absurd h (not_refused g r)
    · cases h
    · cases h

/-- A refused word store would have met the window with one of its bytes. -/
theorem write16_refused {s : State} {a : Addr} {v : Word} {r : Refusal} (h : write16 true s a v = .refused r) :
    ∃ b ∈ [a, a + 1#20], s.inPrefetch b = true := by
  unfold write16 at h
  split at h
  · have hs := write8_sat true s a (v.extractLsb' 8 8)
    cases hx : write8 true s a (v.extractLsb' 8 8) with
    | ok w t =>
      rw [hx] at h hs
      have g : Cycles true s t := hs
      exact ⟨a + 1#20, by simp, by rw [← inPrefetch_of g.kept.plat g.pc]; exact write8_refused h⟩
    | berr t => rw [hx] at h; cases h
    | refused q => exact ⟨a, by simp, write8_refused hx⟩
  · unfold writeAligned at h
    by_cases hc : (true && (s.inPrefetch a || s.inPrefetch (a + 1#20))) = true
    · rw [Bool.true_and, Bool.or_eq_true] at hc
      rcases hc with hc | hc
      · exact ⟨a, by simp, hc⟩
      · exact ⟨a + 1#20, by simp, hc⟩
    · rw [if_neg hc] at h
      have g := deviceWrite_sat false s a true v
      split at h
      · cases h
      · cases h
      · exact absurd h (not_refused g r)
      · cases h
      · cases h


section accesses

variable {i : Instr} {k : Int} {s t : State} (h : Amid i k s t) (hk : InReach s k)
include h hk

theorem Amid.leads_read8 (sp : Space) (a : Addr) : (read8 t sp a).Leads i s (Amid i k s) :=
  h.access hk (read8_sat true t sp a) (read8_sp true t sp a) fun r e => absurd e (not_refused (read8_sat false t sp a) r)

theorem Amid.leads_read16 (sp : Space) (a : Addr) : (read16 t sp a).Leads i s (Amid i k s) :=
  h.access hk (read16_sat true t sp a) (read16_sp true t sp a) fun r e => absurd e (not_refused (read16_sat false t sp a) r)

theorem Amid.leads_write8 (a : Addr) (v : Byte) (ha : MayStore i s a) : (write8 true t a v).Leads i s (Amid i k s) :=
  h.access hk (write8_sat true t a v) (write8_sp true t a v) fun _ e => h.barred (write8_refused e) ha

theorem Amid.leads_write16 (a : Addr) (v : Word) (ha : MayStore i s a) (hb : MayStore i s (a + 1#20)) : (write16 true t a v).Leads i s (Amid i k s) :=
  h.access hk (write16_sat true t a v) (write16_sp true t a v) fun _ e => by
    obtain ⟨b, hm, hw⟩ := write16_refused e
    simp only [List.mem_cons, List.not_mem_nil, or_false] at hm
    rcases hm with rfl | rfl
    · exact h.barred hw ha
    · exact h.barred hw hb

/-- A push (R160): its word stands at SK : SP, which is near. -/
theorem Amid.leads_push16 (v : Word) : (push16 true t v).Leads i s (Amid i (k - 2) s) := by
  have h0 : MayStore i s t.sp20 := by simpa using h.near 0 (by unfold InReach at hk; omega) (by unfold InReach at hk; omega)
  exact (h.leads_write16 hk t.sp20 v h0 (h.near 1 (by unfold InReach at hk; omega) (by unfold InReach at hk; omega))).bind fun _ _ hu =>
    hu.lowerSP.1

end accesses

/-- A pull (R161) moves SK : SP before it reads. -/
theorem Amid.leads_pull16 {i : Instr} {k : Int} {s t : State} (h : Amid i k s t) (hk : InReach s (k + 2)) : (pull16 t).Leads i s (Amid i (k + 2) s) :=
  (h.moveSP (l := 2) rfl).leads_read16 hk .data _

/-! ### Exceptions of the instruction -/

theorem push16_refused {s : State} {v : Word} {r : Refusal} (h : push16 true s v = .refused r) : ∃ b ∈ [s.sp20, s.sp20 + 1#20], s.inPrefetch b = true := by
  unfold push16 at h
  cases hx : write16 true s s.sp20 v with
  | ok w u => rw [hx] at h; cases h
  | berr u => rw [hx] at h; cases h
  | refused q => exact write16_refused hx

theorem push16_ok_sp {s t : State} {v : Word} (h : push16 true s v = .ok () t) : t.sp20 = s.sp20 - 2#20 := by
  unfold push16 at h
  have hs := write16_sp true s s.sp20 v
  cases hx : write16 true s s.sp20 v with
  | ok w u =>
    rw [hx] at h hs
    cases h
    rw [State.withSP20_sp20, show u.sp20 = s.sp20 from hs]
  | berr u => rw [hx] at h; cases h
  | refused q => rw [hx] at h; cases h

/-- A refused exception entry would have met the window with a byte of its frame. -/
theorem enterException_refused {s : State} {n : Byte} {resume : Addr} {r : Refusal} (h : enterException true s n resume none = .refused r) :
    ∃ l : Int, -2 ≤ l ∧ l ≤ 1 ∧ s.inPrefetch (s.sp20 + BitVec.ofInt 20 l) = true := by
  have word (a : Int) (h0 : -2 ≤ a) (h1 : a ≤ 0) (hb : ∃ b ∈ [s.sp20 + BitVec.ofInt 20 a, s.sp20 + BitVec.ofInt 20 a + 1#20], s.inPrefetch b = true) :
      ∃ l : Int, -2 ≤ l ∧ l ≤ 1 ∧ s.inPrefetch (s.sp20 + BitVec.ofInt 20 l) = true := by
    obtain ⟨b, hm, hw⟩ := hb
    simp only [List.mem_cons, List.not_mem_nil, or_false] at hm
    rcases hm with rfl | rfl
    · exact ⟨a, h0, by omega, hw⟩
    · exact ⟨a + 1, by omega, by omega, by rw [← offset_add _ _ a 1 rfl]; exact hw⟩
  unfold enterException exceptionSequence pushFrame at h
  have hs := push16_sat true s ((resume + 6#20).extractLsb' 0 16)
  cases hx : push16 true s ((resume + 6#20).extractLsb' 0 16) with
  | refused q => exact word 0 (by decide) (by decide) (by simpa using push16_refused hx)
  | berr u => rw [hx] at h; cases h
  | ok w u =>
    rw [hx] at h hs
    have g : Cycles true s u := hs
    simp only [Bus.bind_ok] at h
    cases hy : push16 true u (u.ccr.word ((resume + 6#20).extractLsb' 16 4)) with
    | refused q =>
      obtain ⟨b, hm, hw⟩ := push16_refused hy
      rw [push16_ok_sp hx, sub_two] at hm
      exact word (-2) (by decide) (by decide) ⟨b, hm, by rw [← inPrefetch_of g.kept.plat g.pc]; exact hw⟩
    | berr v => rw [hy] at h; cases h
    | ok x v =>
      rw [hy] at h
      simp only [Bus.bind_ok] at h
      cases hz : read16 (acknowledge v none) .data (vectorAddr n) with
      | refused q => exact absurd hz (not_refused (read16_sat false _ _ _) q)
      | berr w => rw [hz] at h; cases h
      | ok y w => rw [hz] at h; cases h

/-- An exception taken in the middle of an instruction (R610, R615). -/
theorem Amid.took {i : Instr} {k : Int} {s t u : State} {n : Byte} (h : Amid i k s t) (hn : n ∈ s.trapVectors) (g : Took true n none t u) : Ran i s u := by
  have hc : u.ccr = t.ccr := by rw [g.flags, g.mask rfl]
  have hm : (t.ccr.ip = s.ccr.ip ∧ t.ccr.sm = s.ccr.sm ∧ t.ccr.s = s.ccr.s) ∨ LoadsModes i := by simpa [CCR.modes] using h.modes
  refine ⟨fun he => ?_, ?_, ?_, ?_⟩
  · rcases g.reached with ⟨-, -, hp⟩ | ⟨-, -, hp⟩
    · exact hp
    · rwa [hp, h.within.pc]
  · rw [hc]
    exact hm.imp_left fun ⟨h1, h2, _⟩ => ⟨h1, h2⟩
  · rw [hc]
    exact hm.imp (fun ⟨_, _, h3⟩ => h3) .inl
  · rcases g.reached with ⟨hr, hi, -⟩ | ⟨hr, hi, -⟩
    · exact .entered hi hr
    · obtain ⟨a, ha, hw⟩ := g.halts hr
      exact .halted hi hr a (mayFail_of_kept h.within.kept ha) (hw.imp_right fun hv => ⟨n, hn, hv⟩)

theorem Amid.traps {i : Instr} {k : Int} {s t : State} {n : Byte} (h : Amid i k s t) (hk : InReach s k) (hn : n ∈ s.trapVectors) (resume : Addr) :
    Runs i s (enterException true t n resume none) := by
  have g := enterException_sat true t n resume none
  unfold Runs
  cases hb : enterException true t n resume none with
  | next u => rw [hb] at g; exact h.took hn g
  | fault f => rw [hb] at g; exact g
  | refused r =>
    rw [hb] at g
    obtain ⟨l, h0, h1, hw⟩ := enterException_refused hb
    exact ⟨g.2, h.barred hw (h.near l (by unfold InReach at hk; omega) (by unfold InReach at hk; omega))⟩

/-- A meaning that ends in `commit`. -/
theorem commit_runs {i : Instr} {s : State} {x : Bus Unit} (hx : x.Leads i s (Ran i s)) : Runs i s (commit x) := by
  cases x with
  | ok v t => exact hx
  | berr t =>
    obtain ⟨k, hk, h⟩ := hx
    exact h.traps hk (by simp [State.trapVectors, h.within.kept.plat]) t.pc
  | refused r => exact hx

/-! ### The last register writes -/

theorem getLsbD_zero_iff (a : Addr) : a.getLsbD 0 = false ↔ a.toNat % 2 = 0 := by
  rw [BitVec.getLsbD, Nat.testBit_zero, decide_eq_false_iff_not]
  omega

theorem advance_even (s : State) (n : Nat) (hn : n % 2 = 0) (h : s.pc.getLsbD 0 = false) : (s.advance n).pc.getLsbD 0 = false := by
  rw [getLsbD_zero_iff] at h ⊢
  rw [State.advance_pc, BitVec.toNat_add, BitVec.toNat_ofNat]
  omega

/-- The instruction is over, at an even program counter. -/
theorem Amid.ran {i : Instr} {k : Int} {s t u : State} (h : Amid i k s t) (he : t.pc.getLsbD 0 = false → u.pc.getLsbD 0 = false)
    (hi : u.inhibit = t.inhibit) (hr : u.run = t.run) (hm : u.ccr.modes = t.ccr.modes) : Ran i s u := by
  have hm' : (u.ccr.ip = s.ccr.ip ∧ u.ccr.sm = s.ccr.sm ∧ u.ccr.s = s.ccr.s) ∨ LoadsModes i := by
    simpa [CCR.modes] using h.modes.imp_left hm.trans
  exact ⟨fun h0 => he (by rwa [h.within.pc]), hm'.imp_left fun ⟨h1, h2, _⟩ => ⟨h1, h2⟩, hm'.imp (fun ⟨_, _, h3⟩ => h3) .inl,
    .kept (hi.trans h.inhibit) (hr.trans h.run)⟩

/-- It goes on `n` bytes further. -/
theorem Amid.advanced {α : Type} {i : Instr} {k : Int} {s t u : State} {n : Nat} {v : α} (h : Amid i k s t) (hn : n % 2 = 0)
    (hs : u.steering = t.steering) : (Bus.ok v (u.advance n)).Leads i s (Ran i s) := by
  simp only [State.steering, Prod.mk.injEq] at hs
  obtain ⟨hpc, hi, hr, hm⟩ := hs
  exact h.ran (fun he => advance_even u n hn (by rwa [hpc])) hi hr hm

/-- It goes on elsewhere. -/
theorem Amid.jumped {i : Instr} {k : Int} {s t : State} (h : Amid i k s t) (a : Addr) : Ran i s (t.jump a) :=
  h.ran (fun _ => evenAddr_even a) rfl rfl rfl

/-! ### The shapes of meanings -/

theorem memB_even (m : MemB) : m.length % 2 = 0 := by cases m <;> simp [MemB.length]
theorem memW_even (m : MemW) : m.length % 2 = 0 := by cases m <;> simp [MemW.length]
theorem memE_even (m : MemE) : m.length % 2 = 0 := by cases m <;> simp [MemE.length]
theorem src8_even (o : Src8) : o.length % 2 = 0 := by cases o <;> simp [Src8.length, memE_even]
theorem srcD_even (o : SrcD) : o.length % 2 = 0 := by cases o <;> simp [SrcD.length, memE_even]
theorem srcDI_even (o : SrcDI) : o.length % 2 = 0 := by cases o <;> simp [SrcDI.length, memE_even]
theorem srcE_even (o : SrcE) : o.length % 2 = 0 := by cases o <;> simp [SrcE.length, memW_even]
theorem srcEI_even (o : SrcEI) : o.length % 2 = 0 := by cases o <;> simp [SrcEI.length, memW_even]
theorem srcX_even (o : SrcX) : o.length % 2 = 0 := by cases o <;> simp [SrcX.length, memB_even]
theorem imm_even (o : Imm) : o.length % 2 = 0 := by cases o <;> simp [Imm.length]
theorem move_even (o : Move) : o.length % 2 = 0 := by cases o <;> simp [Move.length]
theorem bitBranch_even (o : BitBranch) : o.length % 2 = 0 := by cases o <;> simp [BitBranch.length]

theorem inReach_zero (s : State) : InReach s 0 := inReach_small (by decide) (by decide)

/-- An operand read: an immediate, or a read cycle. -/
def Bus.Operand {α : Type} (s : State) (x : Bus α) : Prop := ∀ i, x.Leads i s (Amid i 0 s)

theorem read8_operand (s : State) (a : Addr) : (read8 s .data a).Operand s := fun i => (Amid.refl i s).leads_read8 (inReach_zero s) _ _
theorem read16_operand (s : State) (a : Addr) : (read16 s .data a).Operand s := fun i => (Amid.refl i s).leads_read16 (inReach_zero s) _ _

theorem operand8_operand (s : State) (o : Src8) : (operand8 s o).Operand s := by
  cases o with
  | imm8 ii => exact fun i => Amid.refl i s
  | mem m => exact read8_operand s _
theorem operandD_operand (s : State) (o : SrcD) : (operandD s o).Operand s := by
  cases o with
  | imm16 w => exact fun i => Amid.refl i s
  | mem m => exact read16_operand s _
theorem operandDI_operand (s : State) (o : SrcDI) : (operandDI s o).Operand s := by
  cases o with
  | imm8 ii => exact fun i => Amid.refl i s
  | imm16 w => exact fun i => Amid.refl i s
  | mem m => exact read16_operand s _
theorem operandE_operand (s : State) (o : SrcE) : (operandE s o).Operand s := by
  cases o with
  | imm16 w => exact fun i => Amid.refl i s
  | mem m => exact read16_operand s _
theorem operandEI_operand (s : State) (o : SrcEI) : (operandEI s o).Operand s := by
  cases o with
  | imm8 ii => exact fun i => Amid.refl i s
  | imm16 w => exact fun i => Amid.refl i s
  | mem m => exact read16_operand s _
theorem operandX_operand (s : State) (o : SrcX) : (operandX s o).Operand s := by
  cases o with
  | imm16 w => exact fun i => Amid.refl i s
  | mem m => exact read16_operand s _

section shapes

variable {i : Instr} {s : State}

/-- An instruction that touches registers alone. -/
theorem next_runs {t : State} {n : Nat} (hn : n % 2 = 0) (h : t.steering = s.steering) : Runs i s (.next (t.advance n)) :=
  (Amid.refl i s).advanced (v := ()) hn h

theorem useOperand_runs {α : Type} {x : Bus α} {len : Nat} {f : State → α → State} (hx : x.Operand s) (hl : len % 2 = 0)
    (hf : ∀ t v, (f t v).steering = t.steering) : Runs i s (useOperand x len f) :=
  commit_runs ((hx i).bind fun v t ht => ht.advanced hl (hf t v))

/-- The only byte the operands name. -/
theorem mayStore_byte {ea : Addr} (h : storeBytes i s = [ea]) : MayStore i s ea := .inl (by simp [h])

/-- The two bytes of the only word the operands name. -/
theorem mayStore_word {ea : Addr} (h : storeBytes i s = [ea, ea + 1#20]) : MayStore i s ea ∧ MayStore i s (ea + 1#20) :=
  ⟨.inl (by simp [h]), .inl (by simp [h])⟩

theorem leads_store8 {t : State} {ea : Addr} {v : Byte} (h : Amid i 0 s t) (hm : storeBytes i s = [ea]) :
    (write8 true t ea v).Leads i s (Amid i 0 s) := h.leads_write8 (inReach_zero s) ea v (mayStore_byte hm)

theorem leads_store16 {t : State} {ea : Addr} {v : Word} (h : Amid i 0 s t) (hm : storeBytes i s = [ea, ea + 1#20]) :
    (write16 true t ea v).Leads i s (Amid i 0 s) := h.leads_write16 (inReach_zero s) ea v (mayStore_word hm).1 (mayStore_word hm).2

section byte

variable {ea : Addr} {len : Nat} (hl : len % 2 = 0) (hm : storeBytes i s = [ea])
include hl hm

theorem storeByte_runs {v : Byte} : Runs i s (storeByte s ea v len) :=
  commit_runs ((leads_store8 (.refl i s) hm).bind fun _ _ ht => ht.advanced hl rfl)

theorem clearByte_runs : Runs i s (clearByte s ea len) :=
  commit_runs ((leads_store8 (.refl i s) hm).bind fun _ _ ht => ht.advanced hl rfl)

theorem modifyByte_runs {f : CCR → Byte → Byte × CCR} (hf : ∀ c v, (f c v).2.modes = c.modes) : Runs i s (modifyByte s ea len f) :=
  commit_runs ((read8_operand s ea i).bind fun _ _ ht => (leads_store8 ht hm).bind fun _ _ hu =>
    hu.advanced hl (withCCR_steering (hf _ _)))

/-- The flags are written before the store. -/
theorem countByte_runs {f : CCR → Byte → Byte × CCR} (hf : ∀ c v, (f c v).2.modes = c.modes) : Runs i s (countByte s ea len f) :=
  commit_runs ((read8_operand s ea i).bind fun _ _ ht =>
    (leads_store8 (ht.flags (hf _ _)) hm).bind fun _ _ hu => hu.advanced hl rfl)

end byte

section word

variable {ea : Addr} {len : Nat} (hl : len % 2 = 0) (hm : storeBytes i s = [ea, ea + 1#20])
include hl hm

theorem storeWord_runs {v : Word} : Runs i s (storeWord s ea v len) :=
  commit_runs ((leads_store16 (.refl i s) hm).bind fun _ _ ht => ht.advanced hl rfl)

theorem clearWord_runs : Runs i s (clearWord s ea len) :=
  commit_runs ((leads_store16 (.refl i s) hm).bind fun _ _ ht => ht.advanced hl rfl)

theorem modifyWord_runs {f : CCR → Word → Word × CCR} (hf : ∀ c v, (f c v).2.modes = c.modes) : Runs i s (modifyWord s ea len f) :=
  commit_runs ((read16_operand s ea i).bind fun _ _ ht => (leads_store16 ht hm).bind fun _ _ hu =>
    hu.advanced hl (withCCR_steering (hf _ _)))

theorem countWord_runs {f : CCR → Word → Word × CCR} (hf : ∀ c v, (f c v).2.modes = c.modes) : Runs i s (countWord s ea len f) :=
  commit_runs ((read16_operand s ea i).bind fun _ _ ht =>
    (leads_store16 (ht.flags (hf _ _)) hm).bind fun _ _ hu => hu.advanced hl rfl)

end word

theorem moved_steering {w : Nat} (s : State) (o : Move) (v : BitVec w) : ((movePost s o).withCCR (flagsNZV s.ccr v)).steering = s.steering := by
  cases o <;> rfl

theorem execMovb_runs (s : State) (o : Move) : Runs (.movb o) s (execMovb o s) :=
  commit_runs ((read8_operand s _ _).bind fun v _ ht => (leads_store8 ht rfl).bind fun _ u hu =>
    hu.advanced (move_even o) (moved_steering u o v))

theorem execMovw_runs (s : State) (o : Move) : Runs (.movw o) s (execMovw o s) :=
  commit_runs ((read16_operand s _ _).bind fun v _ ht => (leads_store16 ht rfl).bind fun _ u hu =>
    hu.advanced (move_even o) (moved_steering u o v))

theorem branch_runs {cond : Bool} {off : Addr} {len : Nat} (hl : len % 2 = 0) : Runs i s (branch s cond off len) := by
  cases cond with
  | true => exact (Amid.refl i s).jumped _
  | false => exact next_runs hl rfl

theorem bitBranch_runs {o : BitBranch} {cond : Byte → Bool} : Runs i s (bitBranch s o cond) :=
  commit_runs ((read8_operand s _ i).bind fun v t ht => by
    cases cond v with
    | true => exact ht.jumped _
    | false => exact ht.advanced (bitBranch_even o) rfl)

theorem call_runs {ret target : Addr} : Runs i s (call s ret target) :=
  commit_runs ((((Amid.refl i s).leads_push16 (inReach_zero s) _).bind fun _ _ ht =>
    ht.leads_push16 (inReach_small (by decide) (by decide)) _).bind fun _ _ hu => hu.jumped _)

theorem leads_pullFrame : (pullFrame s).Leads i s (Amid i 4 s) :=
  ((Amid.refl i s).leads_pull16 (inReach_small (by decide) (by decide))).bind fun _ _ ht =>
    (ht.leads_pull16 (inReach_small (by decide) (by decide))).bind fun _ _ hu => hu

theorem execRts_runs (s : State) : Runs .rts s (execRts s) := commit_runs (leads_pullFrame.bind fun _ _ ht => ht.jumped _)

/-- RTI loads the modes from the frame (R443). -/
theorem execRti_runs (s : State) : Runs .rti s (execRti s) :=
  commit_runs (leads_pullFrame.bind fun _ _ ht =>
    have hm : LoadsModes .rti := .inr (.inr (.inr (.inr rfl)))
    ⟨fun _ => evenAddr_even _, .inr hm, .inr (.inl hm), .kept ht.inhibit ht.run⟩)

theorem enterException_runs {n : Byte} (hn : n ∈ s.trapVectors) (resume : Addr) : Runs i s (enterException true s n resume none) :=
  (Amid.refl i s).traps (inReach_zero s) hn resume

end shapes

/-! ### Instructions of their own shape -/

theorem execLded_runs (s : State) (hhll : Word) : Runs (.lded hhll) s (execLded hhll s) :=
  commit_runs ((read16_operand s _ _).bind fun v t ht =>
    have hv : Amid (.lded hhll) 0 s { t with e := v } := ht.regs rfl (Nat.le_refl _) rfl rfl
    (hv.leads_read16 (inReach_zero s) _ _).bind fun _ _ hu => hu.advanced rfl rfl)

/-- STED's second word stands two bytes after the first: EK is as it was. -/
theorem execSted_runs (s : State) (hhll : Word) : Runs (.sted hhll) s (execSted hhll s) := by
  have hm : storeBytes (.sted hhll) s = [eaExt s hhll, eaExt s hhll + 1#20, eaExt s hhll + 2#20, eaExt s hhll + 2#20 + 1#20] := rfl
  have h1 := (Amid.refl (.sted hhll) s).leads_write16 (inReach_zero s) (eaExt s hhll) s.e (.inl (by simp [hm])) (.inl (by simp [hm]))
  have hc := write16_sat true s (eaExt s hhll) s.e
  refine commit_runs ?_
  cases hx : write16 true s (eaExt s hhll) s.e with
  | refused r => rw [hx] at h1; exact h1
  | berr t => rw [hx] at h1; exact h1
  | ok v t =>
    rw [hx] at h1 hc
    have ht : Amid (.sted hhll) 0 s t := h1
    have he : eaExt t hhll = eaExt s hhll := congrArg (· ++ hhll) (by rw [Cycles.regs hc] : t.ek = s.ek)
    rw [Bus.bind_ok, he]
    exact (ht.leads_write16 (inReach_zero s) _ _ (.inl (by simp [hm])) (.inl (by simp [hm]))).bind fun _ _ hu => hu.advanced rfl rfl

/-- PSHA and PSHB store one byte above SK : SP (R162). -/
theorem push8_runs {i : Instr} {s : State} {v : Byte} : Runs i s (commit ((push8 s v).bind fun _ t => .ok () (t.advance 2))) := by
  have h := (Amid.refl i s).moveSP (l := 1) rfl
  have hk : InReach s (0 + 1) := inReach_small (by decide) (by decide)
  have hs : MayStore i s (s.withSP20 (s.sp20 + 1#20)).sp20 := by
    simpa using h.near 0 (by unfold InReach at hk; omega) (by unfold InReach at hk; omega)
  have hp : (push8 s v).Leads i s (Amid i (0 + 1 - 2) s) := (h.leads_write8 hk _ v hs).bind fun _ _ hu => hu.lowerSP.1
  exact commit_runs (hp.bind fun _ _ hu => hu.advanced rfl rfl)

/-- PULA and PULB (R163); `f` writes the register. -/
theorem pull8_runs {i : Instr} {s : State} {f : State → Byte → State} (hf : ∀ t v, (f t v).steering = t.steering) :
    Runs i s (commit ((pull8 s).bind fun v t => .ok () ((f t v).advance 2))) :=
  have h : Amid i 2 s (s.withSP20 (s.sp20 + 2#20)) := (Amid.refl i s).moveSP (l := 2) rfl
  have hp : (pull8 s).Leads i s (Amid i (2 - 1) s) := (h.leads_read8 (inReach_small (by decide) (by decide)) _ _).bind fun _ _ hu => hu.lowerSP.2
  commit_runs (hp.bind fun v t ht => ht.advanced rfl (hf t v))

/-! ### Runs of pushes and pulls -/

theorem leads_pushAll {i : Instr} {s : State} (l : List Word) (k : Int) (t : State) (h : Amid i k s t) (hk : 2 * l.length - (s.stackReach : Int) ≤ k) (hk' : k ≤ 0) :
    (pushAll t l).Leads i s fun u => ∃ m, Amid i m s u := by
  induction l generalizing k t with
  | nil => exact ⟨k, h⟩
  | cons w ws ih =>
    rw [List.length_cons] at hk
    exact (h.leads_push16 ⟨by omega, by omega⟩ w).bind fun _ u hu => ih (k - 2) u hu (by omega) (by omega)

/-- Loads of registers that neither steer nor hold SK : SP, but for the modes where the instruction loads those. -/
def Mild (i : Instr) (fs : List (State → Word → State)) : Prop := ∀ f ∈ fs, ∀ s k t v, Amid i k s t → Amid i k s (f t v)

theorem leads_pullEach {i : Instr} {s : State} (fs : List (State → Word → State)) (hf : Mild i fs) (k : Int) (t : State) (h : Amid i k s t) (hk : 0 ≤ k)
    (hk' : k + 2 * fs.length ≤ s.stackReach) : (pullEach t fs).Leads i s fun u => ∃ m, Amid i m s u := by
  induction fs generalizing k t with
  | nil => exact ⟨k, h⟩
  | cons f fs ih =>
    rw [List.length_cons] at hk'
    have hr := (stackReach_ge s).1
    exact (h.leads_pull16 ⟨by omega, by omega⟩).bind fun v u hu =>
      ih (fun g hg => hf g (List.mem_cons_of_mem _ hg)) (k + 2) _ (hf f (List.mem_cons_self ..) s _ u v hu) (by omega) (by omega)

theorem pushAll_runs {i : Instr} {s : State} {l : List Word} (hl : 2 * l.length ≤ s.stackReach) :
    Runs i s (commit ((pushAll s l).bind fun _ t => .ok () (t.advance 2))) :=
  commit_runs ((leads_pushAll l 0 s (.refl i s) (by omega) (by omega)).bind fun _ _ ⟨_, hu⟩ => hu.advanced rfl rfl)

theorem pullEach_runs {i : Instr} {s : State} {fs : List (State → Word → State)} (hf : Mild i fs) (hl : 2 * fs.length ≤ s.stackReach) :
    Runs i s (commit ((pullEach s fs).bind fun _ t => .ok () (t.advance 2))) :=
  commit_runs ((leads_pullEach fs hf 0 s (.refl i s) (by omega) (by omega)).bind fun _ _ ⟨_, hu⟩ => hu.advanced rfl rfl)

theorem execPshm_runs (s : State) (ii : Byte) (h : maskWellFormed ii = true) : Runs (.pshm ii) s (execPshm ii s) := by
  rw [execPshm_eq s ii (by simpa [maskWellFormed] using h)]
  have := selectedWords_length s ii
  have := (stackReach_ge s).1
  exact pushAll_runs (by omega)

theorem execPshmac_runs (s : State) : Runs .pshmac s (execPshmac s) :=
  pushAll_runs (by simpa [macFrame] using (stackReach_ge s).2)

theorem execPulmac_runs (s : State) : Runs .pulmac s (execPulmac s) := by
  refine pullEach_runs ?_ (by simpa [pulmacWrites] using (stackReach_ge s).2)
  intro f hf s k t v ht
  simp only [pulmacWrites, List.mem_map] at hf
  obtain ⟨n, -, rfl⟩ := hf
  exact ht.regs rfl (Nat.le_refl _) rfl rfl

/-- Of PULM's loads the first alone, that of mask bit 0, writes the modes (R540). -/
theorem mild_pulmWrites (ii : Byte) : Mild (.pulm ii) (((pulmWrites.zipIdx 0).filter fun p => ii.getLsbD p.2).map fun p => p.1) := by
  intro f hf s k t v ht
  obtain ⟨⟨g, n⟩, hp, rfl⟩ := List.mem_map.mp hf
  obtain ⟨hz, hb⟩ := List.mem_filter.mp hp
  simp only [pulmWrites, List.zipIdx_cons, List.zipIdx_nil, List.mem_cons, List.not_mem_nil, or_false, Prod.mk.injEq] at hz
  rcases hz with ⟨rfl, rfl⟩ | ⟨rfl, -⟩ | ⟨rfl, -⟩ | ⟨rfl, -⟩ | ⟨rfl, -⟩ | ⟨rfl, -⟩ | ⟨rfl, -⟩
  · exact ⟨ht.within.trans (.of_outside rfl (Nat.le_refl _) rfl), ht.inhibit, ht.run, .inr (.inr (.inr (.inr (.inl ⟨ii, rfl, hb⟩)))), ht.stack⟩
  all_goals exact ht.regs rfl (Nat.le_refl _) rfl rfl

theorem execPulm_runs (s : State) (ii : Byte) (h : maskWellFormed ii = true) : Runs (.pulm ii) s (execPulm ii s) := by
  rw [execPulm_eq s ii (by simpa [maskWellFormed] using h)]
  refine pullEach_runs (mild_pulmWrites ii) ?_
  have hl : (((pulmWrites.zipIdx 0).filter fun p => ii.getLsbD p.2).map fun p => p.1).length ≤ 7 := by
    rw [List.length_map]
    exact List.length_filter_le _ _
  have := (stackReach_ge s).1
  omega

/-! ### The multiply and accumulate unit -/

section mac

variable {i : Instr} {s t : State} (h : Amid i 0 s t)
include h

theorem leads_loadHR : (loadHR t).Leads i s (Amid i 0 s) :=
  (h.leads_read16 (inReach_zero s) _ _).bind fun _ _ hu => hu.regs rfl (Nat.le_refl _) rfl rfl

theorem leads_loadIR : (loadIR t).Leads i s (Amid i 0 s) :=
  (h.leads_read16 (inReach_zero s) _ _).bind fun _ _ hu => hu.regs rfl (Nat.le_refl _) rfl rfl

theorem leads_rmacPass (v : Bool) (xo yo : Nib) : (rmacPass t v xo yo).Leads i s (Amid i 0 s) :=
  have hs : Amid i 0 s (t.rmacSummed v xo yo) := h.regs rfl (Nat.le_refl _) rfl rfl
  (leads_loadHR hs).bind fun _ _ hu => (leads_loadIR hu).bind fun _ _ hw => hw.regs rfl (Nat.le_refl _) rfl rfl

end mac

theorem execLdhi_runs (s : State) : Runs .ldhi s (execLdhi s) :=
  commit_runs ((leads_loadHR (.refl _ s)).bind fun _ _ ht => (leads_loadIR ht).bind fun _ _ hu => hu.advanced rfl rfl)

theorem execMac_runs (s : State) (xo yo : Nib) : Runs (.mac xo yo) s (execMac xo yo s) :=
  have hs : Amid (.mac xo yo) 0 s (s.macSummed xo yo) := (Amid.refl _ s).regs rfl (Nat.le_refl _) rfl rfl
  commit_runs ((leads_loadHR hs).bind fun _ _ ht => (leads_loadIR ht).bind fun _ _ hu => hu.advanced rfl rfl)

/-- RMAC ends past itself or, interrupted between two passes, at its own address. -/
theorem leads_rmacLoop {i : Instr} {s : State} (fuel : Nat) (t : State) (h : Amid i 0 s t) (v : Bool) (xo yo : Nib) :
    (rmacLoop fuel t v xo yo).Leads i s (Ran i s) := by
  induction fuel generalizing t v with
  | zero => exact h.advanced rfl rfl
  | succ n ih =>
    refine (leads_rmacPass h v xo yo).bind fun _ u hu => ?_
    split
    · exact hu.advanced rfl rfl
    · split
      · exact hu.ran id rfl rfl rfl
      · exact ih u hu _

theorem execRmac_runs (s : State) (xo yo : Nib) : Runs (.rmac xo yo) s (execRmac xo yo s) := commit_runs (leads_rmacLoop _ s (.refl _ s) false xo yo)

/-! ### Divisions and the other instructions of several cases -/

theorem Runs.ite {i : Instr} {s : State} {c : Prop} [Decidable c] {x y : Out} (hx : c → Runs i s x) (hy : ¬ c → Runs i s y) :
    Runs i s (if c then x else y) := by
  split
  · exact hx ‹_›
  · exact hy ‹_›

theorem divideByZero_runs {i : Instr} {s : State} : Runs i s (divideByZero s) := enterException_runs (by simp [State.trapVectors]) _

theorem execDaa_runs (s : State) : Runs .daa s (execDaa s) := by
  refine next_runs rfl ?_
  dsimp only
  split <;> rfl

theorem execEdiv_runs (s : State) : Runs .ediv s (execEdiv s) :=
  .ite (fun _ => divideByZero_runs) fun _ => .ite (fun _ => next_runs rfl rfl) fun _ => next_runs rfl rfl

theorem execEdivs_runs (s : State) : Runs .edivs s (execEdivs s) :=
  .ite (fun _ => divideByZero_runs) fun _ => .ite (fun _ => next_runs rfl rfl) fun _ => next_runs rfl rfl

theorem execFdiv_runs (s : State) : Runs .fdiv s (execFdiv s) :=
  .ite (fun _ => next_runs rfl rfl) fun _ => .ite (fun _ => next_runs rfl rfl) fun _ => next_runs rfl rfl

theorem execIdiv_runs (s : State) : Runs .idiv s (execIdiv s) :=
  .ite (fun _ => next_runs rfl rfl) fun _ => next_runs rfl rfl

/-- The instructions that hold interrupts off: `c` is what they leave in the CCR (R541 to R544, R547). -/
theorem heldOff_runs {i : Instr} {s : State} {c : CCR} {n : Nat} (hn : n % 2 = 0) (hm : (c.ip = s.ccr.ip ∧ c.sm = s.ccr.sm) ∨ LoadsModes i)
    (hs : LoadsModes i ∨ i = .tap) : Runs i s (.next ({ s with ccr := c, inhibit := true }.advance n)) :=
  ⟨advance_even { s with ccr := c, inhibit := true } n hn, hm, .inr hs, .heldOff rfl rfl⟩

theorem execLpstop_on (s : State) (h : s.ccr.s = true) : execLpstop s = .next (s.advance 2) := by
  simp only [execLpstop, inherent, h, if_true]

theorem execLpstop_off (s : State) (h : s.ccr.s = false) :
    execLpstop s = .next ({ s.emit (.lpstopBroadcast s.ccr.ip) with run := .stopped }.advance 2) := by
  simp only [execLpstop, inherent, h, Bool.false_eq_true, if_false]

theorem execLpstop_runs (s : State) : Runs .lpstop s (execLpstop s) := by
  cases hs : s.ccr.s with
  | true =>
    rw [execLpstop_on s hs]
    exact next_runs rfl rfl
  | false =>
    rw [execLpstop_off s hs]
    exact ⟨advance_even s 2 rfl, .inl ⟨rfl, rfl⟩, .inl rfl, .stopped rfl rfl rfl hs⟩

theorem execWai_runs (s : State) : Runs .wai s (execWai s) :=
  ⟨advance_even s 2 rfl, .inl ⟨rfl, rfl⟩, .inl rfl, .waiting rfl rfl rfl⟩

theorem execBgnd_runs (s : State) : Runs .bgnd s (execBgnd s) :=
  .ite (fun h => ⟨advance_even s 2 rfl, .inl ⟨rfl, rfl⟩, .inl rfl, .background rfl rfl rfl h⟩) fun _ =>
    enterException_runs (by simp [State.trapVectors]) _

/-! ### All instructions -/

/-- The well-formed instructions, by the shape of their meaning. -/
theorem exec_runs_wellFormed (i : Instr) (s : State) (h : i.wellFormed = true) : Runs i s (exec i s) := by
  cases i with
  -- an operand is read, registers are written
  | ldaa o | ldab o | adca o | adcb o | adda o | addb o | sbca o | sbcb o | suba o | subb o | cmpa o | cmpb o
  | anda o | andb o | eora o | eorb o | oraa o | orab o | bita o | bitb o =>
    exact useOperand_runs (operand8_operand s o) (src8_even o) fun _ _ => rfl
  | ldd o | adcd o | sbcd o | subd o | cpd o | andd o | eord o | ord o =>
    exact useOperand_runs (operandD_operand s o) (srcD_even o) fun _ _ => rfl
  | addd o => exact useOperand_runs (operandDI_operand s o) (srcDI_even o) fun _ _ => rfl
  | lde o | adce o | sbce o | sube o | cpe o | ande o | eore o | ore o =>
    exact useOperand_runs (operandE_operand s o) (srcE_even o) fun _ _ => rfl
  | adde o => exact useOperand_runs (operandEI_operand s o) (srcEI_even o) fun _ _ => rfl
  | ldx o | ldy o | ldz o | lds o | cpx o | cpy o | cpz o | cps o =>
    exact useOperand_runs (operandX_operand s o) (srcX_even o) fun _ _ => rfl
  | tst m => exact useOperand_runs (read8_operand s _) (memB_even m) fun _ _ => rfl
  | tstw m => exact useOperand_runs (read16_operand s _) (memW_even m) fun _ _ => rfl
  | lded hhll => exact execLded_runs s hhll
  -- memory is written
  | staa m | stab m => exact storeByte_runs (memE_even m) rfl
  | std m => exact storeWord_runs (memE_even m) rfl
  | ste m => exact storeWord_runs (memW_even m) rfl
  | stx m | sty m | stz m | sts m => exact storeWord_runs (memB_even m) rfl
  | sted hhll => exact execSted_runs s hhll
  | movb o => exact execMovb_runs s o
  | movw o => exact execMovw_runs s o
  | clr m => exact clearByte_runs (memB_even m) rfl
  | clrw m => exact clearWord_runs (memW_even m) rfl
  | com m | neg m | lsr m | asl m | asr m | rol m | ror m => exact modifyByte_runs (memB_even m) rfl fun _ _ => rfl
  | comw m | negw m | lsrw m | aslw m | asrw m | rolw m | rorw m => exact modifyWord_runs (memW_even m) rfl fun _ _ => rfl
  | bclr mm m => exact modifyByte_runs (f := fun c v => logicFlags c (v &&& ~~~mm)) rfl rfl fun _ _ => rfl
  | bset mm m => exact modifyByte_runs (f := fun c v => logicFlags c (v ||| mm)) rfl rfl fun _ _ => rfl
  | bclrw mmmm m => exact modifyWord_runs (f := fun c v => logicFlags c (v &&& ~~~mmmm)) rfl rfl fun _ _ => rfl
  | bsetw mmmm m => exact modifyWord_runs (f := fun c v => logicFlags c (v ||| mmmm)) rfl rfl fun _ _ => rfl
  | inc m | dec m => exact countByte_runs (memB_even m) rfl fun _ _ => rfl
  | incw m | decw m => exact countWord_runs (memW_even m) rfl fun _ _ => rfl
  -- program control
  | bra r | brn r | bcc r | bcs r | beq r | bmi r | bne r | bpl r | bvc r | bvs r | bhi r | bls r | bge r | bgt r | ble r | blt r
  | lbra r | lbrn r | lbcc r | lbcs r | lbeq r | lbev r | lbmi r | lbmv r | lbne r | lbpl r | lbvc r | lbvs r | lbhi r | lbls r
  | lbge r | lbgt r | lble r | lblt r => exact branch_runs rfl
  | brclr mm o | brset mm o => exact bitBranch_runs
  | jmp t =>
    have e : exec (.jmp t) s = .next (s.jump (eaJump s t)) := if_pos h
    rw [e]
    exact (Amid.refl _ s).jumped _
  | jsr t =>
    have e : exec (.jsr t) s = call s s.pcx (eaJump s t) := if_pos h
    rw [e]
    exact call_runs
  | bsr r | lbsr r => exact call_runs
  | rts => exact execRts_runs s
  | rti => exact execRti_runs s
  | swi => exact enterException_runs (by simp [State.trapVectors]) _
  -- the CCR and the latch
  | andp w => exact heldOff_runs rfl (.inr (.inl ⟨w, rfl⟩)) (.inl (.inl ⟨w, rfl⟩))
  | orp w => exact heldOff_runs rfl (.inr (.inr (.inl ⟨w, rfl⟩))) (.inl (.inr (.inl ⟨w, rfl⟩)))
  | tap => exact heldOff_runs rfl (.inl ⟨rfl, rfl⟩) (.inr rfl)
  | tdp => exact heldOff_runs rfl (.inr (.inr (.inr (.inl rfl)))) (.inl (.inr (.inr (.inl rfl))))
  -- the stack
  | psha | pshb => exact push8_runs
  | pula => exact pull8_runs (f := fun t v => { t with a := v }) fun _ _ => rfl
  | pulb => exact pull8_runs (f := fun t v => { t with b := v }) fun _ _ => rfl
  | pshm ii => exact execPshm_runs s ii h
  | pulm ii => exact execPulm_runs s ii h
  -- the multiply and accumulate unit
  | ldhi => exact execLdhi_runs s
  | mac xo yo => exact execMac_runs s xo yo
  | rmac xo yo => exact execRmac_runs s xo yo
  | pshmac => exact execPshmac_runs s
  | pulmac => exact execPulmac_runs s
  -- several cases
  | daa => exact execDaa_runs s
  | ediv => exact execEdiv_runs s
  | edivs => exact execEdivs_runs s
  | fdiv => exact execFdiv_runs s
  | idiv => exact execIdiv_runs s
  | lpstop => exact execLpstop_runs s
  | wai => exact execWai_runs s
  | bgnd => exact execBgnd_runs s
  -- registers alone
  | aix o | aiy o | aiz o | ais o => exact next_runs (imm_even o) rfl
  | tab | tba | tde | ted | xgab | xgde | aba | ade | sba | sde | sxt | cba | tsta | tstb | tstd | tste | emul | emuls | fmuls | mul
  | deca | decb | inca | incb | clra | clrb | clrd | clre | coma | comb | comd | come | nega | negb | negd | nege
  | lsra | lsrb | lsrd | lsre | asla | aslb | asld | asle | asra | asrb | asrd | asre | rola | rolb | rold | role
  | rora | rorb | rord | rore | abx | aby | abz | adx | ady | adz | aex | aey | aez
  | tsx | tsy | tsz | txs | txy | txz | tys | tyx | tyz | tzs | tzx | tzy | xgdx | xgdy | xgdz | xgex | xgey | xgez
  | tbek | tbsk | tbxk | tbyk | tbzk | tekb | tskb | txkb | tykb | tzkb | tpa | tpd
  | ace | aced | aslm | asrm | clrm | tdmsk | tedm | tem | tmer | tmet | tmxed | nop =>
    exact next_runs rfl rfl

theorem exec_runs {i : Instr} {s t : State} (h : exec i s = .next t) : Ran i s t := by
  cases hw : i.wellFormed with
  | true =>
    have g := exec_runs_wellFormed i s hw
    rw [h] at g
    exact g
  | false =>
    obtain ⟨r, e⟩ := exec_illFormed i s hw
    exact nomatch e.symm.trans h

/-- Settles O12: the modes part of `Ran`. -/
theorem modeFieldWriters : Obligations.ModeFieldWriters := by
  unfold Obligations.ModeFieldWriters
  intro i s t h
  have hr := exec_runs h
  refine ⟨fun hne => hr.mask.resolve_left ?_, fun hne => ?_⟩
  · rintro ⟨hip, hsm⟩
    exact hne.elim (fun g => g hip) fun g => g hsm
  · rcases hr.stop.resolve_left hne with (ha | ho | hd | hp | hi) | ht
    · exact .inl ha
    · exact .inr (.inl ho)
    · exact .inr (.inr (.inr (.inl hd)))
    · exact .inr (.inr (.inr (.inr (.inl hp))))
    · exact .inr (.inr (.inr (.inr (.inr hi))))
    · exact .inr (.inr (.inl ht))

/-- Settles O14: the latch and run state part of `Ran`. -/
theorem runStateWriters : Obligations.RunStateWriters := by
  unfold Obligations.RunStateWriters
  intro i s t hrun h
  cases (exec_runs h).ended with
  | kept _ hr => exact .inl (hr.trans hrun)
  | entered _ hr => exact .inl hr
  | heldOff _ hr => exact .inl (hr.trans hrun)
  | stopped _ hr hi hs => exact .inr (.inl ⟨hi, hs, hr⟩)
  | waiting _ hr hi => exact .inr (.inr (.inl ⟨hi, hr⟩))
  | background _ hr hi hp => exact .inr (.inr (.inr (.inl ⟨hi, hp, hr⟩)))
  | halted _ hr a ha hw =>
    refine .inr (.inr (.inr (.inr ⟨hr, a, ha, hw.imp_right ?_⟩)))
    rintro ⟨n, hn, hv⟩
    exact ⟨n, hn, by rwa [← vectorAddr_eq]⟩

/-! ### Every step -/

/-- The part of the invariant that is not about memory. -/
def State.Steady (s : State) : Prop := s.pc.getLsbD 0 = false ∧ (s.inhibit = true → s.run = .running)

theorem State.Steady.of_clear {s : State} (hp : s.pc.getLsbD 0 = false) (hi : s.inhibit = false) : s.Steady :=
  ⟨hp, fun h => absurd (h.symm.trans hi) (by decide)⟩

theorem enterException_steady {own : Bool} {s t : State} {n : Byte} {resume : Addr} {level : Option (BitVec 3)}
    (h : enterException own s n resume level = .next t) (hp : s.pc.getLsbD 0 = false) : t.Steady := by
  have g := enterException_sat own s n resume level
  rw [h] at g
  rcases g.reached with ⟨-, hi, he⟩ | ⟨-, hi, he⟩
  · exact .of_clear he hi
  · exact .of_clear (he.symm ▸ hp) hi

/-- Reset (R650): the program counter is rounded down; a bus error leaves it. -/
theorem resetSequence_ends (s : State) : (resetSequence s).Ends State.Steady fun t => t.pc = s.pc :=
  (read16_sat true s .prog 0).bindEnds (fun _ t ht => (read16_sat true t .prog 2).bindEnds (fun _ u hu => (read16_sat true u .prog 4).bindEnds (fun _ v hv =>
    (read16_sat true v .prog 6).bindEnds (fun _ _ _ => .of_clear (evenAddr_even _) rfl)
      fun _ hw => hw.pc.trans (hv.pc.trans (hu.pc.trans ht.pc)))
      fun _ hv => hv.pc.trans (hu.pc.trans ht.pc)) fun _ hu => hu.pc.trans ht.pc) fun _ ht => ht.pc

theorem takeReset_steady {s t : State} (h : takeReset s = .next t) (hp : s.pc.getLsbD 0 = false) : t.Steady := by
  have g := resetSequence_ends s
  unfold takeReset at h
  cases hx : resetSequence s with
  | ok v u =>
    rw [hx] at h g
    cases h
    exact g
  | berr u =>
    rw [hx] at h g
    cases h
    have hu : u.pc = s.pc := g
    exact .of_clear (show u.pc.getLsbD 0 = false by rwa [hu]) rfl
  | refused r =>
    rw [hx] at h
    cases h

theorem wake_steady {s t : State} {i : HostInput} (h : wake s i = .next t) (hs : s.Steady) : t.Steady := by
  unfold wake at h
  split at h
  · exact enterException_steady h hs.1
  · cases h
    exact hs

/-- What a boundary can decide (R606, R612). -/
inductive Boundary.Decided (s : State) : Boundary → Prop where
  | reset : Decided s (.over (takeReset s.nextInput))
  | idle : Decided s (.over (.next s.nextInput))
  | woken : Decided s (.over (wake s.nextInput s.input))
  | background : Decided s (.over (.next { s.nextInput with inhibit := false, run := .background }))
  | taken (n : Byte) (level : Option (BitVec 3)) : Decided s (.over (enterException false { s.nextInput with inhibit := false } n s.nextInput.pc level))
  | go (hr : s.run = .running) : Decided s (.go s.begun)

theorem boundary_decided (s : State) : (boundary s).Decided s := by
  unfold boundary
  dsimp only
  split
  · exact .reset
  · split
    · exact .idle
    · exact .idle
    · exact .woken
    · exact .woken
    · rename_i hr
      split
      · split
        · exact .background
        · exact .taken _ none
      · split
        · exact .taken _ (some _)
        · have e : s.begun = { s.nextInput with inhibit := false, heldOff := s.nextInput.inhibit } := by rw [State.begun, State.nextInput_inhibit]
          rw [← e]
          exact .go (s.nextInput_run.symm.trans hr)

theorem boundary_over_steady {s t : State} (h : boundary s = .over (.next t)) (hs : s.Steady) : t.Steady := by
  have hn : s.nextInput.Steady := by simpa only [State.Steady, State.nextInput_pc, State.nextInput_inhibit, State.nextInput_run] using hs
  have hd := boundary_decided s
  rw [h] at hd
  generalize ho : Host.Outcome.next t = o at hd
  cases hd with
  | reset => exact takeReset_steady ho.symm hn.1
  | idle =>
    cases ho
    exact hn
  | woken => exact wake_steady ho.symm hn
  | background =>
    cases ho
    exact .of_clear hn.1 rfl
  | taken n level => exact enterException_steady ho.symm hn.1

theorem boundary_go {s t : State} (h : boundary s = .go t) : t = s.begun ∧ s.run = .running := by
  have hd := boundary_decided s
  rw [h] at hd
  cases hd with
  | go hr => exact ⟨rfl, hr⟩

theorem Ran.steady {i : Instr} {s t : State} (h : Ran i s t) (hp : s.pc.getLsbD 0 = false) (hr : s.run = .running) (hi : s.inhibit = false) : t.Steady := by
  refine ⟨h.even hp, fun hl => ?_⟩
  cases h.ended with
  | kept _ g => exact g.trans hr
  | heldOff _ g => exact g.trans hr
  | entered g _ | halted g _ => exact absurd (hl.symm.trans g) (by decide)
  | stopped g _ | waiting g _ | background g _ => exact absurd (hl.symm.trans (g.trans hi)) (by decide)

theorem step_steady {s t : State} (h : step s = .next t) (hs : s.Steady) : t.Steady := by
  unfold step at h
  rcases hx : boundary s with o | u
  · rw [hx] at h
    exact boundary_over_steady (hx.trans (congrArg _ h)) hs
  · rw [hx] at h
    obtain ⟨rfl, hr⟩ := boundary_go hx
    generalize hu : s.begun = u at h
    have hr : u.run = .running := by rw [← hu, begun_eq, hr]
    have hi : u.inhibit = false := by rw [← hu, begun_eq]
    have hf := fetch_sat true u
    dsimp only at h
    split at h
    · cases h
    · rename_i hp
      have hp : u.pc.getLsbD 0 = false := by simpa using hp
      split at h
      · cases h
      · cases hy : fetch u with
        | refused r =>
          rw [hy] at h
          cases h
        | berr v =>
          rw [hy] at h hf
          exact enterException_steady h (by rwa [Cycles.pc hf])
        | ok oi v =>
          rw [hy] at h hf
          have hv : v.pc.getLsbD 0 = false := by rwa [Cycles.pc hf]
          cases oi with
          | none => exact enterException_steady h hv
          | some i => exact (exec_runs h).steady hv (by rwa [Cycles.run hf]) (by rwa [Cycles.inhibit hf])

/-- Settles O8: memory stays canonical by `step_kept`, the rest by `step_steady`. -/
theorem invariantKeptByEveryStep : Obligations.InvariantKeptByEveryStep := by
  unfold Obligations.InvariantKeptByEveryStep
  rintro s t ⟨hm, hs⟩ h
  exact ⟨(step_kept h).wf (nextInput_wf s hm), step_steady h hs⟩

/-- Settles O9: memory lists nothing, the program counter is 0 and the latch clear. -/
theorem resetHasInvariant : Obligations.ResetHasInvariant := ⟨State.reset_mem_wf, rfl, fun _ => rfl⟩

end Sys2Proof.Machine

/-! ## Refusals and faults -/

namespace Sys2Proof.Machine

/-- A reserved operand value is refused by its name (R115, D10, D20). -/
theorem exec_reserved {i : Instr} {s : State} {r : Refusal} (hw : i.wellFormed = false) (h : exec i s = .refused r) :
    (r = .reservedMaskBit ∧ ∃ ii : Byte, (i = .pshm ii ∨ i = .pulm ii) ∧ ii.getLsbD 7 = true) ∨
      (r = .reservedZeroNibble ∧ ∃ j : JumpTarget, (i = .jmp j ∨ i = .jsr j) ∧ j.wellFormed = false) := by
  have hn {b : Bool} (hb : b = false) : ¬ b = true := Bool.eq_false_iff.mp hb
  have named {q : Refusal} {x : Out} (e : exec i s = x) (hx : x = .refused q) : r = q := by
    rw [e, hx] at h
    cases h
    rfl
  cases i
  case jmp t => exact .inr ⟨named rfl (if_neg (hn hw)), t, .inl rfl, hw⟩
  case jsr t => exact .inr ⟨named rfl (if_neg (hn hw)), t, .inr rfl, hw⟩
  case pshm ii => exact .inl ⟨named rfl (if_neg (hn hw)), ii, .inl rfl, by simpa [Instr.wellFormed, maskWellFormed] using hw⟩
  case pulm ii => exact .inl ⟨named rfl (if_neg (hn hw)), ii, .inr rfl, by simpa [Instr.wellFormed, maskWellFormed] using hw⟩
  all_goals exact nomatch hw

theorem exec_not_fault (i : Instr) (s : State) (f : Fault) : exec i s ≠ .fault f := by
  intro h
  cases hw : i.wellFormed with
  | true =>
    have g := exec_runs_wellFormed i s hw
    rw [h] at g
    exact g
  | false =>
    obtain ⟨r, e⟩ := exec_illFormed i s hw
    exact nomatch e.symm.trans h

theorem exec_refused {i : Instr} {s : State} {r : Refusal} (h : exec i s = .refused r) :
    (r = .reservedMaskBit ∧ ∃ ii : Byte, (i = .pshm ii ∨ i = .pulm ii) ∧ ii.getLsbD 7 = true) ∨
      (r = .reservedZeroNibble ∧ ∃ j : JumpTarget, (i = .jmp j ∨ i = .jsr j) ∧ j.wellFormed = false) ∨ (r = .storeIntoPrefetch ∧ Barred i s) := by
  cases hw : i.wellFormed with
  | true =>
    have g := exec_runs_wellFormed i s hw
    rw [h] at g
    exact .inr (.inr g)
  | false => exact (exec_reserved hw h).imp_right .inl

theorem inPrefetch_iff (s : State) (a : Addr) : s.inPrefetch a = true ↔ s.plat.splitSpaces = false ∧ (a - s.pc).toNat < 12 := by
  rw [State.inPrefetch, Bool.and_eq_true, Bool.not_eq_true', decide_eq_true_iff]

/-- A byte store into the window is refused before the kind of the address is looked at (R94). -/
theorem write8_inPrefetch {s : State} {a : Addr} (h : s.inPrefetch a = true) (v : Byte) : write8 true s a v = .refused .storeIntoPrefetch := by
  simp only [write8, h, Bool.and_self, if_true]

theorem write16_inPrefetch {s : State} {a : Addr} (h : s.inPrefetch a = true) (v : Word) : write16 true s a v = .refused .storeIntoPrefetch := by
  unfold write16
  split
  · rw [write8_inPrefetch h, Bus.bind_refused]
  · simp only [writeAligned, h, Bool.true_or, Bool.and_self, if_true]

theorem storeByte_inPrefetch {s : State} {ea : Addr} (h : s.inPrefetch ea = true) (v : Byte) (len : Nat) :
    storeByte s ea v len = .refused .storeIntoPrefetch := by
  rw [storeByte, write8_inPrefetch h]
  rfl

theorem storeWord_inPrefetch {s : State} {ea : Addr} (h : s.inPrefetch ea = true) (v : Word) (len : Nat) :
    storeWord s ea v len = .refused .storeIntoPrefetch := by
  rw [storeWord, write16_inPrefetch h]
  rfl

theorem not_maskWellFormed {ii : Byte} (h : 128 ≤ ii.toNat) : ¬ maskWellFormed ii = true := by
  have hm : ii.msb = true := by rw [BitVec.msb_eq_true_iff_two_mul_ge]; omega
  rw [BitVec.msb_eq_getLsbD_last] at hm
  simpa [maskWellFormed] using hm

/-! ### Steps -/

theorem enterException_not_fault {own : Bool} {s : State} {n : Byte} {resume : Addr} {level : Option (BitVec 3)} (f : Fault) :
    enterException own s n resume level ≠ .fault f := by
  intro h
  have g := enterException_sat own s n resume level
  rw [h] at g
  exact g

theorem enterException_only_prefetch {own : Bool} {s : State} {n : Byte} {resume : Addr} {level : Option (BitVec 3)} {r : Refusal}
    (h : enterException own s n resume level = .refused r) : own = true ∧ r = .storeIntoPrefetch := by
  have g := enterException_sat own s n resume level
  rw [h] at g
  exact g

/-- What ends at a boundary is a next state: no window is in the way there. -/
def Out.Goes (o : Out) : Prop := ∃ t, o = .next t

theorem enterException_goes (s : State) (n : Byte) (resume : Addr) (level : Option (BitVec 3)) : Out.Goes (enterException false s n resume level) := by
  cases h : enterException false s n resume level with
  | next t => exact ⟨t, rfl⟩
  | fault f => exact absurd h (enterException_not_fault f)
  | refused r => exact absurd (enterException_only_prefetch h).1 (by decide)

theorem takeReset_goes (s : State) : Out.Goes (takeReset s) := by
  unfold takeReset
  cases h : resetSequence s with
  | ok v t => exact ⟨t, rfl⟩
  | berr t => exact ⟨t.halt, rfl⟩
  | refused r => exact absurd h (not_refused (resetSequence_sat false s) r)

theorem wake_goes (s : State) (i : HostInput) : Out.Goes (wake s i) := by
  unfold wake
  split
  · exact enterException_goes s _ _ _
  · exact ⟨s, rfl⟩

/-- A boundary ends the step in a next state, or an instruction runs from `begun`. -/
theorem boundary_goes (s : State) : (∃ t, boundary s = .over (.next t)) ∨ boundary s = .go s.begun := by
  have ended {o : Out} : Out.Goes o → (∃ t, Boundary.over o = .over (.next t)) ∨ Boundary.over o = .go s.begun := fun ⟨t, e⟩ => .inl ⟨t, by rw [e]⟩
  have hd := boundary_decided s
  generalize boundary s = x at hd
  cases hd with
  | reset => exact ended (takeReset_goes _)
  | idle => exact ended ⟨_, rfl⟩
  | woken => exact ended (wake_goes _ _)
  | background => exact ended ⟨_, rfl⟩
  | taken n level => exact ended (enterException_goes _ _ _ _)
  | go => exact .inr rfl

/-- A step that is no next state is one that runs an instruction: at an odd program counter, after a store into its words, or it is refused as its instruction is. -/
inductive Stopped (s : State) : Out → Prop where
  | odd (h : s.pc.getLsbD 0 = true) : Stopped s (.fault .oddProgramCounter)
  | disturbed (h : s.fetchDisturbed = true) : Stopped s (.refused .hostWriteIntoPrefetch)
  | window : Stopped s (.refused .storeIntoPrefetch)
  | exec (i : Instr) (t : State) (r : Refusal) (h : exec i t = .refused r) : Stopped s (.refused r)
  | next (t : State) : Stopped s (.next t)

theorem enterException_stopped (s t : State) (n : Byte) (resume : Addr) (level : Option (BitVec 3)) : Stopped s (enterException true t n resume level) := by
  cases h : enterException true t n resume level with
  | next u => exact .next u
  | fault f => exact absurd h (enterException_not_fault f)
  | refused r =>
    obtain ⟨-, rfl⟩ := enterException_only_prefetch h
    exact .window

theorem step_stopped (s : State) : Stopped s (step s) := by
  unfold step
  rcases boundary_goes s with ⟨t, e⟩ | e
  · rw [e]
    exact .next t
  · rw [e]
    dsimp only
    split
    · rename_i hp
      exact .odd (by rwa [begun_eq] at hp)
    · split
      · exact .disturbed ‹_›
      · cases hf : fetch s.begun with
        | refused r => exact absurd hf (not_refused (fetch_sat false _) r)
        | berr u => exact enterException_stopped s u _ _ _
        | ok oi u =>
          cases oi with
          | none => exact enterException_stopped s u _ _ _
          | some i =>
            dsimp only
            cases he : exec i u with
            | next v => exact .next v
            | fault f => exact absurd he (exec_not_fault i u f)
            | refused r => exact .exec i u r he

theorem not_recognised_zero (s : State) : recognised s 0#3 = false := by simp [recognised]

/-- A store of another agent into the words about to be fetched stops the step (R94, D5). -/
theorem step_disturbed {s : State} (hd : s.fetchDisturbed = true) (hrun : s.run = .running) (he : s.pc.getLsbD 0 = false) (hr : s.input.reset = false)
    (hb : s.input.bkpt = false) (hi : s.inhibit = true ∨ s.input.irq = 0#3) : step s = .refused .hostWriteIntoPrefetch := by
  have hgo : boundary s = .go s.begun := by
    rcases hi with hi | hi <;> simp [boundary, hr, hb, hrun, hi, not_recognised_zero, State.begun]
  have hp : s.begun.pc.getLsbD 0 = false := by rwa [begun_eq]
  unfold step
  rw [hgo, hd]
  exact (if_neg (by rw [hp]; exact Bool.false_ne_true)).trans (if_pos rfl)

theorem fetchDisturbed_of {s : State} {w : HostWrite} (hw : w ∈ s.input.writes) (hk : s.kindAt w.space w.addr = .ram)
    (hs : s.plat.splitSpaces = false ∨ w.space = .prog) (ha : (w.addr - s.pc).toNat < 12) : s.fetchDisturbed = true := by
  refine List.any_eq_true.mpr ⟨w, hw, ?_⟩
  simp only [hk, ha, decide_true, Bool.true_and, Bool.and_true, Bool.or_eq_true, Bool.not_eq_true', beq_iff_eq]
  exact hs

/-- Settles O15: an instruction by `Runs`, a step by `Stopped`. -/
theorem onlyDeclaredRefusals : Obligations.OnlyDeclaredRefusals := by
  unfold Obligations.OnlyDeclaredRefusals
  refine ⟨fun i s => ⟨exec_not_fault i s, fun r h => ?_⟩, fun s => ⟨fun b z g r hz => ?_, fun ii h => ?_, fun m hs ha => ?_, ?_, fun f h => ?_, fun r h => ?_⟩⟩
  · rcases exec_refused h with h | h | ⟨hr, a, ha, hm⟩
    · exact .inl h
    · exact .inr (.inl h)
    · obtain ⟨hs, hd⟩ := (inPrefetch_iff s a).mp ha
      exact .inr (.inr ⟨hr, hs, a, hd, hm⟩)
  · have hz : ¬ (z == 0#4) = true := by simpa using hz
    exact ⟨if_neg hz, if_neg hz, if_neg hz, if_neg hz⟩
  · exact ⟨if_neg (not_maskWellFormed h), if_neg (not_maskWellFormed h)⟩
  · have hp := (inPrefetch_iff s _).mpr ⟨hs, ha⟩
    exact ⟨storeByte_inPrefetch hp _ _, storeByte_inPrefetch hp _ _, storeWord_inPrefetch hp _ _⟩
  · intro w hw hk hs ha hrun he hr hb hi
    exact step_disturbed (fetchDisturbed_of hw hk hs ha) hrun he hr hb hi
  · have g := step_stopped s
    rw [h] at g
    cases g with
    | odd hp => exact hp
  · have g := step_stopped s
    rw [h] at g
    cases g with
    | disturbed hd => exact .inr (.inr (.inr ⟨rfl, hd⟩))
    | window => exact .inr (.inr (.inl rfl))
    | exec i t _ he =>
      rcases exec_refused he with ⟨hr, -⟩ | ⟨hr, -⟩ | ⟨hr, -⟩
      · exact .inl hr
      · exact .inr (.inl hr)
      · exact .inr (.inr (.inl hr))

end Sys2Proof.Machine

/-! ## Packed registers -/

namespace Sys2Proof.Machine

/-! ### Bits and numbers of the CCR word, of D and of K -/

/-- Two values joined, as a number. -/
theorem toNat_join {m n : Nat} (x : BitVec m) (y : BitVec n) : (x ++ y).toNat = x.toNat * 2 ^ n + y.toNat := by
  rw [BitVec.toNat_append, ← Nat.shiftLeft_add_eq_or_of_lt y.isLt, Nat.shiftLeft_eq]

theorem CCR.hi_toNat (c : CCR) :
    c.hi.toNat = c.s.toNat * 128 + c.mv.toNat * 64 + c.h.toNat * 32 + c.ev.toNat * 16 + c.n.toNat * 8 + c.z.toNat * 4 + c.v.toNat * 2 + c.c.toNat := by
  simp only [CCR.hi, toNat_join, BitVec.toNat_ofBool]
  omega

/-- The CCR word as a number: CCR[15:8], IP, SM, PK (R28). -/
theorem CCR.word_toNat (c : CCR) (pk : Nib) : (c.word pk).toNat = c.hi.toNat * 256 + c.ip.toNat * 32 + c.sm.toNat * 16 + pk.toNat := by
  simp only [CCR.word, toNat_join, BitVec.toNat_ofBool]
  omega

/-- CCR[15:8] is the high byte of the word. -/
theorem CCR.word_div (c : CCR) (pk : Nib) : (c.word pk).toNat / 256 = c.hi.toNat := by
  have := c.ip.isLt
  have := Bool.toNat_lt c.sm
  have := pk.isLt
  rw [CCR.word_toNat]
  omega

/-- The bits of CCR[15:8], from C up (R28). -/
theorem CCR.hi_getLsbD (c : CCR) (i : Nat) : c.hi.getLsbD i = [c.c, c.v, c.z, c.n, c.ev, c.h, c.mv, c.s].getD i false := by
  by_cases hi : i < 8
  · simp only [CCR.hi, BitVec.getLsbD_append, BitVec.getLsbD_ofBool]
    interval_cases i <;> rfl
  · rw [BitVec.getLsbD_of_ge _ _ (by omega), List.getD_eq_default _ _ (by simp; omega)]

theorem CCR.hi_withHi (c : CCR) (v : Byte) : (c.withHi v).hi = v := by
  apply BitVec.eq_of_getLsbD_eq
  intro i hi
  rw [CCR.hi_getLsbD]
  interval_cases i <;> rfl

/-- The bits of the CCR word: PK, SM, IP and CCR[15:8] from the bottom up (R28). -/
theorem CCR.word_getLsbD (c : CCR) (pk : Nib) (i : Nat) :
    (c.word pk).getLsbD i = if i < 4 then pk.getLsbD i else if i = 4 then c.sm else if i < 8 then c.ip.getLsbD (i - 5) else c.hi.getLsbD (i - 8) := by
  simp only [CCR.word, BitVec.getLsbD_append, BitVec.getLsbD_ofBool]
  by_cases hi : i < 8
  · interval_cases i <;> rfl
  · have e : i - (3 + (1 + 4)) = i - 8 := rfl
    rw [if_neg (by omega), e, if_neg (by omega), if_neg (by omega), if_neg hi]

theorem CCR.ofWord_word (c : CCR) (pk : Nib) : CCR.ofWord (c.word pk) = c := by
  have hip : ((c.word pk).extractLsb' 5 3 : BitVec 3) = c.ip := by
    apply BitVec.eq_of_getLsbD_eq
    intro i hi
    rw [BitVec.getLsbD_extractLsb', CCR.word_getLsbD]
    interval_cases i <;> simp
  simp only [CCR.ofWord, CCR.word_getLsbD, CCR.hi_getLsbD, hip]
  rfl

/-- Every bit of a word loaded into the CCR but PK comes back. -/
theorem CCR.word_ofWord_getLsbD (w : Word) (pk : Nib) (i : Nat) (h : 4 ≤ i) : ((CCR.ofWord w).word pk).getLsbD i = w.getLsbD i := by
  by_cases hi : i < 16
  · rw [CCR.word_getLsbD, CCR.hi_getLsbD]
    interval_cases i <;> simp [CCR.ofWord]
  · rw [BitVec.getLsbD_of_ge _ _ (by omega), BitVec.getLsbD_of_ge _ _ (by omega)]

theorem CCR.word_ofWord (w : Word) : (CCR.ofWord w).word (w.extractLsb' 0 4) = w := by
  apply BitVec.eq_of_getLsbD_eq
  intro i hi
  by_cases h : i < 4
  · rw [CCR.word_getLsbD, if_pos h, BitVec.getLsbD_extractLsb']
    simp [h]
  · exact CCR.word_ofWord_getLsbD w _ i (by omega)

/-- D is A times 256 plus B (R21). -/
theorem State.d_toNat (s : State) : s.d.toNat = s.a.toNat * 256 + s.b.toNat := toNat_join s.a s.b

theorem State.withD_eq (s : State) (v : Word) : s.withD v = { s with a := BitVec.ofNat 8 (v.toNat / 256), b := BitVec.ofNat 8 (v.toNat % 256) } := by
  have ha : (v.extractLsb' 8 8 : Byte) = BitVec.ofNat 8 (v.toNat / 256) := BitVec.eq_of_toNat_eq (by simp [BitVec.extractLsb'_toNat, Nat.shiftRight_eq_div_pow])
  have hb : (v.extractLsb' 0 8 : Byte) = BitVec.ofNat 8 (v.toNat % 256) := BitVec.eq_of_toNat_eq (by simp [BitVec.extractLsb'_toNat])
  rw [State.withD, ha, hb]

/-- Settles O7: the CCR word by numbers and by bits, D by numbers. -/
theorem packedRegisterLayouts : Obligations.PackedRegisterLayouts := by
  unfold Obligations.PackedRegisterLayouts
  refine ⟨fun c pk => ?_, CCR.ofWord_word, CCR.word_ofWord, fun s => ⟨s.d_toNat, fun v => ⟨s.withD_eq v, s.withD_d v⟩, fun x => ⟨?_, ?_⟩⟩⟩
  · rw [CCR.word_toNat, CCR.hi_toNat]
    omega
  · have hb := s.b.isLt
    rw [State.d_toNat, State.d_toNat]
    show x.toNat * 256 + s.b.toNat = _
    omega
  · have hb := s.b.isLt
    rw [State.d_toNat, State.d_toNat]
    show s.a.toNat * 256 + x.toNat = _
    omega

end Sys2Proof.Machine

/-! ## Single instructions -/

namespace Sys2Proof.Machine

/-! ### The condition codes, stop and wait -/

/-- An instruction over, `n` bytes further, to a state the claim names. -/
theorem next_advance {t u : State} {n : Nat} (h : t.advance n = u) : (.next (t.advance n) : Out) = .next u := congrArg Host.Outcome.next h

/-- Settles O53: the bits of a word loaded into the CCR come back, but for PK. -/
theorem conditionCodeInstructions : Obligations.ConditionCodeInstructions := by
  unfold Obligations.ConditionCodeInstructions
  intro s w
  refine ⟨⟨_, next_advance (advance_eq _ 4), fun i hi => ?_⟩, ⟨_, next_advance (advance_eq _ 4), fun i hi => ?_⟩,
    ⟨_, next_advance (advance_eq _ 2), fun i hi => CCR.word_ofWord_getLsbD s.d 0 i hi⟩, ⟨_, next_advance (advance_eq _ 2), rfl, rfl, ?_⟩, ?_, ?_⟩
  · rw [CCR.word_ofWord_getLsbD _ 0 i hi, BitVec.getLsbD_and]
  · rw [CCR.word_ofWord_getLsbD _ 0 i hi, BitVec.getLsbD_or]
  · rw [CCR.word_div, CCR.hi_withHi]
  · rw [CCR.word_div, BitVec.ofNat_toNat, BitVec.setWidth_eq]
    exact next_advance (advance_eq { s with a := s.ccr.hi } 2)
  · have e : s.ccrSeen = s.ccr.word ((s.pcPlus 6).extractLsb' 16 4) := by
      rw [← pcPlus_eq]
      rfl
    rw [← e]
    exact next_advance (advance_eq (s.withD s.ccrSeen) 2)

/-- Settles O59: each of the five is one register update and two bytes further. -/
theorem stopWaitAndNull : Obligations.StopWaitAndNull := by
  unfold Obligations.StopWaitAndNull
  intro s
  refine ⟨fun h => (execLpstop_on s h).trans (next_advance (advance_eq s 2)), fun h => (execLpstop_off s h).trans (next_advance (advance_eq _ 2)),
    next_advance (advance_eq { s with run := .waiting } 2), fun h => ?_, next_advance (advance_eq s 2)⟩
  have e : exec .bgnd s = inherent s fun s => { s with run := .background } := if_pos h
  rw [e]
  exact next_advance (advance_eq { s with run := .background } 2)

/-! ### Additions and subtractions -/

theorem putA_advance (s : State) (p : Byte × CCR) (n : Nat) : (putA s p).advance n = { s with a := p.1, ccr := p.2, pc := s.pcPlus n } := advance_eq _ n
theorem putB_advance (s : State) (p : Byte × CCR) (n : Nat) : (putB s p).advance n = { s with b := p.1, ccr := p.2, pc := s.pcPlus n } := advance_eq _ n
theorem putD_advance (s : State) (p : Word × CCR) (n : Nat) : (putD s p).advance n = { s.withD p.1 with ccr := p.2, pc := s.pcPlus n } := advance_eq _ n
theorem putE_advance (s : State) (p : Word × CCR) (n : Nat) : (putE s p).advance n = { s with e := p.1, ccr := p.2, pc := s.pcPlus n } := advance_eq _ n

/-- An operand that is ready goes through `f`, to a state the claim names. -/
theorem useOperand_next {α : Type} {x : Bus α} {s t : State} {v : α} {len : Nat} {f : State → α → State} (h : x = .ok v s) (ht : (f s v).advance len = t) :
    useOperand x len f = .next t := by rw [useOperand_ready len f h, ht]

/-- Settles O31: the flag computations are `added8` and `added`. -/
theorem additions : Obligations.Additions := by
  unfold Obligations.Additions
  simp only [← addFlags8_eq, ← addFlags16_eq]
  intro s
  exact ⟨next_advance (putA_advance ..),
    fun o h => useOperand_next (operand8_ready s o h) (putA_advance ..), fun o h => useOperand_next (operand8_ready s o h) (putB_advance ..),
    fun o h => useOperand_next (operand8_ready s o h) (putA_advance ..), fun o h => useOperand_next (operand8_ready s o h) (putB_advance ..),
    fun o h => useOperand_next (operandD_ready s o h) (putD_advance ..), fun o h => useOperand_next (operandDI_ready s o h) (putD_advance ..),
    fun o h => useOperand_next (operandE_ready s o h) (putE_advance ..), fun o h => useOperand_next (operandEI_ready s o h) (putE_advance ..),
    next_advance (putE_advance ..)⟩

/-- Settles O32: the flag computation is `subtracted`. -/
theorem subtractions : Obligations.Subtractions := by
  unfold Obligations.Subtractions
  simp only [← subFlags8_eq, ← subFlags16_eq]
  intro s
  exact ⟨next_advance (putA_advance ..),
    fun o h => useOperand_next (operand8_ready s o h) (putA_advance ..), fun o h => useOperand_next (operand8_ready s o h) (putB_advance ..),
    fun o h => useOperand_next (operand8_ready s o h) (putA_advance ..), fun o h => useOperand_next (operand8_ready s o h) (putB_advance ..),
    fun o h => useOperand_next (operandD_ready s o h) (putD_advance ..), fun o h => useOperand_next (operandD_ready s o h) (putD_advance ..),
    fun o h => useOperand_next (operandE_ready s o h) (putE_advance ..), fun o h => useOperand_next (operandE_ready s o h) (putE_advance ..),
    next_advance (putE_advance ..)⟩

/-! ### TMER and TMET -/

/-- Settles O55: `roundAM_eq` is the rounding, `satValue_eq` the limit. -/
theorem readingAccumulatorM : Obligations.ReadingAccumulatorM := by
  unfold Obligations.ReadingAccumulatorM
  intro s
  refine ⟨?_, ?_⟩
  · show execTmer s = _
    simp only [execTmer, inherent, advance_eq, evTest_eq, satValue_eq, am_upper, flagsNZ_eq, roundAM_eq, Bool.and_eq_true, Bool.or_eq_true]
    rfl
  · show execTmet s = _
    simp only [execTmet, inherent, advance_eq, satValue_eq, am_upper, flagsNZ_eq, Bool.and_eq_true, Bool.or_eq_true]
    rfl

/-! ### PSHM -/

/-- K is EK, XK, YK, ZK from the top nibble down (R26). -/
theorem State.k_toNat (s : State) : s.k.toNat = s.ek.toNat * 4096 + s.xk.toNat * 256 + s.yk.toNat * 16 + s.zk.toNat := by
  simp only [State.k, toNat_join]
  omega

theorem State.withK_k (s : State) : s.withK s.k = s := by
  have h : s.k.extractLsb' 12 4 = s.ek ∧ s.k.extractLsb' 8 4 = s.xk ∧ s.k.extractLsb' 4 4 = s.yk ∧ s.k.extractLsb' 0 4 = s.zk := by
    have hx := s.xk.isLt
    have hy := s.yk.isLt
    have hz := s.zk.isLt
    refine ⟨?_, ?_, ?_, ?_⟩ <;> apply BitVec.eq_of_toNat_eq <;>
      simp only [BitVec.extractLsb'_toNat, State.k_toNat, Nat.shiftRight_eq_div_pow] <;> omega
  obtain ⟨h1, h2, h3, h4⟩ := h
  simp only [State.withK, h1, h2, h3, h4]

/-- Settles O50: PSHM is a run of pushes of the selected words. -/
theorem pushMultiple : Obligations.PushMultiple := by
  unfold Obligations.PushMultiple
  intro s
  refine ⟨⟨s.k_toNat, s.withK_k⟩, fun ii h7 hw => ?_⟩
  have hl := selectedWords_length s ii
  obtain ⟨t, ht, hp⟩ := pushAll_ready s (s.selectedWords ii) (by omega) hw
  refine ⟨t, ?_, hp⟩
  have hpc : t.pc = s.pc := by rw [hp.1]; rfl
  have e : execPshm ii s = .next (t.advance 2) := by
    rw [execPshm_eq s ii h7, ht, Bus.bind_ok]
    rfl
  show execPshm ii s = _
  rw [e, advance_eq, State.pcPlus, hpc]
  rfl

end Sys2Proof.Machine

/-! ## The fetch reads what the decoder is given -/

namespace Sys2Proof.Machine

/-- The words of a list of bytes given by their number. -/
theorem wordsOfBytes_range (n : Nat) (g : Nat → Byte) :
    wordsOfBytes ((List.range n).map g) = (List.range (n / 2)).map fun k => wordOf (g (2 * k)) (g (2 * k + 1)) := by
  induction n using Nat.twoStepInduction generalizing g with
  | zero => rfl
  | one => rfl
  | more n ih _ =>
    have e : (n + 2) / 2 = n / 2 + 1 := by omega
    rw [e, List.range_succ_eq_map, List.range_succ_eq_map, List.range_succ_eq_map]
    simp only [List.map_cons, List.map_map, wordsOfBytes]
    exact congrArg _ (ih fun k => g (k + 2))

/-- A whole list of words decodes to one instruction: the first word tells how many there are (R100, R101). -/
theorem decodeWords_whole {ws : List Word} {i : Instr} (h : decodeWords ws = .ok (i, [])) :
    (∃ w0, ws = [w0] ∧ decodeOp w0 0 0 = some i ∧ i.length = 2) ∨
      (∃ w0 w1 j, ws = [w0, w1] ∧ decodeOp w0 0 0 = some j ∧ j.length = 4 ∧ decodeOp w0 w1 0 = some i) ∨
      ∃ w0 w1 w2 j, ws = [w0, w1, w2] ∧ decodeOp w0 0 0 = some j ∧ j.length = 6 ∧ decodeOp w0 w1 w2 = some i := by
  cases ws with
  | nil => cases h
  | cons w0 rest =>
    unfold decodeWords at h
    dsimp only at h
    cases hj : decodeOp w0 0 0 with
    | none => rw [hj] at h; cases h
    | some j =>
      simp only [hj] at h
      split at h
      · rename_i hl
        cases h
        exact .inl ⟨w0, rfl, hj, hl⟩
      · rename_i w1 rest' hl
        cases hi : decodeOp w0 w1 0 with
        | none => rw [hi] at h; cases h
        | some k =>
          rw [hi] at h
          cases h
          exact .inr (.inl ⟨w0, w1, j, rfl, hj, hl, hi⟩)
      · rename_i w1 w2 rest' hl
        cases hi : decodeOp w0 w1 w2 with
        | none => rw [hi] at h; cases h
        | some k =>
          rw [hi] at h
          cases h
          exact .inr (.inr ⟨w0, w1, w2, j, rfl, hj, hl, hi⟩)
      · cases h

theorem pcPlus_succ (s : State) (n : Nat) : s.pcPlus n + 1#20 = s.pcPlus (n + 1) := by
  rw [← pcPlus_eq, ← pcPlus_eq, BitVec.ofNat_add, BitVec.add_assoc]

theorem wordOf_pcPlus (s : State) (n : Nat) :
    wordOf (s.byteAt .prog (s.pcPlus n)) (s.byteAt .prog (s.pcPlus (n + 1))) = s.wordAt .prog (s.pc + BitVec.ofNat 20 n) := by
  rw [pcPlus_eq, State.wordAt, pcPlus_succ]
  rfl

theorem canRead16_pcPlus {s : State} {n : Nat} (h : ∀ k, k < n + 2 → s.canRead8 .prog (s.pcPlus k) = true) :
    s.canRead16 .prog (s.pc + BitVec.ofNat 20 n) = true := by
  rw [pcPlus_eq, State.canRead16, pcPlus_succ, h n (by omega), h (n + 1) (by omega)]
  rfl

/-- The fetch finds the instruction whose bytes stand at the program counter (R90, R100). -/
theorem fetch_decoded {s : State} {i : Instr} {n : Nat} (hr : ∀ k, k < n → s.canRead8 .prog (s.pcPlus k) = true)
    (hd : decodeBytes ((List.range n).map fun k => s.byteAt .prog (s.pcPlus k)) = .ok (i, [])) : fetch s = .ok (some i) s := by
  have hz : s.pc + BitVec.ofNat 20 0 = s.pc := BitVec.add_zero s.pc
  have word (k : Nat) := wordOf_pcPlus s (2 * k)
  rw [decodeBytes, wordsOfBytes_range] at hd
  simp only [word] at hd
  have read (k : Nat) (hk : k < n / 2) : s.canRead16 .prog (s.pc + BitVec.ofNat 20 (2 * k)) = true := canRead16_pcPlus fun j hj => hr j (by omega)
  rcases decodeWords_whole hd with ⟨w0, hw, h0, hl⟩ | ⟨w0, w1, j, hw, h0, hl, h1⟩ | ⟨w0, w1, w2, j, hw, h0, hl, h2⟩
  · have hn : n / 2 = 1 := by simpa using congrArg List.length hw
    simp only [hn, List.range_succ, List.range_zero, List.nil_append, List.map_cons, List.map_nil, List.cons.injEq] at hw
    obtain ⟨rfl, -⟩ := hw
    have r0 := read 0 (by omega)
    rw [Nat.mul_zero, hz] at r0 h0
    exact fetch_one s i r0 h0 hl
  · have hn : n / 2 = 2 := by simpa using congrArg List.length hw
    simp only [hn, List.range_succ, List.range_zero, List.nil_append, List.cons_append, List.map_cons, List.map_nil, List.cons.injEq] at hw
    obtain ⟨rfl, rfl, -⟩ := hw
    have r0 := read 0 (by omega)
    rw [Nat.mul_zero, hz] at r0 h0 h1
    rw [fetch_two s j r0 (read 1 (by omega)) h0 hl]
    exact congrArg (Bus.ok · s) h1
  · have hn : n / 2 = 3 := by simpa using congrArg List.length hw
    simp only [hn, List.range_succ, List.range_zero, List.nil_append, List.cons_append, List.map_cons, List.map_nil, List.cons.injEq] at hw
    obtain ⟨rfl, rfl, rfl, -⟩ := hw
    have r0 := read 0 (by omega)
    rw [Nat.mul_zero, hz] at r0 h0 h2
    rw [fetch_three s j r0 (read 1 (by omega)) (read 2 (by omega)) h0 hl]
    exact congrArg (Bus.ok · s) h2

/-- Settles O16: at an instruction the step is the fetch, and `fetch_decoded` says what it finds. -/
theorem stepRunsDecodedInstruction : Obligations.StepRunsDecodedInstruction := by
  unfold Obligations.StepRunsDecodedInstruction
  intro s i ha _ hr hd
  have hp (k : Nat) : s.begun.pcPlus k = s.pcPlus k := by rw [State.pcPlus, begun_eq, State.pcPlus]
  have hplat : s.begun.plat = s.plat := by rw [begun_eq]
  have hc (k : Nat) : s.begun.canRead8 .prog (s.begun.pcPlus k) = s.canRead8 .prog (s.pcPlus k) := by
    rw [hp, State.canRead8, kindAt_of_plat hplat, State.canRead8]
  have hf : fetch s.begun = .ok (some i) s.begun :=
    fetch_decoded (n := i.length) (fun k hk => (hc k).trans (hr k hk)) (by simpa only [hp] using hd)
  rw [step_atInstruction s ha, hf]

end Sys2Proof.Machine

/-! ## Memory, addresses and device accesses -/

namespace Sys2Proof.Machine

/-! ### The prefetch window -/

/-- Settles O11: what an instruction has done is `Kept`, and that leaves the bytes of its window. -/
theorem prefetchWindowNeverChanges : Obligations.PrefetchWindowNeverChanges := by
  unfold Obligations.PrefetchWindowNeverChanges
  intro i s t h a hs hw
  have hp : s.inPrefetch a = true := by simp only [State.inPrefetch, hs, hw, Bool.not_false, decide_true, Bool.and_self]
  exact (exec_kept h).window rfl a hp

/-! ### The canonical form of memory -/

theorem Memory.wfFrom_cons (lo k : Nat) (v : Byte) (t : Memory) :
    Memory.wfFrom lo ((k, v) :: t) = true ↔ lo ≤ k ∧ k < 2 ^ 21 ∧ v ≠ 0#8 ∧ Memory.wfFrom (k + 1) t = true := by
  simp only [Memory.wfFrom, Bool.and_eq_true, decide_eq_true_eq, bne_iff_ne, and_assoc]

theorem Memory.get_head (k : Nat) (v : Byte) (t : Memory) : Memory.get ((k, v) :: t) k = v := if_pos rfl

/-- A canonical list that reads other than 0 at `k` does not begin above `k`. -/
theorem Memory.head_le {lo k k' : Nat} {v' : Byte} {t' : Memory} (h : Memory.wfFrom lo ((k', v') :: t') = true)
    (hk : Memory.get ((k', v') :: t') k ≠ 0#8) : k' ≤ k := by
  by_contra hlt
  rw [Memory.wfFrom_cons] at h
  exact hk (Memory.get_below _ k' k ((Memory.wfFrom_cons ..).mpr ⟨Nat.le_refl _, h.2⟩) (by omega))

/-- Canonical lists that read the same are the same: they begin with the same key, which reads other than 0 in both. -/
theorem Memory.ext_get {lo lo' : Nat} {m m' : Memory} (h : Memory.wfFrom lo m = true) (h' : Memory.wfFrom lo' m' = true)
    (e : ∀ a, Memory.get m a = Memory.get m' a) : m = m' := by
  induction m generalizing lo lo' m' with
  | nil =>
    cases m' with
    | nil => rfl
    | cons c' t' =>
      obtain ⟨k', v'⟩ := c'
      obtain ⟨-, -, hv', -⟩ := (Memory.wfFrom_cons ..).mp h'
      exact absurd ((Memory.get_head k' v' t').symm.trans (e k').symm) hv'
  | cons c t ih =>
    obtain ⟨k, v⟩ := c
    obtain ⟨-, -, hv, ht⟩ := (Memory.wfFrom_cons ..).mp h
    have hk : Memory.get m' k = v := (e k).symm.trans (Memory.get_head k v t)
    cases m' with
    | nil => exact absurd hk.symm hv
    | cons c' t' =>
      obtain ⟨k', v'⟩ := c'
      obtain ⟨-, -, hv', ht'⟩ := (Memory.wfFrom_cons ..).mp h'
      have hk' : Memory.get ((k, v) :: t) k' = v' := (e k').trans (Memory.get_head k' v' t')
      obtain rfl : k = k' := Nat.le_antisymm (Memory.head_le h (hk' ▸ hv')) (Memory.head_le h' (hk ▸ hv))
      obtain rfl : v' = v := (Memory.get_head k v' t').symm.trans hk
      have htails : ∀ a, Memory.get t a = Memory.get t' a := fun a => by
        by_cases ha : k = a
        · rw [Memory.get_below t _ a ht (by omega), Memory.get_below t' _ a ht' (by omega)]
        · simpa only [Memory.get, if_neg ha] using e a
      rw [ih ht ht' htails]

/-- Settles O4: `Memory.get_set`, `Memory.wf_set` and `Memory.ext_get`. -/
theorem memoryReadsWritesAndCanonicalForm : Obligations.MemoryReadsWritesAndCanonicalForm :=
  ⟨Memory.get_set, fun m a v ha h => Memory.wf_set m a v ha h, fun _ _ h h' e => Memory.ext_get h h' e⟩

/-! ### Words in RAM -/

theorem State.wordAt_toNat (s : State) (sp : Space) (a : Addr) :
    (s.wordAt sp a).toNat = (s.byteAt sp a).toNat * 256 + (s.byteAt sp (a + 1#20)).toNat := toNat_join ..

theorem wroteBytes_putWord (s : State) (a : Addr) (v : Word) :
    wroteBytes s (s.putWord a v) [(a, (s.putWord a v).byteAt .data a), (a + 1#20, (s.putWord a v).byteAt .data (a + 1#20))] := by
  refine ⟨?_, fun k hk => ?_⟩
  · simp only [List.forall_mem_cons, List.not_mem_nil, false_implies, implies_true, and_self]
  · simp only [List.forall_mem_cons] at hk
    exact State.putWord_get s a v k hk.1 hk.2.1

/-- Settles O5: the store is `putWord`, and `putWord` is read back. -/
theorem wordAccessAtEveryAddress : Obligations.WordAccessAtEveryAddress := by
  unfold Obligations.WordAccessAtEveryAddress
  intro s a v h
  have hr : (s.putWord a v).canRead16 .data a = true := canWrite16_readable s a h
  have hv := State.putWord_wordAt s a v
  refine ⟨s.putWord a v, write16_ready true s a v h, rfl, ?_, wroteBytes_putWord s a v, ?_⟩
  · rw [← State.wordAt_toNat, hv]
  · rw [read16_ready _ .data a hr, hv]

/-! ### Effective addresses -/

/-- An unsigned offset added to an address (R147). -/
theorem add_unsigned_toNat (a : Addr) (x : Byte) : (a + x.setWidth 20).toNat = (a.toNat + x.toNat) % 2 ^ 20 := by
  have := x.isLt
  rw [BitVec.toNat_add, BitVec.toNat_setWidth, Nat.mod_eq_of_lt (a := x.toNat) (by omega)]

/-- A signed offset added to an address (R148, R150). -/
theorem add_signed_toNat (a : Addr) (x : Word) : ((a + x.signExtend 20).toNat : Int) = (a.toNat + x.toInt) % 2 ^ 20 := by
  rw [add_signExtend a x (by decide), BitVec.toNat_ofInt]
  omega

/-- Settles O6: each address is a sum or two values joined. -/
theorem effectiveAddresses : Obligations.EffectiveAddresses := by
  unfold Obligations.EffectiveAddresses
  intro s r ff g z b
  exact ⟨add_unsigned_toNat (s.idx20 r) ff, add_signed_toNat (s.idx20 r) g, add_signed_toNat (s.idx20 r) s.e, toNat_join s.ek g, toNat_join b g,
    toNat_join s.xk s.ix, toNat_join s.yk s.iy, toNat_join s.zk s.iz⟩

/-! ### Loads and stores from what their access answers -/

section instructions

variable {s t : State} {m : MemE}

theorem ldaa_of_read {v : Byte} (h : read8 s .data (eaM s m) = .ok v t) :
    exec (.ldaa (.mem m)) s = .next { t with a := v, ccr := withNZV t.ccr v, pc := t.pcPlus m.length } := by
  rw [← flagsNZV_eq]
  exact useOperand_next h (putA_advance ..)

theorem ldaa_of_berr (h : read8 s .data (eaM s m) = .berr t) : exec (.ldaa (.mem m)) s = busError t := by
  show useOperand (read8 s .data (eaM s m)) _ _ = _
  rw [h]
  rfl

theorem ldd_of_read {v : Word} (h : read16 s .data (eaM s m) = .ok v t) :
    exec (.ldd (.mem m)) s = .next { t.withD v with ccr := withNZV t.ccr v, pc := t.pcPlus m.length } := by
  rw [← flagsNZV_eq]
  exact useOperand_next h (putD_advance ..)

theorem ldd_of_berr (h : read16 s .data (eaM s m) = .berr t) : exec (.ldd (.mem m)) s = busError t := by
  show useOperand (read16 s .data (eaM s m)) _ _ = _
  rw [h]
  rfl

theorem staa_of_write (h : write8 true s (eaM s m) s.a = .ok () t) :
    exec (.staa m) s = .next { t with ccr := withNZV t.ccr s.a, pc := t.pcPlus m.length } := by
  show storeByte s (eaM s m) s.a m.length = _
  rw [storeByte, h, Bus.bind_ok, advance_eq, flagsNZV_eq]
  rfl

theorem staa_of_berr (h : write8 true s (eaM s m) s.a = .berr t) : exec (.staa m) s = busError t := by
  show storeByte s (eaM s m) s.a m.length = _
  rw [storeByte, h]
  rfl

theorem std_of_write (h : write16 true s (eaM s m) s.d = .ok () t) :
    exec (.std m) s = .next { t with ccr := withNZV t.ccr s.d, pc := t.pcPlus m.length } := by
  show storeWord s (eaM s m) s.d m.length = _
  rw [storeWord, h, Bus.bind_ok, advance_eq, flagsNZV_eq]
  rfl

theorem std_of_berr (h : write16 true s (eaM s m) s.d = .berr t) : exec (.std m) s = busError t := by
  show storeWord s (eaM s m) s.d m.length = _
  rw [storeWord, h]
  rfl

end instructions

/-! ### Byte cycles of devices and of ROM -/

/-- Two device cycles, each of which drew a free value. -/
theorem State.cycled_drew_twice (s : State) (e f : HostEvent) (r r' : List DevReply) :
    (((s.cycled e r).drew 1).cycled f r').drew 1 = { s with replies := r', events := s.events ++ [e] ++ [f], draws := s.draws + 2 } := rfl

/-- The low byte of a word, by numbers. -/
theorem lowByte_eq (v : Word) : (v.extractLsb' 0 8 : Byte) = BitVec.ofNat 8 (v.toNat % 256) := BitVec.eq_of_toNat_eq (by simp [BitVec.extractLsb'_toNat])

section bytes

variable {s : State} {sp : Space} {a : Addr} {rest : List DevReply}

theorem read8_device_data {v : Word} (h : s.kindAt sp a = .device) (hr : s.replies = .data v :: rest) :
    read8 s sp a = .ok (BitVec.ofNat 8 (v.toNat % 256)) (s.cycled (.deviceRead sp a false) rest) := by
  rw [read8_device s sp a h, deviceRead_data s sp a false v rest hr, Bus.bind_ok, lowByte_eq]

theorem read8_device_error (h : s.kindAt sp a = .device) (hr : s.replies = .busError :: rest) :
    read8 s sp a = .berr (s.cycled (.deviceRead sp a false) rest) := by
  rw [read8_device s sp a h, deviceRead_error s sp a false rest hr, Bus.bind_berr]

theorem read8_device_free (h : s.kindAt sp a = .device) (hr : s.replies = []) :
    ∃ v, read8 s sp a = .ok v ((s.cycled (.deviceRead sp a false) s.replies).drew 1) := by
  rw [read8_device s sp a h, deviceRead_free s sp a false hr, Bus.bind_ok]
  exact ⟨_, rfl⟩

theorem write8_device_data {v : Byte} {w : Word} (h : s.kindAt .data a = .device) (hp : s.inPrefetch a = false) (hr : s.replies = .data w :: rest) :
    write8 true s a v = .ok () (s.cycled (.deviceWrite a false (v.setWidth 16)) rest) := by
  rw [write8_device s a v h hp, deviceWrite_data s a false _ w rest hr]

theorem write8_device_error {v : Byte} (h : s.kindAt .data a = .device) (hp : s.inPrefetch a = false) (hr : s.replies = .busError :: rest) :
    write8 true s a v = .berr (s.cycled (.deviceWrite a false (v.setWidth 16)) rest) := by
  rw [write8_device s a v h hp, deviceWrite_error s a false _ rest hr]

theorem write8_device_free {v : Byte} (h : s.kindAt .data a = .device) (hp : s.inPrefetch a = false) (hr : s.replies = []) :
    write8 true s a v = .ok () (s.cycled (.deviceWrite a false (v.setWidth 16)) s.replies) := by
  rw [write8_device s a v h hp, deviceWrite_free s a false _ hr]

theorem write8_rom (v : Byte) (h : s.kindAt .data a = .rom) (hp : s.inPrefetch a = false) :
    write8 true s a v = .ok () (s.emit (.romWrite a false (v.setWidth 16))) := by
  simp only [write8, h, hp, Bool.and_false, Bool.false_eq_true, if_false]

end bytes

/-! ### Words as two byte cycles -/

section words

variable {s t u : State} {sp : Space} {a : Addr}

theorem bytewise_of_odd (sp : Space) (h : a.getLsbD 0 = true) : s.bytewise sp a = true := by
  rw [State.bytewise, h, Bool.true_or]

theorem bytewise_of_kinds (h : s.kindAt sp a ≠ s.kindAt sp (a + 1#20)) : s.bytewise sp a = true := by
  rw [State.bytewise, bne_iff_ne.mpr h, Bool.or_true]

theorem read16_two {x y : Byte} (hb : s.bytewise sp a = true) (hx : read8 s sp a = .ok x t) (hy : read8 t sp (a + 1#20) = .ok y u) :
    read16 s sp a = .ok (x ++ y) u := by
  rw [read16_bytewise s sp a hb, hx, Bus.bind_ok, hy, Bus.bind_ok]

theorem read16_first_error (hb : s.bytewise sp a = true) (hx : read8 s sp a = .berr t) : read16 s sp a = .berr t := by
  rw [read16_bytewise s sp a hb, hx, Bus.bind_berr]

theorem read16_second_error {x : Byte} (hb : s.bytewise sp a = true) (hx : read8 s sp a = .ok x t) (hy : read8 t sp (a + 1#20) = .berr u) :
    read16 s sp a = .berr u := by
  rw [read16_bytewise s sp a hb, hx, Bus.bind_ok, hy, Bus.bind_berr]

/-- D is stored A first, then B; the second cycle decides how the access ends. -/
theorem write16_two {r : Bus Unit} (hb : s.bytewise .data a = true) (hx : write8 true s a s.a = .ok () t) (hy : write8 true t (a + 1#20) s.b = r) :
    write16 true s a s.d = r := by
  have ha : s.d.extractLsb' 8 8 = s.a := joined_high s.a s.b
  have hl : s.d.extractLsb' 0 8 = s.b := joined_low s.a s.b
  rw [write16_bytewise s a true s.d hb, ha, hl, hx, Bus.bind_ok, hy]

theorem write16_first_error (hb : s.bytewise .data a = true) (hx : write8 true s a s.a = .berr t) : write16 true s a s.d = .berr t := by
  have ha : s.d.extractLsb' 8 8 = s.a := joined_high s.a s.b
  rw [write16_bytewise s a true s.d hb, ha, hx, Bus.bind_berr]

theorem write16_rom_even (v : Word) (h : s.kindAt .data a = .rom) (h2 : s.kindAt .data (a + 1#20) = .rom) (he : a.getLsbD 0 = false)
    (hp : s.inPrefetch a = false) (hp2 : s.inPrefetch (a + 1#20) = false) : write16 true s a v = .ok () (s.emit (.romWrite a true v)) := by
  have hb : s.bytewise .data a = false := by simp only [State.bytewise, he, h, h2]; rfl
  simp only [write16, hb, writeAligned, h, hp, hp2, Bool.or_self, Bool.and_false, Bool.false_eq_true, if_false]

end words

/-- Two events shown one after the other. -/
theorem append_pair {α : Type} (l : List α) (x y : α) : l ++ [x, y] = l ++ [x] ++ [y] := List.append_cons l x [y]

/-- Settles O60: each clause is an instruction over the cycles its access runs. -/
theorem deviceAndRomAccesses : Obligations.DeviceAndRomAccesses := by
  unfold Obligations.DeviceAndRomAccesses
  simp only [append_pair]
  intro s m
  refine ⟨fun ka => ⟨?_, ?_, ?_, ?_⟩, fun ka kb => ⟨fun even => ⟨?_, ?_, ?_, ?_⟩, fun odd => ?_⟩, fun _ ka kb => ?_, ?_, ?_, ?_, ?_⟩
  -- bytes of a device
  · exact fun v rest hr => ldaa_of_read (read8_device_data ka hr)
  · exact fun rest hr => ldaa_of_berr (read8_device_error ka hr)
  · intro hr
    obtain ⟨v, hv⟩ := read8_device_free ka hr
    exact ⟨v, ldaa_of_read hv⟩
  · exact fun pa =>
      ⟨fun hr => staa_of_write (write8_device_free ka pa hr), fun v rest hr => staa_of_write (write8_device_data ka pa hr),
        fun rest hr => staa_of_berr (write8_device_error ka pa hr)⟩
  -- words of a device at an even address
  · exact fun v rest hr => ldd_of_read ((read16_device_even s .data _ ka kb even).trans (deviceRead_data _ _ _ _ v rest hr))
  · exact fun rest hr => ldd_of_berr ((read16_device_even s .data _ ka kb even).trans (deviceRead_error _ _ _ _ rest hr))
  · exact fun hr => ⟨_, ldd_of_read ((read16_device_even s .data _ ka kb even).trans (deviceRead_free _ _ _ _ hr))⟩
  · intro pa pb
    have hw := write16_device_even s (eaM s m) s.d ka kb even pa pb
    exact ⟨fun hr => std_of_write (hw.trans (deviceWrite_free _ _ _ _ hr)), fun v rest hr => std_of_write (hw.trans (deviceWrite_data _ _ _ _ v rest hr)),
      fun rest hr => std_of_berr (hw.trans (deviceWrite_error _ _ _ _ rest hr))⟩
  -- words of a device at an odd address
  · have hb := bytewise_of_odd (s := s) .data odd
    refine ⟨fun v w rest hr => ?_, fun rest hr => ?_, fun v rest hr => ?_, fun hr => ?_, fun v hr => ?_, fun pa pb => ⟨?_, ?_, ?_, ?_, ?_⟩⟩
    · exact ldd_of_read (read16_two hb (read8_device_data ka hr) (read8_device_data kb rfl))
    · exact ldd_of_berr (read16_first_error hb (read8_device_error ka hr))
    · exact ldd_of_berr (read16_second_error hb (read8_device_data ka hr) (read8_device_error kb rfl))
    · obtain ⟨x, hx⟩ := read8_device_free ka hr
      obtain ⟨y, hy⟩ := read8_device_free (s := (s.cycled (.deviceRead .data (eaM s m) false) s.replies).drew 1) kb hr
      rw [State.cycled_drew_twice] at hy
      exact ⟨x ++ y, ldd_of_read (read16_two hb hx hy)⟩
    · have hx := read8_device_data ka hr
      obtain ⟨y, hy⟩ := read8_device_free (s := s.cycled (.deviceRead .data (eaM s m) false) []) kb rfl
      exact ⟨y, ldd_of_read (read16_two hb hx hy)⟩
    · exact fun hr => std_of_write (write16_two hb (write8_device_free ka pa hr) (write8_device_free kb pb hr))
    · exact fun v hr => std_of_write (write16_two hb (write8_device_data ka pa hr) (write8_device_free kb pb rfl))
    · exact fun v w rest hr => std_of_write (write16_two hb (write8_device_data ka pa hr) (write8_device_data kb pb rfl))
    · exact fun rest hr => std_of_berr (write16_first_error hb (write8_device_error ka pa hr))
    · exact fun v rest hr => std_of_berr (write16_two hb (write8_device_data ka pa hr) (write8_device_error kb pb rfl))
  -- an even word with RAM below and a device above
  · have hb : s.bytewise .data (eaM s m) = true := bytewise_of_kinds (by rw [ka, kb]; decide)
    have hx := read8_ready s .data (eaM s m) (by rw [State.canRead8, ka]; rfl)
    refine ⟨fun v rest hr => ?_, fun rest hr => ?_, fun hr => ?_, fun pa pb => ?_⟩
    · exact ldd_of_read (read16_two hb hx (read8_device_data kb hr))
    · exact ldd_of_berr (read16_second_error hb hx (read8_device_error kb hr))
    · obtain ⟨y, hy⟩ := read8_device_free kb hr
      exact ⟨y, ldd_of_read (read16_two hb hx hy)⟩
    · have hs := write8_ready true s (eaM s m) s.a (by rw [State.canWrite8, ka, pa]; rfl)
      have hm := wroteBytes_putByte s (eaM s m) s.a
      exact ⟨fun hr => ⟨_, std_of_write (write16_two hb hs (write8_device_free kb pb hr)), wroteBytes_congr rfl rfl hm, rfl⟩,
        fun v rest hr => ⟨_, std_of_write (write16_two hb hs (write8_device_data kb pb hr)), wroteBytes_congr rfl rfl hm, rfl⟩,
        fun rest hr => ⟨_, std_of_berr (write16_two hb hs (write8_device_error kb pb hr)), wroteBytes_congr rfl rfl hm, rfl⟩⟩
  -- ROM
  · exact fun ka pa => staa_of_write (write8_rom s.a ka pa)
  · intro ka kb pa pb
    cases ho : (eaM s m).getLsbD 0 with
    | true =>
      rw [if_pos rfl, append_pair]
      exact std_of_write (write16_two (bytewise_of_odd .data ho) (write8_rom s.a ka pa) (write8_rom s.b kb pb))
    | false => exact std_of_write (write16_rom_even s.d ka kb ho pa pb)
  -- nothing answers and no bus error comes
  · exact fun ka => ⟨⟨_, ldaa_of_read (read8_open s .data _ ka)⟩, fun pa => staa_of_write (write8_open s _ s.a ka pa)⟩
  · intro ka kb
    obtain ⟨v, hv⟩ := read16_open s .data (eaM s m) ka kb
    exact ⟨⟨v, ldd_of_read hv⟩, fun pa pb => std_of_write (write16_open s _ s.d ka kb pa pb)⟩

end Sys2Proof.Machine

/-! ## Decoding and encoding undo each other

The opcode map is taken a row at a time. Over rows: operand words do not change the lengths of the instructions in a row, and encoding the cells of a row
gives back word 0 of each cell and the operand words that cell takes. Decoding after encoding goes the other way, one instruction at a time. -/

namespace Sys2Proof

/-! ### Cells of the opcode map -/

/-- The cell of the opcode map that word 0 names, from the two bytes of word 0 (R100, R102). -/
def opcodeCell (op b : Byte) (w1 w2 : Word) : Option Instr :=
  if op = 0x17#8 then ((page17Row (hiNib b).toNat w1)[(loNib b).toNat]?).join
  else if op = 0x27#8 then ((page27Row (hiNib b).toNat w1 w2)[(loNib b).toNat]?).join
  else if op = 0x37#8 then ((page37Row (hiNib b).toNat w1 w2)[(loNib b).toNat]?).join
  else ((page0Row (hiNib op).toNat b w1 w2)[(loNib op).toNat]?).join

theorem decodeOp_eq (w0 w1 w2 : Word) : decodeOp w0 w1 w2 = opcodeCell (hiByte w0) (loByte w0) w1 w2 := rfl

theorem decodeOp_wordOf (op b : Byte) (w1 w2 : Word) : decodeOp (wordOf op b) w1 w2 = opcodeCell op b w1 w2 := by
  rw [decodeOp_eq, hiByte_wordOf, loByte_wordOf]

/-! ### The first word tells the length (R101) -/

/-- The lengths of the instructions in a row. -/
def rowLengths (row : List (Option Instr)) : List (Option Nat) := row.map (Option.map Instr.length)

theorem page0Row_lengths (hi : Nat) (b : Byte) (w1 w2 v1 v2 : Word) : rowLengths (page0Row hi b w1 w2) = rowLengths (page0Row hi b v1 v2) := by
  unfold page0Row
  split <;> rfl

theorem page17Row_lengths (hi : Nat) (w1 v1 : Word) : rowLengths (page17Row hi w1) = rowLengths (page17Row hi v1) := by
  unfold page17Row
  split <;> rfl

theorem page27Row_lengths (hi : Nat) (w1 w2 v1 v2 : Word) : rowLengths (page27Row hi w1 w2) = rowLengths (page27Row hi v1 v2) := by
  unfold page27Row
  split <;> rfl

theorem page37Row_lengths (hi : Nat) (w1 w2 v1 v2 : Word) : rowLengths (page37Row hi w1 w2) = rowLengths (page37Row hi v1 v2) := by
  unfold page37Row
  split <;> rfl

theorem cell_length (row : List (Option Instr)) (lo : Nat) : (row[lo]?.join).map Instr.length = ((rowLengths row)[lo]?).join := by
  rw [rowLengths, List.getElem?_map]
  rcases row[lo]? with _ | _ | i <;> rfl

theorem decodeOp_length (w0 w1 w2 v1 v2 : Word) : (decodeOp w0 w1 w2).map Instr.length = (decodeOp w0 v1 v2).map Instr.length := by
  simp only [decodeOp_eq, opcodeCell]
  split_ifs
  · rw [cell_length, cell_length, page17Row_lengths _ w1 v1]
  · rw [cell_length, cell_length, page27Row_lengths _ w1 w2 v1 v2]
  · rw [cell_length, cell_length, page37Row_lengths _ w1 w2 v1 v2]
  · rw [cell_length, cell_length, page0Row_lengths _ _ w1 w2 v1 v2]

theorem decodeOp_first {w0 w1 w2 : Word} {i : Instr} (h : decodeOp w0 w1 w2 = some i) : ∃ j, decodeOp w0 0 0 = some j ∧ j.length = i.length := by
  have e := decodeOp_length w0 0 0 w1 w2
  rw [h] at e
  exact Option.map_eq_some_iff.mp e

theorem length_of_decodeOp {w0 w1 w2 : Word} {i j : Instr} (hj : decodeOp w0 0 0 = some j) (hi : decodeOp w0 w1 w2 = some i) :
    i.length = j.length := by
  simpa only [hi, hj, Option.map_some, Option.some.injEq] using decodeOp_length w0 w1 w2 0 0

/-! ### Decoding what was encoded -/

/-- `ws` are the words of `i`, whatever follows them. -/
def Decodes (ws : List Word) (i : Instr) : Prop := ∀ rest, decodeWords (ws ++ rest) = .ok (i, rest)

section
variable {op b : Byte} {w1 w2 : Word} {i : Instr}

theorem decodes_one (hl : i.length = 2) (h : opcodeCell op b 0 0 = some i) : Decodes [wordOf op b] i := by
  intro rest
  rw [← decodeOp_wordOf] at h
  simp only [List.cons_append, List.nil_append, decodeWords, h, hl]

theorem decodes_two (hl : i.length = 4) (h : opcodeCell op b w1 0 = some i) : Decodes [wordOf op b, w1] i := by
  intro rest
  rw [← decodeOp_wordOf] at h
  obtain ⟨j, hj, hjl⟩ := decodeOp_first h
  simp only [List.cons_append, List.nil_append, decodeWords, hj, hjl, hl, h]

theorem decodes_three (hl : i.length = 6) (h : opcodeCell op b w1 w2 = some i) : Decodes [wordOf op b, w1, w2] i := by
  intro rest
  rw [← decodeOp_wordOf] at h
  obtain ⟨j, hj, hjl⟩ := decodeOp_first h
  simp only [List.cons_append, List.nil_append, decodeWords, hj, hjl, hl, h]

end

/-- Two nibbles packed in a byte come back (R108, R109). -/
theorem unpack_nibs {o : Option Instr} {c : Nib → Nib → Instr} (x y : Nib) (h : o = some (c (hiNib (x ++ y)) (loNib (x ++ y)))) : o = some (c x y) := by
  rwa [hiNib_append, loNib_append] at h

/-- Two bytes packed in an operand word come back (R107). -/
theorem unpack_bytes {o : Option Instr} {c : Byte → Byte → Instr} (x y : Byte) (h : o = some (c (hiByte (wordOf x y)) (loByte (wordOf x y)))) :
    o = some (c x y) := by
  rwa [hiByte_wordOf, loByte_wordOf] at h

/-- Each encoding names the cell its instruction stands in: by constructor and addressing mode, the index register giving the row. -/
theorem decodes_encode (i : Instr) : Decodes (encode i) i := by
  cases i with
  | ldaa o | ldab o | adca o | adcb o | adda o | addb o | sbca o | sbcb o | suba o | subb o | cmpa o | cmpb o | anda o | andb o | eora o | eorb o
  | oraa o | orab o | bita o | bitb o =>
    rcases o with ii | ⟨r, ff⟩ | ⟨r, g⟩ | a | r
    · exact decodes_one rfl rfl
    · cases r <;> exact decodes_one rfl rfl
    · cases r <;> exact decodes_two rfl rfl
    · exact decodes_two rfl rfl
    · cases r <;> exact decodes_one rfl rfl
  | ldd o | adcd o | sbcd o | subd o | cpd o | andd o | eord o | ord o =>
    rcases o with w | ⟨r, ff⟩ | ⟨r, g⟩ | a | r
    · exact decodes_two rfl rfl
    · cases r <;> exact decodes_one rfl rfl
    · cases r <;> exact decodes_two rfl rfl
    · exact decodes_two rfl rfl
    · cases r <;> exact decodes_one rfl rfl
  | addd o =>
    rcases o with ii | w | ⟨r, ff⟩ | ⟨r, g⟩ | a | r
    · exact decodes_one rfl rfl
    · exact decodes_two rfl rfl
    · cases r <;> exact decodes_one rfl rfl
    · cases r <;> exact decodes_two rfl rfl
    · exact decodes_two rfl rfl
    · cases r <;> exact decodes_one rfl rfl
  | lde o | adce o | sbce o | sube o | cpe o | ande o | eore o | ore o =>
    rcases o with w | ⟨r, g⟩ | a
    · exact decodes_two rfl rfl
    · cases r <;> exact decodes_two rfl rfl
    · exact decodes_two rfl rfl
  | adde o =>
    rcases o with ii | w | ⟨r, g⟩ | a
    · exact decodes_one rfl rfl
    · exact decodes_two rfl rfl
    · cases r <;> exact decodes_two rfl rfl
    · exact decodes_two rfl rfl
  | cpx o | cpy o | cpz o | cps o | ldx o | ldy o | ldz o | lds o =>
    rcases o with w | ⟨r, ff⟩ | ⟨r, g⟩ | a
    · exact decodes_two rfl rfl
    · cases r <;> exact decodes_one rfl rfl
    · cases r <;> exact decodes_two rfl rfl
    · exact decodes_two rfl rfl
  | aix o | aiy o | aiz o | ais o =>
    cases o with
    | imm8 ii => exact decodes_one rfl rfl
    | imm16 w => exact decodes_two rfl rfl
  | staa m | stab m | std m =>
    rcases m with ⟨r, ff⟩ | ⟨r, g⟩ | a | r
    · cases r <;> exact decodes_one rfl rfl
    · cases r <;> exact decodes_two rfl rfl
    · exact decodes_two rfl rfl
    · cases r <;> exact decodes_one rfl rfl
  | stx m | sty m | stz m | sts m | tst m | dec m | inc m | clr m | com m | neg m | lsr m | asl m | asr m | rol m | ror m =>
    rcases m with ⟨r, ff⟩ | ⟨r, g⟩ | a
    · cases r <;> exact decodes_one rfl rfl
    · cases r <;> exact decodes_two rfl rfl
    · exact decodes_two rfl rfl
  | ste m | tstw m | decw m | incw m | clrw m | comw m | negw m | lsrw m | aslw m | asrw m | rolw m | rorw m =>
    rcases m with ⟨r, g⟩ | a
    · cases r <;> exact decodes_two rfl rfl
    · exact decodes_two rfl rfl
  | bclrw mmmm m | bsetw mmmm m =>
    rcases m with ⟨r, g⟩ | a
    · cases r <;> exact decodes_three rfl rfl
    · exact decodes_three rfl rfl
  | bclr mm m | bset mm m =>
    rcases m with ⟨r, ff⟩ | ⟨r, g⟩ | a
    · cases r <;> exact decodes_two rfl (by apply unpack_bytes mm ff; rfl)
    · cases r <;> exact decodes_two rfl rfl
    · exact decodes_two rfl rfl
  | brclr mm o | brset mm o =>
    rcases o with ⟨r, ff, rr⟩ | ⟨r, g, rrrr⟩ | ⟨a, rrrr⟩
    · cases r <;> exact decodes_two rfl (by apply unpack_bytes ff rr; rfl)
    · cases r <;> exact decodes_three rfl rfl
    · exact decodes_three rfl rfl
  | jmp t | jsr t =>
    rcases t with ⟨z, b, a⟩ | ⟨r, z, b, g⟩
    · exact decodes_two rfl (by apply unpack_nibs z b; rfl)
    · cases r <;> exact decodes_two rfl (by apply unpack_nibs z b; rfl)
  | movb o | movw o =>
    rcases o with ⟨ff, a⟩ | ⟨ff, a⟩ | ⟨a, a'⟩
    · exact decodes_two rfl rfl
    · exact decodes_two rfl rfl
    · exact decodes_three rfl rfl
  | mac xo yo | rmac xo yo => exact decodes_one rfl (by apply unpack_nibs xo yo; rfl)
  | lded w | sted w | andp w | orp w | lbra w | lbrn w | lbcc w | lbcs w | lbeq w | lbev w | lbmi w | lbmv w | lbne w | lbpl w | lbvc w | lbvs w
  | lbhi w | lbls w | lbge w | lbgt w | lble w | lblt w | lbsr w => exact decodes_two rfl rfl
  -- the short branches, BSR, PSHM, PULM and the inherent instructions
  | _ => exact decodes_one rfl rfl

/-- Settles O1: bytes in memory order are the words again, and `decodes_encode` says what they decode to. -/
theorem decodingUndoesEncoding : Obligations.DecodingUndoesEncoding := by
  unfold Obligations.DecodingUndoesEncoding
  intro i rest
  rw [decodeBytes, encodeBytes, ← bytesOfWords_append, wordsOfBytes_bytesOfWords]
  exact decodes_encode i rest

/-! ### Encoding what was decoded -/

/-- The opcode of a cell, from its row and its column (R102). -/
def opcodeAt (hi lo : Nat) : Byte := BitVec.ofNat 4 hi ++ BitVec.ofNat 4 lo

theorem opcodeAt_nibs (op : Byte) : opcodeAt (hiNib op).toNat (loNib op).toNat = op := by
  rw [opcodeAt, BitVec.ofNat_toNat, BitVec.ofNat_toNat, BitVec.setWidth_eq, BitVec.setWidth_eq, nibs_append]

/-- The first `n` bytes of three words, where that is a length an instruction has (R101). -/
def leadingWords (n : Nat) (w0 w1 w2 : Word) : Option (List Word) :=
  match n with
  | 2 => some [w0]
  | 4 => some [w0, w1]
  | 6 => some [w0, w1, w2]
  | _ => none

/-- The words of the cells of a row from column `lo` on: word 0 of each cell, and the operand words its instruction takes. -/
def rowWords (word0 : Nat → Word) (w1 w2 : Word) : Nat → List (Option Instr) → List (Option (List Word))
  | _, [] => []
  | lo, c :: row => (c.bind fun i => leadingWords i.length (word0 lo) w1 w2) :: rowWords word0 w1 w2 (lo + 1) row

theorem rowWords_getElem? (word0 : Nat → Word) (w1 w2 : Word) (first : Nat) (row : List (Option Instr)) (n : Nat) :
    (rowWords word0 w1 w2 first row)[n]? = row[n]?.map fun c => c.bind fun i => leadingWords i.length (word0 (first + n)) w1 w2 := by
  induction row generalizing first n with
  | nil => rfl
  | cons c row ih =>
    cases n with
    | zero => rfl
    | succ n =>
      have hn : first + 1 + n = first + (n + 1) := by omega
      simpa only [rowWords, List.getElem?_cons_succ, hn] using ih (first + 1) n

/-- The instruction of each cell is encoded as that cell's words. -/
def RowEncoded (word0 : Nat → Word) (w1 w2 : Word) (row : List (Option Instr)) : Prop :=
  row.map (Option.map encode) = rowWords word0 w1 w2 0 row

theorem RowEncoded.cell {word0 : Nat → Word} {w1 w2 : Word} {row : List (Option Instr)} (h : RowEncoded word0 w1 w2 row) {lo : Nat} {i : Instr}
    (hi : row[lo]?.join = some i) : leadingWords i.length (word0 lo) w1 w2 = some (encode i) := by
  have hc : row[lo]? = some (some i) := Option.join_eq_some_iff.mp hi
  have e := congrArg (fun l => l[lo]?) h
  simpa [rowWords_getElem?, hc] using e.symm

section
variable {hi : Nat} (h : hi < 16)
include h

/-- The nibbles of `b` and the bytes of `w1` are taken as values of their own, of which `b` and `w1` are made. -/
theorem page0Row_encoded (b : Byte) (w1 w2 : Word) : RowEncoded (fun lo => wordOf (opcodeAt hi lo) b) w1 w2 (page0Row hi b w1 w2) := by
  have hb := nibs_append b
  have hw := wordOf_bytes w1
  unfold RowEncoded page0Row
  generalize hiNib b = z, loNib b = y at hb ⊢
  generalize hiByte w1 = p, loByte w1 = q at hw ⊢
  subst hb hw
  interval_cases hi <;> rfl

theorem page17Row_encoded (w1 w2 : Word) : RowEncoded (fun lo => wordOf 0x17#8 (opcodeAt hi lo)) w1 w2 (page17Row hi w1) := by
  have hw := wordOf_bytes w1
  unfold RowEncoded page17Row
  generalize hiByte w1 = p, loByte w1 = q at hw ⊢
  subst hw
  interval_cases hi <;> rfl

theorem page27Row_encoded (w1 w2 : Word) : RowEncoded (fun lo => wordOf 0x27#8 (opcodeAt hi lo)) w1 w2 (page27Row hi w1 w2) := by
  unfold RowEncoded
  interval_cases hi <;> rfl

theorem page37Row_encoded (w1 w2 : Word) : RowEncoded (fun lo => wordOf 0x37#8 (opcodeAt hi lo)) w1 w2 (page37Row hi w1 w2) := by
  unfold RowEncoded
  interval_cases hi <;> rfl

end

theorem encode_of_opcodeCell {op b : Byte} {w1 w2 : Word} {i : Instr} (h : opcodeCell op b w1 w2 = some i) :
    leadingWords i.length (wordOf op b) w1 w2 = some (encode i) := by
  unfold opcodeCell at h
  split_ifs at h with h17 h27 h37
  · simpa only [opcodeAt_nibs, h17] using (page17Row_encoded (hiNib b).isLt w1 w2).cell h
  · simpa only [opcodeAt_nibs, h27] using (page27Row_encoded (hiNib b).isLt w1 w2).cell h
  · simpa only [opcodeAt_nibs, h37] using (page37Row_encoded (hiNib b).isLt w1 w2).cell h
  · simpa only [opcodeAt_nibs] using (page0Row_encoded (hiNib op).isLt b w1 w2).cell h

theorem encode_of_decodeOp {w0 w1 w2 : Word} {i : Instr} (h : decodeOp w0 w1 w2 = some i) : leadingWords i.length w0 w1 w2 = some (encode i) := by
  rw [decodeOp_eq] at h
  simpa only [wordOf_bytes] using encode_of_opcodeCell h

/-- What the decoder read is three words, of which it took as many as the instruction is long; those it did not take may be missing. -/
theorem decodeWords_ok {ws rest : List Word} {i : Instr} (h : decodeWords ws = .ok (i, rest)) :
    ∃ w0 w1 w2 taken, decodeOp w0 w1 w2 = some i ∧ leadingWords i.length w0 w1 w2 = some taken ∧ ws = taken ++ rest := by
  cases ws with
  | nil => cases h
  | cons w0 tail =>
    cases hj : decodeOp w0 0 0 with
    | none => simp only [decodeWords, hj, reduceCtorEq] at h
    | some j =>
      simp only [decodeWords, hj] at h
      split at h
      next hl =>
        cases h
        exact ⟨w0, 0, 0, [w0], hj, by rw [hl]; rfl, rfl⟩
      next w1 tail hl =>
        split at h
        next k hk =>
          cases h
          exact ⟨w0, w1, 0, [w0, w1], hk, by rw [length_of_decodeOp hj hk, hl]; rfl, rfl⟩
        next => cases h
      next w1 w2 tail hl =>
        split at h
        next k hk =>
          cases h
          exact ⟨w0, w1, w2, [w0, w1, w2], hk, by rw [length_of_decodeOp hj hk, hl]; rfl, rfl⟩
        next => cases h
      next => cases h

/-- Settles O2: the words taken are the encoding of what was read. -/
theorem encodingUndoesDecoding : Obligations.EncodingUndoesDecoding := by
  unfold Obligations.EncodingUndoesDecoding
  intro ws i rest h
  obtain ⟨w0, w1, w2, taken, hd, ht, rfl⟩ := decodeWords_ok h
  rw [encode_of_decodeOp hd] at ht
  cases ht
  rfl

/-- Settles O3: each word is looked up in its row. -/
theorem wordsOfTheSpecDecode : Obligations.WordsOfTheSpecDecode := by
  unfold Obligations.WordsOfTheSpecDecode
  exact ⟨rfl, rfl, rfl, rfl, rfl, rfl, rfl, rfl, rfl, rfl, rfl, rfl, rfl, rfl, rfl, rfl⟩

end Sys2Proof

namespace Sys2Proof.Machine

/-! ### A word no instruction begins with -/

/-- Settles O17: the fetch finds no instruction in its first word, and the exception is entered from the state the instruction would have begun in. -/
theorem unassignedOpcodeTraps : Obligations.UnassignedOpcodeTraps := by
  unfold Obligations.UnassignedOpcodeTraps
  intro s ha hr hd hp hv
  have hpc : s.begun.pc = s.pc := by rw [begun_eq]
  have hr' : s.begun.canRead16 .prog s.begun.pc = true := by rw [begun_eq]; exact hr
  have hp' : s.begun.canPushFrame = true := by rw [begun_eq]; exact hp
  have hv' : s.begun.canRead16 .data (vectorAddr s.begun.plat.vecIllegal) = true := by rw [vectorAddr_eq, begun_eq]; exact hv
  have hf : fetch s.begun = .ok none s.begun := fetch_unassigned s.begun hr' (hpc.symm ▸ hd)
  have hstep : step s = enterException true s.begun s.begun.plat.vecIllegal (s.begun.pc + 2#20) none := by rw [step_atInstruction s ha, hf]; rfl
  obtain ⟨t, ht, he⟩ := enterException_ready true s.begun s.begun.plat.vecIllegal (s.begun.pc + 2#20) none hp' hv'
  refine ⟨t, hstep.trans ht, ?_⟩
  have hresume : s.begun.pc + 2#20 = s.pcPlus 2 := by rw [hpc]; exact pcPlus_eq s 2
  have hplat : s.begun.plat = s.plat := by rw [begun_eq]
  have hccr : s.begun.ccr = s.ccr := by rw [begun_eq]
  rwa [hresume, hplat, Option.getD_none, hccr] at he

end Sys2Proof.Machine

/-! ## Moves, jumps, calls and the byte stack -/

namespace Sys2Proof.Machine

/-! ### MOVB and MOVW -/

/-- The IXP forms move XK : IX by the signed offset (R151). -/
theorem movePost_ixp (s : State) (ff : Byte) (p : Word) :
    movePost s (.ixpToExt ff p) = s.withX20 (BitVec.ofInt 20 (s.x20.toNat + ff.toInt)) ∧
      movePost s (.extToIxp ff p) = s.withX20 (BitVec.ofInt 20 (s.x20.toNat + ff.toInt)) := by
  rw [← add_signExtend s.x20 ff (by decide)]
  exact ⟨rfl, rfl⟩

/-- After the store a move writes XK : IX, the flags and the program counter, none of them read from memory. -/
theorem movePost_finish (s : State) (o : Move) (m : Memory) (c : CCR) :
    ((movePost { s with mem := m } o).withCCR c).advance o.length =
      { movePost s o with mem := m, ccr := c, pc := s.pcPlus o.length } := by
  rw [advance_eq]
  cases o <;> rfl

/-- MOVB in any form, from plain memory to RAM (R206). -/
theorem movb_moves (s : State) (o : Move) (hr : s.canRead8 .data (moveAddrs s o).1 = true) (hw : s.canWrite8 (moveAddrs s o).2 = true) :
    ∃ t, exec (.movb o) s = .next t ∧ wroteBytes s t [((moveAddrs s o).2, s.byteAt .data (moveAddrs s o).1)] ∧
      t = { movePost s o with mem := t.mem, ccr := withNZV s.ccr (s.byteAt .data (moveAddrs s o).1), pc := s.pcPlus o.length } := by
  refine ⟨_, (moveByte_ready s _ _ (movePost · o) o.length hr hw).trans (next_advance (movePost_finish s o _ _)), ?_, ?_⟩
  · exact wroteBytes_congr rfl rfl (wroteBytes_putByte s _ _)
  · rw [flagsNZV_eq]

/-- MOVW in any form, from plain memory to RAM (R207). -/
theorem movw_moves (s : State) (o : Move) (hr : s.canRead16 .data (moveAddrs s o).1 = true) (hw : s.canWrite16 (moveAddrs s o).2 = true) :
    ∃ t, exec (.movw o) s = .next t ∧ wroteWords s t [((moveAddrs s o).2, s.wordAt .data (moveAddrs s o).1)] ∧
      t = { movePost s o with mem := t.mem, ccr := withNZV s.ccr (s.wordAt .data (moveAddrs s o).1), pc := s.pcPlus o.length } := by
  refine ⟨_, (moveWord_ready s _ _ (movePost · o) o.length hr hw).trans (next_advance (movePost_finish s o _ _)), ?_, ?_⟩
  · exact wroteWords_congr rfl rfl (wroteWords_putWord s _ _)
  · rw [flagsNZV_eq]

/-- Settles O28: each form is `movb_moves` or `movw_moves` at its addresses. -/
theorem moves : Obligations.Moves := by
  unfold Obligations.Moves
  intro s ff p q
  obtain ⟨hfrom, hto⟩ := movePost_ixp s ff p
  dsimp only
  refine ⟨fun hr hw => ?_, fun hr hw => ?_, fun hr hw => ?_, fun hr hw => ?_, fun hr hw => ?_, fun hr hw => ?_⟩
  · rw [← hfrom]
    exact movb_moves s (.ixpToExt ff p) hr hw
  · rw [← hto]
    exact movb_moves s (.extToIxp ff p) hr hw
  · obtain ⟨t, ht, hm, he⟩ := movb_moves s (.extToExt p q) hr hw
    exact ⟨t, ht, he, hm⟩
  · rw [← hfrom]
    exact movw_moves s (.ixpToExt ff p) hr hw
  · rw [← hto]
    exact movw_moves s (.extToIxp ff p) hr hw
  · obtain ⟨t, ht, hm, he⟩ := movw_moves s (.extToExt p q) hr hw
    exact ⟨t, ht, he, hm⟩

/-! ### JMP, JSR, LBSR and BSR -/

/-- An offset of twenty bits, its bank and its word joined, is added to the index register with its field (R149). -/
theorem eaJump_ind20_toNat (s : State) (r : Idx) (z b : Nib) (g : Word) :
    (eaJump s (.ind20 r z b g)).toNat = ((s.idx20 r).toNat + b.toNat * 65536 + g.toNat) % 2 ^ 20 := by
  rw [eaJump, BitVec.toNat_add, toNat_join, Nat.add_assoc]
  rfl

/-- The target of a short offset from `n` bytes past the instruction; `relative_eq` is this at 6. -/
theorem evenAddr_offset (s : State) (n : Nat) (x : Byte) :
    evenAddr (s.pc + BitVec.ofNat 20 n + x.signExtend 20) = BitVec.ofInt 20 ((s.pc.toNat + n + x.toInt) / 2 * 2) := by
  have h : s.pc + BitVec.ofNat 20 n + x.signExtend 20 = BitVec.ofInt 20 (s.pc.toNat + n + x.toInt) := by
    rw [BitVec.add_assoc, BitVec.add_comm (BitVec.ofNat 20 n), ← BitVec.add_assoc, add_signExtend s.pc x (by decide), ← BitVec.ofInt_natCast,
      ← BitVec.ofInt_add, Int.add_right_comm]
  rw [evenAddr_eq, h, roundedDown_ofInt]

/-- An instruction that is a call stacks the frame of its return value and goes to its target (R446). -/
theorem stacks_and_jumps_of_call {i : Instr} {s : State} {ret target : Addr} (he : exec i s = call s ret target) (h : s.canPushFrame = true) :
    ∃ t, exec i s = .next t ∧ wroteWords s t (s.frameOf ret) ∧
      t = { s with mem := t.mem, sk := (s.sp20 - 4#20).extractLsb' 16 4, sp := (s.sp20 - 4#20).extractLsb' 0 16, pc := evenAddr target } := by
  obtain ⟨hw, hf⟩ := framed_spec s ret
  exact ⟨_, he.trans (call_ready s ret target h), wroteWords_congr rfl rfl hw, congrArg (State.jump · target) hf⟩

/-- Settles O45: the three calls are `call` with their return values and targets. -/
theorem jumpsAndCalls : Obligations.JumpsAndCalls := by
  unfold Obligations.JumpsAndCalls
  intro s
  have hpcx : s.pcx = s.pcPlus 6 := pcPlus_eq s 6
  refine ⟨fun r b g => eaJump_ind20_toNat s r 0#4 b g, fun j hj => ?_, fun hp => ⟨fun j hj => ?_, fun rrrr => ?_, fun rr => ?_⟩⟩
  · have e : exec (.jmp j) s = .next (s.jump (eaJump s j)) := if_pos hj
    rw [e, State.jump, evenAddr_eq]
  · rw [← evenAddr_eq, ← hpcx]
    exact stacks_and_jumps_of_call (if_pos hj) hp
  · rw [← relative_eq s rrrr (by decide), ← hpcx]
    exact stacks_and_jumps_of_call rfl hp
  · have ht : evenAddr (s.pc + (if s.plat.bsrBaseSix then 6#20 else 4#20) + rr.signExtend 20) =
        BitVec.ofInt 20 ((s.pc.toNat + (if s.plat.bsrBaseSix = true then 6 else 4) + rr.toInt) / 2 * 2) := by
      cases s.plat.bsrBaseSix with
      | true => exact evenAddr_offset s 6 rr
      | false => exact evenAddr_offset s 4 rr
    rw [← ht, ← pcPlus_eq s 4]
    exact stacks_and_jumps_of_call rfl hp

/-! ### PSHA, PSHB, PULA and PULB -/

/-- A byte push stores one above SK : SP and leaves it one lower (R162). -/
theorem push8_stores (s : State) (v : Byte) (h : s.canWrite8 (s.sp20 + 1#20) = true) :
    push8 s v = .ok () ((s.putByte (s.sp20 + 1#20) v).withSP20 (s.sp20 - 1#20)) := by
  have e : s.sp20 + 1#20 - 2#20 = s.sp20 - 1#20 := by bv_omega
  rw [push8_ready s v h, e]
  rfl

/-- A byte pull reads two above SK : SP and leaves it one higher (R163). -/
theorem pull8_loads (s : State) (h : s.canRead8 .data (s.sp20 + 2#20) = true) :
    pull8 s = .ok (s.byteAt .data (s.sp20 + 2#20)) (s.withSP20 (s.sp20 + 1#20)) := by
  have e : s.sp20 + 2#20 - 1#20 = s.sp20 + 1#20 := by bv_omega
  rw [pull8_ready s h, e]
  rfl

/-- An instruction that is one byte push. -/
theorem pushByte_stores (s : State) (v : Byte) (h : s.canWrite8 (s.sp20 + 1#20) = true) :
    ∃ t, commit ((push8 s v).bind fun _ s => .ok () (s.advance 2)) = .next t ∧
      t = { s.withSP20 (s.sp20 - 1#20) with mem := t.mem, pc := s.pcPlus 2 } ∧ wroteBytes s t [(s.sp20 + 1#20, v)] := by
  rw [push8_stores s v h, Bus.bind_ok]
  exact ⟨_, rfl, advance_eq _ 2, wroteBytes_congr rfl rfl (wroteBytes_putByte s _ v)⟩

/-- Settles O49: the pushes are `push8`, the pulls `pull8`. -/
theorem byteStackInstructions : Obligations.ByteStackInstructions := by
  unfold Obligations.ByteStackInstructions
  intro s
  refine ⟨fun h => ⟨pushByte_stores s s.a h, pushByte_stores s s.b h⟩, fun h => ⟨?_, ?_⟩⟩
  · show execPula s = _
    rw [execPula, pull8_loads s h]
    exact next_advance (advance_eq _ 2)
  · show execPulb s = _
    rw [execPulb, pull8_loads s h]
    exact next_advance (advance_eq _ 2)

end Sys2Proof.Machine

/-! ## Loads, stores, transfers and exchanges -/

namespace Sys2Proof.Machine

/-! ### LDAA to LDED -/

/-- LDED reads the word for E first; writing E does not change what the second read finds (R205). -/
theorem lded_ready (s : State) (hhll : Word) (he : s.canRead16 .data (eaExt s hhll) = true) (hd : s.canRead16 .data (eaExt s hhll + 2#20) = true) :
    exec (.lded hhll) s =
      .next { s.withD (s.wordAt .data (eaExt s hhll + 2#20)) with e := s.wordAt .data (eaExt s hhll), pc := s.pcPlus 4 } := by
  have hd' : ({ s with e := s.wordAt .data (eaExt s hhll) } : State).canRead16 .data (eaExt s hhll + 2#20) = true := hd
  show execLded hhll s = _
  rw [execLded, read16_ready s .data _ he, Bus.bind_ok, read16_ready _ .data _ hd', Bus.bind_ok]
  exact next_advance (advance_eq _ 4)

/-- Settles O26: each load is its operand put into one register; LDED is `lded_ready`. -/
theorem loads : Obligations.Loads := by
  unfold Obligations.Loads
  simp only [← flagsNZV_eq]
  intro s
  exact ⟨fun o h => useOperand_next (operand8_ready s o h) (putA_advance ..), fun o h => useOperand_next (operand8_ready s o h) (putB_advance ..),
    fun o h => useOperand_next (operandD_ready s o h) (putD_advance ..), fun o h => useOperand_next (operandE_ready s o h) (putE_advance ..),
    fun o h => useOperand_next (operandX_ready s o h) (advance_eq ..), fun o h => useOperand_next (operandX_ready s o h) (advance_eq ..),
    fun o h => useOperand_next (operandX_ready s o h) (advance_eq ..), fun o h => useOperand_next (operandX_ready s o h) (advance_eq ..),
    lded_ready s⟩

/-! ### STAA to STED -/

/-- One word more is stored, sharing no byte with those stored before. -/
theorem wroteWords_snoc {s t : State} {l : List (Addr × Word)} (a : Addr) (v : Word) (h : wroteWords s t l)
    (apart : ∀ p ∈ l, p.1 ≠ a ∧ p.1 ≠ a + 1#20 ∧ p.1 + 1#20 ≠ a ∧ p.1 + 1#20 ≠ a + 1#20) : wroteWords s (t.putWord a v) (l ++ [(a, v)]) := by
  obtain ⟨stand, rest⟩ := h
  refine ⟨fun p hp => ?_, fun k hk => ?_⟩
  · rcases List.mem_append.mp hp with hp | hp
    · obtain ⟨h1, h2, h3, h4⟩ := apart p hp
      rw [State.putWord_wordAt_other t a p.1 v h1 h2 h3 h4, stand p hp]
    · obtain rfl := List.mem_singleton.mp hp
      exact State.putWord_wordAt t a v
  · obtain ⟨k0, k1⟩ := hk (a, v) (List.mem_append_right _ (List.mem_singleton_self _))
    rw [State.putWord_get t a v k k0 k1, rest k fun p hp => hk p (List.mem_append_left _ hp)]

/-- STED stores E, then D two bytes further; the words are apart even where the addresses wrap (R212). -/
theorem sted_ready (s : State) (hhll : Word) (he : s.canWrite16 (eaExt s hhll) = true) (hd : s.canWrite16 (eaExt s hhll + 2#20) = true) :
    ∃ t, exec (.sted hhll) s = .next t ∧ t = { s with mem := t.mem, pc := s.pcPlus 4 } ∧
      wroteWords s t [(eaExt s hhll, s.e), (eaExt s hhll + 2#20, s.d)] := by
  generalize ha : eaExt s hhll = a at he hd
  have ha' : eaExt (s.putWord a s.e) hhll = a := ha
  have hd' : (s.putWord a s.e).canWrite16 (a + 2#20) = true := hd
  have hrun : exec (.sted hhll) s = .next (((s.putWord a s.e).putWord (a + 2#20) s.d).advance 4) := by
    show execSted hhll s = _
    rw [execSted, ha, write16_ready true s a _ he, Bus.bind_ok, ha', write16_ready true _ _ _ hd', Bus.bind_ok]
    rfl
  have apart := word_apart (a + 2#20)
  rw [BitVec.add_sub_cancel] at apart
  have stored := wroteWords_snoc (a + 2#20) s.d (wroteWords_putWord s a s.e) (List.forall_mem_singleton.mpr apart)
  exact ⟨_, hrun, by simp only [advance_eq, State.putWord, State.putByte, State.pcPlus], wroteWords_congr rfl rfl stored⟩

/-- Settles O27: each store is `storeByte` or `storeWord` at its address; STED is `sted_ready`. -/
theorem stores : Obligations.Stores := by
  unfold Obligations.Stores
  simp only [← flagsNZV_eq]
  intro s
  refine ⟨fun m => ⟨fun h => ⟨?_, ?_⟩, fun h => ?_⟩, fun m h => ?_, fun m h => ⟨?_, ?_, ?_, ?_⟩, sted_ready s⟩
  · exact storesByte_of (storeByte_ready s _ s.a _ h)
  · exact storesByte_of (storeByte_ready s _ s.b _ h)
  · exact storesWord_of (storeWord_ready s _ s.d _ h)
  · exact storesWord_of (storeWord_ready s _ s.e _ h)
  · exact storesWord_of (storeWord_ready s _ s.ix _ h)
  · exact storesWord_of (storeWord_ready s _ s.iy _ h)
  · exact storesWord_of (storeWord_ready s _ s.iz _ h)
  · exact storesWord_of (storeWord_ready s _ s.sp _ h)

/-! ### Transfers and exchanges -/

/-- Settles O29: each is one register update and two bytes further; only the four transfers compute flags. -/
theorem transfersAndExchanges : Obligations.TransfersAndExchanges := by
  unfold Obligations.TransfersAndExchanges
  simp only [← flagsNZV_eq]
  intro s
  refine ⟨?tab, ?tba, ?tde, ?ted, ?xgab, ?xgde, ?xgdx, ?xgdy, ?xgdz, ?xgex, ?xgey, ?xgez⟩
  case tab => exact next_advance (putB_advance ..)
  case tba => exact next_advance (putA_advance ..)
  case tde => exact next_advance (putE_advance ..)
  case ted => exact next_advance (putD_advance ..)
  case xgab => exact next_advance (advance_eq { s with a := s.b, b := s.a } 2)
  case xgde => exact next_advance (advance_eq { s.withD s.e with e := s.d } 2)
  case xgdx => exact next_advance (advance_eq { s.withD s.ix with ix := s.d } 2)
  case xgdy => exact next_advance (advance_eq { s.withD s.iy with iy := s.d } 2)
  case xgdz => exact next_advance (advance_eq { s.withD s.iz with iz := s.d } 2)
  case xgex => exact next_advance (advance_eq { s with e := s.ix, ix := s.e } 2)
  case xgey => exact next_advance (advance_eq { s with e := s.iy, iy := s.e } 2)
  case xgez => exact next_advance (advance_eq { s with e := s.iz, iz := s.e } 2)

end Sys2Proof.Machine

/-! ## Arithmetic: compares, counts, decimal adjust, products, divisions and the traps -/

namespace Sys2Proof.Machine

/-! ### The traps of divisions and of BGND -/

/-- An exception of a one-word instruction resumes after it (R605, R622, R623). -/
theorem trap_entered (s : State) (n : Byte) (hp : s.canPushFrame = true) (hv : s.canRead16 .data (BitVec.ofNat 20 (2 * n.toNat)) = true) :
    ∃ t, enterException true s n (s.pc + 2#20) none = .next t ∧ Entered s t n (s.pcPlus 2) s.ccr.ip [] := by
  rw [← vectorAddr_eq] at hv
  rw [← pcPlus_eq]
  exact enterException_ready true s n (s.pc + 2#20) none hp hv

/-- Settles O21: each of the three is `trap_entered` with its vector. -/
theorem synchronousTraps : Obligations.SynchronousTraps := by
  unfold Obligations.SynchronousTraps
  intro s hp
  refine ⟨fun hz hv => ?_, fun hb hv => ?_⟩
  · have ediv : exec .ediv s = divideByZero s := if_pos hz
    have edivs : exec .edivs s = divideByZero s := if_pos hz
    rw [ediv, edivs]
    exact ⟨trap_entered s _ hp hv, trap_entered s _ hp hv⟩
  · have bgnd : exec .bgnd s = illegalInstruction s := if_neg (by rw [hb]; decide)
    rw [bgnd]
    exact trap_entered s _ hp hv

/-! ### ABA and ADCA as printed -/

/-- The condition codes of an 8-bit addition in the numbers of the glossary pages (R231, R232). -/
theorem added8_flags_printed (c : CCR) (x y : Byte) (ci : Bool) :
    (added8 c x y ci).2 =
      { c with
        h := decide (16 ≤ x.toNat % 16 + y.toNat % 16 + ci.toNat)
        n := decide (128 ≤ (x.toNat + y.toNat + ci.toNat) % 256)
        z := decide ((x.toNat + y.toNat + ci.toNat) % 256 = 0)
        v := decide (x.toInt + y.toInt + ci.toNat < -128 ∨ 127 < x.toInt + y.toInt + ci.toNat)
        c := decide (256 ≤ x.toNat + y.toNat + ci.toNat) } := by
  have hn : ((BitVec.ofNat 8 (x.toNat + y.toNat + ci.toNat)).toInt < 0) ↔ 128 ≤ (x.toNat + y.toNat + ci.toNat) % 256 := by
    rw [BitVec.toInt_eq_toNat_cond, BitVec.toNat_ofNat]
    split <;> omega
  have hv : signedFits 8 (x.toInt + y.toInt + ci.toNat) = !decide (x.toInt + y.toInt + ci.toNat < -128 ∨ 127 < x.toInt + y.toInt + ci.toNat) := by
    rw [signedFits, ← Bool.decide_and, ← decide_not, decide_eq_decide]
    omega
  simp only [added8, added, withArith, withNZ, hn, hv, Bool.not_not, BitVec.toNat_ofNat, Nat.reducePow]

/-- Settles O30: the words are the encoder's, the results those of `additions`, the flags `added8_flags_printed`. -/
theorem glossaryPageInstructions : Obligations.GlossaryPageInstructions := by
  unfold Obligations.GlossaryPageInstructions
  refine ⟨⟨rfl, fun ff g => ⟨rfl, rfl, rfl, rfl, rfl, rfl, rfl, rfl, rfl, rfl, rfl⟩⟩, fun s => ?_⟩
  obtain ⟨aba, adca, -⟩ := additions s
  refine ⟨?_, fun o ho => ?_⟩
  · rw [aba, added8_flags_printed]
    rfl
  · rw [adca o ho, added8_flags_printed]
    rfl

/-! ### Compares and tests -/

theorem withCCR_advance (s : State) (c : CCR) (n : Nat) : (s.withCCR c).advance n = { s with ccr := c, pc := s.pcPlus n } := advance_eq _ n

/-- Settles O33: a test is the subtraction of 0, and every flag computation is `subtracted`. -/
theorem comparesAndTests : Obligations.ComparesAndTests := by
  unfold Obligations.ComparesAndTests
  simp only [← flagsTest_eq8, ← flagsTest_eq16]
  simp only [← subFlags8_eq, ← subFlags16_eq]
  intro s
  refine ⟨?cba, fun o h => ⟨?cmpa, ?cmpb⟩, fun o h => ?cpd, fun o h => ?cpe, fun o h => ⟨?cpx, ?cpy, ?cpz, ?cps⟩, ?tsta, ?tstb, ?tstd, ?tste,
    fun m h => ?tst, fun m h => ?tstw⟩
  case cba | tsta | tstb | tstd | tste => exact next_advance (withCCR_advance ..)
  case cmpa | cmpb => exact useOperand_next (operand8_ready s o h) (withCCR_advance ..)
  case cpd => exact useOperand_next (operandD_ready s o h) (withCCR_advance ..)
  case cpe => exact useOperand_next (operandE_ready s o h) (withCCR_advance ..)
  case cpx | cpy | cpz | cps => exact useOperand_next (operandX_ready s o h) (withCCR_advance ..)
  case tst => exact useOperand_next (read8_ready s .data _ h) (withCCR_advance ..)
  case tstw => exact useOperand_next (read16_ready s .data _ h) (withCCR_advance ..)

/-! ### Branches after a compare -/

/-- A short branch whose flags decide `p` goes where `p` says (R400). -/
theorem branch_next (s : State) (rr : Byte) {cond : Bool} {p : Prop} [Decidable p] (h : cond = decide p) :
    branch s cond (rr.signExtend 20) 2 = .next { s with pc := if p then s.relative rr.toInt else s.pcPlus 2 } := by
  subst h
  by_cases hp : p
  · simp only [branch, State.jump, relative_eq s rr (by decide), hp, decide_true, if_true]
  · simp only [branch, advance_eq, hp, decide_false, Bool.false_eq_true, if_false]

section order

variable (c : CCR) (x y : Byte)

/-- C after a compare is the unsigned order (R282). -/
theorem subtracted_c : (subtracted c x y false).2.c = decide (x.toNat < y.toNat) := rfl

/-- Z after a compare is equality. -/
theorem subtracted_z : (subtracted c x y false).2.z = decide (x = y) := by
  have hx := x.isLt
  have hy := y.isLt
  have h : (subtracted c x y false).2.z = decide ((subFlags c x y false).1.toNat = 0) := by rw [subFlags8_eq]; rfl
  rw [h, decide_eq_decide, subFlags, BitVec.toNat_ofInt, ← BitVec.toNat_inj, Bool.toNat_false]
  omega

/-- N xor V after a compare is the signed order. -/
theorem subtracted_n_xor_v : ((subtracted c x y false).2.n ^^ (subtracted c x y false).2.v) = decide (x.toInt < y.toInt) := by
  have hx := x.toInt_lt
  have hx' := x.le_toInt
  have hy := y.toInt_lt
  have hy' := y.le_toInt
  have hn : (subtracted c x y false).2.n = decide ((x.toInt - y.toInt).bmod 256 < 0) := by
    simp only [subtracted, withArith, withNZ, BitVec.toInt_ofInt, Bool.toNat_false, Int.natCast_zero, Int.sub_zero, Nat.reducePow]
  have hv : (subtracted c x y false).2.v = decide (x.toInt - y.toInt < -128 ∨ 128 ≤ x.toInt - y.toInt) := by
    simp only [subtracted, withArith, signedFits, Bool.toNat_false, Int.natCast_zero, Int.sub_zero, ← Bool.decide_and, ← decide_not, decide_eq_decide]
    omega
  rw [hn, hv, Int.bmod_def, Bool.eq_iff_iff, Bool.xor_iff_ne, ne_eq, decide_eq_decide, decide_eq_true_eq]
  split <;> omega

/-- Z or (N xor V) after a compare is the signed order with equality. -/
theorem subtracted_z_or_n_xor_v : condLe (subtracted c x y false).2 = decide (x.toInt ≤ y.toInt) := by
  rw [condLe, subtracted_z, subtracted_n_xor_v, ← Bool.decide_or, decide_eq_decide, ← BitVec.toInt_inj]
  omega

/-- C or Z after a compare is the unsigned order with equality. -/
theorem subtracted_c_or_z : condLs (subtracted c x y false).2 = decide (x.toNat ≤ y.toNat) := by
  rw [condLs, subtracted_c, subtracted_z, ← Bool.decide_or, decide_eq_decide, ← BitVec.toNat_inj]
  omega

end order

/-- Settles O34: the flags of CMPA are those of `subtracted`, and each branch condition is one of its orders or the negation of one. -/
theorem branchesAfterCompareDecideTheOrder : Obligations.BranchesAfterCompareDecideTheOrder := by
  unfold Obligations.BranchesAfterCompareDecideTheOrder
  intro s t o rr ho ht
  obtain ⟨-, cmp, -⟩ := comparesAndTests s
  have hccr : t.ccr = (subtracted s.ccr s.a (value8 s o) false).2 := by
    rw [(cmp o ho).1] at ht
    cases ht
    rfl
  have hc := hccr ▸ subtracted_c s.ccr s.a (value8 s o)
  have hz := hccr ▸ subtracted_z s.ccr s.a (value8 s o)
  have hlt : condLt t.ccr = _ := hccr ▸ subtracted_n_xor_v s.ccr s.a (value8 s o)
  have hle := hccr ▸ subtracted_z_or_n_xor_v s.ccr s.a (value8 s o)
  have hls := hccr ▸ subtracted_c_or_z s.ccr s.a (value8 s o)
  refine ⟨branch_next t rr ?bhi, branch_next t rr hls, branch_next t rr ?bcc, branch_next t rr hc, branch_next t rr ?bgt, branch_next t rr hle,
    branch_next t rr ?bge, branch_next t rr hlt, branch_next t rr hz, branch_next t rr ?bne⟩
  case bhi =>
    show (!condLs t.ccr) = _
    rw [hls, ← decide_not, decide_eq_decide, Nat.not_le]
  case bcc => rw [hc, ← decide_not, decide_eq_decide, Nat.not_lt]
  case bgt =>
    show (!condLe t.ccr) = _
    rw [hle, ← decide_not, decide_eq_decide, Int.not_le]
  case bge =>
    show (!condLt t.ccr) = _
    rw [hlt, ← decide_not, decide_eq_decide, Int.not_lt]
  case bne => rw [hz, ← decide_not]

/-! ### Increments and decrements -/

theorem next_putA {s : State} {p : Byte × CCR} {v : Byte} {c : CCR} (h : p = (v, c)) :
    (.next ((putA s p).advance 2) : Out) = .next { s with a := v, ccr := c, pc := s.pcPlus 2 } := h ▸ next_advance (putA_advance s (v, c) 2)

theorem next_putB {s : State} {p : Byte × CCR} {v : Byte} {c : CCR} (h : p = (v, c)) :
    (.next ((putB s p).advance 2) : Out) = .next { s with b := v, ccr := c, pc := s.pcPlus 2 } := h ▸ next_advance (putB_advance s (v, c) 2)

/-- An instruction that counts a byte in RAM stores what its flag function answers (R272, R276). -/
theorem countByte_stores {i : Instr} {s : State} {ea : Addr} {len : Nat} {f : CCR → Byte → Byte × CCR} {v : Byte} {c : CCR}
    (he : exec i s = countByte s ea len f) (h : s.canWrite8 ea = true) (hf : f s.ccr (s.byteAt .data ea) = (v, c)) : storesByte i s ea v c len := by
  have hrun := he.trans (countByte_ready s ea len f h)
  rw [hf] at hrun
  exact storesByte_of hrun

/-- An instruction that counts a word in RAM stores what its flag function answers (R275, R279). -/
theorem countWord_stores {i : Instr} {s : State} {ea : Addr} {len : Nat} {f : CCR → Word → Word × CCR} {v : Word} {c : CCR}
    (he : exec i s = countWord s ea len f) (h : s.canWrite16 ea = true) (hf : f s.ccr (s.wordAt .data ea) = (v, c)) : storesWord i s ea v c len := by
  have hrun := he.trans (countWord_ready s ea len f h)
  rw [hf] at hrun
  exact storesWord_of hrun

/-- Settles O35: the flag functions are `added` and `subtracted` with 1, but for C; in memory they are applied by `countByte` and `countWord`. -/
theorem incrementsAndDecrements : Obligations.IncrementsAndDecrements := by
  unfold Obligations.IncrementsAndDecrements
  intro s
  refine ⟨?inca, ?incb, ?deca, ?decb, fun m h => ⟨?inc, ?dec⟩, fun m h => ⟨?incw, ?decw⟩⟩
  case inca => exact next_putA (incFlags8_eq ..)
  case incb => exact next_putB (incFlags8_eq ..)
  case deca => exact next_putA (decFlags8_eq ..)
  case decb => exact next_putB (decFlags8_eq ..)
  case inc => exact countByte_stores rfl h (incFlags8_eq ..)
  case dec => exact countByte_stores rfl h (decFlags8_eq ..)
  case incw => exact countWord_stores rfl h (incFlags16_eq ..)
  case decw => exact countWord_stores rfl h (decFlags16_eq ..)

/-! ### DAA and SXT -/

theorem hiNib_toNat (b : Byte) : (hiNib b).toNat = b.toNat / 16 := by
  have h := b.isLt
  rw [hiNib, BitVec.extractLsb'_toNat, Nat.shiftRight_eq_div_pow]
  omega

theorem loNib_toNat (b : Byte) : (loNib b).toNat = b.toNat % 16 := BitVec.extractLsb'_toNat ..

/-- DAA where Table 5-10 has a row: the correction is added, the row gives C, V is a free value (R251). -/
theorem daa_listed {s : State} {fix : Byte} {carry : Bool} (h : daaRow s.ccr.c (s.a.toNat / 16) s.ccr.h (s.a.toNat % 16) = some (fix, carry)) :
    ∃ v, exec .daa s =
      .next { s with a := s.a + fix, ccr := { withNZ s.ccr (s.a + fix) with v := v, c := carry }, draws := s.draws + 1, pc := s.pcPlus 2 } := by
  refine ⟨s.drawBit 0, ?_⟩
  rw [← hiNib_toNat, ← loNib_toNat] at h
  rw [← flagsNZ_eq]
  show execDaa s = _
  simp only [execDaa, inherent, h]
  exact next_advance (advance_eq _ 2)

/-- DAA where Table 5-10 has no row: A, N, Z, V and C are free values (R251, D31). -/
theorem daa_unlisted {s : State} (h : daaRow s.ccr.c (s.a.toNat / 16) s.ccr.h (s.a.toNat % 16) = none) :
    ∃ (x : Byte) (n z v c : Bool), exec .daa s =
      .next { s with a := x, ccr := { s.ccr with n := n, z := z, v := v, c := c }, draws := s.draws + 5, pc := s.pcPlus 2 } := by
  refine ⟨s.draw 0 8, s.drawBit 1, s.drawBit 2, s.drawBit 3, s.drawBit 4, ?_⟩
  rw [← hiNib_toNat, ← loNib_toNat] at h
  show execDaa s = _
  simp only [execDaa, inherent, h]
  exact next_advance (advance_eq _ 2)

/-- The combinations Table 5-10 lists. -/
def DaaListed (c : Bool) (hi : Nat) (h : Bool) (lo : Nat) : Prop := (h = true → lo ≤ 3) ∧ (c = true → hi ≤ if h = true then 3 else 2)

/-- The new C of Table 5-10 in closed form. -/
def daaCarry (c : Bool) (hi lo : Nat) : Bool := c || decide (9 < hi) || (decide (hi = 9) && decide (9 < lo))

/-- The correction of Table 5-10 in closed form. -/
def daaFix (c : Bool) (hi : Nat) (h : Bool) (lo : Nat) : Byte :=
  BitVec.ofNat 8 ((if h = true ∨ 9 < lo then 6 else 0) + if daaCarry c hi lo = true then 96 else 0)

theorem daaFix_cases (c : Bool) (hi : Nat) (h : Bool) (lo : Nat) :
    daaFix c hi h lo = if h = true ∨ 9 < lo then (if daaCarry c hi lo = true then 0x66 else 0x06) else if daaCarry c hi lo = true then 0x60 else 0x00 := by
  unfold daaFix
  split <;> split <;> rfl

/-- The rows of Table 5-10 in closed form, C and H choosing the part of the table. -/
theorem daaRow_listed {c h : Bool} {hi lo : Nat} (l : DaaListed c hi h lo) : daaRow c hi h lo = some (daaFix c hi h lo, daaCarry c hi lo) := by
  obtain ⟨hh, hc⟩ := l
  rw [daaFix_cases]
  unfold daaRow daaCarry
  cases c <;> cases h
  all_goals grind

theorem daaRow_unlisted {c h : Bool} {hi lo : Nat} (l : ¬DaaListed c hi h lo) : daaRow c hi h lo = none := by
  unfold DaaListed at l
  unfold daaRow
  cases c <;> cases h
  case false.false => simp at l
  all_goals grind

/-- SXT copies the sign of B: set from 128 up. -/
theorem sxt_value (b : Byte) : (if b.msb then 0xFF else 0 : Byte) = if b.toNat < 128 then 0#8 else 255#8 := by
  rw [BitVec.msb_eq_decide]
  simp only [decide_eq_true_eq, ← Nat.not_lt, ite_not, Nat.reduceSub, Nat.reducePow]
  rfl

/-- Settles O36: the closed form of the statement is `DaaListed`, `daaFix` and `daaCarry`, and `daaRow` has a row where it lists one. -/
theorem decimalAdjustAndSignExtend : Obligations.DecimalAdjustAndSignExtend := by
  unfold Obligations.DecimalAdjustAndSignExtend
  intro s
  refine ⟨⟨fun l => daa_listed (daaRow_listed l), fun l => daa_unlisted (daaRow_unlisted l)⟩, ?_⟩
  have e : BitVec.ofInt 16 s.b.toInt = s.b.signExtend 16 := rfl
  rw [← sxt_value, ← flagsNZ_eq, e]
  exact next_advance (advance_eq _ 2)

/-! ### Products -/

/-- N, Z and C of the products of 32 bits (R266). -/
theorem flagsEmul_eq (c : CCR) (p : Long) : flagsEmul c p = { withNZ c p with c := decide (p.toNat / 32768 % 2 = 1) } := by
  have bit : p.getLsbD 15 = decide (p.toNat / 32768 % 2 = 1) := Nat.testBit_eq_decide_div_mod_eq
  rw [← flagsNZ_eq, flagsEmul, bit]
  rfl

/-- C of MUL (R271). -/
theorem ofNat_bit7 (n : Nat) : (BitVec.ofNat 16 n).getLsbD 7 = decide (n / 128 % 2 = 1) := by
  rw [BitVec.getLsbD_ofNat, Nat.testBit_eq_decide_div_mod_eq]
  rfl

/-- Of two signed words only -32768 and -32768 have the product 2^30. -/
theorem toInt_mul_toInt_lt {x y : Word} (h : ¬(x.toInt = -32768 ∧ y.toInt = -32768)) : x.toInt * y.toInt < 2 ^ 30 := by
  have hx : -32768 ≤ x.toInt ∧ x.toInt < 32768 := ⟨x.le_toInt, x.toInt_lt⟩
  have hy : -32768 ≤ y.toInt ∧ y.toInt < 32768 := ⟨y.le_toInt, y.toInt_lt⟩
  have small : (x.toInt * y.toInt).natAbs ≤ 32767 * 32768 := by
    rw [Int.natAbs_mul]
    by_cases e : x.toInt = -32768
    · rw [Nat.mul_comm]
      exact Nat.mul_le_mul (by omega) (by omega)
    · exact Nat.mul_le_mul (by omega) (by omega)
  omega

/-- Settles O37: C is a bit of the product, and the product fits but for FMULS of -1 and -1. -/
theorem multiplications : Obligations.Multiplications := by
  unfold Obligations.Multiplications
  intro s
  have low : -2 ^ 30 ≤ s.e.toInt * s.d.toInt := BitVec.le_toInt_mul_toInt
  have high : s.e.toInt * s.d.toInt ≤ 2 ^ 30 := BitVec.toInt_mul_toInt_le
  refine ⟨?mul, ⟨?emul, ?emulExact⟩, ⟨?emuls, ?emulsExact⟩, ?fmuls, fun h => ?fmulsExact⟩
  case mul =>
    rw [← ofNat_bit7]
    exact next_advance (advance_eq _ 2)
  case emulExact =>
    have fits : s.e.toNat * s.d.toNat < 2 ^ 32 := BitVec.toNat_mul_toNat_lt
    rw [BitVec.toNat_ofNat, Nat.mod_eq_of_lt fits]
  case emul | emuls =>
    rw [← flagsEmul_eq]
    exact next_advance (advance_eq _ 2)
  case emulsExact => exact BitVec.toInt_ofInt_eq_self (by decide) (by omega) (by omega)
  case fmuls =>
    show execFmuls s = _
    simp only [execFmuls, inherent, flagsEmul_eq, bothMinusOne_eq]
    exact next_advance (advance_eq _ 2)
  case fmulsExact =>
    have lt := toInt_mul_toInt_lt h
    exact BitVec.toInt_ofInt_eq_self (by decide) (by omega) (by omega)

/-! ### Divisions -/

/-- Z of a quotient. -/
theorem quotient_isZero {q : Nat} (h : q < 65536) : (BitVec.ofNat 16 q == 0#16) = decide (q = 0) := by
  rw [beq_zero_eq, BitVec.toNat_ofNat, Nat.mod_eq_of_lt h]

/-- Twice the remainder against the divisor, in magnitudes that are natural numbers or integers (R265). -/
theorem natAbs_le_two_mul_iff (x y : Int) : x.natAbs ≤ 2 * y.natAbs ↔ |x| ≤ 2 * |y| := by
  rw [Int.abs_eq_natAbs, Int.abs_eq_natAbs]
  omega

section divisions

variable {s : State}

theorem ix_ne_zero (h : 0 < s.ix.toNat) : s.ix ≠ 0#16 := fun e => by simp [e] at h

/-- EDIV where the quotient fits IX (R264). -/
theorem ediv_inRange (hd : s.ix ≠ 0#16) (h : s.ed.toNat / s.ix.toNat < 65536) : exec .ediv s =
    .next { s.withD (BitVec.ofNat 16 (s.ed.toNat % s.ix.toNat)) with
      ix := BitVec.ofNat 16 (s.ed.toNat / s.ix.toNat)
      ccr := { withNZ s.ccr (BitVec.ofNat 16 (s.ed.toNat / s.ix.toNat) : Word) with
        v := false, c := decide (s.ix.toNat ≤ 2 * (s.ed.toNat % s.ix.toNat)) }
      pc := s.pcPlus 2 } := by
  show execEdiv s = _
  rw [execEdiv, if_neg hd, if_neg (by omega), ← flagsNZ_eq]
  exact next_advance (advance_eq _ 2)

/-- V is set and the results are free values: how EDIV and EDIVS end where the quotient does not fit IX (R264, R265). -/
def DivisionOverflows (i : Instr) (s : State) : Prop :=
  ∃ (x y : Word) (n z c : Bool), exec i s =
    .next { s.withD y with ix := x, ccr := { s.ccr with n := n, z := z, v := true, c := c }, draws := s.draws + 5, pc := s.pcPlus 2 }

theorem ediv_overflows (hd : s.ix ≠ 0#16) (h : 65536 ≤ s.ed.toNat / s.ix.toNat) : DivisionOverflows .ediv s := by
  refine ⟨s.draw 0 16, s.draw 1 16, s.drawBit 2, s.drawBit 3, s.drawBit 4, ?_⟩
  show execEdiv s = _
  rw [execEdiv, if_neg hd, if_pos (by omega)]
  exact next_advance (advance_eq _ 2)

/-- EDIVS where the truncated quotient fits IX; what it leaves of the dividend is the remainder (R265, D13). -/
theorem edivs_inRange (hd : s.ix ≠ 0#16) (h : -32768 ≤ s.ed.toInt.tdiv s.ix.toInt ∧ s.ed.toInt.tdiv s.ix.toInt ≤ 32767) : exec .edivs s =
    .next { s.withD (BitVec.ofInt 16 (s.ed.toInt - s.ed.toInt.tdiv s.ix.toInt * s.ix.toInt)) with
      ix := BitVec.ofInt 16 (s.ed.toInt.tdiv s.ix.toInt)
      ccr := { withNZ s.ccr (BitVec.ofInt 16 (s.ed.toInt.tdiv s.ix.toInt) : Word) with
        v := false, c := decide (|s.ix.toInt| ≤ 2 * |s.ed.toInt - s.ed.toInt.tdiv s.ix.toInt * s.ix.toInt|) }
      pc := s.pcPlus 2 } := by
  have rem : s.ed.toInt - s.ed.toInt.tdiv s.ix.toInt * s.ix.toInt = s.ed.toInt.tmod s.ix.toInt := by rw [Int.tmod_def, Int.mul_comm]
  show execEdivs s = _
  simp only [rem, ← natAbs_le_two_mul_iff, ← flagsNZ_eq]
  rw [execEdivs, if_neg hd, if_neg (by omega)]
  exact next_advance (advance_eq _ 2)

theorem edivs_overflows (hd : s.ix ≠ 0#16) (h : s.ed.toInt.tdiv s.ix.toInt < -32768 ∨ 32767 < s.ed.toInt.tdiv s.ix.toInt) :
    DivisionOverflows .edivs s := by
  refine ⟨s.draw 0 16, s.draw 1 16, s.drawBit 2, s.drawBit 3, s.drawBit 4, ?_⟩
  show execEdivs s = _
  rw [execEdivs, if_neg hd, if_pos (by omega)]
  exact next_advance (advance_eq _ 2)

/-- FDIV where the divisor is above D: the quotient is below 2^16 (R268). -/
theorem fdiv_inRange (h : s.d.toNat < s.ix.toNat) : exec .fdiv s =
    .next { s.withD (BitVec.ofNat 16 (s.d.toNat * 65536 % s.ix.toNat)) with
      ix := BitVec.ofNat 16 (s.d.toNat * 65536 / s.ix.toNat)
      ccr := { s.ccr with z := decide (s.d.toNat * 65536 / s.ix.toNat = 0), v := false, c := false }
      pc := s.pcPlus 2 } := by
  have hd : s.ix ≠ 0#16 := ix_ne_zero (Nat.zero_lt_of_lt h)
  have quotient : s.d.toNat * 65536 / s.ix.toNat < 65536 := Nat.div_lt_of_lt_mul (Nat.mul_lt_mul_of_pos_right h (by decide))
  show execFdiv s = _
  rw [execFdiv, if_neg hd, if_neg (by omega), ← quotient_isZero quotient]
  exact next_advance (advance_eq _ 2)

/-- FDIV where the divisor is zero or not above D; C tells the two apart (R268). -/
theorem fdiv_outOfRange (h : s.ix.toNat ≤ s.d.toNat) : ∃ y : Word, exec .fdiv s =
    .next { s.withD y with ix := 0xFFFF#16, ccr := { s.ccr with z := false, v := true, c := decide (s.ix.toNat = 0) }, draws := s.draws + 1, pc := s.pcPlus 2 } := by
  refine ⟨s.draw 0 16, ?_⟩
  rw [← beq_zero_eq]
  show execFdiv s = _
  by_cases hd : s.ix = 0#16
  · rw [execFdiv, if_pos hd, beq_iff_eq.mpr hd]
    exact next_advance (advance_eq _ 2)
  · rw [execFdiv, if_neg hd, if_pos h, beq_eq_false_iff_ne.mpr hd]
    exact next_advance (advance_eq _ 2)

theorem idiv_divides (hd : s.ix ≠ 0#16) : exec .idiv s =
    .next { s.withD (BitVec.ofNat 16 (s.d.toNat % s.ix.toNat)) with
      ix := BitVec.ofNat 16 (s.d.toNat / s.ix.toNat)
      ccr := { s.ccr with z := decide (s.d.toNat / s.ix.toNat = 0), v := false, c := false }
      pc := s.pcPlus 2 } := by
  rw [← quotient_isZero (Nat.lt_of_le_of_lt (Nat.div_le_self ..) s.d.isLt)]
  show execIdiv s = _
  rw [execIdiv, if_neg hd]
  exact next_advance (advance_eq _ 2)

theorem idiv_byZero (hd : s.ix = 0#16) : ∃ y : Word, exec .idiv s =
    .next { s.withD y with ix := 0xFFFF#16, ccr := { s.ccr with z := false, v := false, c := true }, draws := s.draws + 1, pc := s.pcPlus 2 } := by
  refine ⟨s.draw 0 16, ?_⟩
  show execIdiv s = _
  rw [execIdiv, if_pos hd]
  exact next_advance (advance_eq _ 2)

end divisions

/-- Settles O38: a clause for each division and range of its quotient or divisor. -/
theorem divisions : Obligations.Divisions := by
  unfold Obligations.Divisions
  intro s
  refine ⟨fun hd => ?ediv, fun hd => ?edivs, ⟨fdiv_inRange, fdiv_outOfRange⟩, fun hd => ?idiv, fun hd => ?idivZero⟩
  case ediv => exact ⟨ediv_inRange (ix_ne_zero hd), ediv_overflows (ix_ne_zero hd)⟩
  case edivs =>
    have hd' : s.ix ≠ 0#16 := fun e => hd (congrArg BitVec.toInt e)
    exact ⟨edivs_inRange hd', edivs_overflows hd'⟩
  case idiv => exact idiv_divides (ix_ne_zero hd)
  case idivZero => exact idiv_byZero (BitVec.eq_of_toNat_eq hd)

end Sys2Proof.Machine

/-! ## Clear, complement, negate, logic, bits, shifts and rotates -/

namespace Sys2Proof.Machine

/-! ### The shapes with the pair they write -/

theorem next_putD {s : State} {p : Word × CCR} {v : Word} {c : CCR} (h : p = (v, c)) :
    (.next ((putD s p).advance 2) : Out) = .next { s.withD v with ccr := c, pc := s.pcPlus 2 } := h ▸ next_advance (putD_advance s (v, c) 2)

theorem next_putE {s : State} {p : Word × CCR} {v : Word} {c : CCR} (h : p = (v, c)) :
    (.next ((putE s p).advance 2) : Out) = .next { s with e := v, ccr := c, pc := s.pcPlus 2 } := h ▸ next_advance (putE_advance s (v, c) 2)

/-- A read-modify-write of a byte in RAM stores what its flag function answers (R300 (a)). -/
theorem modifyByte_stores {i : Instr} {s : State} {ea : Addr} {len : Nat} {f : CCR → Byte → Byte × CCR} {v : Byte} {c : CCR}
    (he : exec i s = modifyByte s ea len f) (h : s.canWrite8 ea = true) (hf : f s.ccr (s.byteAt .data ea) = (v, c)) : storesByte i s ea v c len := by
  have hrun := he.trans (modifyByte_ready s ea len f h)
  rw [hf] at hrun
  exact storesByte_of hrun

/-- A read-modify-write of a word in RAM stores what its flag function answers (R300 (a)). -/
theorem modifyWord_stores {i : Instr} {s : State} {ea : Addr} {len : Nat} {f : CCR → Word → Word × CCR} {v : Word} {c : CCR}
    (he : exec i s = modifyWord s ea len f) (h : s.canWrite16 ea = true) (hf : f s.ccr (s.wordAt .data ea) = (v, c)) : storesWord i s ea v c len := by
  have hrun := he.trans (modifyWord_ready s ea len f h)
  rw [hf] at hrun
  exact storesWord_of hrun

/-! ### Clear, complement and negate of an accumulator -/

/-- Settles O39: the flag function of a complement is `comFlags_eq`, that of a negation a subtraction from 0. -/
theorem accumulatorClearComplementNegate : Obligations.AccumulatorClearComplementNegate := by
  unfold Obligations.AccumulatorClearComplementNegate
  intro s
  refine ⟨?clra, ?clrb, ?clrd, ?clre, ?coma, ?comb, ?comd, ?come, ?nega, ?negb, ?negd, ?nege⟩
  case clra => exact next_putA rfl
  case clrb => exact next_putB rfl
  case clrd => exact next_putD rfl
  case clre => exact next_putE rfl
  case coma => exact next_putA (comFlags_eq ..)
  case comb => exact next_putB (comFlags_eq ..)
  case comd => exact next_putD (comFlags_eq ..)
  case come => exact next_putE (comFlags_eq ..)
  case nega => exact next_putA (negFlags8_eq ..)
  case negb => exact next_putB (negFlags8_eq ..)
  case negd => exact next_putD (negFlags16_eq ..)
  case nege => exact next_putE (negFlags16_eq ..)

/-! ### Clear, complement, negate and bit instructions on memory -/

section bits

variable {w : Nat} {v mm r : BitVec w} (c : CCR)

/-- The flag function of BCLR answers the value without the bits of the mask (R333, C7). -/
theorem logicFlags_cleared_bits (h : ∀ i, r.getLsbD i = (v.getLsbD i && !mm.getLsbD i)) : logicFlags c (v &&& ~~~mm) = (r, withNZV c r) := by
  have e : v &&& ~~~mm = r := BitVec.eq_of_getLsbD_eq fun i hi => by rw [h, BitVec.getLsbD_and, BitVec.getLsbD_not, decide_eq_true hi, Bool.true_and]
  rw [logicFlags, e, flagsNZV_eq]

/-- The flag function of BSET answers the value with the bits of the mask (R335). -/
theorem logicFlags_set_bits (h : ∀ i, r.getLsbD i = (v.getLsbD i || mm.getLsbD i)) : logicFlags c (v ||| mm) = (r, withNZV c r) := by
  have e : v ||| mm = r := BitVec.eq_of_getLsbD_eq fun i _ => by rw [h, BitVec.getLsbD_or]
  rw [logicFlags, e, flagsNZV_eq]

end bits

/-- Settles O40: a clear is one write; the others store what their flag functions answer. -/
theorem memoryClearComplementNegateAndBits : Obligations.MemoryClearComplementNegateAndBits := by
  unfold Obligations.MemoryClearComplementNegateAndBits
  intro s
  refine ⟨fun m h => ⟨?clr, ?com, ?neg, fun mm r => ⟨fun hr => ?bclr, fun hr => ?bset⟩⟩,
    fun m h => ⟨?clrw, ?comw, ?negw, fun mm r => ⟨fun hr => ?bclrw, fun hr => ?bsetw⟩⟩⟩
  case clr => exact storesByte_of (clearByte_ready s (eaB s m) m.length h)
  case com => exact modifyByte_stores rfl h (comFlags_eq ..)
  case neg => exact modifyByte_stores rfl h (negFlags8_eq ..)
  case bclr => exact modifyByte_stores (f := fun c v => logicFlags c (v &&& ~~~mm)) rfl h (logicFlags_cleared_bits _ hr)
  case bset => exact modifyByte_stores (f := fun c v => logicFlags c (v ||| mm)) rfl h (logicFlags_set_bits _ hr)
  case clrw => exact storesWord_of (clearWord_ready s (eaW s m) m.length h)
  case comw => exact modifyWord_stores rfl h (comFlags_eq ..)
  case negw => exact modifyWord_stores rfl h (negFlags16_eq ..)
  case bclrw => exact modifyWord_stores (f := fun c v => logicFlags c (v &&& ~~~mm)) rfl h (logicFlags_cleared_bits _ hr)
  case bsetw => exact modifyWord_stores (f := fun c v => logicFlags c (v ||| mm)) rfl h (logicFlags_set_bits _ hr)

/-! ### AND, exclusive OR, OR and the bit tests -/

/-- Settles O41: each goes from its operand through `logicFlags` to its accumulator; the bit tests write the flags alone. -/
theorem booleanLogic : Obligations.BooleanLogic := by
  unfold Obligations.BooleanLogic
  simp only [← flagsNZV_eq]
  intro s
  refine ⟨fun o h => ⟨?anda, ?andb, ?eora, ?eorb, ?oraa, ?orab, ?bita, ?bitb⟩, fun o h => ⟨?andd, ?eord, ?ord⟩, fun o h => ⟨?ande, ?eore, ?ore⟩⟩
  case anda | eora | oraa => exact useOperand_next (operand8_ready s o h) (putA_advance ..)
  case andb | eorb | orab => exact useOperand_next (operand8_ready s o h) (putB_advance ..)
  case bita | bitb => exact useOperand_next (operand8_ready s o h) (withCCR_advance ..)
  case andd | eord | ord => exact useOperand_next (operandD_ready s o h) (putD_advance ..)
  case ande | eore | ore => exact useOperand_next (operandE_ready s o h) (putE_advance ..)

/-! ### Shifts and rotates -/

/-- Settles O42: the flag functions are the shifts of integers the statement names; each is written to its accumulator or stored. -/
theorem shiftsAndRotates : Obligations.ShiftsAndRotates := by
  unfold Obligations.ShiftsAndRotates
  simp only [← lsrFlags_eq, ← aslFlags_eq, ← asrFlags_eq, ← rolFlags8_eq, ← rolFlags16_eq, ← rorFlags8_eq, ← rorFlags16_eq]
  intro s
  refine ⟨?lsra, ?lsrb, ?lsrd, ?lsre, ?asla, ?aslb, ?asld, ?asle, ?asra, ?asrb, ?asrd, ?asre, ?rola, ?rolb, ?rold, ?role, ?rora, ?rorb, ?rord, ?rore,
    fun m h => ⟨?lsr, ?asl, ?asr, ?rol, ?ror⟩, fun m h => ⟨?lsrw, ?aslw, ?asrw, ?rolw, ?rorw⟩⟩
  case lsra | asla | asra | rola | rora => exact next_putA rfl
  case lsrb | aslb | asrb | rolb | rorb => exact next_putB rfl
  case lsrd | asld | asrd | rold | rord => exact next_putD rfl
  case lsre | asle | asre | role | rore => exact next_putE rfl
  case lsr | asl | asr | rol | ror => exact modifyByte_stores rfl h rfl
  case lsrw | aslw | asrw | rolw | rorw => exact modifyWord_stores rfl h rfl

end Sys2Proof.Machine

/-! ## Branches, returns and the software interrupt -/

namespace Sys2Proof.Machine

/-! ### Relative branches -/

/-- A relative branch changes the program counter alone (R400). -/
theorem branch_moves_pc (s : State) (cond : Bool) {w : Nat} (x : BitVec w) (hw : w ≤ 20) (len : Nat) :
    branch s cond (x.signExtend 20) len = .next { s with pc := if cond = true then s.relative x.toInt else s.pcPlus len } := by
  cases cond with
  | true => exact congrArg (fun a : Addr => (.next { s with pc := a } : Out)) (relative_eq s x hw)
  | false => exact next_advance (advance_eq s len)

/-- A short branch on a condition the claim writes in another way. -/
theorem short_branch {s : State} {cond p : Bool} (rr : Byte) (h : cond = p) :
    branch s cond (rr.signExtend 20) 2 = .next { s with pc := if p = true then s.relative rr.toInt else s.pcPlus 2 } :=
  h ▸ branch_moves_pc s cond rr (by decide) 2

/-- A long branch on a condition the claim writes in another way. -/
theorem long_branch {s : State} {cond p : Bool} (rrrr : Word) (h : cond = p) :
    branch s cond (rrrr.signExtend 20) 4 = .next { s with pc := if p = true then s.relative rrrr.toInt else s.pcPlus 4 } :=
  h ▸ branch_moves_pc s cond rrrr (by decide) 4

section conditions

variable (c : CCR)

theorem condHi_eq : condHi c = (!c.c && !c.z) := Bool.not_or c.c c.z

theorem condLt_eq : condLt c = (c.n != c.v) := by rw [condLt, Bool.bne_eq_xor]

theorem condGe_eq : condGe c = (c.n == c.v) := by rw [condGe, ← Bool.bne_eq_xor, bne, Bool.not_not]

theorem condLe_eq : condLe c = (c.z || c.n != c.v) := congrArg (c.z || ·) (condLt_eq c)

theorem condGt_eq : condGt c = (!c.z && c.n == c.v) := by
  rw [← condGe_eq]
  exact Bool.not_or ..

end conditions

/-- Settles O43: each is `branch` on its condition, five of which the statement writes without exclusive or. -/
theorem relativeBranches : Obligations.RelativeBranches := by
  unfold Obligations.RelativeBranches
  simp only [List.forall_mem_cons, List.not_mem_nil, false_implies, implies_true, and_true]
  intro s rr rrrr
  refine ⟨⟨?bra, ?brn, ?bcc, ?bcs, ?beq, ?bmi, ?bne, ?bpl, ?bvc, ?bvs, ?bhi, ?bls, ?bge, ?blt, ?bgt, ?ble⟩,
    ?lbra, ?lbrn, ?lbcc, ?lbcs, ?lbeq, ?lbmi, ?lbne, ?lbpl, ?lbvc, ?lbvs, ?lbhi, ?lbls, ?lbge, ?lblt, ?lbgt, ?lble, ?lbev, ?lbmv⟩
  case bra | brn | bcc | bcs | beq | bmi | bne | bpl | bvc | bvs | bls => exact short_branch rr rfl
  case bhi => exact short_branch rr (condHi_eq s.ccr)
  case bge => exact short_branch rr (condGe_eq s.ccr)
  case blt => exact short_branch rr (condLt_eq s.ccr)
  case bgt => exact short_branch rr (condGt_eq s.ccr)
  case ble => exact short_branch rr (condLe_eq s.ccr)
  case lbra | lbrn | lbcc | lbcs | lbeq | lbmi | lbne | lbpl | lbvc | lbvs | lbls | lbev | lbmv => exact long_branch rrrr rfl
  case lbhi => exact long_branch rrrr (condHi_eq s.ccr)
  case lbge => exact long_branch rrrr (condGe_eq s.ccr)
  case lblt => exact long_branch rrrr (condLt_eq s.ccr)
  case lbgt => exact long_branch rrrr (condGt_eq s.ccr)
  case lble => exact long_branch rrrr (condLe_eq s.ccr)

/-! ### BRCLR and BRSET -/

/-- The mask selects no bit that is 1 (R436). -/
theorem masked_zero_iff (x mm : Byte) : (x &&& mm == 0#8) = true ↔ ∀ i, mm.getLsbD i = true → x.getLsbD i = false := by
  rw [beq_iff_eq]
  refine ⟨fun h i hm => ?_, fun h => BitVec.eq_of_getLsbD_eq fun i _ => ?_⟩
  · have hi : (x &&& mm).getLsbD i = (0#8).getLsbD i := by rw [h]
    simpa [hm] using hi
  · cases hm : mm.getLsbD i with
    | true => simp [h i hm]
    | false => simp [hm]

/-- The mask selects no bit that is 0 (R437, C6): it reaches no bit past the byte. -/
theorem masked_not_zero_iff (x mm : Byte) : (~~~x &&& mm == 0#8) = true ↔ ∀ i, mm.getLsbD i = true → x.getLsbD i = true := by
  rw [masked_zero_iff]
  refine forall₂_congr fun i hm => ?_
  simp [BitVec.lt_of_getLsbD hm]

section bitBranch

variable {s : State} {o : BitBranch} {cond : Byte → Bool} (h : s.canRead8 .data (eaBit s o) = true)
include h

theorem bitBranch_taken (hc : cond (s.byteAt .data (eaBit s o)) = true) :
    bitBranch s o cond = .next { s with pc := evenAddr (s.pcx + bitOffset o) } := by
  rw [bitBranch_ready s o cond h, if_pos hc]
  rfl

theorem bitBranch_passed (hc : ¬cond (s.byteAt .data (eaBit s o)) = true) : bitBranch s o cond = .next { s with pc := s.pcPlus o.length } := by
  rw [bitBranch_ready s o cond h, if_neg hc, advance_eq]

end bitBranch

/-- Settles O44: the tests of the byte are `masked_zero_iff` and `masked_not_zero_iff`, the target is the same for both. -/
theorem bitConditionBranches : Obligations.BitConditionBranches := by
  unfold Obligations.BitConditionBranches
  intro s mm o h v off
  have target : evenAddr (s.pcx + bitOffset o) = s.relative off := by
    cases o with
    | ind8 r ff rr => exact relative_eq s rr (by decide)
    | ind16 r g rrrr => exact relative_eq s rrrr (by decide)
    | ext a rrrr => exact relative_eq s rrrr (by decide)
  rw [← target]
  refine ⟨fun hv => ?_, fun ⟨i, hm, hv⟩ => ?_, fun hv => ?_, fun ⟨i, hm, hv⟩ => ?_⟩
  · exact bitBranch_taken h ((masked_zero_iff v mm).mpr hv)
  · exact bitBranch_passed h fun hc => by simp [(masked_zero_iff v mm).mp hc i hm] at hv
  · exact bitBranch_taken h ((masked_not_zero_iff v mm).mpr hv)
  · exact bitBranch_passed h fun hc => by simp [(masked_not_zero_iff v mm).mp hc i hm] at hv

/-! ### RTS and RTI -/

/-- RTS goes two below the stacked PK : PC, whatever else the CCR word says (R442). -/
theorem rts_of_pullFrame {s t : State} {c p : Word} (h : pullFrame s = .ok (c, p) t) :
    exec .rts s = .next { t with pc := evenAddr ((c.extractLsb' 0 4 ++ p : Addr) - 2#20) } := by
  show execRts s = _
  rw [execRts, h]
  rfl

/-- RTI takes CCR[15:4] from the frame and goes six below the stacked PK : PC (R443). -/
theorem rti_of_pullFrame {s t : State} {c p : Word} (h : pullFrame s = .ok (c, p) t) :
    exec .rti s = .next { t with ccr := CCR.ofWord c, pc := evenAddr ((c.extractLsb' 0 4 ++ p : Addr) - 6#20) } := by
  show execRti s = _
  rw [execRti, returnFromException, h]
  rfl

/-- An address below the stacked PK : PC, in numbers; PK is the low nibble of the CCR word (R28). -/
theorem stacked_sub (c p : Word) (n : Nat) :
    (c.extractLsb' 0 4 ++ p : Addr) - BitVec.ofNat 20 n = BitVec.ofInt 20 ((c.toNat % 16 * 65536 + p.toNat : Nat) - n) := by
  have e : (c.extractLsb' 0 4 ++ p : Addr) = BitVec.ofInt 20 (c.toNat % 16 * 65536 + p.toNat : Nat) := by
    rw [BitVec.ofInt_natCast]
    apply BitVec.eq_of_toNat_eq
    have hp := p.isLt
    rw [toNat_join, BitVec.extractLsb'_toNat, BitVec.toNat_ofNat, Nat.shiftRight_zero]
    omega
  rw [e, Int.sub_eq_add_neg, BitVec.ofInt_add, BitVec.ofInt_neg, BitVec.ofInt_natCast (n := n), BitVec.sub_eq_add_neg]

/-- Settles O46: both pull the frame `pullFrame_ready` finds, and `stacked_sub` is where they go. -/
theorem returns : Obligations.Returns := by
  unfold Obligations.Returns
  intro s h1 h2 c p
  have frame := pullFrame_ready s h1 h2
  refine ⟨?_, ?_⟩
  · rw [rts_of_pullFrame frame, evenAddr_eq, stacked_sub _ _ 2]
    rfl
  · rw [rti_of_pullFrame frame, evenAddr_eq, stacked_sub _ _ 6]
    rfl

/-! ### Returns from calls and exceptions -/

/-- The frame of `s` for `ret` stands whole in `u`, right above its SK : SP, in memory mapped as in `s`. -/
structure FrameStands (s u : State) (ret : Addr) : Prop where
  ram : s.canStackFrame = true
  plat : u.plat = s.plat
  sp : u.sp20 = s.sp20 - 4#20
  words : ∀ p ∈ s.frameOf ret, u.wordAt .data p.1 = p.2

theorem canRead16_of_isRam16 {s : State} {a : Addr} (h : s.isRam16 a = true) : s.canRead16 .data a = true := by
  simp only [State.isRam16, Bool.and_eq_true, beq_iff_eq] at h
  obtain ⟨first, second⟩ := h
  simp only [State.canRead16, State.canRead8, first, second]
  rfl

/-- An instruction that can push a frame finds RAM in its place. -/
theorem canPushFrame_ram {s : State} (h : s.canPushFrame = true) : s.canStackFrame = true := by
  simp only [State.canPushFrame, Bool.and_eq_true] at h
  obtain ⟨first, second⟩ := h
  simp only [State.canStackFrame, canWrite16_ram s _ first, canWrite16_ram s _ second, Bool.and_self]

/-- What a subroutine or handler that ran from `t` to `u` must leave alone: SK : SP and the two words that `s` pushed. -/
structure FrameKept (s t u : State) : Prop where
  plat : u.plat = s.plat
  first : u.wordAt .data s.sp20 = t.wordAt .data s.sp20
  second : u.wordAt .data (s.sp20 - 2#20) = t.wordAt .data (s.sp20 - 2#20)
  sk : u.sk = t.sk
  sp : u.sp = t.sp

theorem FrameKept.stands {s t u : State} {ret : Addr} (h : FrameKept s t u) (ram : s.canStackFrame = true)
    (pushed : wroteWords s t (s.frameOf ret)) (sk : t.sk = (s.sp20 - 4#20).extractLsb' 16 4) (sp : t.sp = (s.sp20 - 4#20).extractLsb' 0 16) :
    FrameStands s u ret where
  ram := ram
  plat := h.plat
  sp := by
    rw [State.sp20, h.sk, h.sp, sk, sp]
    exact joined (m := 4) (n := 16) (s.sp20 - 4#20)
  words := by
    obtain ⟨stand, -⟩ := pushed
    simp only [State.frameOf, List.forall_mem_cons] at stand ⊢
    obtain ⟨low, ccr, -⟩ := stand
    exact ⟨h.first.trans low, h.second.trans ccr, List.forall_mem_nil _⟩

/-- Pulling the frame gives its two words and SK : SP as it was before they were pushed (R160, R161). -/
theorem FrameStands.pull {s u : State} {ret : Addr} (h : FrameStands s u ret) :
    pullFrame u = .ok (s.ccr.word (ret.extractLsb' 16 4), ret.extractLsb' 0 16) { u with sk := s.sk, sp := s.sp } := by
  obtain ⟨ram, plat, sp, words⟩ := h
  have e2 : u.sp20 + 2#20 = s.sp20 - 2#20 := by rw [sp]; bv_omega
  have e4 : u.sp20 + 4#20 = s.sp20 := by rw [sp]; exact BitVec.sub_add_cancel _ _
  simp only [State.canStackFrame, Bool.and_eq_true] at ram
  obtain ⟨ramFirst, ramSecond⟩ := ram
  simp only [State.frameOf, List.forall_mem_cons] at words
  obtain ⟨first, second, -⟩ := words
  have pull := pullFrame_ready u (by rw [e2, canRead16_of_plat plat]; exact canRead16_of_isRam16 ramSecond)
    (by rw [e4, canRead16_of_plat plat]; exact canRead16_of_isRam16 ramFirst)
  have hsk : s.sp20.extractLsb' 16 4 = s.sk := joined_high s.sk s.sp
  have hsp : s.sp20.extractLsb' 0 16 = s.sp := joined_low s.sk s.sp
  rw [e2, e4, first, second, State.withSP20, hsk, hsp] at pull
  exact pull

/-- The two words of a frame hold the address it was pushed for (R446, R605). -/
theorem frame_address (c : CCR) (ret : Addr) :
    ((c.word (ret.extractLsb' 16 4)).extractLsb' 0 4 ++ (ret.extractLsb' 0 16 : Word) : Addr) = ret := by
  have pk : (c.word (ret.extractLsb' 16 4)).extractLsb' 0 4 = ret.extractLsb' 16 4 := by
    apply BitVec.eq_of_getLsbD_eq
    intro i hi
    rw [BitVec.getLsbD_extractLsb', Nat.zero_add, CCR.word_getLsbD, if_pos hi, decide_eq_true hi, Bool.true_and]
  rw [pk]
  exact joined (m := 4) (n := 16) ret

theorem evenAddr_of_even {a : Addr} (h : a.getLsbD 0 = false) : evenAddr a = a := by
  rw [getLsbD_zero_iff] at h
  rw [evenAddr_eq, roundedDown, Nat.div_mul_cancel (Nat.dvd_of_mod_eq_zero h), BitVec.ofNat_toNat, BitVec.setWidth_eq]

/-- Settles O24: the frame is that of the resume address plus six, and its CCR word is that of the interrupted program. -/
theorem returnEndsEveryException : Obligations.ReturnEndsEveryException := by
  unfold Obligations.ReturnEndsEveryException
  intro s t u n resume ip ev ram even entered plat first second usk usp
  obtain ⟨pushed, ht⟩ := entered
  have kept : FrameKept s t u := ⟨plat, first, second, usk, usp⟩
  have stands := kept.stands ram pushed (by rw [ht]) (by rw [ht])
  have back : resume + 6#20 - 6#20 = resume := BitVec.add_sub_cancel _ _
  rw [rti_of_pullFrame stands.pull, frame_address, CCR.ofWord_word, back, evenAddr_of_even even]

/-- The return value of a call lies two bytes past the address RTS goes to, an even number of bytes past the call. -/
theorem evenAddr_return {s : State} (even : s.pc.getLsbD 0 = false) {n : Nat} (hn : n % 2 = 0) :
    evenAddr (s.pc + BitVec.ofNat 20 (n + 2) - 2#20) = s.pcPlus n := by
  have e : s.pc + BitVec.ofNat 20 (n + 2) - 2#20 = s.pc + BitVec.ofNat 20 n := by
    rw [BitVec.ofNat_add, ← BitVec.add_assoc]
    exact BitVec.add_sub_cancel _ _
  rw [e]
  exact (evenAddr_of_even (advance_even s n hn even)).trans (pcPlus_eq s n)

/-- RTS undoes an instruction that is a call and stacks the address `n + 2` bytes past itself: it goes on `n` bytes past it (R442, R446). -/
theorem rts_undoes_call {i : Instr} {s t u : State} {n : Nat} {target : Addr} (called : exec i s = call s (s.pc + BitVec.ofNat 20 (n + 2)) target)
    (hn : n % 2 = 0) (even : s.pc.getLsbD 0 = false) (push : s.canPushFrame = true) (run : exec i s = .next t) (kept : FrameKept s t u) :
    exec .rts u = .next { u with sk := s.sk, sp := s.sp, pc := s.pcPlus n } := by
  obtain ⟨t', ht', pushed, hs⟩ := stacks_and_jumps_of_call called push
  obtain rfl : t' = t := Host.Outcome.next.inj (ht'.symm.trans run)
  have stands := kept.stands (canPushFrame_ram push) pushed (by rw [hs]) (by rw [hs])
  rw [rts_of_pullFrame stands.pull, frame_address, evenAddr_return even hn]

/-- Settles O25: JSR and LBSR are four bytes long and stack six past themselves, BSR is two bytes long and stacks four past itself. -/
theorem returnEndsEveryCall : Obligations.ReturnEndsEveryCall := by
  unfold Obligations.ReturnEndsEveryCall
  intro s t u i hi push even run plat first second usk usp
  have kept : FrameKept s t u := ⟨plat, first, second, usk, usp⟩
  rcases hi with ⟨j, rfl⟩ | ⟨rrrr, rfl⟩ | ⟨rr, rfl⟩
  case inl =>
    have called : exec (.jsr j) s = call s s.pcx (eaJump s j) := by
      by_cases wf : j.wellFormed = true
      · exact if_pos wf
      · have refused : exec (.jsr j) s = .refused .reservedZeroNibble := if_neg wf
        cases refused.symm.trans run
    exact rts_undoes_call (n := 4) called rfl even push run kept
  case inr.inl => exact rts_undoes_call (n := 4) rfl rfl even push run kept
  case inr.inr => exact rts_undoes_call (n := 2) rfl rfl even push run kept

/-! ### SWI -/

/-- Settles O20: SWI is the trap of vector 6, which resumes two bytes on and leaves IP as it is. -/
theorem softwareInterruptEntry : Obligations.SoftwareInterruptEntry := by
  unfold Obligations.SoftwareInterruptEntry
  intro s push vector
  obtain ⟨t, ht, pushed, hs⟩ := trap_entered s 6#8 push vector
  have e : s.pcPlus 2 + 6#20 = s.pcPlus 8 := by
    rw [← pcPlus_eq, ← pcPlus_eq, BitVec.add_assoc]
    rfl
  rw [e] at pushed
  rw [List.append_nil] at hs
  exact ⟨t, ht, pushed, hs⟩

end Sys2Proof.Machine

/-! ## Index registers and extension fields -/

namespace Sys2Proof.Machine

/-- An instruction that puts `u` where `f` says, over `n` bytes further; the claim names the value in another way. -/
theorem next_update {α : Type} (f : α → State) {u v : α} {n : Nat} (h : u = v) :
    (.next ((f u).advance n) : Out) = .next { f v with pc := (f v).pcPlus n } := by rw [h, advance_eq]

/-! ### 20-bit sums -/

/-- Z of the 16-bit register below an extension field (R470). -/
theorem lowWord_isZero (v : Addr) : ((v.extractLsb' 0 16 : Word) == 0#16) = decide (v.toNat % 65536 = 0) := by
  rw [beq_zero_eq, BitVec.extractLsb'_toNat, Nat.shiftRight_zero]

/-- AIX, AIY and AIZ put the sum where `f` says and write Z of its low word (R470 to R472). -/
theorem next_update_z (f : Addr → State) (c : CCR) {u v : Addr} {n : Nat} (h : u = v) :
    (.next (((f u).withCCR { c with z := (u.extractLsb' 0 16 : Word) == 0#16 }).advance n) : Out) =
      .next { f v with ccr := { c with z := decide (v.toNat % 65536 = 0) }, pc := (f v).pcPlus n } := by
  rw [h, lowWord_isZero, withCCR_advance]

/-- Settles O47: each sum is `add_unsigned`, `add_signExtend` or that of `imm20`. -/
theorem indexArithmetic : Obligations.IndexArithmetic := by
  unfold Obligations.IndexArithmetic
  refine ⟨⟨rfl, rfl, rfl⟩, fun s => ?_⟩
  intro sum
  have byB (a : Addr) : a + s.b.setWidth 20 = sum a s.b.toNat := add_unsigned a s.b (by decide)
  have byD (a : Addr) : a + s.d.signExtend 20 = sum a s.d.toInt := add_signExtend a s.d (by decide)
  have byE (a : Addr) : a + s.e.signExtend 20 = sum a s.e.toInt := add_signExtend a s.e (by decide)
  refine ⟨⟨?abx, ?aby, ?abz⟩, ⟨?adx, ?ady, ?adz⟩, ⟨?aex, ?aey, ?aez⟩, fun o => ?_⟩
  case abx => exact next_update s.withX20 (byB s.x20)
  case aby => exact next_update s.withY20 (byB s.y20)
  case abz => exact next_update s.withZ20 (byB s.z20)
  case adx => exact next_update s.withX20 (byD s.x20)
  case ady => exact next_update s.withY20 (byD s.y20)
  case adz => exact next_update s.withZ20 (byD s.z20)
  case aex => exact next_update s.withX20 (byE s.x20)
  case aey => exact next_update s.withY20 (byE s.y20)
  case aez => exact next_update s.withZ20 (byE s.z20)
  intro imm zOf
  have byImm (a : Addr) : a + imm20 o = sum a imm := by
    cases o with
    | imm8 ii => exact imm20_eq8 a ii
    | imm16 jjkk => exact imm20_eq16 a jjkk
  refine ⟨?aix, ?aiy, ?aiz, ?ais⟩
  case aix => exact next_update_z s.withX20 s.ccr (byImm s.x20)
  case aiy => exact next_update_z s.withY20 s.ccr (byImm s.y20)
  case aiz => exact next_update_z s.withZ20 s.ccr (byImm s.z20)
  case ais => exact next_update s.withSP20 (byImm s.sp20)

/-! ### 20-bit transfers and the extension fields -/

/-- An address two higher, as a sum of numbers (R482). -/
theorem add_two_eq (a : Addr) : a + 2#20 = BitVec.ofNat 20 (a.toNat + 2) := by
  rw [BitVec.ofNat_add, BitVec.ofNat_toNat, BitVec.setWidth_eq]

/-- An address two lower, as a difference of integers (R485). -/
theorem sub_two_eq (a : Addr) : a - 2#20 = BitVec.ofInt 20 (a.toNat - 2) := by
  rw [sub_two, Int.sub_eq_add_neg, BitVec.ofInt_add, BitVec.ofInt_natCast, BitVec.ofNat_toNat, BitVec.setWidth_eq]

/-- A field and its register, taken from the address they make (R141). -/
theorem field_and_register (k : Nib) (r : Word) : (((k ++ r : Addr).extractLsb' 16 4 : Nib), ((k ++ r : Addr).extractLsb' 0 16 : Word)) = (k, r) :=
  Prod.ext (joined_high k r) (joined_low k r)

/-- B[3:0] as a number (R500). -/
theorem loNib_eq (b : Byte) : loNib b = BitVec.ofNat 4 (b.toNat % 16) := by rw [← loNib_toNat, BitVec.ofNat_toNat, BitVec.setWidth_eq]

/-- A field with zeros above, as a number (R505). -/
theorem zeroExtended_eq (k : Nib) : k.setWidth 8 = BitVec.ofNat 8 k.toNat := (BitVec.ofNat_toNat 8 k).symm

/-- Settles O48: each moves one value to the register, the pair or the field that its `next_update` names. -/
theorem indexTransfersAndFields : Obligations.IndexTransfersAndFields := by
  unfold Obligations.IndexTransfersAndFields
  intro s low
  refine ⟨⟨?tsx, ?tsy, ?tsz, ?txs, ?tys, ?tzs⟩, ⟨?txy, ?txz, ?tyx, ?tyz, ?tzx, ?tzy⟩, ⟨?tbek, ?tbsk, ?tbxk, ?tbyk, ?tbzk⟩,
    ?tekb, ?tskb, ?txkb, ?tykb, ?tzkb⟩
  case tsx => exact next_update s.withX20 (add_two_eq s.sp20)
  case tsy => exact next_update s.withY20 (add_two_eq s.sp20)
  case tsz => exact next_update s.withZ20 (add_two_eq s.sp20)
  case txs => exact next_update s.withSP20 (sub_two_eq s.x20)
  case tys => exact next_update s.withSP20 (sub_two_eq s.y20)
  case tzs => exact next_update s.withSP20 (sub_two_eq s.z20)
  case txy => exact next_update (fun p : Nib × Word => { s with yk := p.1, iy := p.2 }) (field_and_register s.xk s.ix)
  case txz => exact next_update (fun p : Nib × Word => { s with zk := p.1, iz := p.2 }) (field_and_register s.xk s.ix)
  case tyx => exact next_update (fun p : Nib × Word => { s with xk := p.1, ix := p.2 }) (field_and_register s.yk s.iy)
  case tyz => exact next_update (fun p : Nib × Word => { s with zk := p.1, iz := p.2 }) (field_and_register s.yk s.iy)
  case tzx => exact next_update (fun p : Nib × Word => { s with xk := p.1, ix := p.2 }) (field_and_register s.zk s.iz)
  case tzy => exact next_update (fun p : Nib × Word => { s with yk := p.1, iy := p.2 }) (field_and_register s.zk s.iz)
  case tbek => exact next_update (fun k => { s with ek := k }) (loNib_eq s.b)
  case tbsk => exact next_update (fun k => { s with sk := k }) (loNib_eq s.b)
  case tbxk => exact next_update (fun k => { s with xk := k }) (loNib_eq s.b)
  case tbyk => exact next_update (fun k => { s with yk := k }) (loNib_eq s.b)
  case tbzk => exact next_update (fun k => { s with zk := k }) (loNib_eq s.b)
  case tekb => exact next_update (fun b => { s with b := b }) (zeroExtended_eq s.ek)
  case tskb => exact next_update (fun b => { s with b := b }) (zeroExtended_eq s.sk)
  case txkb => exact next_update (fun b => { s with b := b }) (zeroExtended_eq s.xk)
  case tykb => exact next_update (fun b => { s with b := b }) (zeroExtended_eq s.yk)
  case tzkb => exact next_update (fun b => { s with b := b }) (zeroExtended_eq s.zk)

end Sys2Proof.Machine

/-! ## The interrupt hold-off

Which instructions set the hold-off latch, again told apart by the shape of their meaning, and what a boundary with the latch set decides. -/

namespace Sys2Proof.Machine

/-! ### The latch after an instruction -/

/-- ANDP, ORP, TAP and TDP: the instructions that hold interrupts off (R547). -/
def HoldsOff (i : Instr) : Prop := (∃ w, i = .andp w) ∨ (∃ w, i = .orp w) ∨ i = .tap ∨ i = .tdp

/-- Interrupts are not held off. -/
def Unheld (t : State) : Prop := t.inhibit = false

/-- Exception processing ends with the latch clear, in the handler or halted (R610, R624). -/
theorem Took.unheld {own : Bool} {n : Byte} {level : Option (BitVec 3)} {s t : State} (h : Took own n level s t) : Unheld t := by
  rcases h.reached with ⟨-, hi, -⟩ | ⟨-, hi, -⟩
  · exact hi
  · exact hi

/-- The complete sequence decides: a bus error ends with the latch clear. -/
theorem commit_unheld {x : Bus Unit} (hx : x.Ends Unheld fun _ => True) : Answers (commit x) Unheld :=
  commit_answers hx fun _ _ _ hu => hu.unheld

theorem trap_unheld (s : State) (n : Byte) (resume : Addr) : Answers (enterException true s n resume none) Unheld :=
  enterException_answers s n resume fun _ ht => ht.unheld

section unheld

variable {s : State} (h : Unheld s)
include h

theorem Cycles.unheld {own : Bool} {t : State} (ht : Cycles own s t) : Unheld t := ht.inhibit.trans h

/-- Bus cycles, then register writes that leave the latch. -/
theorem cycles_unheld {α : Type} {x : Bus α} {f : α → State → State} (hx : x.Sat true (Cycles true s))
    (hf : ∀ v t, (f v t).inhibit = t.inhibit) : Answers (commit (x.bind fun v t => .ok () (f v t))) Unheld :=
  commit_unheld (hx.bindEnds (fun v t ht => (hf v t).trans (ht.unheld h)) fun _ _ => trivial)

theorem branch_unheld (cond : Bool) (off : Addr) (len : Nat) : Answers (branch s cond off len) Unheld := by
  cases cond with
  | true => exact h
  | false => exact h

theorem execLded_unheld (hhll : Word) : Answers (execLded hhll s) Unheld :=
  commit_unheld ((read16_sat true s .data _).bindEnds
    (fun v t ht =>
      have hv : Unheld { t with e := v } := ht.unheld h
      (read16_sat true { t with e := v } .data _).bindEnds (fun _ _ hu => hu.unheld hv) fun _ _ => trivial)
    fun _ _ => trivial)

theorem execSted_unheld (hhll : Word) : Answers (execSted hhll s) Unheld :=
  commit_unheld ((write16_sat true s _ _).bindEnds
    (fun _ t ht => (write16_sat true t _ _).bindEnds (fun _ _ hu => hu.unheld (ht.unheld h)) fun _ _ => trivial) fun _ _ => trivial)

end unheld

theorem movePost_inhibit (s : State) (o : Move) : (movePost s o).inhibit = s.inhibit := by cases o <;> rfl

/-- Loads of registers, none of them the latch. -/
def LeaveLatch (fs : List (State → Word → State)) : Prop := ∀ f ∈ fs, ∀ s v, (f s v).inhibit = s.inhibit

theorem leaveLatch_pulmWrites : LeaveLatch pulmWrites := by
  intro f hf s v
  simp only [pulmWrites, List.mem_cons, List.not_mem_nil, or_false] at hf
  rcases hf with rfl | rfl | rfl | rfl | rfl | rfl | rfl <;> rfl

theorem leaveLatch_pulmacWrites (p : MacFrame) : LeaveLatch (pulmacWrites p) := by
  intro f hf s v
  simp only [pulmacWrites, List.mem_map] at hf
  obtain ⟨k, -, rfl⟩ := hf
  rfl

theorem pullEach_unheld {s : State} (h : Unheld s) {fs : List (State → Word → State)} (hl : LeaveLatch fs) :
    (pullEach s fs).Ends Unheld fun _ => True := by
  induction fs generalizing s with
  | nil => exact h
  | cons f fs ih =>
    refine (pull16_sat true s).bindEnds (fun v t ht => ?_) fun _ _ => trivial
    have hf : Unheld (f t v) := (hl f (List.mem_cons_self ..) t v).trans (ht.unheld h)
    exact ih hf fun g hg => hl g (List.mem_cons_of_mem _ hg)

theorem pulls_unheld {s : State} (h : Unheld s) {fs : List (State → Word → State)} (hl : LeaveLatch fs) :
    Answers (commit ((pullEach s fs).bind fun _ t => .ok () (t.advance 2))) Unheld :=
  commit_unheld ((pullEach_unheld h hl).bind fun _ _ ht => ht)

theorem execPshm_unheld {s : State} (h : Unheld s) (ii : Byte) (hw : maskWellFormed ii = true) : Answers (execPshm ii s) Unheld := by
  rw [execPshm_eq s ii (by simpa [maskWellFormed] using hw)]
  exact cycles_unheld h (pushAll_sat s _) fun _ _ => rfl

theorem execPulm_unheld {s : State} (h : Unheld s) (ii : Byte) (hw : maskWellFormed ii = true) : Answers (execPulm ii s) Unheld := by
  rw [execPulm_eq s ii (by simpa [maskWellFormed] using hw)]
  refine pulls_unheld h fun f hf => ?_
  obtain ⟨p, hp, rfl⟩ := List.mem_map.mp hf
  exact leaveLatch_pulmWrites p.1 (List.fst_mem_of_mem_zipIdx (List.mem_filter.mp hp).1)

theorem loads_unheld {s : State} (h : Unheld s) : ((loadHR s).bind fun _ t => loadIR t).Ends Unheld fun _ => True :=
  Bus.Ends.bind (P := Unheld) ((read16_sat true s .data _).bindEnds (fun _ _ ht => ht.unheld h) fun _ _ => trivial) fun _ t ht =>
    (read16_sat true t .data _).bindEnds (fun _ _ hu => hu.unheld ht) fun _ _ => trivial

theorem loaded_unheld {s : State} (h : Unheld s) {f : State → State} (hf : ∀ t, (f t).inhibit = t.inhibit) :
    ((loadHR s).bind fun _ t => (loadIR t).bind fun _ t => .ok () (f t)).Ends Unheld fun _ => True := by
  rw [← Bus.bind_assoc]
  exact (loads_unheld h).bind fun _ t ht => (hf t).trans ht

theorem rmacLoop_unheld (fuel : Nat) {s : State} (h : Unheld s) (v : Bool) (xo yo : Nib) :
    (rmacLoop fuel s v xo yo).Ends Unheld fun _ => True := by
  induction fuel generalizing s v with
  | zero => exact h
  | succ k ih =>
    have hs : Unheld (s.rmacSummed v xo yo) := h
    have hp : (rmacPass s v xo yo).Ends Unheld fun _ => True := loaded_unheld hs (f := fun t => { t with e := t.e - 1#16 }) fun _ => rfl
    refine hp.bind fun _ t ht => ?_
    split
    · exact ht
    · split
      · exact ht
      · exact ih ht _

theorem execMac_unheld {s : State} (h : Unheld s) (xo yo : Nib) : Answers (execMac xo yo s) Unheld :=
  have hs : Unheld (s.macSummed xo yo) := h
  commit_unheld (loaded_unheld hs fun _ => rfl)

theorem execDaa_unheld {s : State} (h : Unheld s) : Answers (execDaa s) Unheld := by
  unfold execDaa inherent
  dsimp only
  split
  · exact h
  · exact h

theorem execLpstop_unheld {s : State} (h : Unheld s) : Answers (execLpstop s) Unheld := by
  cases hs : s.ccr.s with
  | true =>
    rw [execLpstop_on s hs]
    exact h
  | false =>
    rw [execLpstop_off s hs]
    exact h

/-- No other well-formed instruction holds interrupts off. -/
theorem exec_answers_unheld (i : Instr) {s : State} (hw : i.wellFormed = true) (hi : ¬ HoldsOff i) (h : Unheld s) : Answers (exec i s) Unheld := by
  have hb (t u : State) (_ : Cycles true s t) (hu : Took true t.plat.vecBerr none t u) : Unheld u := hu.unheld
  have hc (c : CCR) (t u w : State) (_ : Cycles true s t) (_ : Cycles true (t.withCCR c) u) (hw : Took true u.plat.vecBerr none u w) : Unheld w := hw.unheld
  have counted (c : CCR) (t u : State) (ht : Cycles true s t) (hu : Cycles true (t.withCCR c) u) : Unheld u :=
    have hn : Unheld (t.withCCR c) := ht.unheld h
    hu.unheld hn
  cases i with
  -- the four that do
  | andp w => exact absurd (.inl ⟨w, rfl⟩) hi
  | orp w => exact absurd (.inr (.inl ⟨w, rfl⟩)) hi
  | tap => exact absurd (.inr (.inr (.inl rfl))) hi
  | tdp => exact absurd (.inr (.inr (.inr rfl))) hi
  -- an operand is read, registers are written
  | ldaa o | ldab o | adca o | adcb o | adda o | addb o | sbca o | sbcb o | suba o | subb o | cmpa o | cmpb o
  | anda o | andb o | eora o | eorb o | oraa o | orab o | bita o | bitb o =>
    exact useOperand_answers hb (operand8_sat true s o) fun _ _ ht => ht.unheld h
  | ldd o | adcd o | sbcd o | subd o | cpd o | andd o | eord o | ord o =>
    exact useOperand_answers hb (operandD_sat true s o) fun _ _ ht => ht.unheld h
  | addd o => exact useOperand_answers hb (operandDI_sat true s o) fun _ _ ht => ht.unheld h
  | lde o | adce o | sbce o | sube o | cpe o | ande o | eore o | ore o =>
    exact useOperand_answers hb (operandE_sat true s o) fun _ _ ht => ht.unheld h
  | adde o => exact useOperand_answers hb (operandEI_sat true s o) fun _ _ ht => ht.unheld h
  | ldx o | ldy o | ldz o | lds o | cpx o | cpy o | cpz o | cps o =>
    exact useOperand_answers hb (operandX_sat true s o) fun _ _ ht => ht.unheld h
  | tst m => exact useOperand_answers hb (read8_sat true s .data _) fun _ _ ht => ht.unheld h
  | tstw m => exact useOperand_answers hb (read16_sat true s .data _) fun _ _ ht => ht.unheld h
  | lded hhll => exact execLded_unheld h hhll
  -- memory is written
  | staa m | stab m => exact storeByte_answers hb fun _ ht => ht.unheld h
  | std m | ste m | stx m | sty m | stz m | sts m => exact storeWord_answers hb fun _ ht => ht.unheld h
  | sted hhll => exact execSted_unheld h hhll
  | movb o => exact moveByte_answers hb fun _ t ht => (movePost_inhibit t o).trans (ht.unheld h)
  | movw o => exact moveWord_answers hb fun _ t ht => (movePost_inhibit t o).trans (ht.unheld h)
  | clr m => exact clearByte_answers hb fun _ ht => ht.unheld h
  | clrw m => exact clearWord_answers hb fun _ ht => ht.unheld h
  | com m | neg m | lsr m | asl m | asr m | rol m | ror m => exact modifyByte_answers hb fun _ _ _ ht => ht.unheld h
  | comw m | negw m | lsrw m | aslw m | asrw m | rolw m | rorw m => exact modifyWord_answers hb fun _ _ _ ht => ht.unheld h
  | bclr mm m => exact modifyByte_answers (f := fun c v => logicFlags c (v &&& ~~~mm)) hb fun _ _ _ ht => ht.unheld h
  | bset mm m => exact modifyByte_answers (f := fun c v => logicFlags c (v ||| mm)) hb fun _ _ _ ht => ht.unheld h
  | bclrw mmmm m => exact modifyWord_answers (f := fun c v => logicFlags c (v &&& ~~~mmmm)) hb fun _ _ _ ht => ht.unheld h
  | bsetw mmmm m => exact modifyWord_answers (f := fun c v => logicFlags c (v ||| mmmm)) hb fun _ _ _ ht => ht.unheld h
  | inc m | dec m => exact countByte_answers hb hc counted
  | incw m | decw m => exact countWord_answers hb hc counted
  -- program control
  | bra r | brn r | bcc r | bcs r | beq r | bmi r | bne r | bpl r | bvc r | bvs r | bhi r | bls r | bge r | bgt r | ble r | blt r
  | lbra r | lbrn r | lbcc r | lbcs r | lbeq r | lbev r | lbmi r | lbmv r | lbne r | lbpl r | lbvc r | lbvs r | lbhi r | lbls r
  | lbge r | lbgt r | lble r | lblt r => exact branch_unheld h _ _ _
  | brclr mm o | brset mm o => exact bitBranch_answers hb fun _ ht => ⟨ht.unheld h, ht.unheld h⟩
  | jmp t =>
    have e : exec (.jmp t) s = .next (s.jump (eaJump s t)) := if_pos hw
    rw [e]
    exact h
  | jsr t =>
    have e : exec (.jsr t) s = call s s.pcx (eaJump s t) := if_pos hw
    rw [e]
    exact call_answers hb fun _ ht => ht.unheld h
  | bsr r | lbsr r => exact call_answers hb fun _ ht => ht.unheld h
  | rts | rti => exact cycles_unheld h (pullFrame_sat true s) fun _ _ => rfl
  | swi => exact trap_unheld s _ _
  -- the stack
  | psha | pshb => exact cycles_unheld h (push8_sat s _) fun _ _ => rfl
  | pula | pulb => exact cycles_unheld h (pull8_sat true s) fun _ _ => rfl
  | pshm ii => exact execPshm_unheld h ii hw
  | pulm ii => exact execPulm_unheld h ii hw
  -- the multiply and accumulate unit
  | ldhi => exact commit_unheld (loaded_unheld h fun _ => rfl)
  | mac xo yo => exact execMac_unheld h xo yo
  | rmac xo yo => exact commit_unheld (rmacLoop_unheld _ h false xo yo)
  | pshmac => exact cycles_unheld h (pushAll_sat s _) fun _ _ => rfl
  | pulmac => exact pulls_unheld h (leaveLatch_pulmacWrites _)
  -- several cases
  | daa => exact execDaa_unheld h
  | ediv | edivs => exact .ite (trap_unheld s _ _) (.ite h h)
  | fdiv => exact .ite h (.ite h h)
  | idiv => exact .ite h h
  | lpstop => exact execLpstop_unheld h
  | bgnd => exact .ite h (trap_unheld s _ _)
  -- registers alone
  | aix o | aiy o | aiz o | ais o => exact h
  | tab | tba | tde | ted | xgab | xgde | aba | ade | sba | sde | sxt | cba | tsta | tstb | tstd | tste | emul | emuls | fmuls | mul
  | deca | decb | inca | incb | clra | clrb | clrd | clre | coma | comb | comd | come | nega | negb | negd | nege
  | lsra | lsrb | lsrd | lsre | asla | aslb | asld | asle | asra | asrb | asrd | asre | rola | rolb | rold | role
  | rora | rorb | rord | rore | abx | aby | abz | adx | ady | adz | aex | aey | aez
  | tsx | tsy | tsz | txs | txy | txz | tys | tyx | tyz | tzs | tzx | tzy | xgdx | xgdy | xgdz | xgex | xgey | xgez
  | tbek | tbsk | tbxk | tbyk | tbzk | tekb | tskb | txkb | tykb | tzkb | tpa | tpd
  | ace | aced | aslm | asrm | clrm | tdmsk | tedm | tem | tmer | tmet | tmxed | wai | nop => exact h

theorem exec_unheld {i : Instr} {s t : State} (e : exec i s = .next t) (hi : ¬ HoldsOff i) (h : Unheld s) : Unheld t := by
  cases hw : i.wellFormed with
  | true => exact (exec_answers_unheld i hw hi h).of_next e
  | false =>
    obtain ⟨r, g⟩ := exec_illFormed i s hw
    exact nomatch g.symm.trans e

/-- ANDP, ORP, TAP and TDP set the latch. -/
theorem exec_held {i : Instr} {s t : State} (e : exec i s = .next t) (hi : HoldsOff i) : t.inhibit = true := by
  rcases hi with ⟨w, rfl⟩ | ⟨w, rfl⟩ | rfl | rfl <;> cases e <;> rfl

/-! ### The boundary -/

theorem input_cons {s : State} {h : HostInput} {l : List HostInput} (hl : s.inputs = h :: l) : s.input = h := by rw [State.input, hl]

/-- The step of a reset is the reset, whatever else the state and the input hold (R606). -/
theorem step_reset {s : State} (h : s.input.reset = true) : step s = takeReset s.nextInput := by
  have hb : boundary s = .over (takeReset s.nextInput) := if_pos h
  rw [step, hb]

/-- With the latch set no request of whatever level is looked at (R547, R662). -/
theorem boundary_held {s : State} (hr : s.run = .running) (hi : s.inhibit = true) (h0 : s.input.reset = false) (h1 : s.input.bkpt = false) :
    boundary s = .go s.begun := by
  simp only [boundary, State.begun, h0, h1, State.nextInput_run, hr, State.nextInput_inhibit, hi, Bool.false_eq_true, if_false, Bool.not_true, Bool.false_and]

/-- The stores of other agents do not look at the inputs. -/
theorem hostWrites_inputs (s : State) (l : List HostInput) (ws : List HostWrite) :
    ({ s with inputs := l }).hostWrites ws = { s.hostWrites ws with inputs := l } := by
  induction ws generalizing s with
  | nil => rfl
  | cons w ws ih =>
    have hw : ({ s with inputs := l }).hostWrite w = { s.hostWrite w with inputs := l } := by
      show (if s.kindAt w.space w.addr = .ram then _ else _) = _
      unfold State.hostWrite
      split <;> rfl
    show (({ s with inputs := l }).hostWrite w).hostWrites ws = _
    rw [hw, ih]
    rfl

section sameWrites

variable {s : State} {h g : HostInput} {l : List HostInput} (hl : s.inputs = h :: l) (hw : g.writes = h.writes)
include hl hw

theorem input_writes : ({ s with inputs := g :: l }).input.writes = s.input.writes := by
  rw [input_cons hl]
  exact hw

/-- Whatever else an input asks for, with the same stores of other agents an instruction begins in the same state (R99). -/
theorem begun_of_writes : ({ s with inputs := g :: l }).begun = s.begun := by
  have hn : ({ s with inputs := g :: l }).nextInput = s.nextInput := by
    rw [State.nextInput, State.nextInput, input_writes hl hw, hostWrites_inputs, hl]
    rfl
  rw [State.begun, State.begun, hn]

/-- With the same stores of other agents, the words about to be fetched are disturbed or not alike (R94). -/
theorem fetchDisturbed_of_writes : ({ s with inputs := g :: l }).fetchDisturbed = s.fetchDisturbed := by
  rw [State.fetchDisturbed, State.fetchDisturbed, input_writes hl hw]
  rfl

end sameWrites

/-- At a held boundary the step is the one with no request. -/
theorem step_held_irq {s : State} {h : HostInput} {l : List HostInput} (hl : s.inputs = h :: l) (hr : s.run = .running) (hi : s.inhibit = true)
    (h0 : h.reset = false) (h1 : h.bkpt = false) : step s = step { s with inputs := { h with irq := 0 } :: l } := by
  have hb : boundary s = .go s.begun := boundary_held hr hi (by rwa [input_cons hl]) (by rwa [input_cons hl])
  have hb' : boundary { s with inputs := { h with irq := 0 } :: l } = .go s.begun := by
    rw [← begun_of_writes (g := { h with irq := 0 }) hl rfl]
    exact boundary_held (s := { s with inputs := { h with irq := 0 } :: l }) hr hi h0 h1
  rw [step, step, hb, hb', fetchDisturbed_of_writes (g := { h with irq := 0 }) hl rfl]

/-- Settles O13: `exec_unheld` and `exec_held` for the latch, `boundary_held` for the boundary. -/
theorem interruptHoldOff : Obligations.InterruptHoldOff := by
  unfold Obligations.InterruptHoldOff
  refine ⟨fun i s t e h => ⟨fun ht => ?_, exec_held e⟩, fun s h l hl hr hi => ⟨fun h0 => ?_, step_held_irq hl hr hi, fun i h0 h1 hp hd hw hc hm => ?_⟩⟩
  · by_contra hn
    exact Bool.false_ne_true ((exec_unheld e hn h).symm.trans ht)
  · exact step_reset (by rwa [input_cons hl])
  · have ha : s.atInstruction = true := by
      simp only [State.atInstruction, input_cons hl, hr, h0, h1, hi, hp, hd, beq_self_eq_true, Bool.not_false, Bool.true_or, Bool.and_true]
    have e : s.begun = { s.nextInput with inhibit := false, heldOff := true } := by rw [State.begun, hi]
    rw [stepRunsDecodedInstruction s i ha hw hc (by rwa [e]), e]

end Sys2Proof.Machine

/-! ## PULM, and PSHM undone

PULM is followed mask bit by mask bit; with the mirrored mask it finds each word where PSHM has pushed it. -/

namespace Sys2Proof.Machine

/-! ### PULM, mask bit by mask bit -/

theorem pullEach_append (s : State) (fs gs : List (State → Word → State)) :
    pullEach s (fs ++ gs) = (pullEach s fs).bind fun _ t => pullEach t gs := by
  induction fs generalizing s with
  | nil => rfl
  | cons f fs ih => simp only [List.cons_append, pullEach, Bus.bind_assoc, ih]

/-- The loads of PULM's mask bits below `j`. -/
def pulmLoads (ii : Byte) (j : Nat) : List (State → Word → State) :=
  (((pulmWrites.zipIdx 0).take j).filter fun p => ii.getLsbD p.2).map fun p => p.1

theorem selectedBelow_succ (ii : Byte) (j : Nat) : selectedBelow ii (j + 1) = selectedBelow ii j + (ii.getLsbD j).toNat := by
  simp only [selectedBelow, List.range_succ, List.filter_append, List.length_append]
  cases h : ii.getLsbD j <;> simp [h]

theorem pulmLoads_succ (ii : Byte) (j : Nat) (hj : j < pulmWrites.length) :
    pulmLoads ii (j + 1) = pulmLoads ii j ++ if ii.getLsbD j then [pulmWrites[j]] else [] := by
  have hz : j < (pulmWrites.zipIdx 0).length := by simpa using hj
  rw [pulmLoads, List.take_succ_eq_append_getElem hz, List.filter_append, List.map_append, List.getElem_zipIdx, Nat.zero_add]
  cases h : ii.getLsbD j <;> simp [h, pulmLoads]

theorem withSP20_sp20_self (s : State) : s.withSP20 s.sp20 = s := by
  simp only [State.withSP20, State.sp20, joined_high, joined_low]

theorem pulledBelow_zero (s : State) (ii : Byte) : s.pulledBelow ii 0 = s := by
  have e : s.sp20 + BitVec.ofNat 20 (2 * selectedBelow ii 0) = s.sp20 := BitVec.add_zero _
  simp only [State.pulledBelow, Nat.not_lt_zero, false_and, if_false, e, withSP20_sp20_self]

theorem pulledBelow_sp20 (s : State) (ii : Byte) (j : Nat) : (s.pulledBelow ii j).sp20 = s.sp20 + BitVec.ofNat 20 (2 * selectedBelow ii j) :=
  State.withSP20_sp20 s _

theorem pullAddr_eq (s : State) (k : Nat) : s.sp20 + BitVec.ofNat 20 (2 * k) + 2#20 = s.pullAddr k := by
  rw [State.pullAddr, BitVec.ofNat_add, BitVec.add_assoc]

/-- A mask bit that is clear: nothing is pulled. -/
theorem pulledBelow_succ_clear (s : State) (ii : Byte) (j : Nat) (hb : ii.getLsbD j = false) : s.pulledBelow ii (j + 1) = s.pulledBelow ii j := by
  have hn : selectedBelow ii (j + 1) = selectedBelow ii j := by rw [selectedBelow_succ, hb]; rfl
  have hi (i : Nat) : (i < j + 1 ∧ ii.getLsbD i = true) ↔ (i < j ∧ ii.getLsbD i = true) := by
    constructor
    · rintro ⟨hlt, hs⟩
      have : i ≠ j := by rintro rfl; exact Bool.false_ne_true (hb.symm.trans hs)
      exact ⟨by omega, hs⟩
    · exact fun ⟨hlt, hs⟩ => ⟨by omega, hs⟩
  simp only [State.pulledBelow, hn, hi]

/-- A mask bit that is set: the next word is loaded into its register. -/
theorem pulledBelow_succ_set (s : State) (ii : Byte) (j : Nat) (hj : j < pulmWrites.length) (hb : ii.getLsbD j = true) :
    s.pulledBelow ii (j + 1) =
      pulmWrites[j] ((s.pulledBelow ii j).withSP20 (s.pullAddr (selectedBelow ii j))) (s.wordAt .data (s.pullAddr (selectedBelow ii j))) := by
  have hn : s.sp20 + BitVec.ofNat 20 (2 * selectedBelow ii (j + 1)) = s.pullAddr (selectedBelow ii j) := by
    rw [selectedBelow_succ, hb]; rfl
  have hj7 : j < 7 := hj
  simp only [State.pulledBelow, hn]
  interval_cases j
  all_goals
    simp only [hb, and_true, true_and, false_and, if_true, if_false, Nat.reduceLT, Nat.reduceAdd]
    rfl

/-- PULM's loads of the mask bits below `j`, where memory answers. -/
theorem pulmLoads_ready (s : State) (ii : Byte) (j : Nat) (hj : j ≤ pulmWrites.length)
    (h : ∀ i, i < j → ii.getLsbD i = true → s.canRead16 .data (s.pullAddr (selectedBelow ii i)) = true) :
    pullEach s (pulmLoads ii j) = .ok () (s.pulledBelow ii j) := by
  induction j with
  | zero => rw [pulledBelow_zero]; rfl
  | succ j ih =>
    rw [pulmLoads_succ ii j hj, pullEach_append, ih (by omega) fun i hi => h i (by omega), Bus.bind_ok]
    cases hb : ii.getLsbD j with
    | false =>
      rw [pulledBelow_succ_clear s ii j hb]
      rfl
    | true =>
      have ha : (s.pulledBelow ii j).sp20 + 2#20 = s.pullAddr (selectedBelow ii j) := by rw [pulledBelow_sp20, pullAddr_eq]
      have hr : (s.pulledBelow ii j).canRead16 .data ((s.pulledBelow ii j).sp20 + 2#20) = true := by
        rw [ha]
        exact h j (by omega) hb
      rw [if_pos rfl, pullEach, pull16_ready _ hr, Bus.bind_ok, ha, pulledBelow_succ_set s ii j hj hb]
      rfl

/-- Settles O51: PULM is a run of pulls of the selected registers, followed mask bit by mask bit. -/
theorem pullMultiple : Obligations.PullMultiple := by
  unfold Obligations.PullMultiple
  intro s ii h7 h
  have hp : pullEach s (pulmLoads ii 7) = .ok () (s.pulledBelow ii 7) := pulmLoads_ready s ii 7 (Nat.le_refl _) h
  have e : execPulm ii s = .next ((s.pulledBelow ii 7).advance 2) := by
    rw [execPulm_eq s ii h7]
    show commit ((pullEach s (pulmLoads ii 7)).bind _) = _
    rw [hp]
    rfl
  exact e.trans (next_advance (advance_eq _ 2))

/-! ### The words of a mask -/

/-- How many of the elements are selected by their places. -/
theorem filter_zipIdx_length {α : Type} (l : List α) (p : Nat → Bool) :
    ((l.zipIdx 0).filter fun q => p q.2).length = ((List.range l.length).filter p).length := by
  rw [List.range_eq_range', ← List.zipIdx_map_snd 0 l, List.filter_map, List.length_map]
  rfl

/-- Of the elements selected by their places, one at a selected place stands after as many as are selected before it. -/
theorem filter_zipIdx_getElem? {α : Type} (l : List α) (p : Nat → Bool) (i : Nat) (hi : i < l.length) (hp : p i = true) :
    (((l.zipIdx 0).filter fun q => p q.2).map fun q => q.1)[((List.range i).filter p).length]? = some l[i] := by
  have hl : (l.take i).length = i := List.length_take_of_le (by omega)
  have hn := filter_zipIdx_length (l.take i) p
  rw [hl] at hn
  have e : l = l.take i ++ l[i] :: l.drop (i + 1) := by rw [List.getElem_cons_drop, List.take_append_drop]
  have hz : l.zipIdx 0 = (l.take i).zipIdx 0 ++ (l[i], i) :: (l.drop (i + 1)).zipIdx (i + 1) := by
    conv_lhs => rw [e]
    rw [List.zipIdx_append, List.zipIdx_cons, hl, Nat.zero_add]
  rw [hz, List.filter_append, List.filter_cons_of_pos (p := fun q : α × Nat => p q.2) hp, List.map_append, List.map_cons, List.getElem?_append_right (by simp [hn]), List.length_map, hn,
    Nat.sub_self]
  rfl

theorem selectedWords_length_eq (s : State) (ii : Byte) : (s.selectedWords ii).length = selectedBelow ii 7 := by
  rw [← selectedWords_eq, List.length_map]
  exact filter_zipIdx_length (pshmWords s) fun i => ii.getLsbD i

/-- The word PSHM pushes for a mask bit. -/
theorem selectedWords_getElem? (s : State) (ii : Byte) (i : Nat) (hi : i < (pshmWords s).length) (hb : ii.getLsbD i = true) :
    (s.selectedWords ii)[selectedBelow ii i]? = some (pshmWords s)[i] := by
  rw [← selectedWords_eq]
  exact filter_zipIdx_getElem? (pshmWords s) (fun i => ii.getLsbD i) i hi hb

/-- With the mirrored mask, the bits below `j` and the bits from `7 - j` on are the same registers. -/
theorem selectedBelow_mirrored {ii jj : Byte} (hm : ∀ k, k < 7 → jj.getLsbD k = ii.getLsbD (6 - k)) (j : Nat) (hj : j ≤ 7) :
    selectedBelow jj j + selectedBelow ii (7 - j) = selectedBelow ii 7 := by
  induction j with
  | zero => exact Nat.zero_add _
  | succ j ih =>
    have hi := selectedBelow_succ ii (6 - j)
    rw [show 6 - j + 1 = 7 - j by omega] at hi
    rw [selectedBelow_succ, hm j (by omega), show 7 - (j + 1) = 6 - j by omega, ← ih (by omega), hi]
    omega

/-! ### PSHM undone -/

/-- The stack of `u` holds what PSHM has pushed in `s`: SK : SP stands below the words, and the word of each mask bit can be read back. -/
structure Stacked (s u : State) (ii : Byte) : Prop where
  sp20 : u.sp20 = s.pushAddr (selectedBelow ii 7)
  word : ∀ i (hi : i < (pshmWords s).length), ii.getLsbD i = true →
    u.canRead16 .data (s.pushAddr (selectedBelow ii i)) = true ∧ u.wordAt .data (s.pushAddr (selectedBelow ii i)) = (pshmWords s)[i]

theorem pushedWords_word {s t : State} {l : List Word} (h : pushedWords s t l) {k : Nat} {w : Word} (hk : l[k]? = some w) :
    t.wordAt .data (s.pushAddr k) = w := by
  obtain ⟨-, hwords, -⟩ := h
  exact hwords (s.pushAddr k, w) (List.mem_map.mpr ⟨(w, k), List.mk_mem_zipIdx_iff_getElem?.mpr hk, rfl⟩)

/-- PSHM leaves its words on the stack, and they stay there as long as SK : SP and they are left alone. -/
theorem Stacked.of_pushedWords {s t u : State} {ii : Byte} (hw : ∀ k, k < (s.selectedWords ii).length → s.canWrite16 (s.pushAddr k) = true)
    (ht : pushedWords s t (s.selectedWords ii)) (hp : u.plat = s.plat)
    (hu : ∀ k, k < (s.selectedWords ii).length → u.wordAt .data (s.pushAddr k) = t.wordAt .data (s.pushAddr k)) (hsp : u.sp20 = t.sp20) : Stacked s u ii := by
  refine ⟨?_, fun i hi hb => ?_⟩
  · rw [hsp, ht.1, ← selectedWords_length_eq s]
    exact State.withSP20_sp20 s _
  · have hg := selectedWords_getElem? s ii i hi hb
    obtain ⟨hlt, -⟩ := List.getElem?_eq_some_iff.mp hg
    refine ⟨?_, ?_⟩
    · rw [canRead16_of_plat hp]
      exact canWrite16_readable s _ (hw _ hlt)
    · rw [hu _ hlt]
      exact pushedWords_word ht hg

/-- A pull of a run of pushes: `m` words were pushed before the word, `k` after it. -/
theorem pullAddr_of_pushAddr {s u : State} {m k : Nat} (h : u.sp20 = s.pushAddr (m + k + 1)) : u.pullAddr k = s.pushAddr m := by
  have e : 2 * (m + k + 1) = 2 * m + (2 * k + 2) := by omega
  rw [State.pullAddr, h, State.pushAddr, State.pushAddr, e, BitVec.ofNat_add]
  bv_omega

theorem mirrored_lt (s : State) (j : Nat) : 6 - j < (pshmWords s).length := Nat.lt_succ_of_le (Nat.sub_le 6 j)

section stacked

variable {s u : State} {ii jj : Byte} (h : Stacked s u ii) (hm : ∀ k, k < 7 → jj.getLsbD k = ii.getLsbD (6 - k))
include h hm

/-- The mirrored mask pulls each word from where it was pushed. -/
theorem Stacked.pullAddr (j : Nat) (hj : j < 7) (hb : ii.getLsbD (6 - j) = true) :
    u.pullAddr (selectedBelow jj j) = s.pushAddr (selectedBelow ii (6 - j)) := by
  have hn := selectedBelow_mirrored hm j (by omega)
  have hi := selectedBelow_succ ii (6 - j)
  rw [show 6 - j + 1 = 7 - j by omega, hb] at hi
  refine pullAddr_of_pushAddr (h.sp20.trans (congrArg _ ?_))
  rw [Bool.toNat_true] at hi
  omega

theorem Stacked.readable (j : Nat) (hj : j < 7) (hb : jj.getLsbD j = true) : u.canRead16 .data (u.pullAddr (selectedBelow jj j)) = true := by
  rw [hm j hj] at hb
  rw [h.pullAddr hm j hj hb]
  exact (h.word (6 - j) (mirrored_lt s j) hb).1

/-- What PULM loads from a selected word, in the form of `State.pulledBelow`. -/
theorem Stacked.loaded {α : Type} (j : Nat) (hj : j < 7) (hb : ii.getLsbD (6 - j) = true) (f : Word → α) (old : α) :
    (if j < 7 ∧ jj.getLsbD j = true then f (u.wordAt .data (u.pullAddr (selectedBelow jj j))) else old) =
      f ((pshmWords s)[6 - j]'(mirrored_lt s j)) := by
  rw [if_pos ⟨hj, (hm j hj).trans hb⟩, h.pullAddr hm j hj hb, (h.word (6 - j) (mirrored_lt s j) hb).2]

theorem Stacked.restored_sp20 : (u.pulledBelow jj 7).sp20 = s.sp20 := by
  have hn : selectedBelow jj 7 = selectedBelow ii 7 := selectedBelow_mirrored hm 7 (Nat.le_refl 7)
  rw [pulledBelow_sp20, h.sp20, hn, State.pushAddr]
  bv_omega

end stacked

theorem sk_sp_of_sp20 {s t : State} (h : t.sp20 = s.sp20) : t.sk = s.sk ∧ t.sp = s.sp := by
  have hk := congrArg (fun a : Addr => (a.extractLsb' 16 4 : Nib)) h
  have hp := congrArg (fun a : Addr => (a.extractLsb' 0 16 : Word)) h
  simpa only [State.sp20, joined_high, joined_low] using And.intro hk hp

/-- Settles O52: after PSHM the stack is `Stacked`, and PULM's pulls find its words there. -/
theorem pullUndoesPush : Obligations.PullUndoesPush := by
  unfold Obligations.PullUndoesPush
  intro s t u ii jj hi hj hm hw ht hp hu hsk hsp
  obtain ⟨t', ht', hpushed⟩ := (pushMultiple s).2 ii hi hw
  obtain rfl : { t' with pc := s.pcPlus 2 } = t := Host.Outcome.next.inj (ht'.symm.trans ht)
  have hst : Stacked s u ii := .of_pushedWords hw hpushed hp hu (by rw [State.sp20, hsk, hsp]; rfl)
  obtain ⟨hsk', hsp'⟩ := sk_sp_of_sp20 (hst.restored_sp20 hm)
  have hk := s.withK_k
  refine ⟨_, pullMultiple u jj hj fun j hlt hb => hst.readable hm j hlt hb, hsk', hsp', rfl, fun h => ⟨?a, ?b⟩, fun h => ?e, fun h => ?ix, fun h => ?iy,
    fun h => ?iz, fun h => ⟨?ek, ?xk, ?yk, ?zk⟩, fun h => ?ccr⟩
  case a => exact (hst.loaded hm 6 (by decide) h (fun w => (w.extractLsb' 8 8 : Byte)) u.a).trans (joined_high s.a s.b)
  case b => exact (hst.loaded hm 6 (by decide) h (fun w => (w.extractLsb' 0 8 : Byte)) u.b).trans (joined_low s.a s.b)
  case e => exact hst.loaded hm 5 (by decide) h id u.e
  case ix => exact hst.loaded hm 4 (by decide) h id u.ix
  case iy => exact hst.loaded hm 3 (by decide) h id u.iy
  case iz => exact hst.loaded hm 2 (by decide) h id u.iz
  case ek => exact (hst.loaded hm 1 (by decide) h (fun w => (w.extractLsb' 12 4 : Nib)) u.ek).trans (congrArg State.ek hk)
  case xk => exact (hst.loaded hm 1 (by decide) h (fun w => (w.extractLsb' 8 4 : Nib)) u.xk).trans (congrArg State.xk hk)
  case yk => exact (hst.loaded hm 1 (by decide) h (fun w => (w.extractLsb' 4 4 : Nib)) u.yk).trans (congrArg State.yk hk)
  case zk => exact (hst.loaded hm 1 (by decide) h (fun w => (w.extractLsb' 0 4 : Nib)) u.zk).trans (congrArg State.zk hk)
  case ccr => exact (hst.loaded hm 0 (by decide) h CCR.ofWord u.ccr).trans (CCR.ofWord_word s.ccr s.pkSeen)

end Sys2Proof.Machine

/-! ## The boundary, interrupts, breakpoints and reset -/

namespace Sys2Proof.Machine

/-! ### The boundary -/

/-- The mask test (R612). -/
theorem recognised_iff (s : State) (l : BitVec 3) :
    recognised s l = true ↔ s.ccr.ip.toNat < l.toNat ∨ (l = 7#3 ∧ s.plat.level7NonMaskable = true) := by
  rw [recognised, Bool.or_eq_true, Bool.and_eq_true, decide_eq_true_iff, beq_iff_eq]

/-- The stores of other agents leave the mask test as it is. -/
theorem nextInput_recognised (s : State) (l : BitVec 3) : recognised s.nextInput l = recognised s l := by
  rw [recognised, recognised, State.nextInput_ccr, State.nextInput_plat]

/-- A boundary that ends the step. -/
theorem step_over {s : State} {o : Out} (h : boundary s = .over o) : step s = o := by rw [step, h]

section boundaries

variable {s : State} (quietReset : s.input.reset = false)
include quietReset

/-- A halted machine and one in background mode look at reset alone (R606, R624). -/
theorem boundary_idle (h : s.run = .halted ∨ s.run = .background) : boundary s = .over (.next s.nextInput) := by
  rcases h with h | h <;> simp only [boundary, quietReset, State.nextInput_run, h, Bool.false_eq_true, if_false]

/-- A waiting machine and a stopped one look at reset and at the mask test (R589). -/
theorem boundary_waiting (h : s.run = .waiting ∨ s.run = .stopped) :
    boundary s = .over (if recognised s s.input.irq then takeInterrupt s.nextInput s.input.irq s.input.iack else .next s.nextInput) := by
  rw [← nextInput_recognised]
  rcases h with h | h <;> simp only [boundary, wake, quietReset, State.nextInput_run, h, Bool.false_eq_true, if_false]

/-- A running machine looks at the breakpoint, then at the mask test unless the latch holds it off (R606, R612, R631). -/
theorem boundary_running (h : s.run = .running) :
    boundary s =
      if s.input.bkpt then
        .over (if s.plat.bdmEnabled then .next { s.nextInput with run := .background, inhibit := false } else breakpoint { s.nextInput with inhibit := false })
      else if !s.inhibit && recognised { s.nextInput with inhibit := false } s.input.irq then
        .over (takeInterrupt { s.nextInput with inhibit := false } s.input.irq s.input.iack)
      else .go s.begun := by
  simp only [boundary, State.begun, quietReset, State.nextInput_run, State.nextInput_inhibit, State.nextInput_plat, h, Bool.false_eq_true, if_false]

/-- The breakpoint comes before any interrupt (R606, R631). -/
theorem step_breakpoint (h : s.run = .running) (hb : s.input.bkpt = true) :
    step s = if s.plat.bdmEnabled then .next { s.nextInput with run := .background, inhibit := false } else breakpoint { s.nextInput with inhibit := false } :=
  step_over ((boundary_running quietReset h).trans (if_pos hb))

/-- A running machine whose latch is clear takes the interrupt it recognises (R612). -/
theorem step_interrupt (h : s.run = .running) (hb : s.input.bkpt = false) (hi : s.inhibit = false) (hr : recognised s s.input.irq = true) :
    step s = takeInterrupt s.nextInput s.input.irq s.input.iack := by
  have clear : { s.nextInput with inhibit := false } = s.nextInput := by rw [State.nextInput_eq, ← hi]
  apply step_over
  rw [boundary_running quietReset h, hb, hi, clear, nextInput_recognised, hr]
  rfl

end boundaries

/-- Settles O18: a lemma for what each run state looks at, with `recognised_iff` for the mask test. -/
theorem boundaryOrder : Obligations.BoundaryOrder := by
  unfold Obligations.BoundaryOrder
  intro s
  dsimp only
  rw [← recognised_iff]
  refine ⟨step_reset, fun h0 hr => step_over (boundary_idle h0 hr), fun h0 hr heard => ?_, fun h0 hr unheard => ?_, fun h0 hr hb on => ?_,
    fun h0 hr hb off => ?_, fun h0 hr hb hi heard => step_interrupt h0 hr hb hi heard⟩
  · rw [step_over (boundary_waiting h0 hr), if_pos heard]
  · rw [step_over (boundary_waiting h0 hr), if_neg unheard]
  · rw [step_breakpoint h0 hr hb, if_pos on]
  · rw [step_breakpoint h0 hr hb, if_neg (Bool.eq_false_iff.mp off)]

/-! ### Interrupts and breakpoints -/

/-- An interrupt taken through the vector its acknowledge names (R604, R610, R615). -/
theorem takeInterrupt_entered {s : State} {l : BitVec 3} {r : IackResult} {n : Byte} (stack : s.canStackFrame = true) (hn : vectorOf s.plat l r = n)
    (hv : s.canRead16 .data (BitVec.ofNat 20 (2 * n.toNat)) = true) :
    ∃ t, takeInterrupt s l r = .next t ∧ Entered s t n s.pc l [.interruptAcknowledge l] := by
  rw [← vectorAddr_eq] at hv
  rw [takeInterrupt, hn]
  exact enterException_ram s n s.pc (some l) stack hv

/-- Settles O19: each answer is `takeInterrupt_entered` with its vector; a breakpoint is no interrupt and raises no mask. -/
theorem interruptAndBreakpointEntry : Obligations.InterruptAndBreakpointEntry := by
  unfold Obligations.InterruptAndBreakpointEntry
  intro s l stack
  refine ⟨fun n hv => takeInterrupt_entered stack rfl hv, fun n hn hv => takeInterrupt_entered stack ?_ hv, fun hv => takeInterrupt_entered stack rfl hv,
    fun hv => takeInterrupt_entered stack rfl hv, fun hv => ?_⟩
  · have lt := l.isLt
    apply BitVec.eq_of_toNat_eq
    rw [hn, vectorOf, BitVec.toNat_add, BitVec.toNat_setWidth_of_le (by decide)]
  · rw [← vectorAddr_eq] at hv
    exact enterException_ram s s.plat.vecBkpt s.pc none stack hv

/-! ### Reset -/

/-- The four RESET words (R650). -/
def State.resetWords (s : State) : List Word := (List.range 4).map fun k => s.wordAt .prog (BitVec.ofNat 20 (2 * k))

/-- The state after the reset sequence. -/
def State.restarted (s : State) : State :=
  { scramble s with
    zk := s.plat.resetLayout.zk.read 4 s.resetWords
    sk := s.plat.resetLayout.sk.read 4 s.resetWords
    pc := evenAddr (s.plat.resetLayout.pk.read 4 s.resetWords ++ s.plat.resetLayout.pc.read 16 s.resetWords)
    sp := s.plat.resetLayout.sp.read 16 s.resetWords
    iz := s.plat.resetLayout.iz.read 16 s.resetWords
    inhibit := false
    run := .running }

/-- Reset where memory answers (R650). -/
theorem takeReset_ready (s : State) (h0 : s.canRead16 .prog 0#20 = true) (h2 : s.canRead16 .prog 2#20 = true) (h4 : s.canRead16 .prog 4#20 = true)
    (h6 : s.canRead16 .prog 6#20 = true) : takeReset s = .next s.restarted := by
  have h : resetSequence s = .ok () s.restarted := by
    rw [resetSequence, read16_ready s .prog 0 h0, Bus.bind_ok, read16_ready s .prog 2 h2, Bus.bind_ok, read16_ready s .prog 4 h4, Bus.bind_ok,
      read16_ready s .prog 6 h6]
    rfl
  rw [takeReset, h]

/-- What stands in a place of the RESET words: there are four of them, and a field placed in none reads as 0. -/
def State.resetField (s : State) (p : Slot) (width : Nat) : Nat :=
  (if p.word < 4 then (s.wordAt .prog (BitVec.ofNat 20 (2 * p.word))).toNat else 0) / 2 ^ p.lo % 2 ^ width

theorem resetWords_getD (s : State) (k : Nat) :
    (s.resetWords.getD k 0).toNat = if k < 4 then (s.wordAt .prog (BitVec.ofNat 20 (2 * k))).toNat else 0 := by
  rw [State.resetWords, List.getD_eq_getElem?_getD, List.getElem?_map]
  by_cases h : k < 4
  · rw [List.getElem?_range h, if_pos h]
    rfl
  · rw [List.getElem?_eq_none (by simpa using h), if_neg h]
    rfl

theorem read_resetWords (s : State) (p : Slot) (width : Nat) : (p.read width s.resetWords).toNat = s.resetField p width := by
  rw [Slot.read, BitVec.toNat_setWidth, BitVec.toNat_ushiftRight, Nat.shiftRight_eq_div_pow, resetWords_getD, State.resetField]

/-- PK : PC from its two fields, rounded down (R33, R650). -/
theorem restarted_pc_toNat (s : State) :
    s.restarted.pc.toNat = (s.resetField s.plat.resetLayout.pk 4 * 65536 + s.resetField s.plat.resetLayout.pc 16) / 2 * 2 := by
  have hk := (s.plat.resetLayout.pk.read 4 s.resetWords).isLt
  have hc := (s.plat.resetLayout.pc.read 16 s.resetWords).isLt
  show (evenAddr (s.plat.resetLayout.pk.read 4 s.resetWords ++ s.plat.resetLayout.pc.read 16 s.resetWords)).toNat = _
  rw [evenAddr_eq, roundedDown, BitVec.toNat_ofNat, toNat_join, ← read_resetWords, ← read_resetWords]
  omega

/-- The fields of the default layout, and the words that hold a whole register (log entry 3). -/
theorem resetField_default (s : State) :
    let l := ResetLayout.default
    let w (k : Nat) : Word := s.wordAt .prog (BitVec.ofNat 20 (2 * k))
    s.resetField l.zk 4 = (w 0).toNat / 256 % 16 ∧ s.resetField l.sk 4 = (w 0).toNat / 16 % 16 ∧ s.resetField l.pk 4 = (w 0).toNat % 16 ∧
      s.resetField l.pc 16 = (w 1).toNat ∧ s.resetField l.sp 16 = (w 2).toNat ∧ s.resetField l.iz 16 = (w 3).toNat := by
  have whole (x : Word) : x.toNat / 1 % 65536 = x.toNat := by rw [Nat.div_one, Nat.mod_eq_of_lt x.isLt]
  refine ⟨rfl, rfl, ?_, whole _, whole _, whole _⟩
  exact congrArg (· % 16) (Nat.div_one _)

end Sys2Proof.Machine

namespace Sys2Proof

open Sys2Proof.Machine

/-- Settles O23: `restarted` is what reset leaves, and `read_resetWords` finds each field in the RESET words. -/
theorem resetSequence : Obligations.ResetSequence := by
  unfold Obligations.ResetSequence
  intro s hr h0 h2 h4 h6
  have reads {a : Addr} (h : s.canRead16 .prog a = true) : s.nextInput.canRead16 .prog a = true := by rwa [canRead16_of_plat s.nextInput_plat]
  have hstep : step s = .next s.nextInput.restarted := (step_reset hr).trans (takeReset_ready s.nextInput (reads h0) (reads h2) (reads h4) (reads h6))
  have field (p : Slot) (width : Nat) := read_resetWords s.nextInput p width
  have hpc := restarted_pc_toNat s.nextInput
  have layout : s.nextInput.plat.resetLayout = s.plat.resetLayout := by rw [State.nextInput_plat]
  have hzk : s.nextInput.restarted.zk.toNat = _ := field _ 4
  have hsk : s.nextInput.restarted.sk.toNat = _ := field _ 4
  have hsp : s.nextInput.restarted.sp.toNat = _ := field _ 16
  have hiz : s.nextInput.restarted.iz.toNat = _ := field _ 16
  rw [layout] at hzk hsk hsp hiz hpc
  refine ⟨_, hstep, hzk, hsk, hpc, hsp, hiz, fun hl => ?_, rfl, rfl, rfl, rfl, s.nextInput_plat, s.nextInput_events, s.nextInput_replies, s.nextInput_inputs⟩
  obtain ⟨dzk, dsk, dpk, dpc, dsp, diz⟩ := resetField_default s.nextInput
  rw [hl] at hzk hsk hsp hiz hpc
  rw [dpk, dpc] at hpc
  exact ⟨hzk.trans dzk, hsk.trans dsk, hpc, BitVec.eq_of_toNat_eq (hsp.trans dsp), BitVec.eq_of_toNat_eq (hiz.trans diz)⟩

end Sys2Proof

/-! ## The multiply and accumulate unit -/

namespace Sys2Proof.Machine

/-! ### Accumulator M -/

/-- Half of a value, rounded down. -/
theorem sshiftRight_one {w : Nat} (v : BitVec w) : v.sshiftRight 1 = BitVec.ofInt w (v.toInt / 2) := (Prod.mk.inj (asrFlags_eq CCR.reset v)).1

/-- E above a word of zeros, as TEM loads it (R573). -/
theorem word_above_zeros (e : Word) : (e ++ (0 : Word) : Long).toInt = e.toInt * 65536 := by
  have h : (e ++ (0 : Word) : Long).toNat = e.toNat * 2 ^ 16 + (0 : Word).toNat := toNat_join e 0
  have z : (0 : Word).toNat = 0 := rfl
  have l := e.isLt
  rw [BitVec.toInt_eq_toNat_cond, BitVec.toInt_eq_toNat_cond, h, z]
  split <;> split <;> omega

/-- AM is its three pieces, the top one signed (R576). -/
theorem am_signed_sum (x : Acc36) :
    ((x.extractLsb' 32 4 : Nib).signExtend 16).toInt * 4294967296 + (x.extractLsb' 16 16 : Word).toNat * 65536 + (x.extractLsb' 0 16 : Word).toNat = x.toInt := by
  have h := am_sum x
  have l0 := (x.extractLsb' 0 16).isLt
  have l1 := (x.extractLsb' 16 16).isLt
  have l2 := (x.extractLsb' 32 4).isLt
  rw [BitVec.toInt_signExtend_of_le (by decide), BitVec.toInt_eq_toNat_cond, BitVec.toInt_eq_toNat_cond, h]
  split <;> split <;> omega

/-- Settles O54: the sums are `macAdd_eq`, the shift `sshiftRight_one`, and AM is put together by `am_signed_sum`. -/
theorem accumulatorMAddsShiftsAndTransfers : Obligations.AccumulatorMAddsShiftsAndTransfers := by
  unfold Obligations.AccumulatorMAddsShiftsAndTransfers
  intro s
  dsimp only
  refine ⟨?ace, ?aced, ?aslm, ?asrm, ?clrm, ?tedm, ?tem, ?tdmsk, ?tmxed⟩
  case ace =>
    show execAce s = _
    rw [execAce, inherent, macAdd_eq, advance_eq]
    rfl
  case aced =>
    show execAced s = _
    rw [execAced, inherent, macAdd_eq, advance_eq, ovf36_eq]
    rfl
  case aslm =>
    show execAslm s = _
    simp only [execAslm, inherent, macAdd_eq, advance_eq, BitVec.msb_eq_toInt, ← Int.two_mul]
    rfl
  case asrm =>
    show execAsrm s = _
    simp only [execAsrm, inherent, advance_eq, BitVec.msb_eq_toInt, evTest_eq, sshiftRight_one, bit0_eq]
    rfl
  case clrm => exact next_advance (advance_eq _ 2)
  case tedm => exact next_advance (advance_eq _ 2)
  case tem => exact next_update (loadAM s) (congrArg (BitVec.ofInt 36) (word_above_zeros s.e))
  case tdmsk => exact next_advance (advance_eq _ 2)
  case tmxed => exact ⟨_, _, _, next_advance (advance_eq _ 2), am_signed_sum s.am⟩

/-! ### LDHI, MAC and a pass of RMAC -/

/-- The default of MAC_QUALIFY, bit by bit (R560 (e)). -/
theorem standardQualify_getLsbD (r : Word) (off : Nib) (msk : Byte) (i : Nat) (hi : i < 16) :
    (standardQualify r off msk).getLsbD i = if i < 8 ∧ msk.getLsbD i = true then (BitVec.ofInt 16 (r.toNat + off.toInt)).getLsbD i else r.getLsbD i := by
  have sum : r + off.signExtend 16 = BitVec.ofInt 16 (r.toNat + off.toInt) := by
    rw [BitVec.ofInt_add, BitVec.ofInt_natCast, BitVec.ofNat_toNat, BitVec.setWidth_eq]
    rfl
  simp only [standardQualify, BitVec.getLsbD_or, BitVec.getLsbD_and, BitVec.getLsbD_not, BitVec.getLsbD_setWidth, hi, decide_true, Bool.true_and, sum]
  by_cases h8 : i < 8
  · cases msk.getLsbD i <;> simp [h8]
  · simp [h8, BitVec.getLsbD_of_ge msk i (by omega)]

/-- HR and IR loaded from memory that answers, then what `f` writes. -/
theorem loadHR_loadIR_ready {t : State} (hx : t.canRead16 .data t.x20 = true) (hy : t.canRead16 .data t.y20 = true) (f : State → State) :
    ((loadHR t).bind fun _ u => (loadIR u).bind fun _ v => .ok () (f v)) =
      .ok () (f { t with hr := t.wordAt .data t.x20, ir := t.wordAt .data t.y20 }) := by
  have hy' : ({ t with hr := t.wordAt .data t.x20 } : State).canRead16 .data ({ t with hr := t.wordAt .data t.x20 } : State).y20 = true := hy
  rw [loadHR_ready t hx, Bus.bind_ok, loadIR_ready _ hy', Bus.bind_ok]
  rfl

/-- A pass of RMAC up to its loads, as facts about integers (R570). -/
theorem rmacSummed_eq (s : State) (xo yo : Nib) :
    let sum : Int := s.am.toInt + (BitVec.ofInt 32 (2 * (s.hr.toInt * s.ir.toInt)) : Long).toInt
    s.rmacSummed false xo yo =
      { s with
        am := BitVec.ofInt 36 sum
        sl := if signedFits 36 sum = false ∧ s.ccr.mv = false then decide (sum < 0) else s.sl
        ccr :=
          { s.ccr with
            mv := s.ccr.mv || !signedFits 36 sum
            ev := !signedFits 32 (BitVec.ofInt 36 sum).toInt
            v := decide (s.hr.toInt = -32768 ∧ s.ir.toInt = -32768) }
        ix := qualify s.plat s.ix xo s.xmsk
        iy := qualify s.plat s.iy yo s.ymsk } := by
  rw [State.rmacSummed, macAdd_eq, Bool.false_or, bothMinusOne_eq]
  rfl

/-- MAC does what a pass of RMAC does, and keeps the product in E : D and the old HR in IZ (R567). -/
theorem macSummed_eq (s : State) (xo yo : Nib) :
    s.macSummed xo yo = { (s.rmacSummed false xo yo).withED (BitVec.ofInt 32 (2 * (s.hr.toInt * s.ir.toInt))) with iz := s.hr } := rfl

/-- Settles O56: the sum is `rmacSummed_eq`, the loads are `loadHR_loadIR_ready`. -/
theorem loadAndMultiplyAccumulate : Obligations.LoadAndMultiplyAccumulate := by
  unfold Obligations.LoadAndMultiplyAccumulate
  intro s
  dsimp only
  refine ⟨fun hq r off msk i hi => ?_, fun hx hy => ?_, fun xo yo hx hy => ?_⟩
  · rw [qualify, hq]
    exact standardQualify_getLsbD r off msk i hi
  · show execLdhi s = _
    rw [execLdhi, loadHR_loadIR_ready hx hy (·.advance 2)]
    exact next_advance (advance_eq _ 2)
  · have run : exec (.mac xo yo) s = commit ((loadHR (s.macSummed xo yo)).bind fun _ u => (loadIR u).bind fun _ v => .ok () (v.advance 2)) := rfl
    rw [run, loadHR_loadIR_ready (t := s.macSummed xo yo) hx hy (·.advance 2), macSummed_eq, rmacSummed_eq]
    exact next_advance (advance_eq _ 2)

/-! ### RMAC -/

/-- RMAC is split where the next step would take an interrupt (R570, R662). -/
theorem rmacYields_iff (s : State) :
    rmacYields s = true ↔ s.plat.rmacInterruptible = true ∧ s.heldOff = false ∧ ∃ h l, s.inputs = h :: l ∧ h.reset = false ∧ h.bkpt = false ∧
      (s.ccr.ip.toNat < h.irq.toNat ∨ (h.irq = 7#3 ∧ s.plat.level7NonMaskable = true)) := by
  rw [rmacYields]
  cases s.inputs with
  | nil => simp
  | cons h l =>
    simp only [Bool.and_eq_true, Bool.not_eq_true', recognised_iff, List.cons.injEq, and_assoc]
    exact ⟨fun g => ⟨g.1, g.2.1, h, l, rfl, rfl, g.2.2⟩, fun ⟨g1, g2, h', l', e, _, g3⟩ => e ▸ ⟨g1, g2, g3⟩⟩

theorem msb_of_toInt_neg {x : Word} (h : x.toInt < 0) : x.msb = true := by rw [BitVec.msb_eq_toInt, decide_eq_true h]

theorem msb_of_toInt_nonneg {x : Word} (h : 0 ≤ x.toInt) : x.msb = false := by rw [BitVec.msb_eq_toInt, decide_eq_false (by omega)]

/-- RMAC goes on after a pass as an RMAC of its own, its V or-ed with that pass's (R570). -/
theorem rmac_continues {s : State} {xo yo : Nib} (h : s.macReady) (hm : (s.e - 1#16).msb = false) (hy : rmacYields s = false) :
    ∃ t, exec (.rmac xo yo) (s.rmacPassed false xo yo) = .next t ∧
      exec (.rmac xo yo) s = .next { t with ccr := { t.ccr with v := (s.rmacPassed false xo yo).ccr.v || t.ccr.v } } := by
  have left := (rmacEnd_more s.e hm).1
  obtain ⟨t, loop, -, -⟩ := rmacLoop_ready 65535 (s.rmacPassed false xo yo) h xo yo
    (fun g => by
      rw [rmacPassed_e] at g ⊢
      have := BitVec.msb_eq_false_iff_two_mul_lt.1 g
      bv_omega) (by decide)
  have rest (m : Nat) (v : Bool) (hm : 65535 ≤ m) : rmacLoop m (s.rmacPassed false xo yo) v xo yo = .ok () (t.orV v) :=
    loop m v (s.rmacPassed false xo yo).ccr.v hm
  refine ⟨t, ?_, ?_⟩
  · show commit (rmacLoop 65536 _ false xo yo) = _
    rw [rest 65536 false (by decide)]
    rfl
  · show commit (rmacLoop (65535 + 1) s false xo yo) = _
    rw [rmacLoop_succ 65535 s h, hm, hy, rest 65535 _ (by decide)]
    rfl

/-- RMAC that is not split runs to its end (R570). -/
theorem rmac_ends {s : State} {xo yo : Nib} (h : s.macReady) (hy : rmacYields s = false) :
    ∃ t, exec (.rmac xo yo) s = .next t ∧ RmacFrame s t ∧ t.pc = s.pc + 2#20 ∧ t.e = rmacEnd s.e := by
  obtain ⟨t, loop, frame, last⟩ := rmacLoop_ready 65536 s h xo yo (fun g => by
    have := (rmacEnd_more s.e g).1
    omega) (by decide)
  refine ⟨t, ?_, frame, last hy⟩
  show commit (rmacLoop 65536 { s with ccr := { s.ccr with v := s.ccr.v } } false xo yo) = _
  rw [loop 65536 false s.ccr.v (Nat.le_refl _)]
  rfl

/-- Settles O57: a pass is `rmacPassed`, followed by one of the cases of `rmacLoop_succ`. -/
theorem repeatingMultiplyAccumulate : Obligations.RepeatingMultiplyAccumulate := by
  unfold Obligations.RepeatingMultiplyAccumulate
  intro s xo yo ready sum x y passed splits
  have hpassed : s.rmacPassed false xo yo = passed := by
    rw [State.rmacPassed, rmacSummed_eq]
    rfl
  have hsplits : rmacYields s = true ↔ splits := rmacYields_iff s
  have one : exec (.rmac xo yo) s = commit (rmacLoop (65535 + 1) s false xo yo) := rfl
  clear_value passed splits
  subst hpassed
  rw [← hsplits]
  refine ⟨fun he => ?_, fun he hy => ?_, fun he hy => rmac_continues ready (msb_of_toInt_nonneg he) (Bool.eq_false_iff.mpr hy), fun hy => ?_⟩
  · rw [one, rmacLoop_succ 65535 s ready, msb_of_toInt_neg he, if_pos rfl]
    exact next_advance (advance_eq _ 2)
  · rw [one, rmacLoop_succ 65535 s ready, msb_of_toInt_nonneg he, hy]
    rfl
  · obtain ⟨t, run, frame, hpc, he⟩ := rmac_ends (xo := xo) (yo := yo) ready (Bool.eq_false_iff.mpr hy)
    refine ⟨t, run, he, ?_⟩
    rw [← pcPlus_eq, ← hpc]
    exact frame

/-! ### PSHMAC and PULMAC -/

/-- A field above another in a word, as numbers. -/
theorem field_above {v w : Nat} (n : Nat) (x : BitVec w) (y : BitVec v) (h : v ≤ n) :
    x.setWidth 16 <<< n ||| y.setWidth 16 = BitVec.ofNat 16 (x.toNat * 2 ^ n + y.toNat) := by
  have small : y.toNat < 2 ^ n := Nat.lt_of_lt_of_le y.isLt (Nat.pow_le_pow_right (by decide) h)
  apply BitVec.eq_of_getLsbD_eq
  intro i hi
  rw [BitVec.getLsbD_or, BitVec.getLsbD_shiftLeft, BitVec.getLsbD_setWidth, BitVec.getLsbD_setWidth, BitVec.getLsbD_ofNat, Nat.mul_comm,
    Nat.testBit_two_pow_mul_add _ small]
  by_cases hn : i < n
  · simp [hi, hn, BitVec.getLsbD]
  · have above : y.toNat.testBit i = false := BitVec.getLsbD_of_ge y i (by omega)
    simp [hi, hn, above, BitVec.getLsbD, show i - n < 16 by omega]

/-- The default frame is six words, the last two of two fields each (log entry 14). -/
theorem macFrame_default {s : State} (h : s.plat.macFrame = MacFrame.default) :
    macFrame s = [s.hr, s.ir, s.am.extractLsb' 0 16, s.am.extractLsb' 16 16,
      (BitVec.ofBool s.sl).setWidth 16 <<< 15 ||| (s.am.extractLsb' 32 4 : Nib).setWidth 16, s.xmsk.setWidth 16 <<< 8 ||| s.ymsk.setWidth 16] := by
  rw [macFrame, h]
  show (List.range 6).map _ = _
  simp [List.range_succ, macFrameWord, h, MacFrame.default, Slot.place, BitVec.or_comm]

theorem am_word_toNat (x : Acc36) (n : Nat) : (x.extractLsb' n 16 : Word).toNat = x.toNat / 2 ^ n % 65536 := by
  rw [BitVec.extractLsb'_toNat, Nat.shiftRight_eq_div_pow]

theorem am_word (x : Acc36) (n : Nat) : (x.extractLsb' n 16 : Word) = BitVec.ofNat 16 (x.toNat / 2 ^ n) :=
  BitVec.eq_of_toNat_eq ((am_word_toNat x n).trans (BitVec.toNat_ofNat _ 16).symm)

theorem am_nibble_toNat (x : Acc36) : (x.extractLsb' 32 4 : Nib).toNat = x.toNat / 4294967296 := by
  have l := x.isLt
  rw [BitVec.extractLsb'_toNat, Nat.shiftRight_eq_div_pow]
  omega

/-- The default frame in numbers. -/
theorem macFrame_default_numbers {s : State} (h : s.plat.macFrame = MacFrame.default) :
    macFrame s =
      [s.hr, s.ir, BitVec.ofNat 16 s.am.toNat, BitVec.ofNat 16 (s.am.toNat / 65536), BitVec.ofNat 16 (s.sl.toNat * 32768 + s.am.toNat / 4294967296),
        BitVec.ofNat 16 (s.xmsk.toNat * 256 + s.ymsk.toNat)] := by
  have low : (s.am.extractLsb' 0 16 : Word) = BitVec.ofNat 16 s.am.toNat := (am_word s.am 0).trans (by rw [Nat.pow_zero, Nat.div_one])
  rw [macFrame_default h, low, am_word, field_above 15 _ _ (by decide), field_above 8 _ _ (by decide), am_nibble_toNat, BitVec.toNat_ofBool]
  rfl

/-- A field in its place in the frame, as numbers. -/
theorem macFrame_field {s : State} {w : Nat} {p : Slot} {v : BitVec w} (hp : p.word < s.plat.macFrame.words)
    (h : ∀ old, p.take p.word (macFrameWord s p.word) old = v) : ((macFrame s).getD p.word 0).toNat / 2 ^ p.lo % 2 ^ w = v.toNat := by
  rw [macFrame_getD s _ hp]
  exact Slot.take_toNat p _ 0 v (h 0)

/-- PSHMAC is a run of pushes (R568). -/
theorem pshmac_pushes (s : State) (hn : s.plat.macFrame.words ≤ 2 ^ 19)
    (hw : ∀ k, k < s.plat.macFrame.words → s.canWrite16 (s.pushAddr k) = true) :
    ∃ t, exec .pshmac s = .next { t with pc := s.pcPlus 2 } ∧ pushedWords s t (macFrame s) := by
  obtain ⟨t, run, pushed⟩ := pushAll_ready s (macFrame s) (by rwa [macFrame_length]) (by rwa [macFrame_length])
  refine ⟨t, ?_, pushed⟩
  have hpc : t.pc = s.pc := by rw [pushed.1]; rfl
  show execPshmac s = _
  rw [execPshmac, run, Bus.bind_ok, State.pcPlus, ← hpc]
  exact next_advance (advance_eq t 2)

/-- PULMAC loads each field from its place in the words it pulls (R569). -/
theorem pulmac_loads (s : State) (h : ∀ k, k < s.plat.macFrame.words → s.canRead16 .data (s.pullAddr k) = true) :
    let f := s.plat.macFrame
    let n := f.words
    exec .pulmac s =
      .next { s.withSP20 (s.sp20 + BitVec.ofNat 20 (2 * n)) with
        hr := f.hr.pulled s n s.hr
        ir := f.ir.pulled s n s.ir
        am := f.amHigh.pulled s n (s.am.extractLsb' 32 4 : Nib) ++
          (f.amMid.pulled s n (s.am.extractLsb' 16 16 : Word) ++ f.amLow.pulled s n (s.am.extractLsb' 0 16 : Word))
        sl := (f.sl.pulled s n (BitVec.ofBool s.sl)).getLsbD 0
        xmsk := f.xmsk.pulled s n s.xmsk
        ymsk := f.ymsk.pulled s n s.ymsk
        pc := s.pcPlus 2 } := by
  show execPulmac s = _
  rw [execPulmac_ready s h, pulmacWrites, pulledFrame]
  exact next_advance (advance_eq _ 2)

/-- What a field holds after the pull, as a number. -/
theorem Slot.pulled_eq {w : Nat} (p : Slot) (s : State) (n : Nat) (old : BitVec w) :
    p.pulled s n old =
      BitVec.ofNat w (if p.word < n then (s.wordAt .data (s.pullAddr (n - 1 - p.word))).toNat / 2 ^ p.lo % 2 ^ w else old.toNat) := by
  rw [← Slot.pulled_toNat, BitVec.ofNat_toNat, BitVec.setWidth_eq]

theorem am_number (h : Nib) (m l : Word) : (h ++ (m ++ l) : Acc36) = BitVec.ofNat 36 (h.toNat * 4294967296 + m.toNat * 65536 + l.toNat) := by
  have hs : (h ++ (m ++ l) : Acc36).toNat = h.toNat * 2 ^ 32 + (m ++ l).toNat := toNat_join h (m ++ l)
  have hh := h.isLt
  have hm := m.isLt
  have hl := l.isLt
  apply BitVec.eq_of_toNat_eq
  rw [hs, toNat_join, BitVec.toNat_ofNat]
  omega

theorem bit_number (x : BitVec 1) : x.getLsbD 0 = decide (x.toNat = 1) := by
  revert x
  decide

/-- SK : SP stands below the words PSHMAC has pushed in `s`, and each of them can be read back. -/
structure MacStacked (s u : State) : Prop where
  sp20 : u.sp20 = s.pushAddr s.plat.macFrame.words
  plat : u.plat = s.plat
  word : ∀ k, k < s.plat.macFrame.words →
    u.canRead16 .data (s.pushAddr k) = true ∧ u.wordAt .data (s.pushAddr k) = macFrameWord s k

/-- The frame stays on the stack as long as its words and SK : SP are left alone. -/
theorem MacStacked.of_pushedWords {s t u : State} (hw : ∀ k, k < s.plat.macFrame.words → s.canWrite16 (s.pushAddr k) = true)
    (ht : pushedWords s t (macFrame s)) (hp : u.plat = s.plat)
    (hu : ∀ k, k < s.plat.macFrame.words → u.wordAt .data (s.pushAddr k) = t.wordAt .data (s.pushAddr k)) (hsp : u.sp20 = t.sp20) : MacStacked s u := by
  refine ⟨?_, hp, fun k hk => ⟨?_, ?_⟩⟩
  · rw [hsp, ht.1, macFrame_length]
    exact State.withSP20_sp20 s _
  · rw [canRead16_of_plat hp]
    exact canWrite16_readable s _ (hw k hk)
  · have pushed : (macFrame s)[k]? = some (macFrameWord s k) := by simp [macFrame, hk]
    rw [hu k hk, pushedWords_word ht pushed]

section stacked

variable {s u : State} (h : MacStacked s u)
include h

/-- The word pushed after `k` others is pulled before those `k`. -/
theorem MacStacked.pullAddr {k : Nat} (hk : k < s.plat.macFrame.words) : u.pullAddr (s.plat.macFrame.words - 1 - k) = s.pushAddr k :=
  pullAddr_of_pushAddr (h.sp20.trans (congrArg _ (by omega)))

theorem MacStacked.readable {k : Nat} (hk : k < u.plat.macFrame.words) : u.canRead16 .data (u.pullAddr k) = true := by
  rw [h.plat] at hk
  have e := h.pullAddr (k := s.plat.macFrame.words - 1 - k) (by omega)
  rw [show s.plat.macFrame.words - 1 - (s.plat.macFrame.words - 1 - k) = k by omega] at e
  rw [e]
  exact (h.word _ (by omega)).1

/-- A field is pulled from the word it was pushed in. -/
theorem MacStacked.pulled {w : Nat} {p : Slot} {v : BitVec w} (hp : p.word < s.plat.macFrame.words)
    (hv : ∀ old, p.take p.word (macFrameWord s p.word) old = v) (old : BitVec w) : p.pulled u s.plat.macFrame.words old = v := by
  rw [Slot.pulled, if_pos hp, h.pullAddr hp, (h.word _ hp).2, ← hv old, Slot.take, if_pos rfl]

theorem MacStacked.restored_sp20 : u.withSP20 (u.sp20 + BitVec.ofNat 20 (2 * s.plat.macFrame.words)) = { u with sk := s.sk, sp := s.sp } := by
  rw [h.sp20, State.pushAddr, BitVec.sub_add_cancel]
  simp only [State.withSP20, State.sp20, joined_high, joined_low]

/-- PULMAC restores what a frame that fits holds (R569). -/
theorem MacStacked.restored (fits : s.plat.macFrame.fits = true) :
    exec .pulmac u =
      .next { u with
        sk := s.sk, sp := s.sp, hr := s.hr, ir := s.ir, am := s.am, sl := s.sl, xmsk := s.xmsk, ymsk := s.ymsk, pc := u.pcPlus 2 } := by
  obtain ⟨-, inFrame⟩ := MacFrame.fits_words _ fits
  obtain ⟨hr, ir, low, mid, high, sl, xmsk, ymsk⟩ := macFrameWord_take s fits
  have latch : (BitVec.ofBool s.sl).getLsbD 0 = s.sl := by cases s.sl <;> rfl
  rw [pulmac_loads u fun _ => h.readable, h.plat, h.pulled (inFrame _ (by simp)) hr, h.pulled (inFrame _ (by simp)) ir, h.pulled (inFrame _ (by simp)) low,
    h.pulled (inFrame _ (by simp)) mid, h.pulled (inFrame _ (by simp)) high, h.pulled (inFrame _ (by simp)) sl, h.pulled (inFrame _ (by simp)) xmsk,
    h.pulled (inFrame _ (by simp)) ymsk, am_pieces, latch, h.restored_sp20, ← h.plat]

end stacked

/-- Settles O58: PSHMAC is a run of pushes, PULMAC a run of pulls, and each field stands in one word of a frame that fits. -/
theorem macStateSavedAndRestored : Obligations.MacStateSavedAndRestored := by
  unfold Obligations.MacStateSavedAndRestored
  intro s
  dsimp only
  refine ⟨pshmac_pushes s, macFrame_default_numbers, ⟨macFrame_length s, fun fits => ?_⟩, fun read => ?_, fun t u fits hw run hp hu hsk hsp => ?_⟩
  · obtain ⟨-, inFrame⟩ := MacFrame.fits_words _ fits
    obtain ⟨hr, ir, low, mid, high, sl, xmsk, ymsk⟩ := macFrameWord_take s fits
    have field {w : Nat} {p : Slot} {v : BitVec w} (hm : p ∈ _) (h : ∀ old, p.take p.word (macFrameWord s p.word) old = v) := macFrame_field (inFrame p hm) h
    refine ⟨field (by simp) hr, field (by simp) ir, ?_, (field (by simp) sl).trans (BitVec.toNat_ofBool _), field (by simp) xmsk, field (by simp) ymsk⟩
    rw [field (by simp) high, field (by simp) mid, field (by simp) low]
    exact (am_sum s.am).symm
  · have low := (am_word_toNat s.am 0).trans (by rw [Nat.pow_zero, Nat.div_one])
    rw [pulmac_loads s read, am_number, Slot.pulled_toNat, Slot.pulled_toNat, Slot.pulled_toNat, am_nibble_toNat, am_word_toNat, low, bit_number,
      Slot.pulled_toNat, BitVec.toNat_ofBool, Slot.pulled_eq, Slot.pulled_eq, Slot.pulled_eq, Slot.pulled_eq]
    rfl
  · obtain ⟨small, -⟩ := MacFrame.fits_words _ fits
    obtain ⟨t', run', pushed⟩ := pshmac_pushes s (Nat.le_of_lt small) hw
    obtain rfl : { t' with pc := s.pcPlus 2 } = t := Host.Outcome.next.inj (run'.symm.trans run)
    have sp : u.sp20 = ({ t' with pc := s.pcPlus 2 } : State).sp20 := by rw [State.sp20, hsk, hsp]; rfl
    exact (MacStacked.of_pushedWords hw pushed hp hu sp).restored fits

end Sys2Proof.Machine

/-! ## Bus errors -/

namespace Sys2Proof.Machine

/-! ### Sequences of accesses that a bus error cuts off -/

theorem Bus.bind_of_ok {α β : Type} {x : Bus α} {f : α → State → Bus β} {v : α} {t : State} {r : Bus β} (h : x = .ok v t) (g : f v t = r) : x.bind f = r := by
  rw [h, Bus.bind_ok, g]

theorem Bus.bind_of_berr {α β : Type} {x : Bus α} {f : α → State → Bus β} {t : State} (h : x = .berr t) : x.bind f = .berr t := by
  rw [h, Bus.bind_berr]

theorem commit_of_berr {x : Bus Unit} {t : State} (h : x = .berr t) : commit x = busError t := by
  rw [h]
  rfl

/-! ### In an exception entry and in reset -/

/-- A bus error while the frame is stacked halts the machine (R624). -/
theorem enterException_of_frame_berr {own : Bool} {s t : State} {n : Byte} {resume : Addr} {level : Option (BitVec 3)}
    (h : pushFrame own s (resume + 6#20) = .berr t) : enterException own s n resume level = .next t.halt := by
  rw [enterException, exceptionSequence, Bus.bind_of_berr h]

/-- A bus error on the vector halts the machine (R624). -/
theorem enterException_of_vector_berr {own : Bool} {s t u : State} {n : Byte} {resume : Addr} (h : pushFrame own s (resume + 6#20) = .ok () t)
    (hv : read16 t .data (vectorAddr n) = .berr u) : enterException own s n resume none = .next u.halt := by
  rw [enterException, exceptionSequence, Bus.bind_of_ok h (Bus.bind_of_berr hv)]

theorem pushFrame_lost (s : State) (ret : Addr) (h : s.lostWrite16 s.sp20 = true) : pushFrame true s ret = .berr s :=
  Bus.bind_of_berr (push16_lost s _ h)

/-- The frame as a run of two pushes. -/
theorem framed_pushedWords (s : State) (ret : Addr) : pushedWords s (s.framed ret) [ret.extractLsb' 0 16, s.ccr.word (ret.extractLsb' 16 4)] := by
  obtain ⟨stored, regs⟩ := framed_spec s ret
  have second : s.pushAddr 1 = s.sp20 - 2#20 := rfl
  refine ⟨regs, ?_⟩
  simpa [State.frameOf, pushAddr_zero, second] using stored

/-- The bus error entry where memory answers (R604, R605, R620). -/
theorem busError_entered {s : State} (hp : s.canPushFrame = true) (hv : s.canRead16 .data (BitVec.ofNat 20 (2 * s.plat.vecBerr.toNat)) = true) :
    ∃ t, busError s = .next t ∧ Entered s t s.plat.vecBerr s.pc s.ccr.ip [] := by
  rw [← vectorAddr_eq] at hv
  exact enterException_ready true s s.plat.vecBerr s.pc none hp hv

/-- Nothing answers the first push of the entry. -/
theorem entry_halts_at_once {s : State} (h : s.lostWrite16 s.sp20 = true) :
    busError s = .next { s with run := .halted, inhibit := false } ∧ exec .swi s = .next { s with run := .halted, inhibit := false } :=
  ⟨enterException_of_frame_berr (pushFrame_lost s (s.pc + 6#20) h), enterException_of_frame_berr (pushFrame_lost s (s.pc + 2#20 + 6#20) h)⟩

/-- Nothing answers the second push of the entry. -/
theorem entry_halts_half_way {s : State} (h1 : s.canWrite16 s.sp20 = true) (h2 : s.lostWrite16 (s.sp20 - 2#20) = true) :
    ∃ t, busError s = .next { t with run := .halted, inhibit := false } ∧ pushedWords s t [(s.pcPlus 6).extractLsb' 0 16] := by
  rw [← pcPlus_eq]
  exact ⟨_, enterException_of_frame_berr (pushFrame_half s (s.pc + 6#20) h1 h2), pushedWords_one s _⟩

/-- Nothing answers the read of the vector. -/
theorem entry_halts_at_vector {s : State} (hp : s.canPushFrame = true) (hv : s.lostRead .data (BitVec.ofNat 20 (2 * s.plat.vecBerr.toNat)) = true) :
    ∃ t, busError s = .next { t with run := .halted, inhibit := false } ∧
      pushedWords s t [(s.pcPlus 6).extractLsb' 0 16, s.ccr.word ((s.pcPlus 6).extractLsb' 16 4)] := by
  rw [← vectorAddr_eq] at hv
  rw [← pcPlus_eq]
  obtain ⟨-, regs⟩ := framed_spec s (s.pc + 6#20)
  have plat : (s.framed (s.pc + 6#20)).plat = s.plat := by rw [regs]
  have hv' : (s.framed (s.pc + 6#20)).lostRead .data (vectorAddr s.plat.vecBerr) = true := by rwa [State.lostRead, kindAt_of_plat plat]
  have halts : busError s = .next (s.framed (s.pc + 6#20)).halt := enterException_of_vector_berr (pushFrame_ready true s _ hp) (read16_lost _ _ _ hv')
  exact ⟨s.framed (s.pc + 6#20), halts, framed_pushedWords s (s.pc + 6#20)⟩

/-- Nothing answers the read of the first RESET word (R624). -/
theorem reset_halts {s : State} (hr : s.input.reset = true) (h : s.lostRead .prog 0#20 = true) :
    step s = .next { s.nextInput with run := .halted, inhibit := false } := by
  have h' : s.nextInput.lostRead .prog 0 = true := by rwa [State.lostRead, State.nextInput_kindAt]
  have lost : resetSequence s.nextInput = .berr s.nextInput := Bus.bind_of_berr (read16_lost s.nextInput .prog 0 h')
  rw [step_reset hr, takeReset, lost]
  rfl

/-! ### On the fetch -/

theorem step_of_fetch_berr {s : State} (ha : s.atInstruction = true) (h : fetch s.begun = .berr s.begun) : step s = busError s.begun := by
  rw [step_atInstruction s ha, h]

/-- Nothing answers the opcode word. -/
theorem step_opcode_lost {s : State} (ha : s.atInstruction = true) (h : s.lostRead .prog s.pc = true) : step s = busError s.begun := by
  have h' : s.begun.lostRead .prog s.begun.pc = true := by rwa [begun_eq]
  exact step_of_fetch_berr ha (Bus.bind_of_berr (read16_lost s.begun _ _ h'))

/-- Nothing answers the first operand word. -/
theorem step_operand_lost {s : State} {i : Instr} (ha : s.atInstruction = true) (hr : s.canRead16 .prog s.pc = true)
    (hd : decodeOp (s.begun.wordAt .prog s.pc) 0 0 = some i) (hl : i.length ≠ 2) (h : s.lostRead .prog (s.pc + 2#20) = true) :
    step s = busError s.begun := by
  have hpc : s.begun.pc = s.pc := by rw [begun_eq]
  have hr' : s.begun.canRead16 .prog s.begun.pc = true := by rwa [begun_eq]
  have h' : s.begun.lostRead .prog (s.begun.pc + 2#20) = true := by rwa [begun_eq]
  rw [← hpc] at hd
  refine step_of_fetch_berr ha (Bus.bind_of_ok (read16_ready s.begun _ _ hr') ?_)
  simp only [hd, if_neg hl]
  exact Bus.bind_of_berr (read16_lost s.begun _ _ h')

/-! ### On the accesses of an instruction -/

/-- Nothing answers the second byte of STD: the first is stored. -/
theorem std_half {s : State} {m : MemE} (h1 : s.canWrite8 (eaM s m) = true) (h2 : s.lostWrite8 (eaM s m + 1#20) = true) :
    ∃ t, exec (.std m) s = busError t ∧ t = { s with mem := t.mem } ∧ wroteBytes s t [(eaM s m, s.a)] := by
  have high : s.d.extractLsb' 8 8 = s.a := joined_high s.a s.b
  have half := write16_half s (eaM s m) s.d h1 h2
  rw [high] at half
  exact ⟨_, std_of_berr half, rfl, wroteBytes_putByte s _ _⟩

/-- Nothing answers the second word of LDED: the first is in E (R205). -/
theorem lded_half {s : State} {hhll : Word} (h1 : s.canRead16 .data (eaExt s hhll) = true) (h2 : s.lostRead .data (eaExt s hhll + 2#20) = true) :
    exec (.lded hhll) s = busError { s with e := s.wordAt .data (eaExt s hhll) } := by
  have h2' : ({ s with e := s.wordAt .data (eaExt s hhll) } : State).lostRead .data (eaExt s hhll + 2#20) = true := h2
  exact commit_of_berr (Bus.bind_of_ok (read16_ready s _ _ h1) (Bus.bind_of_berr (read16_lost _ _ _ h2')))

/-- Nothing answers the second word of STED: the first is stored (R212). -/
theorem sted_half {s : State} {hhll : Word} (h1 : s.canWrite16 (eaExt s hhll) = true) (h2 : s.lostWrite16 (eaExt s hhll + 2#20) = true) :
    ∃ t, exec (.sted hhll) s = busError t ∧ t = { s with mem := t.mem } ∧ wroteWords s t [(eaExt s hhll, s.e)] := by
  have h2' : (s.putWord (eaExt s hhll) s.e).lostWrite16 (eaExt s hhll + 2#20) = true := h2
  exact ⟨s.putWord (eaExt s hhll) s.e, commit_of_berr (Bus.bind_of_ok (write16_ready true s _ _ h1) (Bus.bind_of_berr (write16_lost _ _ _ h2'))), rfl,
    wroteWords_putWord s _ _⟩

/-- A device that answers the read of INC and not its write: the flags are written (R272). -/
theorem inc_write_error {s : State} {m : MemB} {v : Word} {rest : List DevReply} (hk : s.kindAt .data (eaB s m) = .device)
    (hp : s.inPrefetch (eaB s m) = false) (hr : s.replies = .data v :: .busError :: rest) :
    let x : Byte := BitVec.ofNat 8 (v.toNat % 256)
    exec (.inc m) s = busError { s with
      ccr := { (added s.ccr x 1#8 false).2 with c := s.ccr.c }
      replies := rest
      events := s.events ++ [.deviceRead .data (eaB s m) false, .deviceWrite (eaB s m) false ((x + 1#8).setWidth 16)] } := by
  intro x
  obtain ⟨t, ht⟩ : ∃ t, t = (s.cycled (.deviceRead .data (eaB s m) false) (.busError :: rest)).withCCR (incFlags s.ccr x).2 := ⟨_, rfl⟩
  have write : write8 true t (eaB s m) (x + 1#8) = .berr (t.cycled (.deviceWrite (eaB s m) false ((x + 1#8).setWidth 16)) rest) := by
    apply write8_device_error <;> rw [ht]
    · exact hk
    · exact hp
    · rfl
  rw [ht] at write
  have flags : { (added s.ccr x 1#8 false).2 with c := s.ccr.c } = (incFlags s.ccr x).2 := congrArg Prod.snd (incFlags8_eq s.ccr x).symm
  rw [append_pair, flags]
  exact commit_of_berr (Bus.bind_of_ok (read8_device_data hk hr) (Bus.bind_of_berr write))

/-! ### On the stack -/

/-- Nothing answers push `k` of PSHM: the words before it are pushed (R537). -/
theorem pshm_lost {s : State} {ii : Byte} {k : Nat} (h7 : ii.getLsbD 7 = false) (hk : k < (s.selectedWords ii).length)
    (hw : ∀ j, j < k → s.canWrite16 (s.pushAddr j) = true) (hx : s.lostWrite16 (s.pushAddr k) = true) :
    ∃ t, exec (.pshm ii) s = busError t ∧ pushedWords s t ((s.selectedWords ii).take k) := by
  have few := selectedWords_length s ii
  obtain ⟨t, run, pushed⟩ := pushAll_lost s (s.selectedWords ii) k hk (by omega) hw hx
  exact ⟨t, (execPshm_eq s ii h7).trans (commit_of_berr (Bus.bind_of_berr run)), pushed⟩

/-- Nothing answers push `k` of PSHMAC: the words before it are pushed (R568). -/
theorem pshmac_lost {s : State} {k : Nat} (hk : k < s.plat.macFrame.words) (hl : k < 2 ^ 19) (hw : ∀ j, j < k → s.canWrite16 (s.pushAddr j) = true)
    (hx : s.lostWrite16 (s.pushAddr k) = true) : ∃ t, exec .pshmac s = busError t ∧ pushedWords s t ((macFrame s).take k) := by
  obtain ⟨t, run, pushed⟩ := pushAll_lost s (macFrame s) k (by rwa [macFrame_length]) (Nat.le_of_lt hl) hw hx
  exact ⟨t, commit_of_berr (Bus.bind_of_berr run), pushed⟩

/-- PULM's loads are those below a selected bit, that bit's own, and others after it. -/
theorem pulmLoads_split {ii : Byte} {j : Nat} (hj : j < pulmWrites.length) (hb : ii.getLsbD j = true) :
    ∀ n, j < n → n ≤ pulmWrites.length → ∃ rest, pulmLoads ii n = pulmLoads ii j ++ pulmWrites[j] :: rest := by
  intro n hn
  induction n, hn using Nat.le_induction with
  | base =>
    intro _
    exact ⟨[], by rw [pulmLoads_succ ii j hj, if_pos hb]⟩
  | succ n _ ih =>
    intro hle
    obtain ⟨rest, e⟩ := ih (by omega)
    exact ⟨_, by rw [pulmLoads_succ ii n hle, e, List.append_assoc, List.cons_append]⟩

/-- Nothing answers the pull of PULM's mask bit `j`: the registers before it are loaded, and SK : SP stands at the word not read (R540). -/
theorem pulm_lost {s : State} {ii : Byte} {j : Nat} (h7 : ii.getLsbD 7 = false) (hj : j < 7) (hb : ii.getLsbD j = true)
    (hr : ∀ i, i < j → ii.getLsbD i = true → s.canRead16 .data (s.pullAddr (selectedBelow ii i)) = true)
    (hx : s.lostRead .data (s.pullAddr (selectedBelow ii j)) = true) :
    exec (.pulm ii) s = busError ((s.pulledBelow ii j).withSP20 (s.pullAddr (selectedBelow ii j))) := by
  obtain ⟨rest, split⟩ := pulmLoads_split hj hb 7 hj (Nat.le_refl _)
  have next : (s.pulledBelow ii j).sp20 + 2#20 = s.pullAddr (selectedBelow ii j) := by rw [pulledBelow_sp20, pullAddr_eq]
  have hx' : (s.pulledBelow ii j).lostRead .data ((s.pulledBelow ii j).sp20 + 2#20) = true := by
    rw [next]
    exact hx
  have run : pullEach s (pulmLoads ii 7) = .berr ((s.pulledBelow ii j).withSP20 (s.pullAddr (selectedBelow ii j))) := by
    rw [split, pullEach_append, ← next]
    exact Bus.bind_of_ok (pulmLoads_ready s ii j (Nat.le_of_lt hj) hr) (Bus.bind_of_berr (pull16_lost _ hx'))
  exact (execPulm_eq s ii h7).trans (commit_of_berr (Bus.bind_of_berr run))

/-- Nothing answers the second word of a call's frame: the first is pushed (R446). -/
theorem jsr_half {s : State} {j : JumpTarget} (hj : j.wellFormed = true) (h1 : s.canWrite16 s.sp20 = true)
    (h2 : s.lostWrite16 (s.sp20 - 2#20) = true) : ∃ t, exec (.jsr j) s = busError t ∧ pushedWords s t [(s.pcPlus 6).extractLsb' 0 16] := by
  have called : exec (.jsr j) s = call s (s.pc + 6#20) (eaJump s j) := if_pos hj
  rw [← pcPlus_eq]
  exact ⟨_, called.trans (commit_of_berr (Bus.bind_of_berr (pushFrame_half s (s.pc + 6#20) h1 h2))), pushedWords_one s _⟩

/-- Nothing answers the second word of a frame that is pulled: SK : SP stands at it (R442, R443). -/
theorem pullFrame_half {s : State} (h1 : s.canRead16 .data (s.sp20 + 2#20) = true) (h2 : s.lostRead .data (s.sp20 + 4#20) = true) :
    pullFrame s = .berr (s.withSP20 (s.sp20 + 4#20)) := by
  have next : (s.withSP20 (s.sp20 + 2#20)).sp20 + 2#20 = s.sp20 + 4#20 := by
    rw [State.withSP20_sp20, BitVec.add_assoc]
    rfl
  have h2' : (s.withSP20 (s.sp20 + 2#20)).lostRead .data ((s.withSP20 (s.sp20 + 2#20)).sp20 + 2#20) = true := by
    rw [next]
    exact h2
  have second := pull16_lost _ h2'
  rw [next] at second
  exact Bus.bind_of_ok (pull16_ready s h1) (Bus.bind_of_berr second)

/-! ### In the MAC unit -/

/-- Nothing answers the read for IR: HR is loaded. -/
theorem loadHR_loadIR_half {t : State} (hx : t.canRead16 .data t.x20 = true) (hy : t.lostRead .data t.y20 = true) (f : State → State) :
    ((loadHR t).bind fun _ u => (loadIR u).bind fun _ v => .ok () (f v)) = .berr { t with hr := t.wordAt .data t.x20 } := by
  have hy' : ({ t with hr := t.wordAt .data t.x20 } : State).lostRead .data ({ t with hr := t.wordAt .data t.x20 } : State).y20 = true := hy
  exact Bus.bind_of_ok (loadHR_ready t hx) (Bus.bind_of_berr (Bus.bind_of_berr (read16_lost _ _ _ hy')))

/-- Nothing answers the read for HR. -/
theorem loadHR_loadIR_lost {t : State} (hx : t.lostRead .data t.x20 = true) (f : State → State) :
    ((loadHR t).bind fun _ u => (loadIR u).bind fun _ v => .ok () (f v)) = .berr t :=
  Bus.bind_of_berr (Bus.bind_of_berr (read16_lost t _ _ hx))

/-- A bus error on the loads of MAC, or of the first pass of RMAC, leaves what was summed before them. -/
theorem mac_of_berr {s t : State} {xo yo : Nib}
    (h : ((loadHR (s.macSummed xo yo)).bind fun _ u => (loadIR u).bind fun _ v => .ok () (v.advance 2)) = .berr t) :
    exec (.mac xo yo) s = busError t := commit_of_berr h

theorem rmac_of_berr {s t : State} {xo yo : Nib}
    (h : ((loadHR (s.rmacSummed false xo yo)).bind fun _ u => (loadIR u).bind fun _ v => .ok () { v with e := v.e - 1#16 }) = .berr t) :
    exec (.rmac xo yo) s = busError t := by
  have loop : rmacLoop (65535 + 1) s false xo yo = .berr t := Bus.bind_of_berr h
  exact commit_of_berr loop

/-- Nothing answers the read for HR after the sum. -/
theorem mac_rmac_lost {s : State} {xo yo : Nib} (hx : s.lostRead .data (s.xk ++ qualify s.plat s.ix xo s.xmsk) = true) :
    exec (.mac xo yo) s = busError (s.macSummed xo yo) ∧ exec (.rmac xo yo) s = busError (s.rmacSummed false xo yo) :=
  ⟨mac_of_berr (loadHR_loadIR_lost hx _), rmac_of_berr (loadHR_loadIR_lost hx _)⟩

/-- Nothing answers the read for IR after the sum. -/
theorem mac_rmac_half {s : State} {xo yo : Nib} (hx : s.canRead16 .data (s.xk ++ qualify s.plat s.ix xo s.xmsk) = true)
    (hy : s.lostRead .data (s.yk ++ qualify s.plat s.iy yo s.ymsk) = true) :
    let hr := s.wordAt .data (s.xk ++ qualify s.plat s.ix xo s.xmsk)
    exec (.mac xo yo) s = busError { s.macSummed xo yo with hr := hr } ∧ exec (.rmac xo yo) s = busError { s.rmacSummed false xo yo with hr := hr } :=
  ⟨mac_of_berr (loadHR_loadIR_half (t := s.macSummed xo yo) hx hy (·.advance 2)),
    rmac_of_berr (loadHR_loadIR_half (t := s.rmacSummed false xo yo) hx hy fun v => { v with e := v.e - 1#16 })⟩

/-- Settles O22: a lemma above for each place a bus error can cut the machine off at. -/
theorem busErrorAndDoubleFault : Obligations.BusErrorAndDoubleFault := by
  unfold Obligations.BusErrorAndDoubleFault
  intro s
  refine ⟨busError_entered, entry_halts_at_once, entry_halts_half_way, entry_halts_at_vector, reset_halts, ?halted, step_opcode_lost, ?operand, ?loads, ?staa,
    ?std, fun _ => std_half, fun _ => lded_half, fun _ => sted_half, ?moveRead, ?movbWrite, ?movwWrite, fun _ _ _ => inc_write_error, fun _ _ => pshm_lost,
    fun _ _ => pulm_lost, fun _ => pshmac_lost, fun _ => jsr_half, ?returns, ?psha, ?pula, ?ldhi, ?mac⟩
  case halted => exact fun hr h0 => step_over (boundary_idle h0 (.inl hr))
  case operand => exact fun _ => step_operand_lost
  case loads =>
    intro m h
    have byte := read8_lost s _ _ h
    exact ⟨ldaa_of_berr byte, ldd_of_berr (read16_lost s _ _ h), commit_of_berr (Bus.bind_of_berr byte)⟩
  case staa => exact fun m h => staa_of_berr (write8_lost s _ _ h)
  case std => exact fun m h => std_of_berr (write16_lost s _ _ h)
  case moveRead =>
    exact fun o h => ⟨commit_of_berr (Bus.bind_of_berr (read8_lost s _ _ h)), commit_of_berr (Bus.bind_of_berr (read16_lost s _ _ h))⟩
  case movbWrite => exact fun o hr hw => commit_of_berr (Bus.bind_of_ok (read8_ready s _ _ hr) (Bus.bind_of_berr (write8_lost s _ _ hw)))
  case movwWrite => exact fun o hr hw => commit_of_berr (Bus.bind_of_ok (read16_ready s _ _ hr) (Bus.bind_of_berr (write16_lost s _ _ hw)))
  case returns =>
    intro h1 h2
    have frame := pullFrame_half h1 h2
    exact ⟨commit_of_berr (Bus.bind_of_berr frame), commit_of_berr (Bus.bind_of_berr frame)⟩
  case psha => exact fun h => commit_of_berr (Bus.bind_of_berr (push8_lost s _ h))
  case pula => exact fun h => commit_of_berr (Bus.bind_of_berr (pull8_lost s h))
  case ldhi => exact fun hx hy => commit_of_berr (loadHR_loadIR_half hx hy (·.advance 2))
  case mac =>
    intro xo yo p t x y summed
    have e : s.rmacSummed false xo yo = summed := rmacSummed_eq s xo yo
    have em : s.macSummed xo yo = { summed.withED p with iz := s.hr } := by rw [macSummed_eq, e]
    refine ⟨fun hx => ?_, fun hx hy => ?_⟩
    · have lost := mac_rmac_lost (yo := yo) hx
      rwa [em, e] at lost
    · have half := mac_rmac_half hx hy
      rwa [em, e] at half

end Sys2Proof.Machine
